-- ==== Sys2Proof/Word.lean ====
section
/-! DEFINITION. The words of the A832 that are bits for their own sake, and the identifiers of its ports, sensors, slots,
rings, lines and vectors ("Conventions" of 00_scope.md). -/

namespace Sys2Proof

/-- Device time: a 64-bit count of 8 ns ticks that wraps (R173). -/
abbrev Time := BitVec 64

/-- One of the eight position ports P0 to P7. -/
abbrev PortId := Fin 8

/-- A slave address on a port. -/
abbrev SlaveAddr := Fin 4

/-- One of the 32 sensor ids. -/
abbrev SensorId := Fin 32

/-- One of the 32 request slots (R118). -/
abbrev SlotId := Fin 32

/-- One of the four capture lines CAP0 to CAP3. -/
abbrev LineId := Fin 4

/-- One of the 16 MSI-X vectors. -/
abbrev VectorId := Fin 16

/-- RQ0 to RQ7. -/
abbrev RqId := Fin 8

/-- CR0 to CR7. -/
abbrev CrId := Fin 8

/-- SR0 to SR3. -/
abbrev SrId := Fin 4

/-- Sensor n lies on port n div 4 ("Sensor id" in 00_scope.md, R56). -/
def portOf (n : SensorId) : PortId := ⟨n.val / 4, by omega⟩

/-- Sensor n is the slave at address n mod 4 ("Sensor id" in 00_scope.md, R56). -/
def addrOf (n : SensorId) : SlaveAddr := ⟨n.val % 4, by omega⟩

/-- The sensor at a port and slave address, the inverse of `portOf` and `addrOf`. -/
def sensorAt (p : PortId) (a : SlaveAddr) : SensorId := ⟨4 * p.val + a.val, by omega⟩

/-- The four sensors of a port in ascending sensor id, which is ascending slave address. -/
def sensorsOf (p : PortId) : List SensorId :=
  [sensorAt p 0, sensorAt p 1, sensorAt p 2, sensorAt p 3]

end Sys2Proof
end

