-- ==== Sys2Proof/Syntax.lean ====
section
/-! DEFINITION. The commands of the A832: one constructor of `Instr` per row of spec/opcode_table.json, with its operands. -/

namespace Sys2Proof

/-- The five link faults that end an attempt (R12). -/
inductive LinkFault
  | crcError
  | noResponse
  | addressMismatch
  | kindMismatch
  | tagMismatch
  deriving DecidableEq, Repr

/-- The payload of a response frame as received, before the reduction of R6 (Table 7). -/
inductive WirePayload
  /-- IDENTIFY: the identity word. -/
  | identity (word : BitVec 32)
  /-- POSITION and REPEAT: the angle field and the sensor turn field. -/
  | position (angle : BitVec 24) (turn : BitVec 16)
  /-- REG_READ: the register value. REG_WRITE: the echo. -/
  | register (value : BitVec 16)
  /-- SLAVE_RESET: none. -/
  | empty
  deriving DecidableEq, Repr

/-- How an attempt ends (Table 9): OK with the status bits and the payload, or by a link fault. -/
inductive AttemptEnd
  | ok (warn alarm : Bool) (payload : WirePayload)
  | fault (f : LinkFault)
  deriving DecidableEq, Repr

/-- The sources of a device reset other than CTRL.RESET (R172). -/
inductive ResetSource
  | powerOn
  | perst
  | hotReset
  | linkLoss
  | functionLevelReset
  deriving DecidableEq, Repr

/-- How the host reads BAR0 at a word (R163): a 32-bit read, a narrower read of `count` bytes from byte `first`, or a 64-bit
read of the word and the next. -/
inductive ReadAccess
  | word
  | bytes (first count : Nat)
  | quad
  deriving DecidableEq, Repr

/-- The width of a host write to BAR0 (R163). -/
inductive WriteWidth
  | narrow
  | word
  | quad
  deriving DecidableEq, Repr

/-- A host write to the MSI-X table or to the configuration space, which sets or clears one of the four blocking
conditions of R167 or a vector's message address and data. -/
inductive MsixWrite
  /-- The mask bit in vector `v`'s MSI-X table entry. -/
  | vectorMask (v : VectorId) (masked : Bool)
  /-- Vector `v`'s message address and message data. -/
  | vectorMessage (v : VectorId) (address : BitVec 64) (data : BitVec 32)
  /-- The function-wide mask. -/
  | functionMask (masked : Bool)
  /-- MSI-X enable. -/
  | msixEnable (enabled : Bool)
  /-- Bus Master Enable in the function's command register. -/
  | busMaster (enabled : Bool)
  deriving DecidableEq, Repr

/-- What the PCIe link returns for a fetch read (R165): the 64 bytes (byte i in bits 8i+7 to 8i), or an unsuccessful
completion or poisoned data. -/
inductive FetchReturn
  | data (entry : BitVec 512)
  | error
  deriving DecidableEq, Repr

/-- A ring with an interrupt state (R166): every completion ring and every sample ring. -/
inductive SignalRing
  | cr (id : CrId)
  | sr (id : SrId)
  deriving DecidableEq, Repr

/-- The commands, one per row of spec/opcode_table.json, in its order.

The host's register accesses carry what the host writes or reads. An admin request (CREATE_RING to ABORT) is taken by
the AX from the slot that holds it; its operands are the fields of the slot's body (Table 40). An I/O transaction
(REG_READ to SLAVE_RESET) acts at each end of an attempt of its exchanges, on the slot that holds it and with what that
attempt ended with (R156 to R159). The link events name their port, the capture events their line. -/
inductive Instr
  /-- ENABLE: a write of 1 to CTRL.ENABLE (R168, R170). -/
  | enable
  /-- HALT: a write of 0 to CTRL.ENABLE (R169, R170). -/
  | halt
  /-- RESET: a write of 1 to CTRL.RESET, with the ENABLE bit of the same write (R172). -/
  | reset (enableBit : Bool)
  /-- DEVICE_RESET (R172). -/
  | deviceReset (source : ResetSource)
  /-- BAD_NOTIFY_CLEAR: a write of 1 to STATUS.BAD_NOTIFY (R164, Table 36). -/
  | badNotifyClear
  /-- RQ_TAIL: a RING_NOTIFY of class 0 (R164). -/
  | rqTail (id : BitVec 3) (index : BitVec 16)
  /-- CR_HEAD: a RING_NOTIFY of class 1 (R164, R117). -/
  | crHead (id : BitVec 3) (index : BitVec 16)
  /-- SR_HEAD: a RING_NOTIFY of class 2 (R164, R110). -/
  | srHead (id : BitVec 3) (index : BitVec 16)
  /-- TIME_LOW_READ (R173). -/
  | timeLowRead (access : ReadAccess)
  /-- REGISTER_WRITE: a host write to BAR0 (R163). -/
  | registerWrite (offset : Nat) (width : WriteWidth) (value : BitVec 64)
  /-- VECTOR_UNBLOCK: a host write to the MSI-X table or the configuration space (R167). -/
  | vectorUnblock (w : MsixWrite)
  /-- FETCH_ISSUE (R119). -/
  | fetchIssue
  /-- FETCH_END (R120, R121). -/
  | fetchEnd (r : FetchReturn)
  /-- FETCH_TIMEOUT (R165). -/
  | fetchTimeout
  /-- CREATE_RING (R139). -/
  | createRing (slot : SlotId)
  /-- DELETE_RING (R140). -/
  | deleteRing (slot : SlotId)
  /-- PORT_CONFIG (R141). -/
  | portConfig (slot : SlotId)
  /-- PORT_START (R142). -/
  | portStart (slot : SlotId)
  /-- PORT_STOP (R143). -/
  | portStop (slot : SlotId)
  /-- SENSOR_BIND (R60, R61). -/
  | sensorBind (slot : SlotId)
  /-- SENSOR_UNBIND (R62). -/
  | sensorUnbind (slot : SlotId)
  /-- SENSOR_START (R63, R64). -/
  | sensorStart (slot : SlotId)
  /-- SENSOR_STOP (R65). -/
  | sensorStop (slot : SlotId)
  /-- CAPTURE_CONFIG (R93). -/
  | captureConfig (slot : SlotId)
  /-- CAPTURE_ARM (R94). -/
  | captureArm (slot : SlotId)
  /-- CAPTURE_DISARM (R95). -/
  | captureDisarm (slot : SlotId)
  /-- QUERY_PORT (R147). -/
  | queryPort (slot : SlotId)
  /-- QUERY_SENSOR (R148). -/
  | querySensor (slot : SlotId)
  /-- QUERY_DEVICE (R149). -/
  | queryDevice (slot : SlotId)
  /-- ABORT (R128). -/
  | abort (slot : SlotId)
  /-- REG_READ (R156). -/
  | regRead (slot : SlotId) (e : AttemptEnd)
  /-- REG_WRITE (R156). -/
  | regWrite (slot : SlotId) (e : AttemptEnd)
  /-- READ_POSITION (R158). -/
  | readPosition (slot : SlotId) (e : AttemptEnd)
  /-- SET_POSITION (R159). -/
  | setPosition (slot : SlotId) (e : AttemptEnd)
  /-- SLAVE_RESET (R157). -/
  | slaveReset (slot : SlotId) (e : AttemptEnd)
  /-- ATTEMPT_BEGIN (R5). -/
  | attemptBegin (port : PortId)
  /-- REQUEST_FRAME_SENT (R5). -/
  | requestFrameSent (port : PortId)
  /-- RESPONSE_FRAME: the bits after the start pattern, the first received first (R3, R12). -/
  | responseFrame (port : PortId) (bits : List Bool)
  /-- RESPONSE_WINDOW_EXPIRY (R11). -/
  | responseWindowExpiry (port : PortId)
  /-- RETRY_GAP_EXPIRY (R26). -/
  | retryGapExpiry (port : PortId)
  /-- RETRAIN_TIMER_EXPIRY (R30). -/
  | retrainTimerExpiry (port : PortId)
  /-- CYCLE_TIMER_EXPIRY (R38). -/
  | cycleTimerExpiry (port : PortId)
  /-- CAPTURE_INPUT_TRANSITION: the line's input is sampled at `level` (R91). -/
  | captureInputTransition (line : LineId) (level : Bool)
  /-- TRANSITION_RECOGNISED (R91). -/
  | transitionRecognised (line : LineId)
  /-- SAMPLE_WRITE_END (R112). -/
  | sampleWriteEnd
  /-- COMPLETION_WRITE_END (R125). -/
  | completionWriteEnd
  /-- NOTICE_WRITE (R153). -/
  | noticeWrite
  /-- COALESCING_TIMER_EXPIRY (R166). -/
  | coalescingTimerExpiry (ring : SignalRing)
  /-- HALT_COMPLETE (R170). -/
  | haltComplete
  /-- START_PATTERN_SEEN (R3). -/
  | startPatternSeen (port : PortId)
  deriving DecidableEq, Repr

end Sys2Proof
end

