-- ==== Sys2Proof/Decode.lean ====
section
/-! DEFINITION. The commands that a word of the opcode table spells. The rows of the A832's table give no bits (its commands
are register accesses, requests and events, not words), so no word spells one. -/

namespace Sys2Proof

/-- The command that the low `nbits` bits of `w` spell: none, for every word (assumption 17). -/
def decodeTableWord (_nbits _w : Nat) : Option Instr := none

end Sys2Proof
end

