-- ==== Sys2Proof/Config.lean ====
section
/-! DEFINITION. What one A832 fixes (its identity register, its clock ratios, the sizes of its tables) and the values the
spec leaves open (opaque constants: nothing can be proved of them but what holds of every value). -/

namespace Sys2Proof.Config

/-- Device code in IDENT bits 31:16 (Table 38). -/
def deviceCode : Nat := 0xA832

/-- Revision in IDENT bits 15:0 (Table 38). -/
def revision : Nat := 0x0001

/-- Ticks of device time in one µs (R173). -/
def ticksPerMicrosecond : Nat := 125

/-- Ticks of device time in one ms (R173: 125 ticks per µs). -/
def ticksPerMillisecond : Nat := 125000

/-- A fetch read with no completion within 10 ms of its issue is in error (R165). -/
def fetchTimeoutTicks : Nat := 10 * ticksPerMillisecond

/-- A request ring occupies at most 8 slots (R118, R119). -/
def slotsPerRing : Nat := 8

/-- RQ1 to RQ7 together occupy at most 28 slots (R118, R119). -/
def slotsOfIoRings : Nat := 28

/-- A sensor's held record queue holds at most 4 records (R108). -/
def heldPerSensor : Nat := 4

/-- The turnaround gap lasts 4 bit times (R4). -/
def turnaroundBits : Nat := 4

/-- FREE VALUE. R98 divides by Tc − Tp and states that Tc lies after Tp; it gives no quotient where the two sample times
are equal, which no run of the part reaches. There the quotient of the delta and the elapsed time is this constant,
of which nothing is known (assumption 14). -/
opaque freeInterpolationQuotient : Int → Int → Int

/-- FREE VALUE. Table 16 gives the consecutive rejects the range 0 to 15 and R81 raises them by one at each rejection. A
BOUND sensor can hold 15 already (R65 keeps the value that faulted it) when a SET_POSITION reading is rejected, and the
spec states no result of that rise. There the new value is this constant of the sensor id and the sample time, of which
nothing is known but that it lies in the range (assumption 24). -/
opaque freeRejects : Nat → Nat → BitVec 4

end Sys2Proof.Config
end

