-- ==== Sys2Proof/Machine/State.lean ====
section
/-! DEFINITION. The state of the A832, block by block (Table 1 of 00_scope.md), as plain data, and its value after reset.
Fields marked MODEL are the model's own: what the spec only implies, or what makes the part's output visible. -/

namespace Sys2Proof.Machine

/-! ### Link Engine (Tables 6, 10 and 11) -/

/-- The six link states (R16). -/
inductive LinkState
  | disabled
  | training
  | running
  | retryWait
  | down
  | stopping
  deriving DecidableEq, Repr

/-- The four bit rates (R2). -/
inductive BitRate
  | mbit1
  | mbit2_5
  | mbit5
  | mbit10
  deriving DecidableEq, Repr

/-- The seven parameters of a port (Table 11). -/
structure PortParameters where
  bitRate : BitRate
  /-- µs -/
  cyclePeriod : Nat
  /-- µs -/
  responseWindow : Nat
  retryLimit : Nat
  /-- µs -/
  retryGap : Nat
  failLimit : Nat
  /-- ms; 0 is off -/
  retrainInterval : Nat
  deriving DecidableEq, Repr

/-- The six request kinds of a frame (Table 6). -/
inductive FrameKind
  | identify
  | position
  | repeat
  | regRead
  | regWrite
  | slaveReset
  deriving DecidableEq, Repr

/-- The phase of the attempt record (R1). -/
inductive AttemptPhase
  | sending
  | listening
  | receiving
  | between
  deriving DecidableEq, Repr

/-- The attempt record: the exchange in progress (R1). -/
structure Attempt where
  address : SlaveAddr
  kind : FrameKind
  /-- Present for REG_READ and REG_WRITE. -/
  register : Option (BitVec 8)
  /-- Present for REG_WRITE. -/
  data : Option (BitVec 16)
  /-- Oldest first; the last is the current tag. -/
  tags : List (BitVec 3)
  requestTime : Time
  phase : AttemptPhase
  /-- The response window of R10: running with the device time of its expiry from the end of the request frame. -/
  windowEnd : Option Time
  /-- MODEL: in LISTENING, the device time from which the line has been watched for a start pattern (R3). -/
  listeningSince : Option Time
  /-- MODEL: the device time at which the start pattern of the frame being received was seen (R3 counts bits from it). -/
  frameStart : Option Time
  /-- MODEL: the link fault of the last attempt that ended, which R31 and R32 report if no further attempt is made. -/
  lastFault : Option LinkFault
  deriving DecidableEq, Repr

/-- Why an identity entry is ABSENT; NONE for a PRESENT one (R16). -/
inductive AbsenceCause
  | none
  | notTrained
  | badIdentity
  | linkFault (f : LinkFault)
  deriving DecidableEq, Repr

/-- An entry of the identity table (R16). -/
structure IdentityEntry where
  present : Bool
  word : BitVec 32
  cause : AbsenceCause
  deriving DecidableEq, Repr

/-- Who began a training (R16). -/
inductive TrainingOrigin
  | start
  | retrain
  deriving DecidableEq, Repr

/-- Training origin, training address and provisional entries: the fields of Table 10 present only in TRAINING. -/
structure Training where
  origin : TrainingOrigin
  address : SlaveAddr
  /-- The entries gathered so far, address 0 first. -/
  provisional : List IdentityEntry
  deriving DecidableEq, Repr

/-- Table 10, with the driver-enable output of R2. -/
structure LinkEngine where
  state : LinkState
  parameters : PortParameters
  tagCounter : BitVec 3
  attempt : Option Attempt
  failures : Nat
  identity : Vector IdentityEntry 4
  training : Option Training
  /-- Running with the device time of its expiry. -/
  retryGapTimer : Option Time
  /-- Running with the device time of its expiry. -/
  retrainTimer : Option Time
  /-- The driver-enable output pin (R2). -/
  driverEnable : Bool
  /-- The request frame being sent on the line, start pattern first (R5); empty while none is. -/
  lineOut : List Bool
  /-- MODEL: the end of the port's last attempt since reset or halt, from which R4 measures the turnaround gap. -/
  lastEnd : Option Time
  deriving DecidableEq, Repr

/-! ### Exchange outcomes and readings (R13, R42) -/

/-- The payload an outcome hands up, reduced as R6 states. -/
inductive Payload
  | identity (word : BitVec 32)
  | reading (angle turn : Nat)
  | register (value : BitVec 16)
  | empty
  deriving DecidableEq, Repr

/-- The result of an exchange with its status bits and payload, or the link fault of its last attempt (R13). -/
inductive ExchangeResult
  | ok (warn alarm : Bool) (payload : Payload)
  | failed (f : LinkFault)
  deriving DecidableEq, Repr

/-- The exchange outcome of R13. -/
structure ExchangeOutcome where
  result : ExchangeResult
  attempts : Nat
  address : SlaveAddr
  kind : FrameKind
  requestTime : Time
  deriving DecidableEq, Repr

/-! ### Port Scheduler (Table 13) -/

inductive RoundState
  | none
  | due
  | inProgress
  deriving DecidableEq, Repr

inductive RoundStep
  | position
  | repeat
  deriving DecidableEq, Repr

inductive ExchangeOwner
  | round
  | transaction
  deriving DecidableEq, Repr

/-- What a transaction has gathered since its activation (R154, R156, R159). -/
structure TransactionProgress where
  /-- The number of exchanges fixed at activation (R154). -/
  planned : Nat
  /-- Register values or echoes so far, in register order (R156). -/
  values : List (BitVec 16)
  /-- A WARN was seen (R156). -/
  warning : Bool
  /-- The POSITION outcome of a SET_POSITION that awaits its REPEAT (R159). -/
  position : Option ExchangeOutcome
  deriving DecidableEq, Repr

/-- Table 13, with the progress of the active transaction. -/
structure Scheduler where
  /-- Running with the device time of its next expiry. -/
  cycleTimer : Option Time
  /-- µs -/
  periodInForce : Nat
  round : RoundState
  /-- The round LATE mark: present while the round is DUE or IN_PROGRESS. -/
  lateMark : Option Bool
  roundList : List SensorId
  roundStep : Option RoundStep
  heldPosition : Option ExchangeOutcome
  /-- Oldest first. -/
  queue : List SlotId
  active : Option SlotId
  exchangesDone : Nat
  hold : Bool
  owner : Option ExchangeOwner
  progress : TransactionProgress
  deriving DecidableEq, Repr

/-! ### Sensor Processor (Table 16) and its records (Tables 23 and 24) -/

inductive SensorState
  | unbound
  | bound
  | acquiring
  | waiting
  | faulted
  deriving DecidableEq, Repr

inductive TurnMode
  | none
  | sensor
  | extend
  deriving DecidableEq, Repr

inductive Confirm
  | off
  | repeat
  deriving DecidableEq, Repr

inductive Validity
  | notValid
  | valid
  | stale
  deriving DecidableEq, Repr

inductive FaultCause
  | none
  | rejectLimit
  | turnRange
  | positionRange
  | identityChanged
  deriving DecidableEq, Repr

/-- The last accepted value (Table 16). -/
structure LastAccepted where
  extRaw : Int
  angle : Nat
  turn : Nat
  sampleTime : Time
  validity : Validity
  deriving DecidableEq, Repr

/-- A pending capture; its line is its place in the context (Table 16). -/
structure PendingCapture where
  edgeTime : Time
  overrun : Bool
  /-- A signed 48-bit reference position. -/
  reference : Option Int
  deriving DecidableEq, Repr

inductive RecordKind
  | sample
  | capture
  | mark
  deriving DecidableEq, Repr

inductive MarkReason
  | start
  | stop
  | fault
  | suspend
  deriving DecidableEq, Repr

/-- The record flags set at creation or while held (Table 24); CONGESTED is filled at the write. -/
structure RecordFlags where
  late : Bool
  warning : Bool
  resync : Bool
  mtWrap : Bool
  noInterp : Bool
  referenced : Bool
  captureOverrun : Bool
  captureDropped : Bool
  heldOverflow : Bool
  deriving DecidableEq, Repr

/-- The creation-time fields of a sample record (Table 23). -/
structure SampleRecord where
  kind : RecordKind
  sensor : SensorId
  time : Time
  position : Int
  angle : Nat
  turn : Int
  /-- The capture line of a CAPTURE. -/
  line : Option LineId
  /-- The reason of a MARK. -/
  reason : Option MarkReason
  cause : FaultCause
  flags : RecordFlags
  deriving DecidableEq, Repr

/-- A sensor context (Table 16). -/
structure Sensor where
  state : SensorState
  identity : BitVec 32
  ring : SrId
  turnMode : TurnMode
  confirm : Confirm
  jumpLimit : Nat
  rejectLimit : Nat
  /-- The Q16.16 scale as an integer: 65536 means 1.0. -/
  scale : Nat
  offset : Int
  decimation : Nat
  /-- Bit l is set when line l is in the mask. -/
  captureMask : BitVec 4
  last : LastAccepted
  extendedTurn : Int
  rejects : Nat
  decimationCounter : Nat
  sequence : BitVec 16
  missed : Nat
  rejected : Nat
  withheld : Nat
  captures : Vector (Option PendingCapture) 4
  /-- Oldest first. -/
  held : List SampleRecord
  cause : FaultCause
  deriving DecidableEq, Repr

/-! ### Capture Unit (Table 21) -/

inductive EdgeSelect
  | rising
  | falling
  | both
  deriving DecidableEq, Repr

inductive ArmState
  | disarmed
  | once
  | continuous
  deriving DecidableEq, Repr

/-- A candidate level with the device time of its initial transition (R91). -/
structure Qualification where
  level : Bool
  since : Time
  /-- MODEL: the device time of the last CAPTURE_CONFIG taken during this qualification; its transition is recognised at a
  later tick than that (R93). -/
  configured : Option Time
  deriving DecidableEq, Repr

/-- A reference sensor and a signed 48-bit reference position (R94). -/
structure CaptureReference where
  sensor : SensorId
  position : Int
  deriving DecidableEq, Repr

/-- Table 21, with the level of the input pin as last sampled. -/
structure CaptureLine where
  /-- The input pin CAPn. -/
  input : Bool
  edgeSelect : EdgeSelect
  /-- Ticks. -/
  filter : Nat
  recognised : Bool
  qualification : Option Qualification
  arm : ArmState
  armTime : Option Time
  reference : Option CaptureReference
  deriving DecidableEq, Repr

/-! ### Ring Manager (Tables 22, 27, 28 and 29) -/

/-- The unsignalled count and the coalescing timer of a ring (R166). -/
structure Interrupt where
  count : Nat
  /-- Running with the device time of its expiry. -/
  timer : Option Time
  deriving DecidableEq, Repr

inductive SampleRingState
  | absent
  | active
  | congested
  | faulted
  deriving DecidableEq, Repr

/-- Table 22 and the ring's interrupt state. -/
structure SampleRing where
  state : SampleRingState
  base : Nat
  size : Nat
  vector : VectorId
  coalescingCount : Nat
  /-- µs -/
  coalescingTime : Nat
  lowWater : Nat
  resume : Nat
  producer : Nat
  consumer : Nat
  phase : Bool
  failedEntry : Option Nat
  interrupt : Interrupt
  deriving DecidableEq, Repr

inductive RequestRingState
  | absent
  | active
  | draining
  | faulted
  deriving DecidableEq, Repr

/-- The chain state of a request ring: NONE, OPEN with a slot, BROKEN (R122). -/
inductive ChainState
  | noChain
  | openAt (slot : SlotId)
  | broken
  deriving DecidableEq, Repr

/-- Table 27. -/
structure RequestRing where
  state : RequestRingState
  base : Nat
  size : Nat
  /-- None while the ring is ABSENT. -/
  boundCr : Option CrId
  tail : Nat
  fetchHead : Nat
  slotsHeld : Nat
  chain : ChainState
  failedEntry : Option Nat
  deriving DecidableEq, Repr

inductive CompletionRingState
  | absent
  | active
  | faulted
  deriving DecidableEq, Repr

/-- Table 28 and the ring's interrupt state. -/
structure CompletionRing where
  state : CompletionRingState
  base : Nat
  size : Nat
  vector : VectorId
  coalescingCount : Nat
  /-- µs -/
  coalescingTime : Nat
  producer : Nat
  consumer : Nat
  phase : Bool
  reserved : Nat
  failedEntry : Option Nat
  interrupt : Interrupt
  deriving DecidableEq, Repr

/-- The seventeen statuses of Table 44. -/
inductive Status
  | success
  | invalidKind
  | invalidField
  | wrongState
  | busy
  | inUse
  | notFound
  | noSlave
  | portDown
  | portStopped
  | linkFailed
  | slaveRefused
  | rejected
  | range
  | aborted
  | skipped
  | tooLate
  deriving DecidableEq, Repr

/-- The body of CREATE_RING as read (Table 40): `selector` is byte 28, the bound CR id of an RQ and the vector of a CR or
SR. -/
structure CreateRingBody where
  ringClass : Nat
  ringId : Nat
  base : Nat
  size : Nat
  selector : Nat
  coalescingCount : Nat
  coalescingTime : Nat
  lowWater : Nat
  resume : Nat
  deriving DecidableEq, Repr

/-- The body of PORT_CONFIG as read (Table 40). -/
structure PortConfigBody where
  port : Nat
  bitRate : Nat
  cyclePeriod : Nat
  responseWindow : Nat
  retryLimit : Nat
  retryGap : Nat
  failLimit : Nat
  retrainInterval : Nat
  deriving DecidableEq, Repr

/-- The body of SENSOR_BIND as read (Table 40). -/
structure BindBody where
  sensor : Nat
  ring : Nat
  turnMode : Nat
  confirm : Nat
  rejectLimit : Nat
  captureMask : Nat
  decimation : Nat
  jumpLimit : Nat
  scale : Nat
  /-- Read as a signed 64-bit value (R175). -/
  offset : Int
  deriving DecidableEq, Repr

/-- The body of CAPTURE_ARM as read (Table 40). -/
structure ArmBody where
  line : Nat
  mode : Nat
  referencePresent : Nat
  referenceSensor : Nat
  /-- Read as a signed 64-bit value (R175). -/
  referencePosition : Int
  deriving DecidableEq, Repr

/-- The parameters of a request, by kind (Table 40), as read and not yet checked. -/
inductive Body
  /-- A kind code that Table 41 does not give. -/
  | unknown
  | createRing (b : CreateRingBody)
  | deleteRing (ringClass ringId : Nat)
  | portConfig (b : PortConfigBody)
  | portStart (port : Nat)
  | portStop (port : Nat)
  | sensorBind (b : BindBody)
  | sensorUnbind (sensor : Nat)
  | sensorStart (sensor : Nat)
  | sensorStop (sensor : Nat)
  | captureConfig (line edgeSelect filter : Nat)
  | captureArm (b : ArmBody)
  | captureDisarm (line : Nat)
  | queryPort (port : Nat)
  | querySensor (sensor : Nat)
  | queryDevice
  | abort (ring : Nat) (tag : BitVec 16)
  | regRead (first count : Nat)
  | regWrite (first count : Nat) (values : List (BitVec 16))
  | readPosition
  | setPosition (target : Int)
  | slaveReset
  deriving DecidableEq, Repr

/-- The status, detail and data of a request that has its result (R124). -/
structure Result where
  status : Status
  detail : BitVec 32
  /-- 16 bytes, byte i in bits 8i+7 to 8i. -/
  data : BitVec 128
  deriving DecidableEq, Repr

inductive SlotState
  | free
  | linkWait
  | queued
  | active
  | done
  deriving DecidableEq, Repr

/-- Table 29, with the sensor id of an I/O request's header. -/
structure Slot where
  state : SlotState
  rq : RqId
  cr : CrId
  tag : BitVec 16
  kind : BitVec 8
  notify : Bool
  link : Bool
  holdPoll : Bool
  sensor : SensorId
  body : Body
  predecessor : Option SlotId
  abortPending : Bool
  abortRequester : Option SlotId
  result : Option Result
  deriving DecidableEq, Repr

/-- Where a DMA read that the HP has taken stands (R165). -/
inductive ReadState
  /-- Record writes that the HP took before it have not ended. -/
  | waiting
  /-- On the PCIe link since the device time of its issue. -/
  | issued (time : Time)
  /-- In error at the moment it was due to be issued, and not issued. -/
  | notIssued
  deriving DecidableEq, Repr

/-- A fetch read in flight and what it holds (R119). -/
structure Fetch where
  rq : RqId
  cr : CrId
  slot : SlotId
  entry : Nat
  /-- The host address of the 64-byte entry. -/
  address : Nat
  read : ReadState
  /-- Clear for a read issued before a halt, which is discarded when it ends (R133). -/
  live : Bool
  deriving DecidableEq, Repr

/-- What can raise a notice; it fixes the notice's kind (R150). -/
inductive NoticeSource
  /-- PORT_STATE -/
  | port (p : PortId)
  /-- SENSOR_FAULT -/
  | sensor (n : SensorId)
  /-- HOST_ACCESS_ERROR -/
  | rq (r : RqId)
  /-- HOST_ACCESS_ERROR -/
  | cr (r : CrId)
  /-- HOST_ACCESS_ERROR -/
  | sr (r : SrId)
  deriving DecidableEq, Repr

/-- A notice of the notice list (R150). -/
structure Notice where
  source : NoticeSource
  detail : BitVec 32
  firstTime : Time
  occurrences : Nat
  deriving DecidableEq, Repr

/-! ### Admin Executor (R135) -/

/-- The object an admin-in-flight entry names: a port or a request ring (R135). -/
inductive AdminObject
  | port (p : PortId)
  | rq (r : RqId)
  deriving DecidableEq, Repr

/-- The kinds that can stay in flight (R137). -/
inductive InFlightKind
  | portStart
  | portStop
  | deleteRing
  deriving DecidableEq, Repr

/-- An entry of the admin-in-flight set (R135). -/
structure AdminEntry where
  slot : SlotId
  kind : InFlightKind
  object : AdminObject
  deriving DecidableEq, Repr

/-! ### Host Port (Tables 36 to 38, R165 to R167) -/

/-- The states of control (Table 37); READY and HALTED of STATUS are read from it. -/
inductive Control
  | off
  | ready
  | halting
  deriving DecidableEq, Repr

/-- The register window (Table 36). -/
structure Window where
  control : Control
  /-- CTRL.ENABLE as it reads. -/
  enable : Bool
  fatal : Bool
  configError : Bool
  badNotify : Bool
  adminRqBase : BitVec 64
  adminCrBase : BitVec 64
  adminSizes : BitVec 32
  timeLatch : BitVec 32
  deriving DecidableEq, Repr

/-- One MSI-X table entry: 16 bytes (R163). -/
structure MsixEntry where
  address : BitVec 64
  data : BitVec 32
  masked : Bool
  deriving DecidableEq, Repr

/-- The MSI-X table, the pending flags and the configuration-space settings that block vectors (R167). -/
structure MsixUnit where
  table : Vector MsixEntry 16
  pending : Vector Bool 16
  functionMask : Bool
  enabled : Bool
  busMaster : Bool
  deriving DecidableEq, Repr

/-- What a record write in flight carries (R165). -/
inductive WriteKind
  | sample (ring : SrId)
  | completion (ring : CrId) (slot : SlotId)
  /-- A notice record on CR0. -/
  | notice
  deriving DecidableEq, Repr

/-- A DMA write of one 32-byte record, issued and not yet ended (R165). -/
structure RecordWrite where
  kind : WriteKind
  entry : Nat
  address : Nat
  /-- Byte i in bits 8i+7 to 8i. -/
  data : BitVec 256
  /-- Clear for a write issued before a halt or before its ring was deleted: its error is disregarded (R113, R114, R132,
  R133). -/
  live : Bool
  deriving DecidableEq, Repr

/-- An MSI-X message: the vector's message address and data as they stood at its sending (R167). -/
structure Message where
  vector : VectorId
  address : BitVec 64
  data : BitVec 32
  deriving DecidableEq, Repr

/-- What stands in the order in which the HP puts its work on the PCIe link (R165): record writes, the messages due behind
them, each of which takes its address and data from the vector's entry at its sending (R167), and a fetch read taken after
them. -/
inductive OutItem
  | record (w : RecordWrite)
  | message (v : VectorId)
  | read
  deriving DecidableEq, Repr

/-- What the HP has handed to the PCIe link for the host. -/
inductive HostWrite
  | record (address : Nat) (data : BitVec 256)
  | message (m : Message)
  deriving DecidableEq, Repr

/-! ### The machine -/

/-- The state of the A832. -/
structure State where
  /-- Time Base: the device time (R173). -/
  time : Time
  /-- Link Engines of P0 to P7 (R16). -/
  links : Vector LinkEngine 8
  /-- Port Schedulers of P0 to P7 (R36). -/
  scheds : Vector Scheduler 8
  /-- Sensor contexts (R56). -/
  sensors : Vector Sensor 32
  /-- Capture line contexts (R90). -/
  lines : Vector CaptureLine 4
  /-- Request ring descriptors (R115). -/
  rqs : Vector RequestRing 8
  /-- Completion ring descriptors (R117). -/
  crs : Vector CompletionRing 8
  /-- Sample ring descriptors (R102). -/
  srs : Vector SampleRing 4
  /-- The slot table (R118). -/
  slots : Vector Slot 32
  /-- The slots that are not FREE in fetch order, oldest first (R118). -/
  slotOrder : List SlotId
  /-- The fetch in flight (R119). -/
  fetch : Option Fetch
  /-- The I/O ring that is first in turn at the next fetch (R119). -/
  nextIoRing : RqId
  /-- The notice list, oldest first (R150). -/
  notices : List Notice
  /-- Admin slots handed to the AX and not yet taken, in order received (R121, R135). -/
  axInbox : List SlotId
  /-- The admin-in-flight set (R135). -/
  axInFlight : List AdminEntry
  /-- The register window (R163). -/
  window : Window
  /-- MSI-X (R167). -/
  msix : MsixUnit
  /-- Record writes issued and not ended, with the messages and the fetch read that wait behind them, oldest first (R165). -/
  outbox : List OutItem
  /-- MODEL: slots whose completion was discarded in the command now carried out and that are not yet freed (R127);
  empty between commands. -/
  discarded : List SlotId
  /-- MODEL: what the HP has handed to the PCIe link, oldest first. -/
  sent : List HostWrite
  /-- MODEL: what the last read of TIME low returned (a 64-bit read fills both words). -/
  readData : BitVec 64
  /-- MODEL: the commands waiting for the part, first in first out. -/
  pending : List Instr
  deriving DecidableEq, Repr

/-! ### Why a step can stop -/

/-- The faults of the model: none. Every command of the A832 has an effect in every state (a command whose event cannot
occur in a state leaves it as it is, assumption 4), so no meaning stops. -/
inductive Fault
  deriving DecidableEq, Repr

/-- Why a command is refused. -/
inductive Refusal
  /-- Raised by an arm of `exec` for a row that has no meaning yet; safe. No arm raises it. -/
  | notModelled (mnemonic : String)
  deriving DecidableEq, Repr

/-! ### Values after reset and halt -/

/-- The defaults of Table 11. -/
def PortParameters.default : PortParameters :=
  { bitRate := .mbit2_5, cyclePeriod := 1000, responseWindow := 20, retryLimit := 2, retryGap := 10, failLimit := 3,
    retrainInterval := 0 }

/-- An identity entry ABSENT with cause NOT_TRAINED (R16). -/
def IdentityEntry.untrained : IdentityEntry := { present := false, word := 0, cause := .notTrained }

/-- The last column of Table 10. -/
def LinkEngine.initial : LinkEngine :=
  { state := .disabled, parameters := .default, tagCounter := 0, attempt := none, failures := 0,
    identity := Vector.replicate 4 .untrained, training := none, retryGapTimer := none, retrainTimer := none,
    driverEnable := false, lineOut := [], lastEnd := none }

/-- No transaction is active. -/
def TransactionProgress.empty : TransactionProgress := { planned := 0, values := [], warning := false, position := none }

/-- The last column of Table 13. -/
def Scheduler.initial : Scheduler :=
  { cycleTimer := none, periodInForce := 1000, round := .none, lateMark := none, roundList := [], roundStep := none,
    heldPosition := none, queue := [], active := none, exchangesDone := 0, hold := false, owner := none,
    progress := .empty }

/-- Zero and NOT_VALID (Table 16). -/
def LastAccepted.initial : LastAccepted := { extRaw := 0, angle := 0, turn := 0, sampleTime := 0, validity := .notValid }

/-- The last column of Table 16. -/
def Sensor.initial : Sensor :=
  { state := .unbound, identity := 0, ring := 0, turnMode := .none, confirm := .off, jumpLimit := 0, rejectLimit := 0,
    scale := 0, offset := 0, decimation := 0, captureMask := 0, last := .initial, extendedTurn := 0, rejects := 0,
    decimationCounter := 0, sequence := 0, missed := 0, rejected := 0, withheld := 0,
    captures := Vector.replicate 4 none, held := [], cause := .none }

/-- The last column of Table 21 for a line whose input holds `level`. -/
def CaptureLine.initial (level : Bool) : CaptureLine :=
  { input := level, edgeSelect := .rising, filter := 0, recognised := level, qualification := none, arm := .disarmed,
    armTime := none, reference := none }

/-- Count 0 with the timer stopped (R166). -/
def Interrupt.clear : Interrupt := { count := 0, timer := none }

/-- The last column of Table 22. -/
def SampleRing.initial : SampleRing :=
  { state := .absent, base := 0, size := 0, vector := 0, coalescingCount := 0, coalescingTime := 0, lowWater := 0,
    resume := 0, producer := 0, consumer := 0, phase := true, failedEntry := none, interrupt := .clear }

/-- The last column of Table 27. -/
def RequestRing.initial : RequestRing :=
  { state := .absent, base := 0, size := 0, boundCr := none, tail := 0, fetchHead := 0, slotsHeld := 0,
    chain := .noChain, failedEntry := none }

/-- The last column of Table 28. -/
def CompletionRing.initial : CompletionRing :=
  { state := .absent, base := 0, size := 0, vector := 0, coalescingCount := 0, coalescingTime := 0, producer := 0,
    consumer := 0, phase := true, reserved := 0, failedEntry := none, interrupt := .clear }

/-- A FREE slot (R118). -/
def Slot.initial : Slot :=
  { state := .free, rq := 0, cr := 0, tag := 0, kind := 0, notify := false, link := false, holdPoll := false,
    sensor := 0, body := .unknown, predecessor := none, abortPending := false, abortRequester := none,
    result := none }

/-- The register window after device reset (R172). -/
def Window.initial : Window :=
  { control := .off, enable := false, fatal := false, configError := false, badNotify := false, adminRqBase := 0,
    adminCrBase := 0, adminSizes := 0, timeLatch := 0 }

/-- PRESUMED from the PCIe specification: an MSI-X table entry resets masked (assumption 6). -/
def MsixEntry.initial : MsixEntry := { address := 0, data := 0, masked := true }

/-- PRESUMED from the PCIe specification: function mask, MSI-X enable and Bus Master Enable reset clear (assumption 6). -/
def MsixUnit.initial : MsixUnit :=
  { table := Vector.replicate 16 .initial, pending := Vector.replicate 16 false, functionMask := false, enabled := false,
    busMaster := false }

/-- The A832 right after device reset (R172): every block at its halt values, every register at its reset value, device
time 0, in OFF. DESIGN CHOICE: the capture inputs are low (assumption 5). -/
def State.reset : State :=
  { time := 0
    links := Vector.replicate 8 .initial
    scheds := Vector.replicate 8 .initial
    sensors := Vector.replicate 32 .initial
    lines := Vector.replicate 4 (.initial false)
    rqs := Vector.replicate 8 .initial
    crs := Vector.replicate 8 .initial
    srs := Vector.replicate 4 .initial
    slots := Vector.replicate 32 .initial
    slotOrder := []
    fetch := none
    nextIoRing := 1
    notices := []
    axInbox := []
    axInFlight := []
    window := .initial
    msix := .initial
    outbox := []
    discarded := []
    sent := []
    readData := 0
    pending := [] }

end Sys2Proof.Machine
end

