-- ==== Sys2Proof/Machine/Operands.lean ====
section
/-! DEFINITION. The operands of the commands as they come in: fields of a request record (Tables 39 to 41, R175), frames of
the Position Link with their CRC-8 (Tables 46 and 47, R3 to R8), the identity word (Table 48), and the time arithmetic of
timers and bit times (R2, R173). -/

namespace Sys2Proof.Machine

/-! ### Time -/

/-- The device time `n` ticks after `t`. -/
def after (t : Time) (n : Nat) : Time := t + BitVec.ofNat 64 n

/-- The count `now` has reached `t` (R173): `now` is `t` or later, a later time being one that lies less than half the
count's range ahead, since the count wraps. -/
def reached (now t : Time) : Bool := (now - t).toNat < 2 ^ 63

/-- A running timer whose expiry the count has reached. -/
def expired (now : Time) (timer : Option Time) : Bool := timer.any (reached now)

/-- Half ticks of 8 ns in one bit time: 1, 0.4, 0.2 and 0.1 µs (00_scope.md "Durations", R2). -/
def BitRate.halfTicks : BitRate → Nat
  | .mbit1 => 250
  | .mbit2_5 => 100
  | .mbit5 => 50
  | .mbit10 => 25

/-- The ticks that `n` bit times last. Every length the part measures is an even number of bits, so this is exact. -/
def bitTicks (r : BitRate) (n : Nat) : Nat := n * r.halfTicks / 2

/-! ### Fields of a request record (R174, R175) -/

/-- The little-endian field of `n` bytes from byte `b` of a 64-byte request record. -/
def entryField (e : BitVec 512) (b n : Nat) : Nat := (e.toNat >>> (8 * b)) % 2 ^ (8 * n)

/-- A field of 8 bytes read as a signed 64-bit value (R175). -/
def entrySigned64 (e : BitVec 512) (b : Nat) : Int := (BitVec.ofNat 64 (entryField e b 8)).toInt

/-- The eight 16-bit values of a REG_WRITE body (Table 40). -/
def entryValues (e : BitVec 512) : List (BitVec 16) :=
  (List.range 8).map fun i => BitVec.ofNat 16 (entryField e (16 + 2 * i) 2)

/-- The kind code, byte 0 of the header (Table 39). -/
def entryKind (e : BitVec 512) : BitVec 8 := BitVec.ofNat 8 (entryField e 0 1)

/-- The tag, bytes 2 and 3 of the header (Table 39). -/
def entryTag (e : BitVec 512) : BitVec 16 := BitVec.ofNat 16 (entryField e 2 2)

/-- Flag bit `i` of byte 1 of the header: 0 NOTIFY, 1 LINK, 2 HOLD_POLL (Table 39). -/
def entryFlag (e : BitVec 512) (i : Nat) : Bool := (entryField e 1 1).testBit i

/-- The sensor id of an I/O request, bits 4:0 of byte 4; bits 7:5 are ignored (Table 39, R175). -/
def entrySensor (e : BitVec 512) : SensorId := ⟨entryField e 4 1 % 32, Nat.mod_lt _ (by decide)⟩

/-- The body of a request, by its kind code (Tables 40 and 41). -/
def entryBody (e : BitVec 512) : Body :=
  let f := entryField e
  match f 0 1 with
  | 0x01 => .createRing
      { ringClass := f 8 1, ringId := f 9 1, base := f 16 8, size := f 24 4, selector := f 28 1,
        coalescingCount := f 29 1, coalescingTime := f 30 2, lowWater := f 32 4, resume := f 36 4 }
  | 0x02 => .deleteRing (f 8 1) (f 9 1)
  | 0x03 => .portConfig
      { port := f 8 1, bitRate := f 12 1, cyclePeriod := f 14 2, responseWindow := f 16 1, retryLimit := f 17 1,
        retryGap := f 18 1, failLimit := f 19 1, retrainInterval := f 20 1 }
  | 0x04 => .portStart (f 8 1)
  | 0x05 => .portStop (f 8 1)
  | 0x06 => .sensorBind
      { sensor := f 8 1, ring := f 9 1, turnMode := f 10 1, confirm := f 11 1, rejectLimit := f 12 1,
        captureMask := f 13 1, decimation := f 14 2, jumpLimit := f 16 4, scale := f 20 4,
        offset := entrySigned64 e 24 }
  | 0x07 => .sensorUnbind (f 8 1)
  | 0x08 => .sensorStart (f 8 1)
  | 0x09 => .sensorStop (f 8 1)
  | 0x0A => .captureConfig (f 8 1) (f 9 1) (f 10 1)
  | 0x0B => .captureArm
      { line := f 8 1, mode := f 9 1, referencePresent := f 10 1, referenceSensor := f 11 1,
        referencePosition := entrySigned64 e 16 }
  | 0x0C => .captureDisarm (f 8 1)
  | 0x0D => .queryPort (f 8 1)
  | 0x0E => .querySensor (f 8 1)
  | 0x0F => .queryDevice
  | 0x10 => .abort (f 8 1) (BitVec.ofNat 16 (f 10 2))
  | 0x20 => .regRead (f 8 1) (f 9 1)
  | 0x21 => .regWrite (f 8 1) (f 9 1) (entryValues e)
  | 0x22 => .readPosition
  | 0x23 => .setPosition (entrySigned64 e 16)
  | 0x24 => .slaveReset
  | _ => .unknown

/-- Kind codes 0x01 to 0x10, the admin class (Table 41). -/
def isAdminKind (k : BitVec 8) : Bool := decide (1 ≤ k.toNat) && decide (k.toNat ≤ 0x10)

/-- Kind codes 0x20 to 0x24, the I/O class (Table 41). -/
def isIoKind (k : BitVec 8) : Bool := decide (0x20 ≤ k.toNat) && decide (k.toNat ≤ 0x24)

/-- An identifier in a range of `n` values (R136 step 1). -/
def toId (n i : Nat) : Option (Fin n) := if h : i < n then some ⟨i, h⟩ else none

/-! ### Code values the host writes (Table 44) -/

def bitRateOfCode : Nat → Option BitRate
  | 0 => some .mbit1
  | 1 => some .mbit2_5
  | 2 => some .mbit5
  | 3 => some .mbit10
  | _ => none

def turnModeOfCode : Nat → Option TurnMode
  | 0 => some .none
  | 1 => some .sensor
  | 2 => some .extend
  | _ => none

def confirmOfCode : Nat → Option Confirm
  | 0 => some .off
  | 1 => some .repeat
  | _ => none

def edgeSelectOfCode : Nat → Option EdgeSelect
  | 0 => some .rising
  | 1 => some .falling
  | 2 => some .both
  | _ => none

def armModeOfCode : Nat → Option ArmState
  | 1 => some .once
  | 2 => some .continuous
  | _ => none

/-- The signed 48-bit range (00_scope.md "Readings and positions"). -/
def inSigned48 (x : Int) : Bool := decide (-140737488355328 ≤ x) && decide (x ≤ 140737488355327)

/-- The signed 24-bit range of an extended turn. -/
def inSigned24 (x : Int) : Bool := decide (-8388608 ≤ x) && decide (x ≤ 8388607)

/-! ### The identity word (Table 48, R14) -/

def wordSt (w : BitVec 32) : Nat := (w.toNat >>> 19) % 32
def wordMt (w : BitVec 32) : Nat := (w.toNat >>> 14) % 32
def wordRepeat (w : BitVec 32) : Bool := w.toNat.testBit 13
def wordRegisters (w : BitVec 32) : Nat := (w.toNat >>> 5) % 256

/-- ST lies in 8 to 24 and MT in 0 to 16 (R14). -/
def wordValid (w : BitVec 32) : Bool := decide (8 ≤ wordSt w) && decide (wordSt w ≤ 24) && decide (wordMt w ≤ 16)

/-- Equal in the five defined fields; the reserved bits 4:0 are disregarded (R14). -/
def sameIdentity (a b : BitVec 32) : Bool := a.toNat >>> 5 == b.toNat >>> 5

/-! ### CRC-8 and frames -/

/-- One bit of the CRC (R8): shift left; where the bit shifted out differs from the input bit, exclusive-OR 0x07. -/
def crcStep (reg : BitVec 8) (bit : Bool) : BitVec 8 :=
  if reg.msb != bit then (reg <<< 1) ^^^ 0x07#8 else reg <<< 1

/-- The CRC-8 of a run of bits, from 0xFF (R8). -/
def crc8 (bits : List Bool) : BitVec 8 := bits.foldl crcStep 0xFF#8

/-- The low `n` bits of `v`, most significant bit first (R174). -/
def bitsOf (n v : Nat) : List Bool := (List.range n).map fun i => v.testBit (n - 1 - i)

/-- The number whose bits, most significant first, are `bits`. -/
def natOf (bits : List Bool) : Nat := bits.foldl (fun v b => 2 * v + b.toNat) 0

/-- The field of `n` bits from bit `i` of a run of bits. -/
def bitField (bits : List Bool) (i n : Nat) : Nat := natOf ((bits.drop i).take n)

/-- Table 6. -/
def FrameKind.code : FrameKind → Nat
  | .identify => 0
  | .position => 1
  | .repeat => 2
  | .regRead => 3
  | .regWrite => 4
  | .slaveReset => 5

/-- Total bits of a request frame, start pattern included (R5). -/
def FrameKind.requestBits : FrameKind → Nat
  | .regRead => 26
  | .regWrite => 42
  | _ => 18

/-- Payload bits of a response (Table 7). -/
def FrameKind.payloadBits : FrameKind → Nat
  | .identify => 32
  | .position | .repeat => 40
  | .regRead | .regWrite => 16
  | .slaveReset => 0

/-- Total bits of a response frame, start pattern included (R6, Table 7). -/
def FrameKind.responseBits (k : FrameKind) : Nat := 20 + k.payloadBits

/-- The bits of a request frame between the start pattern and the CRC (R5, Table 46). -/
def requestBody (address : SlaveAddr) (kind : FrameKind) (tag : BitVec 3) (register : Option (BitVec 8))
    (data : Option (BitVec 16)) : List Bool :=
  bitsOf 2 address.val ++ bitsOf 3 kind.code ++ bitsOf 3 tag.toNat
    ++ (register.map fun r => bitsOf 8 r.toNat).getD [] ++ (data.map fun d => bitsOf 16 d.toNat).getD []

/-- A request frame: start pattern, fields, CRC-8 (R5, R8). -/
def requestFrame (address : SlaveAddr) (kind : FrameKind) (tag : BitVec 3) (register : Option (BitVec 8))
    (data : Option (BitVec 16)) : List Bool :=
  let body := requestBody address kind tag register data
  [true, false] ++ body ++ bitsOf 8 (crc8 body).toNat

/-- The bits after the start pattern that the receiver takes in for a request of this kind: exactly as many as the
response carries, an idle line counting as zeros (R3). -/
def receivedBits (kind : FrameKind) (bits : List Bool) : List Bool :=
  (bits ++ List.replicate (kind.responseBits - 2) false).take (kind.responseBits - 2)

/-- What the checks of R12 make of a frame. -/
inductive FrameClass
  | ended (e : AttemptEnd)
  /-- The late response to an earlier attempt of the exchange: discarded. -/
  | late
  deriving DecidableEq, Repr

/-- The payload of a response to a request of this kind (Table 47; positions counted from the first bit after the start
pattern). -/
def framePayload (kind : FrameKind) (f : List Bool) : WirePayload :=
  match kind with
  | .identify => .identity (BitVec.ofNat 32 (bitField f 10 32))
  | .position | .repeat => .position (BitVec.ofNat 24 (bitField f 10 24)) (BitVec.ofNat 16 (bitField f 34 16))
  | .regRead | .regWrite => .register (BitVec.ofNat 16 (bitField f 10 16))
  | .slaveReset => .empty

/-- The checks of R12 in their order, on the counted bits `f` of a frame: CRC, address, kind, tag. -/
def classify (a : Attempt) (f : List Bool) : FrameClass :=
  let n := a.kind.responseBits - 2
  let body := f.take (n - 8)
  if (crc8 body).toNat ≠ bitField f (n - 8) 8 then .ended (.fault .crcError)
  else if bitField f 0 2 ≠ a.address.val then .ended (.fault .addressMismatch)
  else if bitField f 2 3 ≠ a.kind.code then .ended (.fault .kindMismatch)
  else
    let tag := BitVec.ofNat 3 (bitField f 5 3)
    if a.tags.getLast? = some tag then
      .ended (.ok (bitField f 8 1 == 1) (bitField f 9 1 == 1) (framePayload a.kind f))
    else if a.tags.contains tag then .late
    else .ended (.fault .tagMismatch)

/-- Some tag of the eight has been given to no attempt of the exchange (R9, R12). -/
def Attempt.hasFreeTag (a : Attempt) : Bool := (List.range 8).any fun t => !a.tags.contains (BitVec.ofNat 3 t)

/-- The payload reduced with ST and MT of the slave's identity word (R6). -/
def reducePayload (word : BitVec 32) : WirePayload → Payload
  | .identity w => .identity w
  | .position angle turn => .reading (angle.toNat % 2 ^ wordSt word) (turn.toNat % 2 ^ wordMt word)
  | .register v => .register v
  | .empty => .empty

/-- The payload has the form that the request's kind calls for (Table 7). -/
def payloadFits : FrameKind → WirePayload → Bool
  | .identify, .identity _ => true
  | .position, .position _ _ => true
  | .repeat, .position _ _ => true
  | .regRead, .register _ => true
  | .regWrite, .register _ => true
  | .slaveReset, .empty => true
  | _, _ => false

end Sys2Proof.Machine
end

