-- ==== Sys2Proof/Machine/Flags.lean ====
section
/-! DEFINITION. Every status, flag and code the A832 reports, and the records it writes, as the bits of Tables 38 and 42 to
45 (R174, R176). -/

namespace Sys2Proof.Machine

/-! ### Codes (Table 44) -/

def Status.code : Status → Nat
  | .success => 0
  | .invalidKind => 1
  | .invalidField => 2
  | .wrongState => 3
  | .busy => 4
  | .inUse => 5
  | .notFound => 6
  | .noSlave => 7
  | .portDown => 8
  | .portStopped => 9
  | .linkFailed => 10
  | .slaveRefused => 11
  | .rejected => 12
  | .range => 13
  | .aborted => 14
  | .skipped => 15
  | .tooLate => 16

def LinkState.code : LinkState → Nat
  | .disabled => 0
  | .training => 1
  | .running => 2
  | .retryWait => 3
  | .down => 4
  | .stopping => 5

/-- PORT_STATE cause of a link fault. -/
def portCauseOf : LinkFault → Nat
  | .crcError => 1
  | .noResponse => 2
  | .addressMismatch => 3
  | .kindMismatch => 4
  | .tagMismatch => 5

/-- PORT_STATE cause NO_SLAVE. -/
def noSlaveCause : Nat := 6

def SensorState.code : SensorState → Nat
  | .unbound => 0
  | .bound => 1
  | .acquiring => 2
  | .waiting => 3
  | .faulted => 4

def FaultCause.code : FaultCause → Nat
  | .none => 0
  | .rejectLimit => 1
  | .turnRange => 2
  | .positionRange => 3
  | .identityChanged => 4

def Validity.code : Validity → Nat
  | .notValid => 0
  | .valid => 1
  | .stale => 2

def AbsenceCause.code : AbsenceCause → Nat
  | .none => 0
  | .notTrained => 1
  | .badIdentity => 2
  | .linkFault .crcError => 3
  | .linkFault .noResponse => 4
  | .linkFault .addressMismatch => 5
  | .linkFault .kindMismatch => 6
  | .linkFault .tagMismatch => 7

def RequestRingState.code : RequestRingState → Nat
  | .absent => 0
  | .active => 1
  | .draining => 2
  | .faulted => 3

def CompletionRingState.code : CompletionRingState → Nat
  | .absent => 0
  | .active => 1
  | .faulted => 3

def SampleRingState.code : SampleRingState → Nat
  | .absent => 0
  | .active => 1
  | .congested => 2
  | .faulted => 3

def RecordKind.code : RecordKind → Nat
  | .sample => 1
  | .capture => 2
  | .mark => 3

def MarkReason.code : MarkReason → Nat
  | .start => 1
  | .stop => 2
  | .fault => 3
  | .suspend => 4

/-! ### Placing fields -/

/-- A field of `n` bytes holding `v`, placed at byte `b`, little-endian (R174). -/
def placed (b n v : Nat) : Nat := (v % 2 ^ (8 * n)) <<< (8 * b)

/-- A signed field of `n` bytes in two's complement, placed at byte `b` (R174). -/
def placedInt (b n : Nat) (v : Int) : Nat := placed b n (v % (2 ^ (8 * n) : Int)).toNat

/-- The sum of fields that do not overlap. -/
def assemble (fields : List Nat) : Nat := fields.foldl (· + ·) 0

/-! ### Record flags (Table 45, bytes 28 and 29) -/

/-- No flag set. -/
def RecordFlags.clear : RecordFlags :=
  { late := false, warning := false, resync := false, mtWrap := false, noInterp := false, referenced := false,
    captureOverrun := false, captureDropped := false, heldOverflow := false }

/-- The flags word of Table 45, with CONGESTED as it is at the write. -/
def RecordFlags.word (f : RecordFlags) (congested : Bool) : Nat :=
  f.late.toNat + 2 * f.warning.toNat + 4 * f.resync.toNat + 8 * f.mtWrap.toNat + 16 * f.noInterp.toNat
    + 32 * f.referenced.toNat + 64 * f.captureOverrun.toNat + 128 * f.captureDropped.toNat
    + 256 * f.heldOverflow.toNat + 512 * congested.toNat

/-! ### Records (Tables 42 and 45) -/

/-- What the RM fills in at the write of a sample record (R105). -/
structure WriteFields where
  sequence : BitVec 16
  missed : Nat
  rejected : Nat
  withheld : Nat
  congested : Bool
  phase : Bool
  deriving DecidableEq, Repr

/-- Byte 30 of a sample record: the line of a CAPTURE, the reason of a MARK, zero for a SAMPLE (Table 45, R176). -/
def SampleRecord.byte30 (r : SampleRecord) : Nat :=
  match r.kind with
  | .sample => 0
  | .capture => (r.line.map fun l => l.val).getD 0
  | .mark => (r.reason.map MarkReason.code).getD 0

/-- The 32 bytes of a sample record (Table 45). -/
def encodeSample (r : SampleRecord) (w : WriteFields) : BitVec 256 :=
  BitVec.ofNat 256 (assemble
    [ placed 0 1 r.kind.code, placed 1 1 r.sensor.val, placed 2 2 w.sequence.toNat, placed 4 8 r.time.toNat,
      placedInt 12 6 r.position, placed 18 3 r.angle, placedInt 21 3 r.turn, placed 24 1 w.missed,
      placed 25 1 w.rejected, placed 26 2 w.withheld, placed 28 2 (r.flags.word w.congested), placed 30 1 r.byte30,
      placed 31 1 (w.phase.toNat + 2 * r.cause.code) ])

/-- The 32 bytes of a completion record (Table 42, byte 2 = 0). -/
def encodeCompletion (fetchHead : Nat) (rq : RqId) (tag : BitVec 16) (r : Result) (phase : Bool) : BitVec 256 :=
  BitVec.ofNat 256 (assemble
    [ placed 0 2 fetchHead, placed 2 1 0, placed 3 1 rq.val, placed 4 2 tag.toNat, placed 6 1 r.status.code,
      placed 8 4 r.detail.toNat, placed 12 16 r.data.toNat, placed 31 1 phase.toNat ])

/-- The notice kind its source raises (R150, Table 42). -/
def NoticeSource.kindCode : NoticeSource → Nat
  | .port _ => 1
  | .sensor _ => 2
  | .rq _ | .cr _ | .sr _ => 3

/-- Byte 4 of a notice: the ring class of a HOST_ACCESS_ERROR (Table 42). -/
def NoticeSource.classCode : NoticeSource → Nat
  | .port _ | .sensor _ | .rq _ => 0
  | .cr _ => 1
  | .sr _ => 2

/-- Byte 5 of a notice: the port, sensor or ring id (Table 42). -/
def NoticeSource.id : NoticeSource → Nat
  | .port p => p.val
  | .sensor n => n.val
  | .rq r => r.val
  | .cr r => r.val
  | .sr r => r.val

/-- The 32 bytes of a notice record (Table 42, byte 2 = 1). -/
def encodeNotice (n : Notice) (phase : Bool) : BitVec 256 :=
  BitVec.ofNat 256 (assemble
    [ placed 2 1 1, placed 3 1 n.source.kindCode, placed 4 1 n.source.classCode, placed 5 1 n.source.id,
      placed 8 4 n.detail.toNat, placed 12 8 n.firstTime.toNat, placed 20 2 n.occurrences,
      placed 31 1 phase.toNat ])

/-! ### Notice details (below Table 43) -/

/-- PORT_STATE with state DOWN and a cause. -/
def portDownDetail (cause : Nat) : BitVec 32 := BitVec.ofNat 32 (LinkState.down.code + 16 * cause)

/-- PORT_STATE with state RUNNING and the present mask. -/
def portRunningDetail (mask : Nat) : BitVec 32 := BitVec.ofNat 32 (LinkState.running.code + 256 * mask)

/-- HOST_ACCESS_ERROR: the failed entry in bits 15:0. -/
def failedEntryDetail (entry : Nat) : BitVec 32 := BitVec.ofNat 32 (entry % 65536)

/-! ### Completion details and data (Table 43) -/

/-- A result with detail 0 and zero data (R138). -/
def Result.plain (st : Status) : Result := { status := st, detail := 0, data := 0 }

/-- A result with a detail and zero data. -/
def Result.detailed (st : Status) (detail : Nat) : Result :=
  { status := st, detail := BitVec.ofNat 32 detail, data := 0 }

/-- Bit n for a PRESENT address n. -/
def presentMask (t : Vector IdentityEntry 4) : Nat :=
  (t[0].present).toNat + 2 * (t[1].present).toNat + 4 * (t[2].present).toNat + 8 * (t[3].present).toNat

/-- The absence causes, 3 bits each from bit 20 (Table 43). -/
def absenceDetail (t : Vector IdentityEntry 4) : Nat :=
  (t[0].cause.code + 8 * t[1].cause.code + 64 * t[2].cause.code + 512 * t[3].cause.code) <<< 20

/-- The identity words, addresses 0 to 3 (Table 43). -/
def identityData (t : Vector IdentityEntry 4) : BitVec 128 :=
  BitVec.ofNat 128 (assemble
    [placed 0 4 t[0].word.toNat, placed 4 4 t[1].word.toNat, placed 8 4 t[2].word.toNat, placed 12 4 t[3].word.toNat])

/-- Detail and data of PORT_START, SUCCESS or NO_SLAVE (R142, Table 43). -/
def portStartResult (st : Status) (t : Vector IdentityEntry 4) : Result :=
  { status := st, detail := BitVec.ofNat 32 (presentMask t + absenceDetail t), data := identityData t }

/-- Detail and data of QUERY_PORT (R147, Table 43). -/
def queryPortResult (le : LinkEngine) : Result :=
  { status := .success
    detail := BitVec.ofNat 32 (le.state.code + 256 * le.failures + 65536 * presentMask le.identity
      + absenceDetail le.identity)
    data := identityData le.identity }

/-- Data of QUERY_SENSOR (R148, Table 43). An UNBOUND sensor reports its state with every other field zero. DESIGN CHOICE
(assumption 31): the sequence number is the context's field as it stands, also while the next held record is a MARK START, whose
write first sets the field to 0 (R72); R148 calls it the number that the next written record takes, which is 0 then. -/
def querySensorResult (c : Sensor) : Result :=
  { status := .success, detail := 0
    data := if c.state = .unbound then 0 else
      BitVec.ofNat 128 (assemble
        [ placed 0 1 c.state.code, placed 1 1 c.cause.code, placed 2 1 c.rejects, placed 3 1 c.last.validity.code,
          placed 4 3 c.last.angle, placed 7 2 c.last.turn, placedInt 9 3 c.extendedTurn,
          placed 12 2 c.sequence.toNat, placed 14 1 c.held.length ]) }

/-- Two bits a ring, from bit 0 (Table 43). -/
def packedStates (codes : List Nat) : Nat := codes.foldr (fun c acc => c + 4 * acc) 0

/-- Data of QUERY_DEVICE (R149, Table 43). -/
def queryDeviceResult (now : Time) (slotsInUse : Nat) (codes : List Nat) : Result :=
  { status := .success, detail := 0
    data := BitVec.ofNat 128 (assemble
      [placed 0 8 now.toNat, placed 8 1 slotsInUse, placed 9 5 (packedStates codes)]) }

/-- Data of an ABORT, SUCCESS or TOO_LATE: the tag it named and the slot of its target (R146, Table 43). -/
def abortResult (st : Status) (tag : BitVec 16) (target : SlotId) : Result :=
  { status := st, detail := 0, data := BitVec.ofNat 128 (assemble [placed 0 2 tag.toNat, placed 2 1 target.val]) }

/-- The eight 16-bit values of a register transaction's data; places of registers not done are zero (R156). -/
def registerData (values : List (BitVec 16)) : BitVec 128 :=
  BitVec.ofNat 128 (values.foldr (fun v acc => v.toNat + 65536 * acc) 0)

/-- The WARNING indication, bit 8 of a detail (Table 43). -/
def warningBit (w : Bool) : Nat := 256 * w.toNat

/-- Why a reading was rejected (R81). -/
inductive RejectCause
  | alarm
  | confirmMismatch
  | jump
  deriving DecidableEq, Repr

/-- Detail of SET_POSITION, REJECTED (Table 43). -/
def RejectCause.code : RejectCause → Nat
  | .alarm => 1
  | .confirmMismatch => 2
  | .jump => 3

/-! ### Register window words (Table 38) -/

/-- STATUS: READY and HALTED are those of the state of control (Table 37). -/
def Window.statusWord (w : Window) : BitVec 32 :=
  BitVec.ofNat 32 ((decide (w.control = .ready)).toNat + 2 * (decide (w.control = .off)).toNat + 4 * w.fatal.toNat
    + 8 * w.configError.toNat + 16 * w.badNotify.toNat)

/-- CTRL: ENABLE; RESET reads 0. -/
def Window.ctrlWord (w : Window) : BitVec 32 := BitVec.ofNat 32 w.enable.toNat

/-- IDENT. -/
def identWord : BitVec 32 := BitVec.ofNat 32 (Config.deviceCode * 65536 + Config.revision)

/-- The bits of ADMIN_SIZES that hold the two sizes: 12:0 and 28:16 (Table 38). -/
def adminSizesMask : BitVec 32 := 0x1FFF1FFF#32

/-- RQ0 size, bits 12:0 of ADMIN_SIZES. -/
def Window.rqSize (w : Window) : Nat := w.adminSizes.toNat % 8192

/-- CR0 size, bits 28:16 of ADMIN_SIZES. -/
def Window.crSize (w : Window) : Nat := (w.adminSizes.toNat >>> 16) % 8192

/-- What a 32-bit read of the word at an offset of the window returns (Table 36; R163 for the offsets that hold none). -/
def Window.read (w : Window) (now : Time) (offset : Nat) : BitVec 32 :=
  match offset with
  | 0x00 => identWord
  | 0x04 => w.ctrlWord
  | 0x08 => w.statusWord
  | 0x10 => w.adminRqBase.setWidth 32
  | 0x14 => (w.adminRqBase >>> 32).setWidth 32
  | 0x18 => w.adminCrBase.setWidth 32
  | 0x1C => (w.adminCrBase >>> 32).setWidth 32
  | 0x20 => w.adminSizes
  | 0x28 => now.setWidth 32
  | 0x2C => w.timeLatch
  | _ => 0

end Sys2Proof.Machine
end

