-- ==== Sys2Proof/Machine/Ops.lean ====
section
/-! DEFINITION. The named operations over the parts of State, and the operations of the Host Port and the Ring Manager that
the other blocks call: messages (R166, R167), DMA writes (R165), notices (R152), sample records (R102 to R112), slots and
completions (R117, R118, R124, R127). -/

namespace Sys2Proof.Machine

/-! ### Reading and writing the parts of State -/

def State.link (s : State) (p : PortId) : LinkEngine := s.links[p]
def State.sched (s : State) (p : PortId) : Scheduler := s.scheds[p]
def State.sensor (s : State) (n : SensorId) : Sensor := s.sensors[n]
def State.line (s : State) (l : LineId) : CaptureLine := s.lines[l]
def State.rq (s : State) (r : RqId) : RequestRing := s.rqs[r]
def State.cr (s : State) (r : CrId) : CompletionRing := s.crs[r]
def State.sr (s : State) (r : SrId) : SampleRing := s.srs[r]
def State.slot (s : State) (k : SlotId) : Slot := s.slots[k]

def State.setLink (s : State) (p : PortId) (x : LinkEngine) : State := { s with links := s.links.set p x }
def State.setSched (s : State) (p : PortId) (x : Scheduler) : State := { s with scheds := s.scheds.set p x }
def State.setSensor (s : State) (n : SensorId) (x : Sensor) : State := { s with sensors := s.sensors.set n x }
def State.setLine (s : State) (l : LineId) (x : CaptureLine) : State := { s with lines := s.lines.set l x }
def State.setRq (s : State) (r : RqId) (x : RequestRing) : State := { s with rqs := s.rqs.set r x }
def State.setCr (s : State) (r : CrId) (x : CompletionRing) : State := { s with crs := s.crs.set r x }
def State.setSr (s : State) (r : SrId) (x : SampleRing) : State := { s with srs := s.srs.set r x }
def State.setSlot (s : State) (k : SlotId) (x : Slot) : State := { s with slots := s.slots.set k x }

/-- The table entry of a sensor's slave address on its port (R35). -/
def State.identityOf (s : State) (n : SensorId) : IdentityEntry := (s.link (portOf n)).identity[addrOf n]

/-- All sensor ids in ascending order. -/
def allSensors : List SensorId := List.finRange 32

/-- All slots in ascending order. -/
def allSlots : List SlotId := List.finRange 32

/-- Raise a count that saturates (00_scope.md "Counts and saturation"). -/
def saturating (limit count : Nat) : Nat := min limit (count + 1)

/-! ### Messages (R167) -/

/-- A vector is blocked by its own mask, the function-wide mask, MSI-X enable clear or Bus Master Enable clear (R167). -/
def MsixUnit.blocked (m : MsixUnit) (v : VectorId) : Bool :=
  m.table[v].masked || m.functionMask || !m.enabled || !m.busMaster

/-- Whether a record write is in flight. -/
def hasRecord (outbox : List OutItem) : Bool :=
  outbox.any fun i => match i with | .record _ => true | .message _ => false | .read => false

/-- The message of a vector, with its address and data as they stand (R167). -/
def MsixUnit.messageOf (m : MsixUnit) (v : VectorId) : Message :=
  { vector := v, address := m.table[v].address, data := m.table[v].data }

/-- A message has come to its sending (R167): it is sent with the vector's settings as they stand, or merges into the
vector's pending flag where the vector is blocked. -/
def sendMessage (v : VectorId) (s : State) : State :=
  if s.msix.blocked v then { s with msix := { s.msix with pending := s.msix.pending.set v true } }
  else { s with sent := s.sent ++ [.message (s.msix.messageOf v)] }

/-- A message is due on a vector (R167): on a blocked vector the pending flag is set; otherwise the message is sent, after
every record write the HP took before it (R165). -/
def messageDue (v : VectorId) (s : State) : State :=
  if s.msix.blocked v || s.outbox.isEmpty then sendMessage v s
  else { s with outbox := s.outbox ++ [.message v] }

/-- The interrupt state after a written record, and whether a message is due (R166). -/
def Interrupt.record (it : Interrupt) (coalescingCount coalescingTime : Nat) (notify : Bool) (now : Time) :
    Interrupt × Bool :=
  if notify || decide (coalescingCount ≤ it.count + 1) then (.clear, true)
  else
    ({ count := it.count + 1
       timer := if it.timer.isNone && coalescingTime != 0 then
           some (after now (coalescingTime * Config.ticksPerMicrosecond))
         else it.timer }, false)

/-- A record written to a completion ring is handed to its interrupt state (R166). -/
def signalCr (r : CrId) (notify : Bool) (s : State) : State :=
  let d := s.cr r
  let (it, due) := d.interrupt.record d.coalescingCount d.coalescingTime notify s.time
  let s := s.setCr r { d with interrupt := it }
  if due then messageDue d.vector s else s

/-- A record written to a sample ring is handed to its interrupt state (R166). -/
def signalSr (r : SrId) (s : State) : State :=
  let d := s.sr r
  let (it, due) := d.interrupt.record d.coalescingCount d.coalescingTime false s.time
  let s := s.setSr r { d with interrupt := it }
  if due then messageDue d.vector s else s

/-! ### DMA writes (R165) -/

/-- Issue the DMA write of one 32-byte record through the Host Port. -/
def issueWrite (kind : WriteKind) (entry base : Nat) (data : BitVec 256) (s : State) : State :=
  { s with outbox := s.outbox ++
      [.record { kind := kind, entry := entry, address := base + 32 * entry, data := data, live := true }] }

/-- A record write ends in error when Bus Master Enable is clear or its range would pass the top of the 64-bit address
space (R165). -/
def writeFails (busMaster : Bool) (w : RecordWrite) : Bool := !busMaster || decide (2 ^ 64 < w.address + 32)

/-- The read due to be issued now (R165): in error, and not issued, where Bus Master Enable is clear or its 64 bytes would
pass the top of the address space. -/
def Fetch.due (busMaster : Bool) (now : Time) (f : Fetch) : Fetch :=
  { f with read := if busMaster && decide (f.address + 64 ≤ 2 ^ 64) then .issued now else .notIssued }

/-- The fetch read in flight has come to its issue. -/
def issueRead (s : State) : State := { s with fetch := s.fetch.map (Fetch.due s.msix.busMaster s.time) }

/-- What the HP took next follows at once, up to the next record write: messages are sent, a fetch read is issued (R165). -/
def releaseOutbox : List OutItem → State → State
  | .message v :: rest, s => releaseOutbox rest (sendMessage v s)
  | .read :: rest, s => releaseOutbox rest (issueRead s)
  | items, s => { s with outbox := items }

/-- The oldest record write in flight ends (R165): a write without error is handed to the link, a write in error is not,
and what waited behind it follows. `rest` is the outbox behind it. DESIGN CHOICE (assumption 30): what waited follows also where
the write ended in error, so that the message its record raised is sent although no record stands in memory (R166 and R167 send
it; R165 promises the record to a host that sees a message). -/
def endWrite (w : RecordWrite) (rest : List OutItem) (s : State) : State :=
  releaseOutbox rest
    { s with sent := s.sent ++ if writeFails s.msix.busMaster w then [] else [.record w.address w.data] }

/-- The HP takes a fetch read: it is issued at once where no record write taken before it is in flight, and waits behind
them otherwise (R165). -/
def takeRead (f : Fetch) (s : State) : State :=
  if s.outbox.isEmpty then { s with fetch := some (f.due s.msix.busMaster s.time) }
  else { s with fetch := some f, outbox := s.outbox ++ [.read] }

/-- Mark the record writes in flight that satisfy `p` as no longer of a live ring. -/
def orphanWrites (p : RecordWrite → Bool) (outbox : List OutItem) : List OutItem :=
  outbox.map fun i => match i with
    | .record w => if p w then .record { w with live := false } else .record w
    | .message v => .message v
    | .read => .read

/-! ### Notices (R152) -/

/-- Count a further event in the notice of its source: the occurrence count rises, the detail becomes the new one, the
first time and the place are kept (R152). -/
def Notice.again (n : Notice) (detail : BitVec 32) : Notice :=
  { n with detail := detail, occurrences := saturating 65535 n.occurrences }

/-- Raise an event of R151: coalesce it with the notice of its source, or append a notice (R152). -/
def raiseNotice (src : NoticeSource) (detail : BitVec 32) (time : Time) (s : State) : State :=
  if s.notices.any (fun n => n.source == src) then
    { s with notices := s.notices.map fun n => if n.source = src then n.again detail else n }
  else
    { s with notices := s.notices ++ [{ source := src, detail := detail, firstTime := time, occurrences := 1 }] }

/-! ### Sample rings (R102 to R112) -/

/-- Producer minus consumer, modulo the size. -/
def unconsumed (producer consumer size : Nat) : Nat := (producer + size - consumer) % size

def SampleRing.used (d : SampleRing) : Nat := unconsumed d.producer d.consumer d.size

/-- Free entries: the size minus 1 minus the unconsumed entries (R102). -/
def SampleRing.free (d : SampleRing) : Nat := d.size - 1 - d.used

def SampleRing.full (d : SampleRing) : Bool := d.free == 0

/-- ACTIVE or CONGESTED: the ring is written while it has room. -/
def SampleRing.writable (d : SampleRing) : Bool := d.state == .active || d.state == .congested

/-- The producer index and phase after one written entry (R105 step 5, R106). -/
def SampleRing.advance (d : SampleRing) : SampleRing :=
  if d.producer + 1 = d.size then { d with producer := 0, phase := !d.phase } else { d with producer := d.producer + 1 }

/-- The congestion check after a write (R111). -/
def SampleRing.congest (d : SampleRing) : SampleRing :=
  if d.state = .active ∧ d.free < d.lowWater then { d with state := .congested } else d

/-- The resume check at the end of a head update (R111). -/
def SampleRing.tryResume (d : SampleRing) : SampleRing :=
  if d.state = .congested ∧ d.resume ≤ d.free then { d with state := .active } else d

/-- A MARK START, which restarts the sensor's numbering (R72). -/
def SampleRecord.isMarkStart (r : SampleRecord) : Bool := r.kind == .mark && r.reason == some .start

/-- Writing a record of sensor `n` (R105). -/
def writeRecord (n : SensorId) (r : SampleRecord) (s : State) : State :=
  let c := s.sensor n
  let d := s.sr c.ring
  let seq := if r.isMarkStart then 0 else c.sequence
  let d' := d.advance.congest
  let fields : WriteFields :=
    { sequence := seq, missed := c.missed, rejected := c.rejected, withheld := c.withheld,
      congested := decide (d'.state = .congested), phase := d.phase }
  let s := s.setSensor n { c with sequence := seq + 1, missed := 0, rejected := 0, withheld := 0 }
  let s := s.setSr c.ring d'
  let s := issueWrite (.sample c.ring) d.producer d.base (encodeSample r fields) s
  signalSr c.ring s

/-- Give the newest held record HELD_OVERFLOW (R108). -/
def overflowTail : List SampleRecord → List SampleRecord
  | [] => []
  | [r] => [{ r with flags := { r.flags with heldOverflow := true } }]
  | r :: rest => r :: overflowTail rest

/-- Posting one record (R104): a SAMPLE by R107, a MARK or CAPTURE by R108. -/
def postRecord (r : SampleRecord) (s : State) : State :=
  let c := s.sensor r.sensor
  let d := s.sr c.ring
  if !d.writable then s
  else if c.held.isEmpty && !d.full then writeRecord r.sensor r s
  else if r.kind = .sample then s.setSensor r.sensor { c with withheld := saturating 65535 c.withheld }
  else if c.held.length < Config.heldPerSensor then s.setSensor r.sensor { c with held := c.held ++ [r] }
  else s.setSensor r.sensor { c with held := overflowTail c.held }

/-- The records of one event, posted in the order handed over (R104). -/
def postRecords (rs : List SampleRecord) (s : State) : State := rs.foldl (fun s r => postRecord r s) s

/-- Write a sensor's held records, oldest first, until its ring is full or its queue is empty (R110). -/
def drainHeld (n : SensorId) : List SampleRecord → State → State
  | [], s => s.setSensor n { s.sensor n with held := [] }
  | r :: rest, s =>
    if (s.sr (s.sensor n).ring).full then s.setSensor n { s.sensor n with held := r :: rest }
    else drainHeld n rest (writeRecord n r s)

/-- Drain the held queues of the sensors that name a ring, in ascending sensor id (R110). -/
def drainRing (i : SrId) (s : State) : State :=
  allSensors.foldl (fun s n =>
    let c := s.sensor n
    if c.ring = i ∧ c.state ≠ .unbound then drainHeld n c.held s else s) s

/-- A head update of a sample ring (R110). -/
def sampleHeadUpdate (i : SrId) (index : Nat) (s : State) : State :=
  let s := s.setSr i { s.sr i with consumer := index }
  if (s.sr i).writable then
    let s := drainRing i s
    s.setSr i (s.sr i).tryResume
  else s

/-- A write to a sample ring ended in error (R112). -/
def sampleRingFault (i : SrId) (entry : Nat) (s : State) : State :=
  if (s.sr i).writable then
    let s := s.setSr i { s.sr i with state := .faulted, failedEntry := some entry }
    let s := { s with sensors := s.sensors.map fun c => if c.ring = i then { c with held := [] } else c }
    raiseNotice (.sr i) (failedEntryDetail entry) s.time s
  else s

/-! ### Completion rings, slots and completions (R117, R118, R124, R127) -/

/-- Posted entries: records written and not yet consumed (R117). -/
def CompletionRing.posted (d : CompletionRing) : Nat := unconsumed d.producer d.consumer d.size

/-- Free unreserved entries (R117). -/
def CompletionRing.unreserved (d : CompletionRing) : Nat := d.size - 1 - d.posted - d.reserved

/-- The producer index and phase after one written entry (R106, R124 step 4). -/
def CompletionRing.advance (d : CompletionRing) : CompletionRing :=
  if d.producer + 1 = d.size then { d with producer := 0, phase := !d.phase } else { d with producer := d.producer + 1 }

/-- Pending entries of a request ring (R115). -/
def RequestRing.pendingEntries (d : RequestRing) : Nat := unconsumed d.tail d.fetchHead d.size

/-- Write the completion of a DONE slot on its ACTIVE completion ring (R124). -/
def writeCompletion (k : SlotId) (r : Result) (s : State) : State :=
  let sl := s.slot k
  let d := s.cr sl.cr
  let data := encodeCompletion (s.rq sl.rq).fetchHead sl.rq sl.tag r d.phase
  let s := issueWrite (.completion sl.cr k) d.producer d.base data s
  let s := s.setCr sl.cr { d.advance with reserved := d.reserved - 1 }
  signalCr sl.cr sl.notify s

/-- The slot holds a request that has no result yet (Table 29): it can become DONE, as a FREE or DONE slot cannot (R134). -/
def Slot.isOpen (sl : Slot) : Bool := sl.state == .linkWait || sl.state == .queued || sl.state == .active

/-- A slot becomes DONE with its result, and the RM posts it: written on an ACTIVE completion ring (R124), discarded on a
FAULTED one (R127). A slot that is FREE, or DONE already, is not reached again (R131, Table 30). A discarded slot is freed
and its follower settled when the command's other work is done. DESIGN CHOICE: abort pending and abort requester are
cleared as the slot becomes DONE (assumption 27). -/
def postResult (k : SlotId) (r : Result) (s : State) : State :=
  let sl := s.slot k
  if !sl.isOpen then s
  else
    let s := s.setSlot k { sl with
      state := .done, predecessor := none, abortPending := false, abortRequester := none, result := some r }
    let d := s.cr sl.cr
    match d.state with
    | .active => writeCompletion k r s
    | .faulted =>
      let s := s.setCr sl.cr { d with reserved := d.reserved - 1 }
      { s with discarded := s.discarded ++ [k] }
    | .absent => s

/-- The tag an ABORT names, in its body (Table 40). -/
def Body.abortTag : Body → BitVec 16
  | .abort _ tag => tag
  | _ => 0

/-- The result of an ABORT whose ACTIVE target has become DONE: SUCCESS for ABORTED, TOO_LATE otherwise, with the tag it
named and its target's slot (R130, R146). -/
def abortOutcome (s : State) (requester target : SlotId) (st : Status) : Result :=
  abortResult (if st = .aborted then .success else .tooLate) (s.slot requester).body.abortTag target

/-- A request has its result: its slot becomes DONE and is posted, and then the ABORT that waits on it (R124, R130). -/
def completeSlot (k : SlotId) (r : Result) (s : State) : State :=
  let requester := (s.slot k).abortRequester
  let s := postResult k r s
  match requester with
  | none => s
  | some a => postResult a (abortOutcome s a k r.status) s

/-- Answer the PORT_START, PORT_STOP or DELETE_RING in flight for an object and take its entry out of the set (R137). -/
def completeInFlight (o : AdminObject) (r : Result) (s : State) : State :=
  match s.axInFlight.find? (fun e => e.object = o) with
  | none => s
  | some e => completeSlot e.slot r { s with axInFlight := s.axInFlight.filter fun x => x.object ≠ o }

/-- The entry in flight for an object, if any (R136 step 2). -/
def isInFlight (o : AdminObject) (s : State) : Bool := s.axInFlight.any fun e => e.object == o

/-- A slot becomes FREE and its ring's slots held fall by one (R125). A DRAINING ring that holds no slot any more becomes
ABSENT, and its DELETE_RING completes SUCCESS (R131). -/
def freeSlot (k : SlotId) (s : State) : State :=
  let r := (s.slot k).rq
  let d := s.rq r
  let s := s.setSlot k .initial
  let s := { s with slotOrder := s.slotOrder.filter fun j => j ≠ k }
  let s := s.setRq r { d with slotsHeld := d.slotsHeld - 1 }
  if d.state = .draining ∧ d.slotsHeld - 1 = 0 then
    completeInFlight (.rq r) (.plain .success) (s.setRq r .initial)
  else s

/-- Occupied slots: those not FREE and one held by a fetch in flight (R118). -/
def slotsInUse (s : State) : Nat :=
  s.slots.toList.countP (fun sl => decide (sl.state ≠ .free)) + (s.fetch.map fun _ => 1).getD 0

end Sys2Proof.Machine
end

