-- ==== Sys2Proof/Machine/Sensors.lean ====
section
/-! DEFINITION. The Sensor Processor: the marks, suspensions, resumptions and faults of chapter 4, the qualification of
readings and the position arithmetic of chapter 5, and the completion of captures of chapter 6. -/

namespace Sys2Proof.Machine

/-! ### Position arithmetic (R77 to R79, R82) -/

def Sensor.st (c : Sensor) : Nat := wordSt c.identity
def Sensor.mt (c : Sensor) : Nat := wordMt c.identity

/-- The modulus of the sensor's turn mode (R78, R79). -/
def Sensor.modulus (c : Sensor) : Int :=
  match c.turnMode with
  | .sensor => 2 ^ (c.st + c.mt)
  | _ => 2 ^ c.st

/-- The value in −M/2 to M/2 − 1 congruent to a plain difference (R77). -/
def wrapDelta (d m : Int) : Int := if d < -(m / 2) then d + m else if m / 2 ≤ d then d - m else d

/-- The scaled value of an extended raw: multiplied by the scale and divided by 65536, truncated toward zero (R82). -/
def scaledValue (extRaw : Int) (scale : Nat) : Int := Int.tdiv (extRaw * scale) 65536

/-- The position of an extended raw under a context's scale and offset (R82). -/
def Sensor.positionOf (c : Sensor) (extRaw : Int) : Int := scaledValue extRaw c.scale + c.offset

/-- A position outside the signed 48-bit range is set to the nearer limit (R98). -/
def saturate48 (x : Int) : Int :=
  if x < -140737488355328 then -140737488355328 else if 140737488355327 < x then 140737488355327 else x

/-- What step 3 forms from a reading (R77 to R79). -/
structure Turned where
  /-- None when the last accepted value is NOT_VALID. -/
  delta : Option Int
  extRaw : Int
  /-- The candidate extended turn; the kept one outside EXTEND. -/
  candidate : Int
  wrapped : Bool
  deriving DecidableEq, Repr

/-- Step 3: delta and turn (R77 to R79). -/
def Sensor.turned (c : Sensor) (angle turn : Nat) : Turned :=
  let one : Int := 2 ^ c.st
  let known := decide (c.last.validity ≠ .notValid)
  match c.turnMode with
  | .none =>
    { delta := if known then some (wrapDelta (angle - c.last.angle) one) else none
      extRaw := angle, candidate := c.extendedTurn, wrapped := false }
  | .sensor =>
    let combined : Int := turn * one + angle
    let plain := combined - (c.last.turn * one + c.last.angle)
    let delta := wrapDelta plain c.modulus
    { delta := if known then some delta else none
      extRaw := combined, candidate := c.extendedTurn, wrapped := known && decide (delta ≠ plain) }
  | .extend =>
    let plain : Int := angle - c.last.angle
    let delta := wrapDelta plain one
    let candidate := if !known then c.extendedTurn
      else if delta > plain then c.extendedTurn + 1 else if delta < plain then c.extendedTurn - 1 else c.extendedTurn
    { delta := if known then some delta else none
      extRaw := candidate * one + angle, candidate := candidate, wrapped := false }

/-- Step 4 settles the reading as rejected with cause JUMP: VALID, limit nonzero, |delta| above the limit (R80). -/
def Sensor.jumps (c : Sensor) (t : Turned) : Bool :=
  decide (c.last.validity = .valid) && decide (c.jumpLimit ≠ 0) &&
    (t.delta.any fun d => decide (c.jumpLimit < d.natAbs))

/-- Step 4 bypasses the gate and marks the reading RESYNC: STALE or NOT_VALID (R80). -/
def Sensor.resyncs (c : Sensor) : Bool := decide (c.last.validity ≠ .valid)

/-- The candidate extended turn is in range; it counts in mode EXTEND alone (R83, R88). -/
def Sensor.turnInRange (c : Sensor) (t : Turned) : Bool := c.turnMode != .extend || inSigned24 t.candidate

/-- Acceptance: the context takes the reading (R83). -/
def Sensor.accept (c : Sensor) (angle turn : Nat) (time : Time) (t : Turned) : Sensor :=
  { c with
    last := { extRaw := t.extRaw, angle := angle, turn := turn, sampleTime := time, validity := .valid }
    extendedTurn := if c.turnMode = .extend then t.candidate else c.extendedTurn
    rejects := 0 }

/-! ### Marks and leaving acquisition (R58, R59) -/

/-- The turn a record carries: 0 in NONE, the sensor turn in SENSOR, the extended turn in EXTEND (R86). -/
def Sensor.reportedTurn (c : Sensor) : Int :=
  match c.turnMode with
  | .none => 0
  | .sensor => c.last.turn
  | .extend => c.extendedTurn

/-- A MARK record of a sensor (R59). With `zeros`, as for START, or where the last accepted value is NOT_VALID, its
position, angle and turn are zero. -/
def markRecord (n : SensorId) (c : Sensor) (reason : MarkReason) (cause : FaultCause) (time : Time) (dropped : Bool) :
    SampleRecord :=
  let blank := decide (reason = .start) || decide (c.last.validity = .notValid)
  { kind := .mark, sensor := n, time := time
    position := if blank then 0 else saturate48 (c.positionOf c.last.extRaw)
    angle := if blank then 0 else c.last.angle
    turn := if blank then 0 else c.reportedTurn
    line := none, reason := some reason, cause := cause
    flags := { RecordFlags.clear with captureDropped := dropped } }

def Sensor.hasCaptures (c : Sensor) : Bool := c.captures.toList.any Option.isSome

/-- The round list without a sensor. Where it was the head with its exchange in progress, the exchange's outcome will be
discarded: the round step and the held POSITION outcome go with the entry (R43). -/
def Scheduler.dropEntry (ps : Scheduler) (n : SensorId) : Scheduler :=
  if ps.roundList.head? = some n then
    { ps with roundList := ps.roundList.tail, roundStep := none, heldPosition := none }
  else { ps with roundList := ps.roundList.filter fun m => m ≠ n }

/-- A sensor that leaves ACQUIRING: its round entry is removed and its pending captures are dropped (R58, R43). A sensor
that is not ACQUIRING has neither. -/
def leaveAcquisition (n : SensorId) (s : State) : State :=
  let c := s.sensor n
  if c.state = .acquiring then
    let s := s.setSched (portOf n) ((s.sched (portOf n)).dropEntry n)
    s.setSensor n { c with captures := Vector.replicate 4 none }
  else s

/-- A sensor's exit with CAPTURE_DROPPED set where captures are dropped (R58). -/
def dropsCaptures (c : Sensor) : Bool := decide (c.state = .acquiring) && c.hasCaptures

/-- A sensor faults (R69, R70): cause set, acquisition left, FAULTED, MARK FAULT unless it was BOUND, notice raised. -/
def faultSensor (n : SensorId) (cause : FaultCause) (time : Time) (s : State) : State :=
  let c := s.sensor n
  let mark := markRecord n c .fault cause time (dropsCaptures c)
  let s := leaveAcquisition n s
  let s := s.setSensor n { s.sensor n with state := .faulted, cause := cause }
  let s := if c.state = .bound then s else postRecord mark s
  raiseNotice (.sensor n) (BitVec.ofNat 32 cause.code) time s

/-- Suspension: an ACQUIRING sensor goes to WAITING with a MARK SUSPEND (R66). -/
def suspendSensor (n : SensorId) (s : State) : State :=
  let c := s.sensor n
  if c.state = .acquiring then
    let mark := markRecord n c .suspend .none s.time (dropsCaptures c)
    let s := leaveAcquisition n s
    let s := s.setSensor n { s.sensor n with state := .waiting }
    postRecord mark s
  else s

/-- Every ACQUIRING sensor of a port, in ascending sensor id (R66). -/
def suspendPort (p : PortId) (s : State) : State := (sensorsOf p).foldl (fun s n => suspendSensor n s) s

/-- VALID becomes STALE; STALE and NOT_VALID stay (R67, R68). -/
def Sensor.markStale (c : Sensor) : Sensor :=
  { c with last := { c.last with validity := if c.last.validity = .valid then .stale else c.last.validity } }

/-- What the new identity table does to one sensor at a training end (R23, R67, R70). -/
def trainingEndSensor (running : Bool) (n : SensorId) (s : State) : State :=
  let c := s.sensor n
  let e := s.identityOf n
  if !e.present then s
  else if sameIdentity e.word c.identity then
    if c.state = .waiting && running then s.setSensor n { c.markStale with state := .acquiring } else s
  else if c.state = .bound ∨ c.state = .waiting then faultSensor n .identityChanged s.time s
  else s

/-! ### Screening (R75, R76) -/

/-- The reading handed to the SP (R42). -/
structure Reading where
  sensor : SensorId
  position : ExchangeOutcome
  repeated : Option ExchangeOutcome
  sampleTime : Time
  late : Bool
  deriving DecidableEq, Repr

/-- What steps 1 and 2 make of a reading. -/
inductive Screened
  | missed
  | rejected (cause : RejectCause)
  | good (angle turn : Nat) (warning : Bool)
  deriving DecidableEq, Repr

/-- The angle and sensor turn of a payload. -/
def Payload.reading? : Payload → Nat × Nat
  | .reading angle turn => (angle, turn)
  | _ => (0, 0)

/-- Steps 1 and 2: the POSITION outcome (R75) and the confirm (R76). -/
def Reading.screen (r : Reading) : Screened :=
  match r.position.result with
  | .failed _ => .missed
  | .ok warn alarm payload =>
    if alarm then .rejected .alarm
    else
      let (angle, turn) := payload.reading?
      match r.repeated.map ExchangeOutcome.result with
      | none => .good angle turn warn
      | some (.failed _) => .missed
      | some (.ok warn' alarm' payload') =>
        if alarm' then .rejected .alarm
        else if payload'.reading? = (angle, turn) then .good angle turn (warn || warn')
        else .rejected .confirmMismatch

/-! ### Rejection and faults of a reading (R81) -/

/-- The consecutive rejects after one more rejection (R81): one more, and past 15, where the spec states none, a free value
(assumption 24). -/
def Sensor.rejectsAfter (c : Sensor) (n : SensorId) (time : Time) : Nat :=
  if c.rejects < 15 then c.rejects + 1 else (Config.freeRejects n.val time.toNat).toNat

/-- Step 5 (R81). -/
def rejectReading (n : SensorId) (time : Time) (s : State) : State :=
  let c := s.sensor n
  let c' := { c with rejected := saturating 255 c.rejected, rejects := c.rejectsAfter n time }
  let s := s.setSensor n c'
  if c'.rejects = c'.rejectLimit then faultSensor n .rejectLimit time s else s

/-- A missed reading: the missed count rises, saturating at 255 (R39, R72, R75). -/
def missReading (n : SensorId) (s : State) : State :=
  let c := s.sensor n
  s.setSensor n { c with missed := saturating 255 c.missed }

/-! ### Capture completion (R97 to R100) -/

/-- What the completion of a capture needs of the reading just accepted and the value before it. -/
structure Interval where
  previous : LastAccepted
  current : LastAccepted
  delta : Int
  late : Bool
  warning : Bool
  mtWrap : Bool
  deriving DecidableEq, Repr

/-- The quotient Δ × (E − Tp) / (Tc − Tp), exact and truncated toward zero (R98). -/
def Interval.quotient (v : Interval) (edge : Time) : Int :=
  let num := v.delta * ((edge.toNat : Int) - v.previous.sampleTime.toNat)
  let den := (v.current.sampleTime.toNat : Int) - v.previous.sampleTime.toNat
  if den = 0 then Config.freeInterpolationQuotient v.delta num else Int.tdiv num den

/-- The previous value is usable: VALID and taken at or before the edge (R98). -/
def Interval.usable (v : Interval) (edge : Time) : Bool :=
  decide (v.previous.validity = .valid) && decide (v.previous.sampleTime ≤ edge)

/-- The interpolated extended raw (R98). -/
def interpolate (c : Sensor) (v : Interval) (edge : Time) : Int :=
  if v.usable edge then
    let sum := v.previous.extRaw + v.quotient edge
    if c.turnMode = .extend then sum else sum % c.modulus
  else v.current.extRaw

/-- Complete one pending capture (R98 to R100): the context with the offset a reference sets, and the CAPTURE record. -/
def completeCapture (n : SensorId) (l : LineId) (p : PendingCapture) (v : Interval) (c : Sensor) :
    Sensor × SampleRecord :=
  let x := interpolate c v p.edgeTime
  let exact := c.positionOf x
  let newOffset := p.reference.map fun ref => ref - scaledValue x c.scale
  let applied := inSigned48 exact && (newOffset.any inSigned48)
  let record : SampleRecord :=
    { kind := .capture, sensor := n, time := p.edgeTime
      position := if applied then p.reference.getD 0 else saturate48 exact
      angle := (x % 2 ^ c.st).toNat
      turn := if c.turnMode = .none then 0 else x / 2 ^ c.st
      line := some l, reason := none, cause := .none
      flags := { RecordFlags.clear with
        late := v.late, warning := v.warning, mtWrap := v.mtWrap, noInterp := !v.usable p.edgeTime
        referenced := applied, captureOverrun := p.overrun } }
  ({ c with
    offset := if applied then newOffset.getD c.offset else c.offset
    captures := c.captures.set l none }, record)

/-- Step 7: the pending captures whose edge time is at or before the sample time, in ascending line order (R84, R97). -/
def completeCaptures (n : SensorId) (v : Interval) (c : Sensor) : Sensor × List SampleRecord :=
  (List.finRange 4).foldl (fun (acc : Sensor × List SampleRecord) l =>
    match acc.1.captures[l] with
    | none => acc
    | some p =>
      if p.edgeTime ≤ v.current.sampleTime then
        let (c', r) := completeCapture n l p v acc.1
        (c', acc.2 ++ [r])
      else acc) (c, [])

/-! ### Delivery (R85, R86) -/

/-- Four times the configured decimation, capped at 1024, while the ring is CONGESTED (R85). -/
def effectiveDecimation (configured : Nat) (ring : SampleRingState) : Nat :=
  if ring = .congested then min 1024 (4 * configured) else configured

/-- Step 8: the decimation counter after an accepted reading, and whether a SAMPLE record is created (R85). -/
def decimate (c : Sensor) (ring : SampleRingState) (forced : Bool) : Sensor × Bool :=
  if forced || decide (effectiveDecimation c.decimation ring ≤ c.decimationCounter + 1) then
    ({ c with decimationCounter := 0 }, true)
  else ({ c with decimationCounter := c.decimationCounter + 1 }, false)

/-- Steps 6 to 8 of a poll reading that has passed the gate (R83 to R86). -/
def admitReading (r : Reading) (angle turn : Nat) (warning : Bool) (s : State) : State :=
  let n := r.sensor
  let c := s.sensor n
  let t := c.turned angle turn
  let position := c.positionOf t.extRaw
  if !c.turnInRange t then faultSensor n .turnRange r.sampleTime s
  else if !inSigned48 position then faultSensor n .positionRange r.sampleTime s
  else
    let accepted := c.accept angle turn r.sampleTime t
    let v : Interval :=
      { previous := c.last, current := accepted.last, delta := t.delta.getD 0, late := r.late, warning := warning,
        mtWrap := t.wrapped }
    let (captured, captures) := completeCaptures n v accepted
    let (counted, sampled) := decimate captured (s.sr c.ring).state (c.resyncs || t.wrapped)
    let sample : SampleRecord :=
      { kind := .sample, sensor := n, time := r.sampleTime, position := position, angle := angle
        turn := accepted.reportedTurn, line := none, reason := none, cause := .none
        flags := { RecordFlags.clear with
          late := r.late, warning := warning, resync := c.resyncs, mtWrap := t.wrapped } }
    postRecords (captures ++ if sampled then [sample] else []) (s.setSensor n counted)

/-- The treatment of a poll reading, one event at the sensor's context (R74). -/
def takeReading (r : Reading) (s : State) : State :=
  let c := s.sensor r.sensor
  if c.state ≠ .acquiring then s
  else match r.screen with
    | .missed => missReading r.sensor s
    | .rejected _ => rejectReading r.sensor r.sampleTime s
    | .good angle turn warning =>
      if c.jumps (c.turned angle turn) then rejectReading r.sensor r.sampleTime s
      else admitReading r angle turn warning s

/-! ### Readings of transactions (R87 to R89) -/

/-- The treatment of a SET_POSITION reading and the result of its transaction (R87, R88, Table 34). `made` is the number of
exchanges made. -/
def takeSetPosition (r : Reading) (target : Int) (made : Nat) (s : State) : State × Result :=
  let n := r.sensor
  let c := s.sensor n
  if c.state = .unbound ∨ c.state = .faulted then (s, .detailed .wrongState made)
  else match r.screen with
    | .missed => (s, .detailed .linkFailed made)
    | .rejected cause => (rejectReading n r.sampleTime s, .detailed .rejected cause.code)
    | .good angle turn warning =>
      let t := c.turned angle turn
      if c.jumps t then (rejectReading n r.sampleTime s, .detailed .rejected RejectCause.jump.code)
      else
        let offset := target - scaledValue t.extRaw c.scale
        if !c.turnInRange t then (s, .detailed .range 1)
        else if !inSigned48 offset then (s, .detailed .range 2)
        else
          let c' := { c.accept angle turn r.sampleTime t with offset := offset }
          let extended := if c.turnMode = .extend then c'.extendedTurn else 0
          (s.setSensor n c',
            { status := .success
              detail := BitVec.ofNat 32 (warningBit warning + 512 * c.resyncs.toNat)
              data := BitVec.ofNat 128 (assemble
                [placedInt 0 6 offset, placed 6 3 angle, placed 9 2 turn, placedInt 11 3 extended]) })

/-- The result of a READ_POSITION, which changes no field of the context (R89, R158). -/
def readPositionResult (c : Sensor) (warn alarm : Bool) (angle turn : Nat) (time : Time) : Result :=
  let evaluated := decide (c.state ≠ .unbound)
  let t := c.turned angle turn
  let position := c.positionOf t.extRaw
  let outOfRange := evaluated && !(c.turnInRange t && inSigned48 position)
  let reported := if evaluated && !outOfRange then position else 0
  { status := .success
    detail := BitVec.ofNat 32 (warn.toNat + 2 * alarm.toNat + 4 * evaluated.toNat
      + 8 * (evaluated && c.jumps t).toNat + 16 * outOfRange.toNat)
    data := BitVec.ofNat 128 (assemble
      [placedInt 0 6 reported, placed 6 3 angle, placed 9 2 turn, placed 11 5 time.toNat]) }

/-- A successful SLAVE_RESET marks the last accepted value STALE in every state but UNBOUND (R68, R157). -/
def slaveWasReset (n : SensorId) (s : State) : State :=
  let c := s.sensor n
  if c.state = .unbound then s else s.setSensor n c.markStale

/-! ### The edge event (R96) -/

/-- What an edge that is acted on does to one sensor (R96). -/
def edgeAtSensor (l : LineId) (edge : Time) (ref : Option CaptureReference) (n : SensorId) (c : Sensor) : Sensor :=
  if c.state = .acquiring ∧ c.captureMask.getLsbD l.val = true then
    match c.captures[l] with
    | none =>
      let position := ref.bind fun r => if r.sensor = n then some r.position else none
      { c with captures := c.captures.set l (some { edgeTime := edge, overrun := false, reference := position }) }
    | some p => { c with captures := c.captures.set l (some { p with overrun := true }) }
  else c

/-- The SP treats an edge as one event across the contexts (R96). -/
def edgeEvent (l : LineId) (edge : Time) (ref : Option CaptureReference) (s : State) : State :=
  allSensors.foldl (fun s n => s.setSensor n (edgeAtSensor l edge ref n (s.sensor n))) s

end Sys2Proof.Machine
end

