-- ==== Sys2Proof/Machine/Ports.lean ====
section
/-! DEFINITION. The Port Scheduler and the Link Engine of a port: decisions, rounds, transactions and their boundaries
(chapter 3 and chapter 10), the arrival and settlement of slots (R45, R123), the end of an attempt in every link state,
training, DOWN, STOPPING and DISABLED (chapter 2). -/

namespace Sys2Proof.Machine

/-! ### Offering an exchange (R24, R41, R47) -/

/-- The LE accepts an exchange: the attempt record is filled and stands BETWEEN before its first attempt (R1, R24). DESIGN
CHOICE: the request time, to which R1 gives a value from the first request frame on, is 0 until then (assumption 25). -/
def newAttempt (address : SlaveAddr) (kind : FrameKind) (register : Option (BitVec 8)) (data : Option (BitVec 16)) :
    Attempt :=
  { address := address, kind := kind, register := register, data := data, tags := [], requestTime := 0,
    phase := .between, windowEnd := none, listeningSince := none, frameStart := none, lastFault := none }

/-- The PS offers the LE an exchange for an owner (R41, R48). -/
def offerExchange (p : PortId) (owner : ExchangeOwner) (a : Attempt) (s : State) : State :=
  let s := s.setLink p { s.link p with attempt := some a }
  s.setSched p { s.sched p with owner := some owner }

/-- Offer the next exchange of the round IN_PROGRESS: the REPEAT of the head entry where its POSITION outcome is held, the
POSITION of the head entry otherwise (R41, R47). -/
def offerRound (p : PortId) (s : State) : State :=
  let ps := s.sched p
  match ps.roundList with
  | [] => s
  | n :: _ =>
    let step : RoundStep := if ps.heldPosition.isSome then .repeat else .position
    let kind : FrameKind := if ps.heldPosition.isSome then .repeat else .position
    let s := s.setSched p { ps with roundStep := some step }
    offerExchange p .round (newAttempt (addrOf n) kind none none) s

/-- The number of exchanges of a transaction, fixed at its activation (R154). -/
def plannedExchanges (b : Body) (confirm : Confirm) : Nat :=
  match b with
  | .regRead _ count => count
  | .regWrite _ count _ => count
  | .setPosition _ => if confirm = .repeat then 2 else 1
  | _ => 1

/-- Exchange number `i` of a transaction (Table 33). -/
def transactionExchange (b : Body) (address : SlaveAddr) (i : Nat) : Option Attempt :=
  match b with
  | .regRead first _ => some (newAttempt address .regRead (some (BitVec.ofNat 8 (first + i))) none)
  | .regWrite first _ values =>
    some (newAttempt address .regWrite (some (BitVec.ofNat 8 (first + i))) (some (values.getD i 0)))
  | .readPosition => some (newAttempt address .position none none)
  | .setPosition _ => some (newAttempt address (if i = 0 then .position else .repeat) none none)
  | .slaveReset => some (newAttempt address .slaveReset none none)
  | _ => none

/-- Offer the active transaction's next exchange (R49). -/
def offerTransaction (p : PortId) (k : SlotId) (s : State) : State :=
  let sl := s.slot k
  match transactionExchange sl.body (addrOf sl.sensor) (s.sched p).exchangesDone with
  | none => s
  | some a => offerExchange p .transaction a s

/-! ### Completion and activation of transactions (R48, R52, R155) -/

/-- Data of a completion that ends a transaction without its own result: the register values done so far (R156, R162). -/
def progressData (b : Body) (progress : TransactionProgress) : BitVec 128 :=
  match b with
  | .regRead _ _ => registerData progress.values
  | .regWrite _ _ _ => registerData progress.values
  | _ => 0

/-- The active transaction completes: its completion goes to the RM and the PS clears its active fields (R52). -/
def completeActive (p : PortId) (r : Result) (s : State) : State :=
  let ps := s.sched p
  match ps.active with
  | none => s
  | some k =>
    let s := completeSlot k r s
    s.setSched p { s.sched p with active := none, exchangesDone := 0, hold := false, progress := .empty }

/-- The active transaction ends without its own result, with detail its exchanges done (R162). -/
def cutActive (p : PortId) (st : Status) (done : Nat) (s : State) : State :=
  let ps := s.sched p
  match ps.active with
  | none => s
  | some k =>
    completeActive p
      { status := st, detail := BitVec.ofNat 32 done, data := progressData (s.slot k).body ps.progress } s

/-- The checks at a transaction's activation, in their order (R155): fields, slave, register range, sensor state. -/
def activationCheck (b : Body) (e : IdentityEntry) (sensor : SensorState) : Option Status :=
  match b with
  | .regRead first count =>
    if count < 1 ∨ 8 < count then some .invalidField
    else if !e.present then some .noSlave
    else if wordRegisters e.word < first + count then some .invalidField
    else none
  | .regWrite first count _ =>
    if count < 1 ∨ 8 < count then some .invalidField
    else if !e.present then some .noSlave
    else if wordRegisters e.word < first + count then some .invalidField
    else none
  | .setPosition target =>
    if !inSigned48 target then some .invalidField
    else if !e.present then some .noSlave
    else if sensor = .unbound ∨ sensor = .faulted then some .wrongState
    else none
  | _ => if !e.present then some .noSlave else none

/-- Activation of the head of the port queue (R48): the reference leaves the queue, the slot becomes ACTIVE, the PS sets
its active fields. -/
def activate (p : PortId) (k : SlotId) (rest : List SlotId) (s : State) : State :=
  let sl := s.slot k
  let s := s.setSlot k { sl with state := .active }
  s.setSched p { s.sched p with
    queue := rest, active := some k, exchangesDone := 0, hold := sl.holdPoll
    progress := { TransactionProgress.empty with
      planned := plannedExchanges sl.body (s.sensor sl.sensor).confirm } }

/-- Give the link to the oldest queued transaction that passes its checks; one that fails a check completes at once with
detail 0 and no exchange, and the next decision follows (R47, R48, R52). A reference whose slot is not QUEUED is nothing to
activate (Table 30). -/
def activateFrom (p : PortId) : List SlotId → State → State
  | [], s => s
  | k :: rest, s =>
    if (s.slot k).state = .queued then
      let s := activate p k rest s
      let sl := s.slot k
      match activationCheck sl.body (s.identityOf sl.sensor) (s.sensor sl.sensor).state with
      | some st => activateFrom p rest (completeActive p (.plain st) s)
      | none => offerTransaction p k s
    else activateFrom p rest (s.setSched p { s.sched p with queue := rest })

/-! ### Decisions (R40, R47) -/

/-- The sensors of a port that are ACQUIRING, in ascending slave address (R40). -/
def acquiringOf (p : PortId) (s : State) : List SensorId :=
  (sensorsOf p).filter fun n => (s.sensor n).state = .acquiring

/-- A round starts with a LATE mark; a round with an empty list ends at once (R40). -/
def startRound (p : PortId) (late : Bool) (s : State) : State :=
  let list := acquiringOf p s
  if list.isEmpty then s.setSched p { s.sched p with round := .none, lateMark := none, roundList := [] }
  else s.setSched p { s.sched p with round := .inProgress, lateMark := some late, roundList := list }

/-- The link is RUNNING and idle and the exchange owner is none: the PS may decide (R47). -/
def mayDecide (p : PortId) (s : State) : Bool :=
  (s.link p).state == .running && (s.link p).attempt.isNone && (s.sched p).owner.isNone

/-- A decision (R47): the round IN_PROGRESS, the round DUE, the active transaction, the oldest reference. -/
def makeDecision (p : PortId) (s : State) : State :=
  if !mayDecide p s then s
  else
    let s := if (s.sched p).round = .due then startRound p true s else s
    let ps := s.sched p
    if ps.round = .inProgress then offerRound p s
    else match ps.active with
      | some k => offerTransaction p k s
      | none => activateFrom p ps.queue s

/-! ### Arrival, settlement and freeing of slots (R45, R123, R125, R127) -/

/-- The PS takes a slot reference, by the link state at that moment (R45). -/
def arrive (k : SlotId) (s : State) : State :=
  let p := portOf (s.slot k).sensor
  match (s.link p).state with
  | .running | .retryWait =>
    makeDecision p (s.setSched p { s.sched p with queue := (s.sched p).queue ++ [k] })
  | .training => s.setSched p { s.sched p with queue := (s.sched p).queue ++ [k] }
  | .down | .disabled => completeSlot k (.plain .portDown) s
  | .stopping => completeSlot k (.plain .portStopped) s

/-- The slot in LINK_WAIT that names `k` as its link predecessor (R123). -/
def followerOf (k : SlotId) (s : State) : Option SlotId :=
  allSlots.find? fun j => (s.slot j).state == .linkWait && (s.slot j).predecessor == some k

/-- Settle the follower of a slot whose completion has ended or been discarded, by that completion's status (R123). -/
def settleFollower (r : RqId) (k : SlotId) (st : Status) (s : State) : State :=
  match followerOf k s with
  | some j =>
    if st = .success then
      arrive j (s.setSlot j { s.slot j with state := .queued, predecessor := none })
    else completeSlot j (.plain .skipped) s
  | none =>
    if (s.rq r).chain = .openAt k then
      s.setRq r { s.rq r with chain := if st = .success then .noChain else .broken }
    else s

/-- A completion has ended or been discarded: the slot, which is DONE, is freed first, the follower settled after (R125,
R127). -/
def endCompletion (k : SlotId) (s : State) : State :=
  let sl := s.slot k
  if sl.state = .done then
    let st := (sl.result.map Result.status).getD .success
    settleFollower sl.rq k st (freeSlot k s)
  else s

/-- Free and settle the slots whose completions this command discarded, in the order they became DONE (R127). Each slot
is freed at most once, so the number of slots bounds the work. -/
def settleDiscarded : Nat → State → State
  | 0, s => s
  | n + 1, s =>
    match s.discarded with
    | [] => s
    | k :: rest => settleDiscarded n (endCompletion k { s with discarded := rest })

/-- The end of a command: what it discarded is settled. -/
def settle (s : State) : State := settleDiscarded 32 s

/-! ### The link leaves RUNNING; flushes (R29, R31, R44, R54) -/

/-- The PS stops its cycle timer and ends any round (R44). -/
def Scheduler.leaveRunning (ps : Scheduler) : Scheduler :=
  { ps with
    cycleTimer := none, round := .none, lateMark := none, roundList := [], roundStep := none, heldPosition := none }

/-- Every reference of the port queue completes with detail 0, oldest first (R29, R31, R53). -/
def flushQueue (p : PortId) (st : Status) (s : State) : State :=
  let queue := (s.sched p).queue
  let s := s.setSched p { s.sched p with queue := [] }
  queue.foldl (fun s k => settle (completeSlot k (.plain st) s)) s

/-- The port's host work completes: the active transaction that is yielded to a round, then the queue (R54). -/
def flushPort (p : PortId) (st : Status) (s : State) : State :=
  let s := if (s.sched p).owner = some .transaction then s
    else settle (cutActive p st (s.sched p).exchangesDone s)
  flushQueue p st s

/-- Entry to DOWN at the fail limit (R28). -/
def enterDown (p : PortId) (f : LinkFault) (s : State) : State :=
  let s := s.setLink p { s.link p with state := .down }
  let s := s.setSched p (s.sched p).leaveRunning
  let s := flushPort p .portDown s
  let s := suspendPort p s
  let s := raiseNotice (.port p) (portDownDetail (portCauseOf f)) s.time s
  let le := s.link p
  s.setLink p { le with
    retrainTimer := if le.parameters.retrainInterval = 0 then none
      else some (after s.time (le.parameters.retrainInterval * Config.ticksPerMillisecond)) }

/-- Entry to DISABLED (R33). -/
def enterDisabled (p : PortId) (s : State) : State :=
  s.setLink p { s.link p with
    state := .disabled, failures := 0, retryGapTimer := none, retrainTimer := none, training := none, attempt := none }

/-! ### Training (R19 to R23) -/

/-- Entry to TRAINING (R19). -/
def enterTraining (p : PortId) (origin : TrainingOrigin) (s : State) : State :=
  s.setLink p { s.link p with
    state := .training, failures := 0, retrainTimer := none
    training := some { origin := origin, address := 0, provisional := [] }
    attempt := some (newAttempt 0 .identify none none) }

/-- The entry that the end of an IDENTIFY exchange writes (R20). -/
def provisionalEntry : AttemptEnd → IdentityEntry
  | .ok _ _ (.identity w) =>
    if wordValid w then { present := true, word := w, cause := .none }
    else { present := false, word := w, cause := .badIdentity }
  | .ok _ _ _ => { present := false, word := 0, cause := .badIdentity }
  | .fault f => { present := false, word := 0, cause := .linkFault f }

/-- The new identity table: the four provisional entries, all together (R22). -/
def newIdentity (entries : List IdentityEntry) : Vector IdentityEntry 4 :=
  Vector.ofFn fun a : Fin 4 => entries.getD a.val .untrained

/-- Entry to RUNNING from TRAINING: the cycle timer starts with the port's cycle period (R22, R37). -/
def enterRunning (p : PortId) (s : State) : State :=
  let le := s.link p
  let s := s.setLink p { le with state := .running }
  s.setSched p { s.sched p with
    cycleTimer := some (after s.time (le.parameters.cyclePeriod * Config.ticksPerMicrosecond))
    periodInForce := le.parameters.cyclePeriod }

/-- The end of a training, as one event (R22, R23). -/
def endTraining (p : PortId) (origin : TrainingOrigin) (entries : List IdentityEntry) (s : State) : State :=
  let table := newIdentity entries
  let mask := presentMask table
  let s := s.setLink p { s.link p with identity := table, training := none, attempt := none }
  let s := (sensorsOf p).foldl (fun s n => trainingEndSensor (decide (mask ≠ 0)) n s) s
  if mask ≠ 0 then
    let s := enterRunning p s
    let s := match origin with
      | .start => completeInFlight (.port p) (portStartResult .success table) s
      | .retrain => raiseNotice (.port p) (portRunningDetail mask) s.time s
    makeDecision p s
  else match origin with
    | .start =>
      let s := enterDisabled p s
      let s := flushQueue p .portDown s
      completeInFlight (.port p) (portStartResult .noSlave table) s
    | .retrain =>
      let le := s.link p
      let s := s.setLink p { le with
        state := .down
        retrainTimer := if le.parameters.retrainInterval = 0 then none
          else some (after s.time (le.parameters.retrainInterval * Config.ticksPerMillisecond)) }
      let s := flushPort p .portDown s
      raiseNotice (.port p) (portDownDetail noSlaveCause) s.time s

/-- The exchange of a training ends: its entry is written, and the next address or the training's end follows (R20). -/
def trainingExchangeEnd (p : PortId) (t : Training) (e : AttemptEnd) (s : State) : State :=
  let entries := t.provisional ++ [provisionalEntry e]
  if h : t.address.val + 1 < 4 then
    s.setLink p { s.link p with
      training := some { t with address := ⟨t.address.val + 1, h⟩, provisional := entries }
      attempt := some (newAttempt ⟨t.address.val + 1, h⟩ .identify none none) }
  else endTraining p t.origin entries s

/-! ### Exchange outcomes at the PS (R41, R42, R49, R156 to R159) -/

/-- The exchange outcome of an attempt that ends its exchange, its payload reduced with the slave's table entry (R6, R13,
R35). -/
def outcomeOf (le : LinkEngine) (a : Attempt) (e : AttemptEnd) : ExchangeOutcome :=
  { result := match e with
      | .ok warn alarm payload => .ok warn alarm (reducePayload (le.identity[a.address]).word payload)
      | .fault f => .failed f
    attempts := a.tags.length, address := a.address, kind := a.kind, requestTime := a.requestTime }

/-- The exchange ended OK. -/
def ExchangeOutcome.isOk (o : ExchangeOutcome) : Bool :=
  match o.result with
  | .ok _ _ _ => true
  | .failed _ => false

/-- A round whose list has become empty ends (R41, R43). -/
def Scheduler.endIfEmpty (ps : Scheduler) : Scheduler :=
  if ps.round = .inProgress ∧ ps.roundList = [] then { ps with round := .none, lateMark := none } else ps

/-- The outcome of a round exchange (R41, R43): a POSITION that calls for a REPEAT is held; otherwise the entry is removed
and its reading goes to the SP. The outcome of a removed sensor, or of a round that has ended, is discarded. -/
def roundOutcome (p : PortId) (o : ExchangeOutcome) (s : State) : State :=
  let ps := { s.sched p with owner := none }
  match ps.round, ps.roundStep, ps.roundList with
  | .inProgress, some step, n :: rest =>
    if step = .position ∧ o.isOk ∧ (s.sensor n).confirm = .repeat then
      s.setSched p { ps with roundStep := none, heldPosition := some o }
    else
      let position := if step = .repeat then ps.heldPosition.getD o else o
      let reading : Reading :=
        { sensor := n, position := position, repeated := if step = .repeat then some o else none
          sampleTime := position.requestTime, late := ps.lateMark.getD false }
      let ps := { ps with roundList := rest, roundStep := none, heldPosition := none }
      takeReading reading (s.setSched p ps.endIfEmpty)
  | _, _, _ => s.setSched p ps.endIfEmpty

/-- A transaction with exchanges still to come, after an exchange that ended OK: cut short where the link is STOPPING
(R32) or an abort is pending (R49 case 3), continued otherwise (case 4). -/
def continueTransaction (p : PortId) (k : SlotId) (progress : TransactionProgress) (stopping : Bool) (s : State) : State :=
  let ps := s.sched p
  let done := ps.exchangesDone + 1
  let s' := s.setSched p { ps with progress := progress }
  if stopping then cutActive p .portStopped done s'
  else if (s.slot k).abortPending then cutActive p .aborted done s'
  else s.setSched p { ps with exchangesDone := done, progress := progress }

/-- The boundary of a register exchange that ended OK (R156). -/
def registerBoundary (p : PortId) (k : SlotId) (first : Nat) (warn alarm : Bool) (value : BitVec 16) (stopping : Bool)
    (s : State) : State :=
  let ps := s.sched p
  if alarm then
    completeActive p
      { status := .slaveRefused, detail := BitVec.ofNat 32 (first + ps.exchangesDone)
        data := registerData ps.progress.values } s
  else
    let progress := { ps.progress with
      values := ps.progress.values ++ [value], warning := ps.progress.warning || warn }
    if progress.planned ≤ ps.exchangesDone + 1 then
      completeActive p
        { status := .success, detail := BitVec.ofNat 32 (progress.planned + warningBit progress.warning)
          data := registerData progress.values } s
    else continueTransaction p k progress stopping s

/-- The boundary of a SLAVE_RESET exchange that ended OK (R157). -/
def resetBoundary (p : PortId) (k : SlotId) (warn alarm : Bool) (s : State) : State :=
  if alarm then completeActive p (.plain .slaveRefused) s
  else completeActive p (.detailed .success (warningBit warn)) (slaveWasReset (s.slot k).sensor s)

/-- The boundary of a READ_POSITION exchange that ended OK (R158). -/
def readPositionBoundary (p : PortId) (k : SlotId) (warn alarm : Bool) (payload : Payload) (time : Time) (s : State) :
    State :=
  completeActive p
    (readPositionResult (s.sensor (s.slot k).sensor) warn alarm payload.reading?.1 payload.reading?.2 time) s

/-- The boundary of a SET_POSITION exchange that ended OK (R159, R160). -/
def setPositionBoundary (p : PortId) (k : SlotId) (target : Int) (o : ExchangeOutcome) (stopping : Bool) (s : State) :
    State :=
  let ps := s.sched p
  if ps.progress.planned ≤ ps.exchangesDone + 1 then
    let position := ps.progress.position.getD o
    let reading : Reading :=
      { sensor := (s.slot k).sensor, position := position
        repeated := ps.progress.position.map fun _ => o
        sampleTime := position.requestTime, late := false }
    let (s, r) := takeSetPosition reading target (ps.exchangesDone + 1) s
    completeActive p r s
  else continueTransaction p k { ps.progress with position := some o } stopping s

/-- The boundary of an exchange of the active transaction: the settlement of R49, and of R32 where the link is STOPPING. -/
def transactionOutcome (p : PortId) (stopping : Bool) (o : ExchangeOutcome) (s : State) : State :=
  let s := s.setSched p { s.sched p with owner := none }
  let ps := s.sched p
  match ps.active with
  | none => s
  | some k =>
    match o.result with
    | .failed _ => cutActive p (if stopping then .portStopped else .linkFailed) ps.exchangesDone s
    | .ok warn alarm payload =>
      match (s.slot k).body, payload with
      | .regRead first _, .register v => registerBoundary p k first warn alarm v stopping s
      | .regWrite first _ _, .register v => registerBoundary p k first warn alarm v stopping s
      | .readPosition, pl => readPositionBoundary p k warn alarm pl o.requestTime s
      | .setPosition target, _ => setPositionBoundary p k target o stopping s
      | .slaveReset, _ => resetBoundary p k warn alarm s
      | _, _ => s

/-- The outcome goes to the exchange's owner (R27, R32). -/
def deliverOutcome (p : PortId) (stopping : Bool) (o : ExchangeOutcome) (s : State) : State :=
  match (s.sched p).owner with
  | some .round => roundOutcome p o s
  | some .transaction => transactionOutcome p stopping o s
  | none => s

/-! ### The end of an attempt (R20, R25, R27, R32) -/

/-- The link enters DISABLED out of STOPPING: what the exchange on the line gives goes to its owner, and the PORT_STOP in
flight completes (R32, R33). A training IDENTIFY has no owner and its outcome is discarded. -/
def finishStopping (p : PortId) (o : ExchangeOutcome) (s : State) : State :=
  let s := settle (deliverOutcome p true o s)
  completeInFlight (.port p) (.plain .success) (enterDisabled p s)

/-- The attempt is over: BETWEEN, its window stopped, its fault remembered, the turnaround gap counting from now (R1, R4,
R25). -/
def Attempt.finished (a : Attempt) (e : AttemptEnd) : Attempt :=
  { a with
    phase := .between, windowEnd := none, listeningSince := none, frameStart := none
    lastFault := match e with
      | .fault f => some f
      | .ok _ _ _ => a.lastFault }

/-- A retry follows: the retry-gap timer starts, in RETRY_WAIT for a PS exchange and in TRAINING for a training exchange
(R20, R25). -/
def startRetryGap (p : PortId) (st : LinkState) (a : Attempt) (s : State) : State :=
  let le := s.link p
  s.setLink p { le with
    state := st, attempt := some a
    retryGapTimer := some (after s.time (le.parameters.retryGap * Config.ticksPerMicrosecond)) }

/-- Retries remain: fewer attempts were made than the retry limit plus one (R25). -/
def retriesRemain (le : LinkEngine) (a : Attempt) : Bool := decide (a.tags.length < le.parameters.retryLimit + 1)

/-- A failed exchange in RUNNING (R27): the outcome is delivered and the record emptied, the failure count rises, and the
link goes DOWN at the fail limit. -/
def failedExchange (p : PortId) (a : Attempt) (f : LinkFault) (s : State) : State :=
  let o := outcomeOf (s.link p) a (.fault f)
  let s := s.setLink p { s.link p with attempt := none }
  let s := deliverOutcome p false o s
  let s := s.setLink p { s.link p with failures := (s.link p).failures + 1 }
  if (s.link p).parameters.failLimit ≤ (s.link p).failures then enterDown p f s else makeDecision p s

/-- An exchange in RUNNING ends OK: its outcome goes to the PS and the failure count becomes 0 (R24). -/
def okExchange (p : PortId) (a : Attempt) (e : AttemptEnd) (s : State) : State :=
  let o := outcomeOf (s.link p) a e
  let s := s.setLink p { s.link p with attempt := none, failures := 0 }
  makeDecision p (deliverOutcome p false o s)

/-- The attempt on the line of a port ends: what follows by the link state (R20, R24, R25, R32). -/
def endAttempt (p : PortId) (e : AttemptEnd) (s : State) : State :=
  let le := s.link p
  match le.attempt with
  | none => s
  | some a0 =>
    let a := a0.finished e
    let s := s.setLink p { le with attempt := some a, lastEnd := some s.time }
    match le.state, e with
    | .training, .fault _ =>
      if retriesRemain le a then startRetryGap p .training a s
      else match le.training with
        | some t => trainingExchangeEnd p t e s
        | none => s
    | .training, .ok _ _ _ =>
      match le.training with
      | some t => trainingExchangeEnd p t e s
      | none => s
    | .running, .fault f => if retriesRemain le a then startRetryGap p .retryWait a s else failedExchange p a f s
    | .running, .ok _ _ _ => okExchange p a e s
    | .stopping, _ =>
      finishStopping p (outcomeOf le a e) (s.setLink p { s.link p with attempt := none })
    | _, _ => s

end Sys2Proof.Machine
end

