-- ==== Sys2Proof/Machine/Device.lean ====
section
/-! DEFINITION. Device control and the Host Port's registers: halt, enable, fatal error and device reset (R168 to R172), the
register window and RING_NOTIFY (R163, R164), the MSI-X settings (R167), and the creation and deletion of rings (R103,
R113, R116, R117, R131, R132). -/

namespace Sys2Proof.Machine

/-! ### Creation of rings -/

/-- A request ring is created (R116). -/
def createRq (r : RqId) (base size : Nat) (cr : CrId) (s : State) : State :=
  s.setRq r { RequestRing.initial with state := .active, base := base, size := size, boundCr := some cr }

/-- A completion ring is created (R117). -/
def createCr (r : CrId) (base size : Nat) (vector : VectorId) (count time : Nat) (s : State) : State :=
  s.setCr r { CompletionRing.initial with
    state := .active, base := base, size := size, vector := vector, coalescingCount := count, coalescingTime := time }

/-- A sample ring is created (R103). -/
def createSr (r : SrId) (base size : Nat) (vector : VectorId) (count time low high : Nat) (s : State) : State :=
  s.setSr r { SampleRing.initial with
    state := .active, base := base, size := size, vector := vector, coalescingCount := count, coalescingTime := time,
    lowWater := low, resume := high }

/-! ### Halt and device reset (R169 to R172) -/

/-- The blocks at their halt values: link engines (R34), schedulers (R55), sensor contexts (R73), capture lines (R101),
rings, slots and notices (R114, R133, R150), the admin-in-flight set (R135), interrupt states and pending flags (R166,
R167). Writes issued run to their end and a fetch read in flight is discarded when it ends (R114, R133); the register
window is left to the caller. DESIGN CHOICE: a message that waits behind record writes when the halt comes stays behind them
and comes to its sending when they have ended (assumption 28). -/
def haltBlocks (s : State) : State :=
  { s with
    links := Vector.replicate 8 .initial
    scheds := Vector.replicate 8 .initial
    sensors := Vector.replicate 32 .initial
    lines := s.lines.map fun l => .initial l.input
    rqs := Vector.replicate 8 .initial
    crs := Vector.replicate 8 .initial
    srs := Vector.replicate 4 .initial
    slots := Vector.replicate 32 .initial
    slotOrder := []
    fetch := s.fetch.map fun f => { f with live := false }
    nextIoRing := 1
    notices := []
    axInbox := []
    axInFlight := []
    msix := { s.msix with pending := Vector.replicate 16 false }
    outbox := orphanWrites (fun _ => true) s.outbox
    discarded := [] }

/-- DMA work issued and not yet ended: a record write or a fetch read (R170). -/
def dmaOutstanding (s : State) : Bool := hasRecord s.outbox || s.fetch.isSome

/-- The halt of R169: every block halts and the device enters HALTING; a halt that finds no DMA work outstanding is
complete in the same event (R170). -/
def beginHalt (s : State) : State :=
  let s := haltBlocks s
  { s with window := { s.window with control := if dmaOutstanding s then .halting else .off } }

/-- A fatal error, where it is taken in READY (R171): FATAL set, ENABLE cleared, the halt performed. -/
def fatalError (s : State) : State :=
  if s.window.control = .ready then
    beginHalt { s with window := { s.window with fatal := true, enable := false } }
  else s

/-- The admin registers pass the checks of the enable (R168). -/
def Window.adminValid (w : Window) : Bool :=
  decide (w.adminRqBase.toNat % 64 = 0) && decide (w.adminCrBase.toNat % 32 = 0) &&
    decide (2 ≤ w.rqSize) && decide (w.rqSize ≤ 4096) && decide (2 ≤ w.crSize) && decide (w.crSize ≤ 4096)

/-- An enable is taken in OFF (R168). CTRL.ENABLE reads 1 already. -/
def takeEnable (s : State) : State :=
  let w := { s.window with fatal := false, configError := false }
  if w.adminValid then
    let s := { s with window := { w with control := .ready } }
    let s := createCr 0 w.adminCrBase.toNat w.crSize 0 1 0 s
    createRq 0 w.adminRqBase.toNat w.rqSize 0 s
  else { s with window := { w with configError := true } }

/-- CTRL.ENABLE is written 1 (R168, R170): taken in OFF where it read 0, held in HALTING, nothing where it read 1. -/
def writeEnableOne (s : State) : State :=
  if s.window.enable then s
  else
    let s := { s with window := { s.window with enable := true } }
    if s.window.control = .off then takeEnable s else s

/-- CTRL.ENABLE is written 0 (R168, R169, R170): a halt in READY, a held enable cancelled in HALTING, nothing else. -/
def writeEnableZero (s : State) : State :=
  if !s.window.enable then s
  else
    let s := { s with window := { s.window with enable := false } }
    if s.window.control = .ready then beginHalt s else s

/-- A device reset as a write to CTRL.RESET makes it (R172): every block and register at its reset value, DMA work and
waiting messages abandoned, device time 0, OFF. The configuration space and the MSI-X table are kept. -/
def deviceResetByCtrl (s : State) : State :=
  let h := haltBlocks s
  { h with time := 0, window := .initial, outbox := [], fetch := none }

/-- A device reset by another source resets the configuration space and the MSI-X table along with the function (R172). -/
def deviceResetByFunction (s : State) : State := { deviceResetByCtrl s with msix := .initial }

/-! ### The register window (R163) -/

/-- A 32-bit write to CTRL: RESET wins over ENABLE (R172). -/
def writeCtrl (v : BitVec 32) (s : State) : State :=
  if v.getLsbD 1 then deviceResetByCtrl s
  else if v.getLsbD 0 then writeEnableOne s else writeEnableZero s

/-- A 32-bit write to STATUS: a 1 in BAD_NOTIFY clears it (Table 36). -/
def writeStatus (v : BitVec 32) (s : State) : State :=
  if v.getLsbD 4 then { s with window := { s.window with badNotify := false } } else s

/-- RING_NOTIFY fails a check: ignored, and BAD_NOTIFY is set (R164). -/
def badNotify (s : State) : State := { s with window := { s.window with badNotify := true } }

/-- Check 4 of R164: the new head does not pass the producer. -/
def headPasses (index consumer producer size : Nat) : Bool :=
  decide (unconsumed index consumer size ≤ unconsumed producer consumer size)

/-- RING_NOTIFY of class RQ tail (R164, R115). -/
def notifyRqTail (id index : Nat) (s : State) : State :=
  match toId 8 id with
  | none => badNotify s
  | some r =>
    let d := s.rq r
    if d.state = .absent ∨ d.size ≤ index then badNotify s else s.setRq r { d with tail := index }

/-- RING_NOTIFY of class CR head (R164, R117). -/
def notifyCrHead (id index : Nat) (s : State) : State :=
  match toId 8 id with
  | none => badNotify s
  | some r =>
    let d := s.cr r
    if d.state = .absent ∨ d.size ≤ index ∨ headPasses index d.consumer d.producer d.size = false then badNotify s
    else s.setCr r { d with consumer := index }

/-- RING_NOTIFY of class SR head (R164, R110). -/
def notifySrHead (id index : Nat) (s : State) : State :=
  match toId 4 id with
  | none => badNotify s
  | some r =>
    let d := s.sr r
    if d.state = .absent ∨ d.size ≤ index ∨ headPasses index d.consumer d.producer d.size = false then badNotify s
    else sampleHeadUpdate r index s

/-- A 32-bit write to RING_NOTIFY (Table 38): index in 15:0, ring id in 18:16, class in 21:20; class 3 fails check 1
(R175). -/
def writeRingNotify (v : BitVec 32) (s : State) : State :=
  let index := v.toNat % 65536
  let id := (v.toNat >>> 16) % 8
  match (v.toNat >>> 20) % 4 with
  | 0 => notifyRqTail id index s
  | 1 => notifyCrHead id index s
  | 2 => notifySrHead id index s
  | _ => badNotify s

/-- The low or high word of a 64-bit register replaced. -/
def replaceWord (old : BitVec 64) (high : Bool) (v : BitVec 32) : BitVec 64 :=
  if high then v ++ old.setWidth 32 else (old >>> 32).setWidth 32 ++ v

/-- A write to an admin register is stored while CTRL.ENABLE reads 0 (R163). -/
def writeAdmin (f : Window → Window) (s : State) : State :=
  if s.window.enable then s else { s with window := f s.window }

/-- One message for each vector that is pending and no longer blocked, in ascending vector order; its flag is cleared
(R167). DESIGN CHOICE: the order among several vectors that unblock together (assumption 11). -/
def sendUnblocked (s : State) : State :=
  (List.finRange 16).foldl (fun s v =>
    if s.msix.pending[v] && !s.msix.blocked v then
      messageDue v { s with msix := { s.msix with pending := s.msix.pending.set v false } }
    else s) s

/-- The settings of MSI-X after a host write (R167). -/
def MsixUnit.store (m : MsixUnit) : MsixWrite → MsixUnit
  | .vectorMask v masked => { m with table := m.table.set v { m.table[v] with masked := masked } }
  | .vectorMessage v address data => { m with table := m.table.set v { m.table[v] with address := address, data := data } }
  | .functionMask masked => { m with functionMask := masked }
  | .msixEnable enabled => { m with enabled := enabled }
  | .busMaster enabled => { m with busMaster := enabled }

/-- A host write to the MSI-X table or the configuration space (R167). -/
def writeMsix (w : MsixWrite) (s : State) : State := sendUnblocked { s with msix := s.msix.store w }

/-- The vector whose 16-byte entry an offset of the MSI-X table names; the table begins at 0x1000, a multiple of 256 (R163). -/
def vectorAt (offset : Nat) : VectorId := ⟨offset / 16 % 16, Nat.mod_lt _ (by decide)⟩

/-- A 32-bit write to the MSI-X table of BAR0 (R163; the entry's layout is PRESUMED from the PCIe specification,
assumption 6): message address low and high, message data, and vector control with the mask in bit 0. -/
def writeMsixTable (offset : Nat) (v : BitVec 32) (s : State) : State :=
  let i := vectorAt offset
  let e := s.msix.table[i]
  if offset % 16 = 0 then writeMsix (.vectorMessage i (replaceWord e.address false v) e.data) s
  else if offset % 16 = 4 then writeMsix (.vectorMessage i (replaceWord e.address true v) e.data) s
  else if offset % 16 = 8 then writeMsix (.vectorMessage i e.address v) s
  else if offset % 16 = 12 then writeMsix (.vectorMask i (v.getLsbD 0)) s
  else s

/-- A 32-bit write to BAR0 (R163, Table 36). Writes to read-only words, to offset 0x24 and to offsets from 0x30 upward
outside the MSI-X table are ignored. DESIGN CHOICE (assumption 32): so is a write to the pending-bit array, 0x1800 to 0x1807,
which R163 leaves to the PCIe specification and that specification leaves undefined. -/
def writeWord (offset : Nat) (v : BitVec 32) (s : State) : State :=
  match offset with
  | 0x04 => writeCtrl v s
  | 0x08 => writeStatus v s
  | 0x0C => writeRingNotify v s
  | 0x10 => writeAdmin (fun w => { w with adminRqBase := replaceWord w.adminRqBase false v }) s
  | 0x14 => writeAdmin (fun w => { w with adminRqBase := replaceWord w.adminRqBase true v }) s
  | 0x18 => writeAdmin (fun w => { w with adminCrBase := replaceWord w.adminCrBase false v }) s
  | 0x1C => writeAdmin (fun w => { w with adminCrBase := replaceWord w.adminCrBase true v }) s
  | 0x20 => writeAdmin (fun w => { w with adminSizes := v &&& adminSizesMask }) s
  | _ => if 0x1000 ≤ offset ∧ offset ≤ 0x10FF then writeMsixTable offset v s else s

/-! ### Deletion of rings -/

/-- Every slot of a ring that is in QUEUED or LINK_WAIT, or is ACTIVE, oldest first (R131). -/
def slotsOfRing (r : RqId) (p : SlotState → Bool) (s : State) : List SlotId :=
  s.slotOrder.filter fun k => decide ((s.slot k).rq = r) && p (s.slot k).state

/-- A reference leaves its port queue, the others keeping their order (R46). -/
def dequeue (k : SlotId) (s : State) : State :=
  let p := portOf (s.slot k).sensor
  s.setSched p { s.sched p with queue := (s.sched p).queue.filter fun j => j ≠ k }

/-- A QUEUED or LINK_WAIT slot is ended ABORTED with detail 0 (R129, R131). -/
def abortWaiting (k : SlotId) (s : State) : State := completeSlot k (.plain .aborted) (dequeue k s)

/-- An ACTIVE slot has its abort pending set and its PS is told (R51, R130, R131): a transaction that has yielded to a
round completes ABORTED at once. -/
def markAbort (k : SlotId) (requester : Option SlotId) (s : State) : State :=
  let sl := s.slot k
  let s := s.setSlot k { sl with
    abortPending := true, abortRequester := if sl.abortPending then sl.abortRequester else requester }
  let p := portOf sl.sensor
  let ps := s.sched p
  if ps.active = some k ∧ ps.owner ≠ some .transaction then
    makeDecision p (cutActive p .aborted ps.exchangesDone s)
  else s

/-- A request ring enters DRAINING, and its slots are ended or marked (R131): the QUEUED and LINK_WAIT ones ABORTED, oldest
first. DESIGN CHOICE (assumption 29): the ACTIVE ones are marked after these, oldest first as well, so several that have yielded
to rounds on different ports end ABORTED (R51) in that order, which R51, R131 and R140 leave open. -/
def startDraining (r : RqId) (s : State) : State :=
  let s := s.setRq r { s.rq r with state := .draining, failedEntry := none }
  let waiting := slotsOfRing r (fun st => st == .queued || st == .linkWait) s
  let running := slotsOfRing r (fun st => st == .active) s
  let s := waiting.foldl (fun s k => abortWaiting k s) s
  running.foldl (fun s k => markAbort k none s) s

/-- A completion ring is deleted (R132): descriptor at its initial values, errors of its writes disregarded. -/
def deleteCr (r : CrId) (s : State) : State :=
  let s := s.setCr r .initial
  { s with outbox := orphanWrites (fun w => match w.kind with
      | .completion i _ => i == r
      | _ => false) s.outbox }

/-- A sample ring is deleted (R113). -/
def deleteSr (r : SrId) (s : State) : State :=
  let s := s.setSr r .initial
  { s with outbox := orphanWrites (fun w => match w.kind with
      | .sample i => i == r
      | _ => false) s.outbox }

/-- Some request ring that is not ABSENT names the completion ring (R132). -/
def crInUse (r : CrId) (s : State) : Bool := s.rqs.toList.any fun d => d.state != .absent && d.boundCr == some r

/-- Some sensor that is not UNBOUND names the sample ring (R132). -/
def srInUse (r : SrId) (s : State) : Bool := s.sensors.toList.any fun c => c.state != .unbound && c.ring == r

end Sys2Proof.Machine
end

