-- ==== Sys2Proof/Machine/HostCommands.lean ====
section
/-! DEFINITION. The meanings of the host's register accesses: ENABLE, HALT, RESET, DEVICE_RESET, BAD_NOTIFY_CLEAR, RQ_TAIL,
CR_HEAD, SR_HEAD, TIME_LOW_READ, REGISTER_WRITE and VECTOR_UNBLOCK (chapter 11). -/

namespace Sys2Proof.Machine

/-- The outcome of a step of this machine. -/
abbrev Out := Host.Outcome State Fault Refusal

/-- ENABLE: CTRL is written with ENABLE 1 and RESET 0 (R168, R170). -/
def execEnable (s : State) : Out := .next (writeEnableOne s)

/-- HALT: CTRL is written with ENABLE 0 and RESET 0 (R169, R170). -/
def execHalt (s : State) : Out := .next (writeEnableZero s)

/-- RESET: CTRL is written with RESET 1, whatever the same write carries in ENABLE (R172). -/
def execReset (enableBit : Bool) (s : State) : Out := .next (writeCtrl (BitVec.ofNat 32 (2 + enableBit.toNat)) s)

/-- DEVICE_RESET: every source but CTRL.RESET resets the configuration space and the MSI-X table too (R172). -/
def execDeviceReset (_source : ResetSource) (s : State) : Out := .next (deviceResetByFunction s)

/-- BAD_NOTIFY_CLEAR (R164, Table 36). -/
def execBadNotifyClear (s : State) : Out := .next (writeStatus 16 s)

/-- RQ_TAIL (R164). -/
def execRqTail (id : BitVec 3) (index : BitVec 16) (s : State) : Out := .next (notifyRqTail id.toNat index.toNat s)

/-- CR_HEAD (R164, R117). -/
def execCrHead (id : BitVec 3) (index : BitVec 16) (s : State) : Out := .next (notifyCrHead id.toNat index.toNat s)

/-- SR_HEAD (R164, R110). -/
def execSrHead (id : BitVec 3) (index : BitVec 16) (s : State) : Out := .next (notifySrHead id.toNat index.toNat s)

/-- What a 32-bit read of the MSI-X table returns (R163; the entry's layout is PRESUMED from the PCIe specification,
assumption 6). -/
def MsixUnit.tableWord (m : MsixUnit) (offset : Nat) : BitVec 32 :=
  let e := m.table[vectorAt offset]
  if offset % 16 = 0 then e.address.setWidth 32
  else if offset % 16 = 4 then (e.address >>> 32).setWidth 32
  else if offset % 16 = 8 then e.data
  else if offset % 16 = 12 then BitVec.ofNat 32 e.masked.toNat
  else 0

/-- The pending-bit array: bit v is vector v's pending flag (R163, R167). -/
def MsixUnit.pendingWord (m : MsixUnit) : BitVec 32 :=
  BitVec.ofNat 32 (m.pending.toList.foldr (fun b acc => b.toNat + 2 * acc) 0)

/-- What a 32-bit host read of BAR0 returns (R163, Table 36). The read that latches is TIME_LOW_READ; the others change
nothing. -/
def State.bar0Read (s : State) (offset : Nat) : BitVec 32 :=
  if 0x1000 ≤ offset ∧ offset ≤ 0x10FF then s.msix.tableWord offset
  else if offset = 0x1800 then s.msix.pendingWord
  else s.window.read s.time offset

/-- What reading a word of BAR0 changes: a read of TIME low copies the high 32 bits of the count into the TIME latch (R173);
the other reads change nothing. -/
def State.afterRead (s : State) (offset : Nat) : State :=
  if offset = 0x28 then { s with window := { s.window with timeLatch := (s.time >>> 32).setWidth 32 } } else s

/-- What a host read of BAR0 at the word at an offset returns by its width (R163): the word; the named bytes of it; or the
word and the one after it as two reads, the lower offset first, so that a 64-bit read at 0x28 returns one device time. -/
def State.hostRead (s : State) (offset : Nat) : ReadAccess → BitVec 64
  | .word => (s.bar0Read offset).setWidth 64
  | .bytes first count => BitVec.ofNat 64 (((s.bar0Read offset).toNat >>> (8 * first)) % 2 ^ (8 * count))
  | .quad => (s.afterRead offset).bar0Read (offset + 4) ++ s.bar0Read offset

/-- TIME_LOW_READ: returns the low 32 bits of the count and latches its high 32 bits; the 64-bit read then reads TIME high
(R163, R173). -/
def execTimeLowRead (access : ReadAccess) (s : State) : Out :=
  .next { s.afterRead 0x28 with readData := s.hostRead 0x28 access }

/-- REGISTER_WRITE: a write narrower than 32 bits is ignored; a 64-bit write is two 32-bit writes, the lower offset first
(R163). DESIGN CHOICE (assumption 32): a narrower write to the MSI-X table is ignored as well; R163 says so of the register
window, and leaves access to the table to the PCIe specification, which does not define such a write. -/
def execRegisterWrite (offset : Nat) (width : WriteWidth) (value : BitVec 64) (s : State) : Out :=
  match width with
  | .narrow => .next s
  | .word => .next (writeWord offset (value.setWidth 32) s)
  | .quad => .next (writeWord (offset + 4) ((value >>> 32).setWidth 32) (writeWord offset (value.setWidth 32) s))

/-- VECTOR_UNBLOCK: a host write to the MSI-X table or the configuration space; each vector that ceases to be blocked with
its pending flag set sends one message (R167). -/
def execVectorUnblock (w : MsixWrite) (s : State) : Out := .next (writeMsix w s)

end Sys2Proof.Machine
end

