-- ==== Sys2Proof/Machine/FetchCommands.lean ====
section
/-! DEFINITION. The meanings of FETCH_ISSUE, FETCH_END and FETCH_TIMEOUT: the fetch arbiter, the placing of a fetched
request and the fetch error (R119 to R122, R165). -/

namespace Sys2Proof.Machine

/-- A request ring is eligible for a fetch (R119). -/
def eligible (r : RqId) (s : State) : Bool :=
  let d := s.rq r
  d.state == .active && d.pendingEntries != 0 &&
    allSlots.any (fun k => (s.slot k).state == .free) &&
    decide (d.slotsHeld < Config.slotsPerRing) &&
    (r == 0 || decide (((List.finRange 8).map fun q => if q = 0 then 0 else (s.rq q).slotsHeld).sum
      < Config.slotsOfIoRings)) &&
    (d.boundCr.any fun c => (s.cr c).state == .active && decide (0 < (s.cr c).unreserved))

/-- RQ1 to RQ7 in the cyclic order that begins at `first` (R119). -/
def ioRingsFrom (first : RqId) : List RqId :=
  let io := (List.finRange 8).filter fun r => r ≠ 0
  (io.filter fun r => first ≤ r) ++ io.filter fun r => r < first

/-- The ring the arbiter takes: RQ0 if it is eligible, the first eligible I/O ring in turn otherwise (R119). -/
def chooseRing (s : State) : Option RqId :=
  if eligible 0 s then some 0 else (ioRingsFrom s.nextIoRing).find? fun r => eligible r s

/-- The I/O ring after `r` in the cyclic order RQ1 to RQ7 (R119). -/
def ringAfter (r : RqId) : RqId := if r = 7 then 1 else r + 1

/-- The lowest-numbered FREE slot (R119). -/
def lowestFree (s : State) : Option SlotId := allSlots.find? fun k => (s.slot k).state == .free

/-- Issue a fetch from ring `r`, bound to `c`, into slot `k` (R119): the Host Port takes the read of the entry at the fetch
head (R165). -/
def issueFetch (r : RqId) (c : CrId) (k : SlotId) (s : State) : State :=
  let d := s.rq r
  let q := s.cr c
  let s := s.setRq r { d with slotsHeld := d.slotsHeld + 1 }
  let s := s.setCr c { q with reserved := q.reserved + 1 }
  let s := { s with nextIoRing := if r = 0 then s.nextIoRing else ringAfter r }
  takeRead { rq := r, cr := c, slot := k, entry := d.fetchHead, address := d.base + 64 * d.fetchHead, read := .waiting,
             live := true } s

/-- FETCH_ISSUE (R119). -/
def execFetchIssue (s : State) : Out :=
  match s.fetch, chooseRing s, lowestFree s with
  | none, some r, some k =>
    match (s.rq r).boundCr with
    | some c => .next (issueFetch r c k s)
    | none => .next s
  | _, _, _ => .next s

/-- A fetch read ended in error (R120): the slot, the slots held and the credit return and the fetch head does not
advance. An error on RQ0 is fatal (R171); an ACTIVE I/O ring enters FAULTED with a notice; a DRAINING ring that holds no
slot any more becomes ABSENT (R131). -/
def fetchError (f : Fetch) (s : State) : State :=
  let d := s.rq f.rq
  let q := s.cr f.cr
  let s := s.setCr f.cr { q with reserved := q.reserved - 1 }
  let s := s.setRq f.rq { d with slotsHeld := d.slotsHeld - 1 }
  if f.rq = 0 then fatalError s
  else if d.state = .active then
    let s := s.setRq f.rq { s.rq f.rq with state := .faulted, failedEntry := some f.entry }
    raiseNotice (.rq f.rq) (failedEntryDetail f.entry) s.time s
  else if d.state = .draining ∧ d.slotsHeld - 1 = 0 then
    completeInFlight (.rq f.rq) (.plain .success) (s.setRq f.rq .initial)
  else s

/-- The slot of a fetched request (R121, Table 29). -/
def fetchedSlot (f : Fetch) (e : BitVec 512) : Slot :=
  { Slot.initial with
    rq := f.rq, cr := f.cr, tag := entryTag e, kind := entryKind e, notify := entryFlag e 0, link := entryFlag e 1
    holdPoll := entryFlag e 2, sensor := entrySensor e, body := entryBody e }

/-- The chain state after a request that completes ABORTED or INVALID_KIND at its arrival (R122). -/
def chainAfterRefusal (link : Bool) : ChainState := if link then .broken else .noChain

/-- A request that completes at its arrival, in the event of the fetch's end (R121 cases 1 and 2). -/
def refuseArrival (f : Fetch) (link : Bool) (st : Status) (s : State) : State :=
  completeSlot f.slot (.plain st) (s.setRq f.rq { s.rq f.rq with chain := chainAfterRefusal link })

/-- The placement of an I/O request by its ring's chain state, which then names the new slot if it carries LINK (R122). -/
def placeByChain (f : Fetch) (sl : Slot) (s : State) : State :=
  let chain := (s.rq f.rq).chain
  let s := s.setRq f.rq { s.rq f.rq with chain := if sl.link then .openAt f.slot else .noChain }
  match chain with
  | .noChain => arrive f.slot (s.setSlot f.slot { sl with state := .queued })
  | .openAt k => s.setSlot f.slot { sl with state := .linkWait, predecessor := some k }
  | .broken => completeSlot f.slot (.plain .skipped) s

/-- A fetch read ended without error: the fetch head advances, the slot takes the request, and the request is placed by
the first case that applies (R121). DESIGN CHOICE: an RQ0 request that completes INVALID_KIND leaves RQ0's chain state as it
is, whatever its LINK flag (assumption 26). -/
def fetchArrival (f : Fetch) (e : BitVec 512) (s : State) : State :=
  let d := s.rq f.rq
  let s := s.setRq f.rq { d with fetchHead := (d.fetchHead + 1) % d.size }
  let sl := fetchedSlot f e
  let s := s.setSlot f.slot { sl with state := .active }
  let s := { s with slotOrder := s.slotOrder ++ [f.slot] }
  if d.state = .draining then refuseArrival f sl.link .aborted s
  else if (if f.rq = 0 then isAdminKind sl.kind else isIoKind sl.kind) = false then
    if f.rq = 0 then completeSlot f.slot (.plain .invalidKind) s else refuseArrival f sl.link .invalidKind s
  else if f.rq = 0 then { s with axInbox := s.axInbox ++ [f.slot] }
  else placeByChain f sl s

/-- The fetch in flight ends: discarded after a halt (R133), in error (R120) or without error (R121). -/
def endFetch (f : Fetch) (r : FetchReturn) (s : State) : State :=
  let s := { s with fetch := none }
  if !f.live then s
  else match r with
    | .data e => settle (fetchArrival f e s)
    | .error => settle (fetchError f s)

/-- FETCH_END (R120, R121): a read that was not issued ends in error, whatever the link returns; a read still waiting for its
issue has not ended (R165). -/
def execFetchEnd (r : FetchReturn) (s : State) : Out :=
  match s.fetch with
  | none => .next s
  | some f =>
    match f.read with
    | .waiting => .next s
    | .issued _ => .next (endFetch f r s)
    | .notIssued => .next (endFetch f .error s)

/-- FETCH_TIMEOUT: no completion within 10 ms of the issue, an end in error (R165). -/
def execFetchTimeout (s : State) : Out :=
  match s.fetch with
  | none => .next s
  | some f =>
    match f.read with
    | .issued t =>
      if reached s.time (after t Config.fetchTimeoutTicks) then .next (endFetch f .error s) else .next s
    | .waiting | .notIssued => .next s

end Sys2Proof.Machine
end

