-- ==== Sys2Proof/Machine/AdminCommands.lean ====
section
/-! DEFINITION. The meanings of the sixteen admin requests as the AX carries them out (chapter 9). Each takes the slot the
AX received first (R135) and answers it in the same event unless the request stays in flight (R137) or waits (R130). -/

namespace Sys2Proof.Machine

/-- The AX takes the request it received first, if that is the one in slot `k` and the slot is ACTIVE (R135). -/
def axTake (k : SlotId) (s : State) : Option State :=
  if s.axInbox.head? = some k ∧ (s.slot k).state = .active then some { s with axInbox := s.axInbox.tail } else none

/-- A request stays in flight: an entry naming its object joins the set (R137). -/
def addInFlight (k : SlotId) (kind : InFlightKind) (o : AdminObject) (s : State) : State :=
  { s with axInFlight := s.axInFlight ++ [{ slot := k, kind := kind, object := o }] }

/-- An admin request has its result (R138), which is posted behind what the request has caused. -/
def answer (k : SlotId) (r : Result) (s : State) : State := settle (completeSlot k r (settle s))

/-! ### Rings (R139, R140) -/

/-- The checks of a CREATE_RING of class RQ and its creation (R136, R139). -/
def createRequestRing (k : SlotId) (b : CreateRingBody) (s : State) : State :=
  match toId 8 b.ringId with
  | none => answer k (.plain .invalidField) s
  | some r =>
    if r = 0 then answer k (.plain .invalidField) s
    else if isInFlight (.rq r) s then answer k (.plain .busy) s
    else if (s.rq r).state ≠ .absent then answer k (.plain .wrongState) s
    else match toId 8 b.selector with
      | none => answer k (.plain .invalidField) s
      | some c =>
        if b.base % 64 = 0 ∧ 2 ≤ b.size ∧ b.size ≤ 4096 ∧ c ≠ 0 ∧ (s.cr c).state = .active then
          answer k (.plain .success) (createRq r b.base b.size c s)
        else answer k (.plain .invalidField) s

/-- The checks of a CREATE_RING of class CR and its creation (R139). -/
def createCompletionRing (k : SlotId) (b : CreateRingBody) (s : State) : State :=
  match toId 8 b.ringId with
  | none => answer k (.plain .invalidField) s
  | some r =>
    if r = 0 then answer k (.plain .invalidField) s
    else if (s.cr r).state ≠ .absent then answer k (.plain .wrongState) s
    else match toId 16 b.selector with
      | none => answer k (.plain .invalidField) s
      | some v =>
        if b.base % 32 = 0 ∧ 2 ≤ b.size ∧ b.size ≤ 4096 ∧ 1 ≤ b.coalescingCount ∧ b.coalescingCount ≤ 255
            ∧ b.coalescingTime ≤ 65535 then
          answer k (.plain .success) (createCr r b.base b.size v b.coalescingCount b.coalescingTime s)
        else answer k (.plain .invalidField) s

/-- The checks of a CREATE_RING of class SR and its creation (R139). -/
def createSampleRing (k : SlotId) (b : CreateRingBody) (s : State) : State :=
  match toId 4 b.ringId with
  | none => answer k (.plain .invalidField) s
  | some r =>
    if (s.sr r).state ≠ .absent then answer k (.plain .wrongState) s
    else match toId 16 b.selector with
      | none => answer k (.plain .invalidField) s
      | some v =>
        if b.base % 32 = 0 ∧ 16 ≤ b.size ∧ b.size ≤ 65536 ∧ 1 ≤ b.coalescingCount ∧ b.coalescingCount ≤ 255
            ∧ b.coalescingTime ≤ 65535 ∧ 1 ≤ b.lowWater ∧ b.lowWater < b.resume ∧ b.resume + 1 ≤ b.size then
          answer k (.plain .success)
            (createSr r b.base b.size v b.coalescingCount b.coalescingTime b.lowWater b.resume s)
        else answer k (.plain .invalidField) s

/-- CREATE_RING (R139). -/
def execCreateRing (k : SlotId) (s : State) : Out :=
  match axTake k s, (s.slot k).body with
  | some s, .createRing b =>
    match b.ringClass with
    | 0 => .next (createRequestRing k b s)
    | 1 => .next (createCompletionRing k b s)
    | 2 => .next (createSampleRing k b s)
    | _ => .next (answer k (.plain .invalidField) s)
  | _, _ => .next s

/-- A DELETE_RING of a request ring (R131, R140). -/
def deleteRequestRing (k : SlotId) (id : Nat) (s : State) : State :=
  match toId 8 id with
  | none => answer k (.plain .invalidField) s
  | some r =>
    if r = 0 then answer k (.plain .invalidField) s
    else if isInFlight (.rq r) s then answer k (.plain .busy) s
    else if (s.rq r).state = .absent then answer k (.plain .notFound) s
    else if (s.rq r).slotsHeld = 0 then answer k (.plain .success) (s.setRq r .initial)
    else settle (startDraining r (addInFlight k .deleteRing (.rq r) s))

/-- A DELETE_RING of a completion ring (R132, R140). -/
def deleteCompletionRing (k : SlotId) (id : Nat) (s : State) : State :=
  match toId 8 id with
  | none => answer k (.plain .invalidField) s
  | some r =>
    if r = 0 then answer k (.plain .invalidField) s
    else if (s.cr r).state = .absent then answer k (.plain .notFound) s
    else if crInUse r s then answer k (.plain .inUse) s
    else answer k (.plain .success) (deleteCr r s)

/-- A DELETE_RING of a sample ring (R113, R132, R140). -/
def deleteSampleRing (k : SlotId) (id : Nat) (s : State) : State :=
  match toId 4 id with
  | none => answer k (.plain .invalidField) s
  | some r =>
    if (s.sr r).state = .absent then answer k (.plain .notFound) s
    else if srInUse r s then answer k (.plain .inUse) s
    else answer k (.plain .success) (deleteSr r s)

/-- DELETE_RING (R140). -/
def execDeleteRing (k : SlotId) (s : State) : Out :=
  match axTake k s, (s.slot k).body with
  | some s, .deleteRing ringClass id =>
    match ringClass with
    | 0 => .next (deleteRequestRing k id s)
    | 1 => .next (deleteCompletionRing k id s)
    | 2 => .next (deleteSampleRing k id s)
    | _ => .next (answer k (.plain .invalidField) s)
  | _, _ => .next s

/-! ### Ports (R141 to R143) -/

/-- An admin request that names a port: the checks of R136, then its effect. -/
def onPort (k : SlotId) (id : Nat) (effect : PortId → State → State) (s : State) : State :=
  match toId 8 id with
  | none => answer k (.plain .invalidField) s
  | some p => if isInFlight (.port p) s then answer k (.plain .busy) s else effect p s

/-- The seven parameters of a PORT_CONFIG, where each lies in its range of Table 11 (R17). -/
def PortConfigBody.parameters (b : PortConfigBody) : Option PortParameters :=
  match bitRateOfCode b.bitRate with
  | none => none
  | some rate =>
    if 50 ≤ b.cyclePeriod ∧ b.cyclePeriod ≤ 65535 ∧ 2 ≤ b.responseWindow ∧ b.responseWindow ≤ 255
        ∧ b.retryLimit ≤ 7 ∧ 1 ≤ b.retryGap ∧ b.retryGap ≤ 255 ∧ 1 ≤ b.failLimit ∧ b.failLimit ≤ 15
        ∧ b.retrainInterval ≤ 255 then
      some { bitRate := rate, cyclePeriod := b.cyclePeriod, responseWindow := b.responseWindow
             retryLimit := b.retryLimit, retryGap := b.retryGap, failLimit := b.failLimit
             retrainInterval := b.retrainInterval }
    else none

/-- The LE takes a PORT_CONFIG (R17): in DISABLED or DOWN all seven parameters are replaced; in DOWN the retrain timer
restarts with a nonzero interval and stops with 0. -/
def takePortConfig (k : SlotId) (b : PortConfigBody) (p : PortId) (s : State) : State :=
  let le := s.link p
  if le.state ≠ .disabled ∧ le.state ≠ .down then answer k (.plain .wrongState) s
  else match b.parameters with
    | none => answer k (.plain .invalidField) s
    | some q =>
      let timer := if le.state = .down ∧ q.retrainInterval ≠ 0 then
          some (after s.time (q.retrainInterval * Config.ticksPerMillisecond)) else none
      answer k (.plain .success) (s.setLink p { le with parameters := q, retrainTimer := timer })

/-- PORT_CONFIG (R141). -/
def execPortConfig (k : SlotId) (s : State) : Out :=
  match axTake k s, (s.slot k).body with
  | some s, .portConfig b => .next (onPort k b.port (takePortConfig k b) s)
  | _, _ => .next s

/-- The LE takes a PORT_START, by the link state (R18, R142). -/
def takePortStart (k : SlotId) (p : PortId) (s : State) : State :=
  let le := s.link p
  match le.state with
  | .disabled | .down => addInFlight k .portStart (.port p) (enterTraining p .start s)
  | .training =>
    addInFlight k .portStart (.port p)
      (s.setLink p { le with training := le.training.map fun t => { t with origin := .start } })
  | .running | .retryWait => answer k (.plain .wrongState) s
  | .stopping => answer k (.plain .busy) s

/-- PORT_START (R142). -/
def execPortStart (k : SlotId) (s : State) : Out :=
  match axTake k s, (s.slot k).body with
  | some s, .portStart port => .next (onPort k port (takePortStart k) s)
  | _, _ => .next s

/-- What becomes of the exchange in progress on entry to STOPPING with no attempt on the line (R31 step 5): one that has
made an attempt ends as failed with its last link fault and is treated by R32; one that has made none is withdrawn. -/
def endStoppedExchange (p : PortId) (a : Attempt) (s : State) : State :=
  let le := s.link p
  let o := outcomeOf le a (.fault (a.lastFault.getD .noResponse))
  let s := s.setLink p { le with attempt := none }
  if a.tags = [] then
    match (s.sched p).owner with
    | some .transaction =>
      let s := s.setSched p { s.sched p with owner := none }
      cutActive p .portStopped (s.sched p).exchangesDone s
    | _ => s.setSched p { s.sched p with owner := none }
  else deliverOutcome p true o s

/-- A PORT_STOP in RUNNING, RETRY_WAIT or TRAINING (R31, R143): the entry actions of STOPPING, then DISABLED in the same
event unless an attempt is on the line. -/
def stopPort (k : SlotId) (p : PortId) (s : State) : State :=
  let s := s.setLink p { s.link p with state := .stopping, training := none, retryGapTimer := none }
  let s := s.setSched p (s.sched p).leaveRunning
  let s := flushPort p .portStopped s
  let s := suspendPort p s
  match (s.link p).attempt with
  | none => answer k (.plain .success) (enterDisabled p s)
  | some a =>
    if a.phase = .between then answer k (.plain .success) (enterDisabled p (endStoppedExchange p a s))
    else settle (addInFlight k .portStop (.port p) s)

/-- The LE takes a PORT_STOP, by the link state (R30, R31, R143). -/
def takePortStop (k : SlotId) (p : PortId) (s : State) : State :=
  match (s.link p).state with
  | .disabled => answer k (.plain .success) s
  | .down => answer k (.plain .success) (enterDisabled p s)
  | .running | .retryWait | .training => stopPort k p s
  | .stopping => answer k (.plain .busy) s

/-- PORT_STOP (R143). -/
def execPortStop (k : SlotId) (s : State) : Out :=
  match axTake k s, (s.slot k).body with
  | some s, .portStop port => .next (onPort k port (takePortStop k) s)
  | _, _ => .next s

/-! ### Sensors (R60 to R65, R144) -/

/-- An admin request that names a sensor (R136). -/
def onSensor (k : SlotId) (id : Nat) (effect : SensorId → State → State) (s : State) : State :=
  match toId 32 id with
  | none => answer k (.plain .invalidField) s
  | some n => effect n s

/-- The field checks of a SENSOR_BIND (R60 check 3), and the context that its nine values and the identity word make, with
the acquisition state clear and the held queue discarded (R61). -/
def boundContext (b : BindBody) (word : BitVec 32) (s : State) : Option Sensor :=
  match toId 4 b.ring, turnModeOfCode b.turnMode, confirmOfCode b.confirm with
  | some ring, some mode, some confirm =>
    if (s.sr ring).writable = true ∧ (mode = .sensor → 0 < wordMt word) ∧ (confirm = .repeat → wordRepeat word = true)
        ∧ b.jumpLimit ≤ 16777215 ∧ 1 ≤ b.rejectLimit ∧ b.rejectLimit ≤ 15 ∧ b.scale ≠ 0 ∧ inSigned48 b.offset = true
        ∧ 1 ≤ b.decimation ∧ b.decimation ≤ 256 ∧ b.captureMask < 16 then
      some { Sensor.initial with
        state := .bound, identity := word, ring := ring, turnMode := mode, confirm := confirm
        jumpLimit := b.jumpLimit, rejectLimit := b.rejectLimit, scale := b.scale, offset := b.offset
        decimation := b.decimation, captureMask := BitVec.ofNat 4 b.captureMask }
    else none
  | _, _, _ => none

/-- The SP takes a SENSOR_BIND: state, slave, fields (R60); on SUCCESS the data carry the bound identity (R144). -/
def takeBind (k : SlotId) (b : BindBody) (n : SensorId) (s : State) : State :=
  let c := s.sensor n
  let e := s.identityOf n
  if c.state ≠ .unbound ∧ c.state ≠ .bound then answer k (.plain .wrongState) s
  else if !e.present then answer k (.plain .noSlave) s
  else match boundContext b e.word s with
    | none => answer k (.plain .invalidField) s
    | some c' =>
      answer k { status := .success, detail := 0, data := BitVec.ofNat 128 e.word.toNat } (s.setSensor n c')

/-- SENSOR_BIND (R60, R61). -/
def execSensorBind (k : SlotId) (s : State) : Out :=
  match axTake k s, (s.slot k).body with
  | some s, .sensorBind b => .next (onSensor k b.sensor (takeBind k b) s)
  | _, _ => .next s

/-- The SP takes a SENSOR_UNBIND (R62). -/
def takeUnbind (k : SlotId) (n : SensorId) (s : State) : State :=
  match (s.sensor n).state with
  | .bound | .faulted => answer k (.plain .success) (s.setSensor n .initial)
  | .acquiring | .waiting => answer k (.plain .wrongState) s
  | .unbound => answer k (.plain .success) s

/-- SENSOR_UNBIND (R62). -/
def execSensorUnbind (k : SlotId) (s : State) : Out :=
  match axTake k s, (s.slot k).body with
  | some s, .sensorUnbind sensor => .next (onSensor k sensor (takeUnbind k) s)
  | _, _ => .next s

/-- The acquisition state cleared by a START; the configuration, the sequence number and the held queue are kept (R64). -/
def Sensor.started (c : Sensor) (st : SensorState) : Sensor :=
  { c with
    state := st, last := .initial, extendedTurn := 0, rejects := 0, decimationCounter := 0, missed := 0, rejected := 0
    withheld := 0, captures := Vector.replicate 4 none, cause := .none }

/-- The state a START enters, by the port's link state and the slave's entry (R63). -/
def startState (link : LinkState) (present : Bool) : SensorState :=
  match link, present with
  | .running, true => .acquiring
  | .retryWait, true => .acquiring
  | _, _ => .waiting

/-- The SP takes a SENSOR_START (R63, R64); on SUCCESS the data carry the state entered (R144). -/
def takeStart (k : SlotId) (n : SensorId) (s : State) : State :=
  let c := s.sensor n
  let e := s.identityOf n
  if c.state ≠ .bound ∧ c.state ≠ .faulted then answer k (.plain .wrongState) s
  else if e.present = true ∧ sameIdentity e.word c.identity = false then answer k (.plain .wrongState) s
  else if c.held.length = Config.heldPerSensor then answer k (.plain .wrongState) s
  else
    let st := startState (s.link (portOf n)).state e.present
    let c' := c.started st
    let s := postRecord (markRecord n c' .start .none s.time false) (s.setSensor n c')
    answer k { status := .success, detail := 0, data := BitVec.ofNat 128 st.code } s

/-- SENSOR_START (R63). -/
def execSensorStart (k : SlotId) (s : State) : Out :=
  match axTake k s, (s.slot k).body with
  | some s, .sensorStart sensor => .next (onSensor k sensor (takeStart k) s)
  | _, _ => .next s

/-- A sensor is stopped: acquisition left, BOUND, fault cause NONE, MARK STOP (R65, R58). -/
def stopSensor (n : SensorId) (s : State) : State :=
  let c := s.sensor n
  let mark := markRecord n c .stop .none s.time (dropsCaptures c)
  let s := leaveAcquisition n s
  let s := s.setSensor n { s.sensor n with state := .bound, cause := .none }
  postRecord mark s

/-- The SP takes a SENSOR_STOP (R65). -/
def takeStop (k : SlotId) (n : SensorId) (s : State) : State :=
  match (s.sensor n).state with
  | .acquiring | .waiting | .faulted => answer k (.plain .success) (stopSensor n s)
  | .bound => answer k (.plain .success) s
  | .unbound => answer k (.plain .wrongState) s

/-- SENSOR_STOP (R65). -/
def execSensorStop (k : SlotId) (s : State) : Out :=
  match axTake k s, (s.slot k).body with
  | some s, .sensorStop sensor => .next (onSensor k sensor (takeStop k) s)
  | _, _ => .next s

/-! ### Capture lines (R93 to R95, R145) -/

/-- An admin request that names a line (R136). -/
def onLine (k : SlotId) (id : Nat) (effect : LineId → State → State) (s : State) : State :=
  match toId 4 id with
  | none => answer k (.plain .invalidField) s
  | some l => effect l s

/-- Edge select and filter are replaced together; the recognised level and a qualification in progress are kept, and the
qualification is measured against the new length from now on (R93). -/
def CaptureLine.configure (c : CaptureLine) (e : EdgeSelect) (filter : Nat) (now : Time) : CaptureLine :=
  { c with
    edgeSelect := e, filter := filter
    qualification := c.qualification.map fun q => { q with configured := some now } }

/-- The CU takes a CAPTURE_CONFIG (R93): fields, then the line must be DISARMED. -/
def takeCaptureConfig (k : SlotId) (edgeSelect filter : Nat) (l : LineId) (s : State) : State :=
  match edgeSelectOfCode edgeSelect with
  | none => answer k (.plain .invalidField) s
  | some e =>
    if 255 < filter then answer k (.plain .invalidField) s
    else if (s.line l).arm ≠ .disarmed then answer k (.plain .wrongState) s
    else answer k (.plain .success) (s.setLine l ((s.line l).configure e filter s.time))

/-- CAPTURE_CONFIG (R93). -/
def execCaptureConfig (k : SlotId) (s : State) : Out :=
  match axTake k s, (s.slot k).body with
  | some s, .captureConfig line edgeSelect filter => .next (onLine k line (takeCaptureConfig k edgeSelect filter) s)
  | _, _ => .next s

/-- The line takes an arming (R94). -/
def armLine (l : LineId) (mode : ArmState) (ref : Option CaptureReference) (s : State) : State :=
  s.setLine l { s.line l with arm := mode, armTime := some s.time, reference := ref }

/-- The CU takes a CAPTURE_ARM (R94): fields, mode, reference sensor. The reference is read only when the reference present
field is 1 (Table 40). -/
def takeCaptureArm (k : SlotId) (b : ArmBody) (l : LineId) (s : State) : State :=
  match armModeOfCode b.mode with
  | none => answer k (.plain .invalidField) s
  | some mode =>
    if b.referencePresent = 0 then answer k (.plain .success) (armLine l mode none s)
    else if b.referencePresent ≠ 1 then answer k (.plain .invalidField) s
    else match toId 32 b.referenceSensor with
      | none => answer k (.plain .invalidField) s
      | some n =>
        if inSigned48 b.referencePosition = false then answer k (.plain .invalidField) s
        else if mode = .continuous then answer k (.plain .invalidField) s
        else if (s.sensor n).state = .unbound then answer k (.plain .wrongState) s
        else if (s.sensor n).captureMask.getLsbD l.val = false then answer k (.plain .invalidField) s
        else answer k (.plain .success)
          (armLine l mode (some { sensor := n, position := b.referencePosition }) s)

/-- CAPTURE_ARM (R94). -/
def execCaptureArm (k : SlotId) (s : State) : Out :=
  match axTake k s, (s.slot k).body with
  | some s, .captureArm b => .next (onLine k b.line (takeCaptureArm k b) s)
  | _, _ => .next s

/-- A line becomes DISARMED, its arm time and reference absent (R95, R96). -/
def CaptureLine.disarmed (c : CaptureLine) : CaptureLine :=
  { c with arm := .disarmed, armTime := none, reference := none }

/-- The CU takes a CAPTURE_DISARM (R95). -/
def takeCaptureDisarm (k : SlotId) (l : LineId) (s : State) : State :=
  answer k (.plain .success) (s.setLine l (s.line l).disarmed)

/-- CAPTURE_DISARM (R95). -/
def execCaptureDisarm (k : SlotId) (s : State) : Out :=
  match axTake k s, (s.slot k).body with
  | some s, .captureDisarm line => .next (onLine k line (takeCaptureDisarm k) s)
  | _, _ => .next s

/-! ### Queries (R147 to R149) -/

/-- QUERY_PORT (R147). -/
def execQueryPort (k : SlotId) (s : State) : Out :=
  match axTake k s, (s.slot k).body with
  | some s, .queryPort port => .next (onPort k port (fun p s => answer k (queryPortResult (s.link p)) s) s)
  | _, _ => .next s

/-- QUERY_SENSOR (R148). -/
def execQuerySensor (k : SlotId) (s : State) : Out :=
  match axTake k s, (s.slot k).body with
  | some s, .querySensor sensor => .next (onSensor k sensor (fun n s => answer k (querySensorResult (s.sensor n)) s) s)
  | _, _ => .next s

/-- The ring states of a QUERY_DEVICE: RQ0 to RQ7, CR0 to CR7, SR0 to SR3 (Table 43). -/
def ringStateCodes (s : State) : List Nat :=
  s.rqs.toList.map (fun d => d.state.code) ++ s.crs.toList.map (fun d => d.state.code)
    ++ s.srs.toList.map (fun d => d.state.code)

/-- QUERY_DEVICE (R149). -/
def execQueryDevice (k : SlotId) (s : State) : Out :=
  match axTake k s, (s.slot k).body with
  | some s, .queryDevice => .next (answer k (queryDeviceResult s.time (slotsInUse s) (ringStateCodes s)) s)
  | _, _ => .next s

/-! ### Abort (R128 to R130, R146) -/

/-- The oldest slot of a ring with a tag that is LINK_WAIT, QUEUED or ACTIVE (R128). -/
def abortTarget (r : RqId) (tag : BitVec 16) (s : State) : Option SlotId :=
  s.slotOrder.find? fun k =>
    let sl := s.slot k
    decide (sl.rq = r) && decide (sl.tag = tag) && (sl.state == .linkWait || sl.state == .queued || sl.state == .active)

/-- An ABORT of a QUEUED or LINK_WAIT target (R129): the target is answered ABORTED, then the ABORT SUCCESS; a chain state
that names the target becomes BROKEN. -/
def abortNow (k target : SlotId) (tag : BitVec 16) (s : State) : State :=
  let r := (s.slot target).rq
  let s := abortWaiting target s
  let s := if (s.rq r).chain = .openAt target then s.setRq r { s.rq r with chain := .broken } else s
  answer k (abortResult .success tag target) s

/-- The RM takes an ABORT (R128). -/
def takeAbort (k : SlotId) (r : RqId) (tag : BitVec 16) (s : State) : State :=
  if r = 0 then answer k (.plain .invalidField) s
  else match abortTarget r tag s with
    | none => answer k (.plain .notFound) s
    | some t =>
      if (s.slot t).state = .active then
        if (s.slot t).abortPending then answer k (.plain .busy) s else settle (markAbort t (some k) s)
      else abortNow k t tag s

/-- ABORT (R146). -/
def execAbort (k : SlotId) (s : State) : Out :=
  match axTake k s, (s.slot k).body with
  | some s, .abort ring tag =>
    match toId 8 ring with
    | none => .next (answer k (.plain .invalidField) s)
    | some r => .next (if isInFlight (.rq r) s then answer k (.plain .busy) s else takeAbort k r tag s)
  | _, _ => .next s

end Sys2Proof.Machine
end

