-- ==== Sys2Proof/Machine/LinkCommands.lean ====
section
/-! DEFINITION. The meanings of the events of a port: ATTEMPT_BEGIN, REQUEST_FRAME_SENT, START_PATTERN_SEEN, RESPONSE_FRAME,
RESPONSE_WINDOW_EXPIRY, RETRY_GAP_EXPIRY, RETRAIN_TIMER_EXPIRY and CYCLE_TIMER_EXPIRY (chapters 1 to 3). -/

namespace Sys2Proof.Machine

/-- The turnaround gap has elapsed since the end of the port's last attempt; a port that has made none begins at once (R4,
R19). -/
def gapElapsed (le : LinkEngine) (now : Time) : Bool :=
  le.lastEnd.all fun t => reached now (after t (bitTicks le.parameters.bitRate Config.turnaroundBits))

/-- The next attempt may begin: an exchange stands BETWEEN in RUNNING or TRAINING, no retry gap runs, and the turnaround
gap has elapsed (R4, R20, R24, R26). -/
def mayBegin (le : LinkEngine) (a : Attempt) (now : Time) : Bool :=
  a.phase == .between && (le.state == .running || le.state == .training) && le.retryGapTimer.isNone &&
    gapElapsed le now

/-- An attempt begins (R5, R9): it takes the counter's value as its tag, the counter advances modulo 8, the request time is
recorded, and the request frame goes onto the line with driver-enable raised (R2). -/
def beginAttempt (le : LinkEngine) (a : Attempt) (now : Time) : LinkEngine :=
  { le with
    tagCounter := le.tagCounter + 1
    attempt := some { a with tags := a.tags ++ [le.tagCounter], requestTime := now, phase := .sending }
    driverEnable := true
    lineOut := requestFrame a.address a.kind le.tagCounter a.register a.data }

/-- ATTEMPT_BEGIN (R5). -/
def execAttemptBegin (p : PortId) (s : State) : Out :=
  let le := s.link p
  match le.attempt with
  | none => .next s
  | some a => if mayBegin le a s.time then .next (s.setLink p (beginAttempt le a s.time)) else .next s

/-- The request frame has been on the line for its length (R2, R5). -/
def frameSent (le : LinkEngine) (a : Attempt) (now : Time) : Bool :=
  a.phase == .sending && reached now (after a.requestTime (bitTicks le.parameters.bitRate a.kind.requestBits))

/-- The last CRC bit is sent (R2, R5, R10): driver-enable falls, the attempt enters LISTENING, the response window starts. -/
def startListening (le : LinkEngine) (a : Attempt) (now : Time) : LinkEngine :=
  { le with
    attempt := some { a with
      phase := .listening
      windowEnd := some (after now (le.parameters.responseWindow * Config.ticksPerMicrosecond))
      listeningSince := some now }
    driverEnable := false
    lineOut := [] }

/-- REQUEST_FRAME_SENT (R5). -/
def execRequestFrameSent (p : PortId) (s : State) : Out :=
  let le := s.link p
  match le.attempt with
  | none => .next s
  | some a => if frameSent le a s.time then .next (s.setLink p (startListening le a s.time)) else .next s

/-- A start pattern whose two bits end now counts as seen within the window when the line has been watched for both of them
(R3), and it began no later than the window's expiry (R11). -/
def seenInWindow (le : LinkEngine) (a : Attempt) (now : Time) : Bool :=
  a.phase == .listening &&
    (a.listeningSince.any fun t => reached now (after t (bitTicks le.parameters.bitRate 2))) &&
    a.windowEnd.any fun w => reached (after w (bitTicks le.parameters.bitRate 2)) now

/-- START_PATTERN_SEEN: the attempt enters RECEIVING (R3, R11). -/
def execStartPatternSeen (p : PortId) (s : State) : Out :=
  let le := s.link p
  match le.attempt with
  | none => .next s
  | some a =>
    if seenInWindow le a s.time then
      .next (s.setLink p { le with
        attempt := some { a with phase := .receiving, listeningSince := none, frameStart := some s.time } })
    else .next s

/-- The frame being received has been counted to its end (R3). -/
def frameCounted (le : LinkEngine) (a : Attempt) (now : Time) : Bool :=
  a.phase == .receiving &&
    a.frameStart.any fun t => reached now (after t (bitTicks le.parameters.bitRate (a.kind.responseBits - 2)))

/-- A late response is discarded (R11, R12): the attempt returns to LISTENING if the window has not expired, and ends
NO_RESPONSE otherwise. The line was not watched while the frame was received (R3). -/
def discardLate (p : PortId) (a : Attempt) (s : State) : State :=
  if expired s.time a.windowEnd then endAttempt p (.fault .noResponse) s
  else s.setLink p { s.link p with
    attempt := some { a with phase := .listening, listeningSince := some s.time, frameStart := none } }

/-- RESPONSE_FRAME: the frame is checked as R12 specifies, and the attempt ends or continues (R11). -/
def execResponseFrame (p : PortId) (bits : List Bool) (s : State) : Out :=
  let le := s.link p
  match le.attempt with
  | none => .next s
  | some a =>
    if frameCounted le a s.time then
      match classify a (receivedBits a.kind bits) with
      | .ended e => .next (settle (endAttempt p e s))
      | .late => .next (settle (discardLate p a s))
    else .next s

/-- The attempt is LISTENING and its response window has expired (R11). -/
def windowOver (a : Attempt) (now : Time) : Bool := a.phase == .listening && expired now a.windowEnd

/-- RESPONSE_WINDOW_EXPIRY: a LISTENING attempt ends NO_RESPONSE; one that is RECEIVING is not touched (R11). -/
def execResponseWindowExpiry (p : PortId) (s : State) : Out :=
  match (s.link p).attempt with
  | none => .next s
  | some a => if windowOver a s.time then .next (settle (endAttempt p (.fault .noResponse) s)) else .next s

/-- RETRY_GAP_EXPIRY: RETRY_WAIT returns to RUNNING; a training stays in TRAINING (R20, R26). -/
def execRetryGapExpiry (p : PortId) (s : State) : Out :=
  let le := s.link p
  if expired s.time le.retryGapTimer then
    .next (s.setLink p { le with
      retryGapTimer := none, state := if le.state = .retryWait then .running else le.state })
  else .next s

/-- RETRAIN_TIMER_EXPIRY: a DOWN link enters TRAINING with origin RETRAIN (R30). -/
def execRetrainTimerExpiry (p : PortId) (s : State) : Out :=
  let le := s.link p
  if le.state = .down ∧ expired s.time le.retrainTimer = true then .next (enterTraining p .retrain s) else .next s

/-- A missed reading for each sensor of the port that is ACQUIRING, in ascending sensor id (R39). -/
def missAll (p : PortId) (s : State) : State := (acquiringOf p s).foldl (fun s n => missReading n s) s

/-- The four cases of Table 14 (R38). -/
def cycleExpiry (p : PortId) (s : State) : State :=
  let ps := s.sched p
  if ps.round ≠ .none then missAll p s
  else if ps.hold then missAll p s
  else if ps.owner = some .transaction then s.setSched p { ps with round := .due, lateMark := some true }
  else makeDecision p (startRound p false s)

/-- CYCLE_TIMER_EXPIRY: the timer reloads from its own expiry time, and Table 14 applies (R37, R38). -/
def execCycleTimerExpiry (p : PortId) (s : State) : Out :=
  let ps := s.sched p
  match ps.cycleTimer with
  | none => .next s
  | some t =>
    if reached s.time t then
      .next (settle (cycleExpiry p (s.setSched p { ps with
        cycleTimer := some (after t (ps.periodInForce * Config.ticksPerMicrosecond)) })))
    else .next s

end Sys2Proof.Machine
end

