-- ==== Sys2Proof/Machine/TransactionCommands.lean ====
section
/-! DEFINITION. The meanings of the five I/O transactions (chapter 10). The command of a kind is the end of an attempt of its
transaction's exchange, with what the slave answered or the link fault: at the end of an exchange the transaction acts on
the outcome as R156 to R159 give (assumption 2). RESPONSE_FRAME and RESPONSE_WINDOW_EXPIRY bring about the same event from
the bits and the timer of the line. -/

namespace Sys2Proof.Machine

/-- The exchange in progress on the sensor's port belongs to the ACTIVE transaction in slot `k`. -/
def ownsExchange (k : SlotId) (s : State) : Bool :=
  let ps := s.sched (portOf (s.slot k).sensor)
  (s.slot k).state == .active && ps.active == some k && ps.owner == some .transaction

/-- The attempt on the line can end with `e` now: by a frame counted to its end that has the form its kind calls for, or by
the expiry of its window (R11, R12). A frame has the tag of no attempt only where some tag is still free, which in the eighth
attempt none is (R12). -/
def canEnd (le : LinkEngine) (a : Attempt) (e : AttemptEnd) (now : Time) : Bool :=
  match e with
  | .ok _ _ payload => frameCounted le a now && payloadFits a.kind payload
  | .fault .noResponse => windowOver a now
  | .fault .tagMismatch => frameCounted le a now && a.hasFreeTag
  | .fault _ => frameCounted le a now

/-- The attempt of the transaction in slot `k` ends with `e`. -/
def transactionAttempt (k : SlotId) (e : AttemptEnd) (s : State) : State :=
  let p := portOf (s.slot k).sensor
  match (s.link p).attempt with
  | none => s
  | some a => if ownsExchange k s && canEnd (s.link p) a e s.time then settle (endAttempt p e s) else s

/-- REG_READ (R156). -/
def execRegRead (k : SlotId) (e : AttemptEnd) (s : State) : Out :=
  match (s.slot k).body with
  | .regRead _ _ => .next (transactionAttempt k e s)
  | _ => .next s

/-- REG_WRITE (R156). -/
def execRegWrite (k : SlotId) (e : AttemptEnd) (s : State) : Out :=
  match (s.slot k).body with
  | .regWrite _ _ _ => .next (transactionAttempt k e s)
  | _ => .next s

/-- READ_POSITION (R158). -/
def execReadPosition (k : SlotId) (e : AttemptEnd) (s : State) : Out :=
  match (s.slot k).body with
  | .readPosition => .next (transactionAttempt k e s)
  | _ => .next s

/-- SET_POSITION (R159). -/
def execSetPosition (k : SlotId) (e : AttemptEnd) (s : State) : Out :=
  match (s.slot k).body with
  | .setPosition _ => .next (transactionAttempt k e s)
  | _ => .next s

/-- SLAVE_RESET (R157). -/
def execSlaveReset (k : SlotId) (e : AttemptEnd) (s : State) : Out :=
  match (s.slot k).body with
  | .slaveReset => .next (transactionAttempt k e s)
  | _ => .next s

end Sys2Proof.Machine
end

