-- ==== Sys2Proof/Machine/CaptureCommands.lean ====
section
/-! DEFINITION. The meanings of CAPTURE_INPUT_TRANSITION and TRANSITION_RECOGNISED (R91, R92, R96). -/

namespace Sys2Proof.Machine

/-- The line's context after its input is sampled at a level (R91): a sample at the level opposite to the recognised level
starts a qualification, a sample back at the recognised level abandons the one in progress. -/
def CaptureLine.sampled (c : CaptureLine) (level : Bool) (now : Time) : CaptureLine :=
  if level = c.recognised then { c with input := level, qualification := none }
  else match c.qualification with
    | none => { c with input := level, qualification := some { level := level, since := now, configured := none } }
    | some _ => { c with input := level }

/-- CAPTURE_INPUT_TRANSITION (R91). -/
def execCaptureInputTransition (l : LineId) (level : Bool) (s : State) : Out :=
  .next (s.setLine l ((s.line l).sampled level s.time))

/-- The qualification has held its candidate level for the filter's length of ticks (R91), and no CAPTURE_CONFIG has been
taken during it at this tick: where the level had already held for the new length, the transition is recognised at the
tick after the request (R93). -/
def CaptureLine.qualified (c : CaptureLine) (q : Qualification) (now : Time) : Bool :=
  reached now (after q.since c.filter) && q.configured.all fun t => reached now (after t 1)

/-- A recognised transition to `level` matches the edge select (R92). -/
def EdgeSelect.isEdge (e : EdgeSelect) (level : Bool) : Bool :=
  match e with
  | .rising => level
  | .falling => !level
  | .both => true

/-- An edge is acted on when the line is armed and the edge time is at or after the arm time (R96). -/
def CaptureLine.actsOn (c : CaptureLine) (q : Qualification) : Bool :=
  c.edgeSelect.isEdge q.level && c.arm != .disarmed && c.armTime.any fun t => decide (t ≤ q.since)

/-- A transition is recognised (R91, R92, R96): the recognised level becomes the candidate; an edge that is acted on goes
to the SP, and a ONCE line is then DISARMED. -/
def recognise (l : LineId) (q : Qualification) (s : State) : State :=
  let c := s.line l
  let c' := { c with recognised := q.level, qualification := none }
  let s := s.setLine l c'
  if c.actsOn q then
    let s := edgeEvent l q.since (if c.arm = .once then c.reference else none) s
    if c.arm = .once then s.setLine l c'.disarmed else s
  else s

/-- TRANSITION_RECOGNISED (R91). -/
def execTransitionRecognised (l : LineId) (s : State) : Out :=
  match (s.line l).qualification with
  | none => .next s
  | some q => if (s.line l).qualified q s.time then .next (recognise l q s) else .next s

end Sys2Proof.Machine
end

