-- ==== Sys2Proof/Machine/DeliveryCommands.lean ====
section
/-! DEFINITION. The meanings of SAMPLE_WRITE_END, COMPLETION_WRITE_END, NOTICE_WRITE, COALESCING_TIMER_EXPIRY and
HALT_COMPLETE (R112, R125, R126, R153, R166, R170). -/

namespace Sys2Proof.Machine

/-- The RM's treatment of the end of a sample record's write (R112, R113, R114). -/
def sampleWriteReport (i : SrId) (w : RecordWrite) (failed : Bool) (s : State) : State :=
  if w.live ∧ failed = true then sampleRingFault i w.entry s else s

/-- SAMPLE_WRITE_END: the oldest record write in flight, that of a sample record, ends (R112). -/
def execSampleWriteEnd (s : State) : Out :=
  match s.outbox with
  | .record w :: rest =>
    match w.kind with
    | .sample i => .next (sampleWriteReport i w (writeFails s.msix.busMaster w) (endWrite w rest s))
    | _ => .next s
  | _ => .next s

/-- A completion write on CR1 to CR7 ended in error: an ACTIVE ring enters FAULTED with a notice (R126). -/
def completionRingFault (r : CrId) (entry : Nat) (s : State) : State :=
  if (s.cr r).state = .active then
    raiseNotice (.cr r) (failedEntryDetail entry) s.time
      (s.setCr r { s.cr r with state := .faulted, failedEntry := some entry })
  else s

/-- The RM's treatment of the end of a completion's write (R125, R126): an error on CR0 is fatal; otherwise the slot is
freed and its follower settled, after the ring has entered FAULTED where the write was in error. -/
def completionWriteReport (r : CrId) (k : SlotId) (w : RecordWrite) (failed : Bool) (s : State) : State :=
  if !w.live then s
  else if failed ∧ r = 0 then fatalError s
  else settle (endCompletion k (if failed then completionRingFault r w.entry s else s))

/-- The RM's treatment of the end of a notice's write: an error is an error on CR0, which is fatal (R126, R153). -/
def noticeWriteReport (w : RecordWrite) (failed : Bool) (s : State) : State :=
  if w.live ∧ failed = true then fatalError s else s

/-- COMPLETION_WRITE_END: the oldest record write in flight, that of a completion or notice record, ends (R125, R126). -/
def execCompletionWriteEnd (s : State) : Out :=
  match s.outbox with
  | .record w :: rest =>
    match w.kind with
    | .completion r k => .next (completionWriteReport r k w (writeFails s.msix.busMaster w) (endWrite w rest s))
    | .notice => .next (noticeWriteReport w (writeFails s.msix.busMaster w) (endWrite w rest s))
    | .sample _ => .next s
  | _ => .next s

/-- The oldest notice is written into CR0's entry at the producer index and leaves the list (R153). -/
def writeNotice (n : Notice) (rest : List Notice) (s : State) : State :=
  let d := s.cr 0
  let s := issueWrite .notice d.producer d.base (encodeNotice n d.phase) s
  let s := { s with notices := rest }
  signalCr 0 false (s.setCr 0 d.advance)

/-- NOTICE_WRITE: with a notice waiting, CR0 ACTIVE and a free unreserved entry on it (R153). -/
def execNoticeWrite (s : State) : Out :=
  match s.notices with
  | [] => .next s
  | n :: rest =>
    if (s.cr 0).state = .active ∧ 0 < (s.cr 0).unreserved then .next (writeNotice n rest s) else .next s

/-- COALESCING_TIMER_EXPIRY: a message becomes due on the ring's vector, the count becomes 0 and the timer stops (R166). -/
def execCoalescingTimerExpiry (ring : SignalRing) (s : State) : Out :=
  match ring with
  | .cr r =>
    let d := s.cr r
    if expired s.time d.interrupt.timer then .next (messageDue d.vector (s.setCr r { d with interrupt := .clear }))
    else .next s
  | .sr r =>
    let d := s.sr r
    if expired s.time d.interrupt.timer then .next (messageDue d.vector (s.setSr r { d with interrupt := .clear }))
    else .next s

/-- HALT_COMPLETE: in HALTING with no DMA work outstanding, HALTED is set, the device enters OFF, and a held enable is taken
(R170). -/
def execHaltComplete (s : State) : Out :=
  if s.window.control = .halting ∧ dmaOutstanding s = false then
    let s := { s with window := { s.window with control := .off } }
    if s.window.enable then .next (takeEnable s) else .next s
  else .next s

end Sys2Proof.Machine
end

