-- ==== Sys2Proof/Machine/Dispatch.lean ====
section
/-! DEFINITION. The meaning of each command, one arm per row of spec/opcode_table.json. -/

namespace Sys2Proof.Machine

def exec (i : Instr) (s : State) : Host.Outcome State Fault Refusal :=
  match i with
  | .enable => Sys2Proof.Machine.execEnable s
  | .halt => Sys2Proof.Machine.execHalt s
  | .reset b => Sys2Proof.Machine.execReset b s
  | .deviceReset source => Sys2Proof.Machine.execDeviceReset source s
  | .badNotifyClear => Sys2Proof.Machine.execBadNotifyClear s
  | .rqTail id index => Sys2Proof.Machine.execRqTail id index s
  | .crHead id index => Sys2Proof.Machine.execCrHead id index s
  | .srHead id index => Sys2Proof.Machine.execSrHead id index s
  | .timeLowRead access => Sys2Proof.Machine.execTimeLowRead access s
  | .registerWrite offset width value => Sys2Proof.Machine.execRegisterWrite offset width value s
  | .vectorUnblock w => Sys2Proof.Machine.execVectorUnblock w s
  | .fetchIssue => Sys2Proof.Machine.execFetchIssue s
  | .fetchEnd r => Sys2Proof.Machine.execFetchEnd r s
  | .fetchTimeout => Sys2Proof.Machine.execFetchTimeout s
  | .createRing slot => Sys2Proof.Machine.execCreateRing slot s
  | .deleteRing slot => Sys2Proof.Machine.execDeleteRing slot s
  | .portConfig slot => Sys2Proof.Machine.execPortConfig slot s
  | .portStart slot => Sys2Proof.Machine.execPortStart slot s
  | .portStop slot => Sys2Proof.Machine.execPortStop slot s
  | .sensorBind slot => Sys2Proof.Machine.execSensorBind slot s
  | .sensorUnbind slot => Sys2Proof.Machine.execSensorUnbind slot s
  | .sensorStart slot => Sys2Proof.Machine.execSensorStart slot s
  | .sensorStop slot => Sys2Proof.Machine.execSensorStop slot s
  | .captureConfig slot => Sys2Proof.Machine.execCaptureConfig slot s
  | .captureArm slot => Sys2Proof.Machine.execCaptureArm slot s
  | .captureDisarm slot => Sys2Proof.Machine.execCaptureDisarm slot s
  | .queryPort slot => Sys2Proof.Machine.execQueryPort slot s
  | .querySensor slot => Sys2Proof.Machine.execQuerySensor slot s
  | .queryDevice slot => Sys2Proof.Machine.execQueryDevice slot s
  | .abort slot => Sys2Proof.Machine.execAbort slot s
  | .regRead slot e => Sys2Proof.Machine.execRegRead slot e s
  | .regWrite slot e => Sys2Proof.Machine.execRegWrite slot e s
  | .readPosition slot e => Sys2Proof.Machine.execReadPosition slot e s
  | .setPosition slot e => Sys2Proof.Machine.execSetPosition slot e s
  | .slaveReset slot e => Sys2Proof.Machine.execSlaveReset slot e s
  | .attemptBegin port => Sys2Proof.Machine.execAttemptBegin port s
  | .requestFrameSent port => Sys2Proof.Machine.execRequestFrameSent port s
  | .responseFrame port bits => Sys2Proof.Machine.execResponseFrame port bits s
  | .responseWindowExpiry port => Sys2Proof.Machine.execResponseWindowExpiry port s
  | .retryGapExpiry port => Sys2Proof.Machine.execRetryGapExpiry port s
  | .retrainTimerExpiry port => Sys2Proof.Machine.execRetrainTimerExpiry port s
  | .cycleTimerExpiry port => Sys2Proof.Machine.execCycleTimerExpiry port s
  | .captureInputTransition line level => Sys2Proof.Machine.execCaptureInputTransition line level s
  | .transitionRecognised line => Sys2Proof.Machine.execTransitionRecognised line s
  | .sampleWriteEnd => Sys2Proof.Machine.execSampleWriteEnd s
  | .completionWriteEnd => Sys2Proof.Machine.execCompletionWriteEnd s
  | .noticeWrite => Sys2Proof.Machine.execNoticeWrite s
  | .coalescingTimerExpiry ring => Sys2Proof.Machine.execCoalescingTimerExpiry ring s
  | .haltComplete => Sys2Proof.Machine.execHaltComplete s
  | .startPatternSeen port => Sys2Proof.Machine.execStartPatternSeen port s

end Sys2Proof.Machine
end

