-- ==== Sys2Proof/Machine/Step.lean ====
section
/-! DEFINITION. One step of the A832: the command at the front of the queue is carried out, and an empty queue lets one tick
of device time pass. -/

namespace Sys2Proof.Machine

/-- One tick of device time (R173): the count rises by one and wraps. DESIGN CHOICE: it is what an empty queue gives
(assumption 1). -/
def tick (s : State) : State := { s with time := s.time + 1 }

/-- The step of the machine. -/
def step (s : State) : Host.Outcome State Fault Refusal :=
  match s.pending with
  | [] => .next (tick s)
  | c :: rest => exec c { s with pending := rest }

/-- The state with a command put at the front of its queue. -/
def State.withCommand (s : State) (c : Instr) : State := { s with pending := c :: s.pending }

/-- The state with the command that a word spells put at the front of its queue; the state unchanged where the word spells
none, as every word of this table does (assumption 17). -/
def State.withFetchWord (s : State) (nbits w : Nat) : State :=
  match decodeTableWord nbits w with
  | some c => s.withCommand c
  | none => s

end Sys2Proof.Machine
end

