-- ==== Sys2Proof/Safety.lean ====
section
/-! DEFINITION. What a safe run of the A832 keeps, in the terms the claims use: for each table of state, the ranges and the
whole-machine sentences that the spec gives of it. -/

namespace Sys2Proof.Machine

/-- The commands that write the words the host alone owns: a write or a latching read of the register window, and the two
device resets. -/
def writesHostWords : Instr → Bool
  | .reset _ => true
  | .deviceReset _ => true
  | .timeLowRead _ => true
  | .registerWrite _ _ _ => true
  | _ => false

/-- The seven parameters of a port lie in the ranges of Table 11. -/
structure PortParameters.InRange (q : PortParameters) : Prop where
  cyclePeriod : 50 ≤ q.cyclePeriod ∧ q.cyclePeriod ≤ 65535
  responseWindow : 2 ≤ q.responseWindow ∧ q.responseWindow ≤ 255
  retryLimit : q.retryLimit ≤ 7
  retryGap : 1 ≤ q.retryGap ∧ q.retryGap ≤ 255
  failLimit : 1 ≤ q.failLimit ∧ q.failLimit ≤ 15
  retrainInterval : q.retrainInterval ≤ 255

/-- A Link Engine: parameters in range; the failure count is 0 in DISABLED and TRAINING, below the fail limit in every
state but DOWN (R27), and at most 15 (Table 10). -/
structure LinkEngine.Ok (le : LinkEngine) : Prop where
  parameters : le.parameters.InRange
  atRest : le.state = .disabled ∨ le.state = .training → le.failures = 0
  belowLimit : le.state ≠ .down → le.failures < le.parameters.failLimit
  range : le.failures ≤ 15

/-- A Port Scheduler (Table 13): the round list holds sensors of the port in ascending order without duplicates, and none
outside IN_PROGRESS; the LATE mark is present while a round is DUE or IN_PROGRESS; with no active transaction, exchanges
done is 0 and HOLD is OFF (R52). -/
structure Scheduler.Ok (p : PortId) (ps : Scheduler) : Prop where
  list : ps.roundList.Sublist (sensorsOf p)
  listEmpty : ps.round ≠ .inProgress → ps.roundList = []
  late : ps.lateMark.isSome = true ↔ ps.round ≠ .none
  idle : ps.active = none → ps.exchangesDone = 0 ∧ ps.hold = false

/-- A sensor context (Table 16): at most 4 held records (R108); the limit of a bound sensor and the counts in their ranges;
consecutive rejects below the limit in ACQUIRING and WAITING (R81); a fault cause exactly in FAULTED; pending captures in
ACQUIRING alone (R58). -/
structure Sensor.Ok (c : Sensor) : Prop where
  held : c.held.length ≤ Config.heldPerSensor
  rejectLimit : c.state ≠ .unbound → 1 ≤ c.rejectLimit ∧ c.rejectLimit ≤ 15
  rejects : c.rejects ≤ 15
  belowLimit : c.state = .acquiring ∨ c.state = .waiting → c.rejects < c.rejectLimit
  cause : c.cause ≠ .none ↔ c.state = .faulted
  captures : c.state ≠ .acquiring → ∀ l : LineId, c.captures[l] = none
  missed : c.missed ≤ 255
  rejected : c.rejected ≤ 255
  withheld : c.withheld ≤ 65535
  decimation : c.decimation ≤ 256
  counter : c.decimationCounter ≤ 1023
  extendedTurn : inSigned24 c.extendedTurn = true
  offset : inSigned48 c.offset = true

/-- A capture line (Table 21): a candidate level is the opposite of the recognised one (R91); an arm time is present in ONCE
and CONTINUOUS, a reference in ONCE alone (R94); the filter is at most 255 ticks. -/
structure CaptureLine.Ok (c : CaptureLine) : Prop where
  candidate : ∀ q, c.qualification = some q → q.level = !c.recognised
  armTime : c.armTime.isSome = true ↔ c.arm ≠ .disarmed
  reference : c.reference.isSome = true → c.arm = .once
  filter : c.filter ≤ 255

/-- A request ring that is not ABSENT (Table 27): size and indices in range, a failed entry exactly in FAULTED. -/
structure RequestRing.Ok (d : RequestRing) : Prop where
  size : d.state ≠ .absent → 2 ≤ d.size ∧ d.size ≤ 4096
  tail : d.state ≠ .absent → d.tail < d.size
  fetchHead : d.state ≠ .absent → d.fetchHead < d.size
  failed : d.failedEntry.isSome = true ↔ d.state = .faulted

/-- A completion ring that is not ABSENT (Table 28, R166). -/
structure CompletionRing.Ok (d : CompletionRing) : Prop where
  size : d.state ≠ .absent → 2 ≤ d.size ∧ d.size ≤ 4096
  producer : d.state ≠ .absent → d.producer < d.size
  consumer : d.state ≠ .absent → d.consumer < d.size
  failed : d.failedEntry.isSome = true ↔ d.state = .faulted
  coalescing : d.coalescingCount ≤ 255
  unsignalled : d.interrupt.count ≤ 254

/-- A sample ring that is not ABSENT (Table 22, R103, R166). -/
structure SampleRing.Ok (d : SampleRing) : Prop where
  size : d.state ≠ .absent → 16 ≤ d.size ∧ d.size ≤ 65536
  producer : d.state ≠ .absent → d.producer < d.size
  consumer : d.state ≠ .absent → d.consumer < d.size
  levels : d.state ≠ .absent → 1 ≤ d.lowWater ∧ d.lowWater < d.resume ∧ d.resume + 1 ≤ d.size
  failed : d.failedEntry.isSome = true ↔ d.state = .faulted
  coalescing : d.coalescingCount ≤ 255
  unsignalled : d.interrupt.count ≤ 254

/-- The notice list (R150, R152): no two notices of one source, and so of one source and kind; every notice has counted 1
to 65535 events. -/
structure NoticesOk (l : List Notice) : Prop where
  distinct : (l.map Notice.source).Nodup
  counted : ∀ n ∈ l, 1 ≤ n.occurrences ∧ n.occurrences ≤ 65535

/-- A link in RUNNING or RETRY_WAIT, the two states in which its port's sensors may be ACQUIRING (R57). -/
def LinkState.polls : LinkState → Bool
  | .running => true
  | .retryWait => true
  | _ => false

/-- The levels of a sample ring at rest (R111): an ACTIVE ring has at least its low-water level free, and a CONGESTED one
less than its resume level. -/
structure SampleRing.Levelled (d : SampleRing) : Prop where
  active : d.state = .active → d.lowWater ≤ d.free
  congested : d.state = .congested → d.free < d.resume

/-- The number of slots that a request ring holds, each from its fetch's issue to its freeing (R118, R119, R125): those that
are not FREE, and the one of a fetch in flight. -/
def slotsOf (r : RqId) (s : State) : Nat :=
  allSlots.countP (fun k => decide ((s.slot k).state ≠ .free ∧ (s.slot k).rq = r)) +
    (s.fetch.filter fun f => f.live && decide (f.rq = r)).toList.length

/-- The number of credits that a completion ring owes, each from a fetch's issue to the posting of the completion (R117,
R118): those of the requests without a result yet, and the one of a fetch in flight. -/
def creditsOf (c : CrId) (s : State) : Nat :=
  allSlots.countP (fun k => (s.slot k).isOpen && decide ((s.slot k).cr = c)) +
    (s.fetch.filter fun f => f.live && decide (f.cr = c)).toList.length

/-- The slots held by the I/O rings together (R119). -/
def ioSlotsHeld (s : State) : Nat := ((List.finRange 8).map fun q => if q = 0 then 0 else (s.rq q).slotsHeld).sum

/-- The account of slots and credits (R117 to R119): what each ring holds and owes, the two limits on slots, room on a
completion ring for every completion it owes, and the rings that stand behind a slot in use or a fetch in flight (R116,
R131, R132); outside READY there is no ring (R168, R169). -/
structure Account (s : State) : Prop where
  held : ∀ r, (s.rq r).slotsHeld = slotsOf r s
  perRing : ∀ r, (s.rq r).slotsHeld ≤ Config.slotsPerRing
  ofIoRings : ioSlotsHeld s ≤ Config.slotsOfIoRings
  reserved : ∀ c, (s.cr c).reserved = creditsOf c s
  room : ∀ c, (s.cr c).state ≠ .absent → (s.cr c).posted + (s.cr c).reserved ≤ (s.cr c).size - 1
  ofAbsent : ∀ r, (s.rq r).state = .absent → (s.rq r).slotsHeld = 0
  bound : ∀ r, (s.rq r).state ≠ .absent → ∃ c, (s.rq r).boundCr = some c ∧ (s.cr c).state ≠ .absent
  ofSlot : ∀ k, (s.slot k).state ≠ .free → (s.rq (s.slot k).rq).boundCr = some (s.slot k).cr
  ofFetch : ∀ f, s.fetch = some f → f.live = true → (s.rq f.rq).boundCr = some f.cr ∧ (s.slot f.slot).state = .free
  off : s.window.control ≠ .ready → (∀ r, (s.rq r).state = .absent) ∧ ∀ c, (s.cr c).state = .absent

/-- What every run keeps: each table of state as the spec says it always stands. -/
structure Safe (s : State) : Prop where
  links : ∀ p, (s.link p).Ok
  scheds : ∀ p, (s.sched p).Ok p
  sensors : ∀ n, (s.sensor n).Ok
  lines : ∀ l, (s.line l).Ok
  rqs : ∀ r, (s.rq r).Ok
  crs : ∀ r, (s.cr r).Ok
  srs : ∀ r, (s.sr r).Ok
  notices : NoticesOk s.notices
  /-- The ring first in turn is an I/O ring, RQ1 to RQ7 (R119). -/
  turn : s.nextIoRing ≠ 0
  /-- Slots and credits (R117 to R119). -/
  account : Account s
  /-- A sensor is ACQUIRING only on a port whose link is RUNNING or RETRY_WAIT (R57). -/
  acquiring : ∀ n, (s.sensor n).state = .acquiring → (s.link (portOf n)).state.polls = true
  /-- Records are held only for a bound sensor whose ring takes records and is full (R109, R112). -/
  holding : ∀ n, (s.sensor n).held ≠ [] →
    (s.sensor n).state ≠ .unbound ∧ (s.sr (s.sensor n).ring).writable = true ∧ (s.sr (s.sensor n).ring).full = true
  /-- A sample ring is CONGESTED from its low-water level to its resume level (R111). -/
  levels : ∀ r, (s.sr r).Levelled
  /-- One admin request is in flight for an object at a time (R137). -/
  inFlight : (s.axInFlight.map AdminEntry.object).Nodup

/-- The run goes on: the step answers a next state. -/
def Runs (s : State) : Prop := ∃ t, step s = .next t

end Sys2Proof.Machine
end

