-- ==== Sys2Proof/Safety/Effects.lean ====
section
/-! DEFINITION. What the shared operations bring about, in the terms the statements use: a completed command, a signalled
record (R166, R167), an answered request (R124), a written sample record (R105). -/

namespace Sys2Proof.Claims

open Sys2Proof.Machine

/-- The command completes: `exec` answers a next state of which `Q` holds. -/
def Completes (c : Instr) (s : State) (Q : State → Prop) : Prop := ∃ t, exec c s = .next t ∧ Q t

/-- What a record handed to a ring's interrupt state brings about (R166, R167), from state `u` to state `t`: `it` and `it'`
are the ring's interrupt states before and after, `v` its vector, `ms` the messages that now wait behind the record. -/
def Signalled (u t : State) (v : VectorId) (count time : Nat) (notify : Bool) (it it' : Interrupt) (ms : List OutItem) :
    Prop :=
  if notify = true ∨ it.count + 1 ≥ count then
    it' = { count := 0, timer := none } ∧
      (if (u.msix.table[v]).masked = true ∨ u.msix.functionMask = true ∨ u.msix.enabled = false ∨ u.msix.busMaster = false
      then ms = [] ∧ t.msix = { u.msix with pending := u.msix.pending.set v true }
      else ms = [.message v] ∧ t.msix = u.msix)
  else
    it'.count = it.count + 1 ∧
      it'.timer = (if it.timer = none ∧ time ≠ 0 then some (after u.time (125 * time)) else it.timer) ∧
      ms = [] ∧ t.msix = u.msix

/-- The DMA write that carries the completion of slot `k` with result `r` (R124). -/
def completionOf (k : SlotId) (r : Result) (u : State) : RecordWrite :=
  let sl := u.slot k
  let d := u.cr sl.cr
  { kind := .completion sl.cr k, entry := d.producer, address := d.base + 32 * d.producer
    data := encodeCompletion (u.rq sl.rq).fetchHead sl.rq sl.tag r d.phase, live := true }

/-- From `u` to `t`, slot `k` becomes DONE with result `r` and its completion is written on its completion ring (R124):
the record's write is issued at the producer index, the producer index advances with the phase inverting on a wrap, the
credit is spent and the record is signalled. Nothing else changes. That the slot's abort fields are cleared is the model's choice
(assumption 27). -/
structure Answered (k : SlotId) (r : Result) (u t : State) : Prop where
  others : t = { u with slots := t.slots, crs := t.crs, outbox := t.outbox, msix := t.msix }
  slot : t.slot k = { u.slot k with
    state := .done, predecessor := none, abortPending := false, abortRequester := none, result := some r }
  otherSlots : ∀ j, j ≠ k → t.slot j = u.slot j
  otherRings : ∀ c, c ≠ (u.slot k).cr → t.cr c = u.cr c
  ring : ∃ it ms, t.outbox = u.outbox ++ .record (completionOf k r u) :: ms ∧
    t.cr (u.slot k).cr =
      { u.cr (u.slot k).cr with
        producer := (if (u.cr (u.slot k).cr).producer + 1 = (u.cr (u.slot k).cr).size then 0
          else (u.cr (u.slot k).cr).producer + 1)
        phase := (if (u.cr (u.slot k).cr).producer + 1 = (u.cr (u.slot k).cr).size then !(u.cr (u.slot k).cr).phase
          else (u.cr (u.slot k).cr).phase)
        reserved := (u.cr (u.slot k).cr).reserved - 1
        interrupt := it } ∧
    Signalled u t (u.cr (u.slot k).cr).vector (u.cr (u.slot k).cr).coalescingCount
      (u.cr (u.slot k).cr).coalescingTime (u.slot k).notify (u.cr (u.slot k).cr).interrupt it ms

/-- The answer to the ABORT in slot `a` whose target, slot `k`, has ended with status `st` (R130, R146): SUCCESS where it was
aborted, TOO_LATE otherwise, with the tag that the ABORT names in data bytes 0 and 1 and its target's slot in byte 2. -/
def abortAnswer (a k : SlotId) (st : Status) (u : State) : Result :=
  { status := if st = .aborted then .success else .tooLate, detail := 0
    data := BitVec.ofNat 128 ((u.slot a).body.abortTag.toNat + 65536 * k.val) }

/-- From `u` to `t`, the request in slot `k` is answered, and after it the ABORT that waits on it, if any (R124, R130). -/
def Concluded (k : SlotId) (r : Result) (u t : State) : Prop :=
  match (u.slot k).abortRequester with
  | none => Answered k r u t
  | some a => ∃ v, Answered k r u v ∧ Answered a (abortAnswer a k r.status u) v t

/-- The request in slot `k` can be concluded in `u`: it has no result yet and its completion ring is ACTIVE, and so does and is
the ABORT that waits on it, if any, which came by RQ0 (R118, R128). -/
structure Concludable (k : SlotId) (u : State) : Prop where
  isOpen : (u.slot k).state = .linkWait ∨ (u.slot k).state = .queued ∨ (u.slot k).state = .active
  ring : (u.cr (u.slot k).cr).state = .active
  requester : ∀ a, (u.slot k).abortRequester = some a → a ≠ k ∧ (u.slot a).state = .active ∧ (u.slot a).cr = 0 ∧
    (u.slot a).abortRequester = none ∧ (u.cr 0).state = .active

/-- The command completes and concludes the request in slot `k`, in the state `u` that its effect leaves. -/
def Replies (c : Instr) (s : State) (k : SlotId) (r : Result) (u : State) : Prop := Completes c s (Concluded k r u)

/-- From `s` to `t` by one step of `R` for each element of a list, in its order. -/
inductive Through {α : Type} (R : α → State → State → Prop) : List α → State → State → Prop
  | nil (s : State) : Through R [] s s
  | cons {a : α} {l : List α} {s u t : State} (head : R a s u) (tail : Through R l u t) : Through R (a :: l) s t

/-- Answered with detail 0 and zero data (R138). -/
def plain (st : Status) : Result := { status := st, detail := 0, data := 0 }

/-- The record write of R105: what writing record `r` of a sensor with context `c` to ring `i`, whose descriptor is `d` before
and `d'` after, puts in flight. -/
def sampleWrite (r : SampleRecord) (c : Sensor) (i : SrId) (d d' : SampleRing) : RecordWrite :=
  { kind := .sample i, entry := d.producer, address := d.base + 32 * d.producer
    data := encodeSample r
      { sequence := if r.kind = .mark ∧ r.reason = some .start then 0 else c.sequence
        missed := c.missed, rejected := c.rejected, withheld := c.withheld
        congested := decide (d'.state = .congested), phase := d.phase }
    live := true }

/-- From `s` to `t`, record `r` is written (R105, R111): the next sequence number and the counts go into the record, the
counts are cleared, the producer index advances with the phase inverting on a wrap, the congestion check applies, and the
record is signalled. Nothing else changes. -/
def Written (r : SampleRecord) (s t : State) : Prop :=
  let c := s.sensor r.sensor
  let d := s.sr c.ring
  let producer := if d.producer + 1 = d.size then 0 else d.producer + 1
  ∃ it ms, ∃ state : SampleRingState,
    (state = if d.state = .active ∧ ((d.size : Int) - 1 - ((producer : Int) - d.consumer) % d.size < d.lowWater)
      then .congested else d.state) ∧
    t = { s with sensors := t.sensors, srs := t.srs, outbox := t.outbox, msix := t.msix } ∧
    t.sensor r.sensor = { c with
      sequence := (if r.kind = .mark ∧ r.reason = some .start then 0 else c.sequence) + 1
      missed := 0, rejected := 0, withheld := 0 } ∧
    (∀ n, n ≠ r.sensor → t.sensor n = s.sensor n) ∧
    t.sr c.ring = { d with
      state := state, producer := producer, phase := if d.producer + 1 = d.size then !d.phase else d.phase
      interrupt := it } ∧
    (∀ i, i ≠ c.ring → t.sr i = s.sr i) ∧
    t.outbox = s.outbox ++ .record (sampleWrite r c c.ring d (t.sr c.ring)) :: ms ∧
    Signalled s t d.vector d.coalescingCount d.coalescingTime false d.interrupt it ms

/-- The ring has no free entry: the unconsumed entries are the size minus 1 (R102). -/
def Full (d : SampleRing) : Prop := ((d.producer : Int) - d.consumer) % d.size = (d.size : Int) - 1

/-- The oldest record write in flight is `w`; `behind` stands behind it, messages due and a fetch read taken, and nothing or a
further record write behind those. -/
def Oldest (w : RecordWrite) (behind rest : List OutItem) (s : State) : Prop :=
  s.outbox = .record w :: (behind ++ rest) ∧ (∀ w', .record w' ∉ behind) ∧ (rest = [] ∨ ∃ w' rest', rest = .record w' :: rest')

/-- A record write that ends in error: Bus Master Enable is clear, or its 32 bytes would pass the top of the address space
(R165). -/
abbrev Errs (w : RecordWrite) (s : State) : Prop := s.msix.busMaster = false ∨ 2 ^ 64 < w.address + 32

/-- A vector is blocked (R167). -/
abbrev Blocked (m : MsixUnit) (v : VectorId) : Prop :=
  (m.table[v]).masked = true ∨ m.functionMask = true ∨ m.enabled = false ∨ m.busMaster = false

/-- The state in which what waited behind a record write has followed, by the settings as they stand: each message is sent with
its vector's address and data, or merges into the pending flag of a blocked vector (R167); a fetch read is issued, or is in
error and is not (R165). -/
def followed (behind rest : List OutItem) (s : State) : State :=
  { s with
    outbox := rest
    sent := s.sent ++ behind.filterMap fun i => match i with
      | .message v => if Blocked s.msix v then none
        else some (.message { vector := v, address := (s.msix.table[v]).address, data := (s.msix.table[v]).data })
      | .record _ => none
      | .read => none
    msix := { s.msix with pending := Vector.ofFn fun v : VectorId =>
      s.msix.pending[v] || decide (.message v ∈ behind ∧ Blocked s.msix v) }
    fetch := if .read ∈ behind then s.fetch.map fun f => { f with
        read := if s.msix.busMaster = true ∧ f.address + 64 ≤ 2 ^ 64 then .issued s.time else .notIssued }
      else s.fetch }

/-- The state in which the oldest record write has ended: handed to the host where it did not err, and what waited behind it
has followed (R165), which where it erred is the model's choice (assumption 30). -/
def writeEnded (w : RecordWrite) (behind rest : List OutItem) (good : Bool) (s : State) : State :=
  followed behind rest { s with sent := s.sent ++ if good = true then [.record w.address w.data] else [] }

end Sys2Proof.Claims
end

