-- ==== Sys2Proof/Safety/Scheduling.lean ====
section
/-! DEFINITION. What the Port Scheduler, the Sensor Processor and the Ring Manager bring about in chains of events, in the
terms the statements use: exchanges and activations (R48, R154, R155), decisions (R47), arrivals (R45), flushes (R54),
suspensions (R66), faults (R69) and freed slots (R125). -/

namespace Sys2Proof.Claims

open Sys2Proof.Machine

/-! ### Exchanges of a transaction -/

/-- The scheduler of the port of the transaction in slot `k`. -/
def schedOf (k : SlotId) (s : State) : Scheduler := s.sched (portOf (s.slot k).sensor)

/-- The attempt record before the first attempt of an exchange that carries no register (R1, R24). -/
def freshAttempt (address : SlaveAddr) (kind : FrameKind) : Attempt :=
  { address := address, kind := kind, register := none, data := none, tags := [], requestTime := 0, phase := .between
    windowEnd := none, listeningSince := none, frameStart := none, lastFault := none }

/-- The attempt record of exchange number `i`, from 0, of the transaction in a slot (Table 33). -/
def IsExchange (sl : Slot) (i : Nat) (a : Attempt) : Prop :=
  match sl.body with
  | .regRead first _ =>
    a = { freshAttempt (addrOf sl.sensor) .regRead with register := some (BitVec.ofNat 8 (first + i)) }
  | .regWrite first _ values =>
    a = { freshAttempt (addrOf sl.sensor) .regWrite with
      register := some (BitVec.ofNat 8 (first + i)), data := some (values.getD i 0) }
  | .readPosition => a = freshAttempt (addrOf sl.sensor) .position
  | .setPosition _ => a = freshAttempt (addrOf sl.sensor) (if i = 0 then .position else .repeat)
  | .slaveReset => a = freshAttempt (addrOf sl.sensor) .slaveReset
  | _ => False

/-- The body is that of one of the five I/O kinds (Table 41). -/
def IsTransaction : Body → Prop
  | .regRead _ _ => True
  | .regWrite _ _ _ => True
  | .readPosition => True
  | .setPosition _ => True
  | .slaveReset => True
  | _ => False

/-- The number of exchanges of a transaction, fixed at its activation (R154). -/
def exchangesOf (b : Body) (confirm : Confirm) : Nat :=
  match b with
  | .regRead _ count => count
  | .regWrite _ count _ => count
  | .setPosition _ => if confirm = .repeat then 2 else 1
  | _ => 1

/-- The table entry of a sensor's slave (R35). -/
def entryOf (n : SensorId) (s : State) : IdentityEntry := (s.link (portOf n)).identity[addrOf n]

/-- The registers from `first` are refused with status `st`: the count is not 1 to 8, the slave is ABSENT, or the last register
lies past the slave's (R155). -/
def UnfitRegisters (first count : Nat) (e : IdentityEntry) (st : Status) : Prop :=
  (¬ (1 ≤ count ∧ count ≤ 8) ∧ st = .invalidField) ∨
    (1 ≤ count ∧ count ≤ 8 ∧ e.present = false ∧ st = .noSlave) ∨
    (1 ≤ count ∧ count ≤ 8 ∧ e.present = true ∧ wordRegisters e.word < first + count ∧ st = .invalidField)

/-- The first check at a transaction's activation that fails answers `st` (R155): `e` is the slave's entry, `state` the
sensor's state. -/
def Unfit (b : Body) (e : IdentityEntry) (state : SensorState) (st : Status) : Prop :=
  match b with
  | .regRead first count => UnfitRegisters first count e st
  | .regWrite first count _ => UnfitRegisters first count e st
  | .setPosition target =>
    let inRange := -140737488355328 ≤ target ∧ target ≤ 140737488355327
    (¬ inRange ∧ st = .invalidField) ∨ (inRange ∧ e.present = false ∧ st = .noSlave) ∨
      (inRange ∧ e.present = true ∧ (state = .unbound ∨ state = .faulted) ∧ st = .wrongState)
  | _ => e.present = false ∧ st = .noSlave

/-- Detail and data of a transaction that ends without its own result after `done` exchanges: the register values gathered
(R156, R162). -/
def cutShort (st : Status) (done : Nat) (b : Body) (values : List (BitVec 16)) : Result :=
  { status := st, detail := BitVec.ofNat 32 done
    data := match b with
      | .regRead _ _ => registerData values
      | .regWrite _ _ _ => registerData values
      | _ => 0 }

/-! ### Activations, decisions and arrivals -/

/-- A scheduler with no active transaction (R52). -/
def withoutActive (ps : Scheduler) : Scheduler :=
  { ps with active := none, exchangesDone := 0, hold := false, progress := .empty }

/-- The state in which the Link Engine of a port has been offered an exchange (R41, R48). -/
def offered (p : PortId) (owner : ExchangeOwner) (a : Attempt) (u : State) : State :=
  (u.setLink p { u.link p with attempt := some a }).setSched p { u.sched p with owner := some owner }

/-- The state in which the transaction in slot `k`, oldest of the port queue before `rest`, has been activated (R48, R154). -/
def activated (p : PortId) (k : SlotId) (rest : List SlotId) (u : State) : State :=
  (u.setSlot k { u.slot k with state := .active }).setSched p { u.sched p with
    queue := rest, active := some k, exchangesDone := 0, hold := (u.slot k).holdPoll
    progress := { TransactionProgress.empty with
      planned := exchangesOf (u.slot k).body (u.sensor (u.slot k).sensor).confirm } }

/-- From `u` to `t`, a port with nothing else to do gives its link to the oldest reference of its queue that passes the checks
of R155; each one before it is answered with the check it fails, detail 0, and no exchange (R47, R48, R155). -/
inductive Activates (p : PortId) : List SlotId → State → State → Prop
  | nothing (u : State) : Activates p [] u u
  | refused {k : SlotId} {rest : List SlotId} {st : Status} {u v t : State}
      (unfit : Unfit (u.slot k).body (entryOf (u.slot k).sensor u) (u.sensor (u.slot k).sensor).state st)
      (answered : Concluded k (plain st) ((u.setSlot k { u.slot k with state := .active }).setSched p
        (withoutActive { u.sched p with queue := rest })) v)
      (next : Activates p rest v t) : Activates p (k :: rest) u t
  | given {k : SlotId} {rest : List SlotId} {u : State} {a : Attempt}
      (fit : ∀ st, ¬ Unfit (u.slot k).body (entryOf (u.slot k).sensor u) (u.sensor (u.slot k).sensor).state st)
      (first : IsExchange (u.slot k) 0 a) :
      Activates p (k :: rest) u (offered p .transaction a (activated p k rest u))

/-- The link is RUNNING and idle and no exchange is out: the scheduler may decide (R47). -/
def MayDecide (p : PortId) (u : State) : Prop :=
  (u.link p).state = .running ∧ (u.link p).attempt = none ∧ (u.sched p).owner = none

/-- The sensors of a port that are ACQUIRING, in ascending slave address (R40). -/
def acquirers (p : PortId) (u : State) : List SensorId := (sensorsOf p).filter fun n => (u.sensor n).state = .acquiring

/-- From `u` to `t`, the scheduler of a port decides (R47): nothing where it may not; otherwise the next exchange of the round
IN_PROGRESS, a round that is DUE with LATE set, the next exchange of the active transaction, or the oldest reference of the
queue. A round that is DUE with no ACQUIRING sensor ends at once (R40). -/
def Decides (p : PortId) (u t : State) : Prop :=
  let ps := u.sched p
  let step : RoundStep := if ps.heldPosition = none then .position else .repeat
  let kind : FrameKind := if ps.heldPosition = none then .position else .repeat
  let due := u.setSched p { ps with round := .none, lateMark := none, roundList := [] }
  let w := if ps.round = .due then due else u
  (¬ MayDecide p u → t = u) ∧
  (MayDecide p u →
    (∀ n rest, ps.round = .inProgress → ps.roundList = n :: rest →
      t = offered p .round (freshAttempt (addrOf n) kind) (u.setSched p { ps with roundStep := some step })) ∧
    (∀ n rest, ps.round = .due → acquirers p u = n :: rest →
      t = offered p .round (freshAttempt (addrOf n) kind) (u.setSched p { ps with
        round := .inProgress, lateMark := some true, roundList := n :: rest, roundStep := some step })) ∧
    (ps.round = .none ∨ (ps.round = .due ∧ acquirers p u = []) →
      (∀ k, ps.active = some k → ∀ a, IsExchange (u.slot k) ps.exchangesDone a → t = offered p .transaction a w) ∧
      (ps.active = none → Activates p ps.queue w t)))

/-- The references of a port queue are of requests that wait and can be concluded (Table 29, R45). -/
structure QueueReady (p : PortId) (u : State) : Prop where
  distinct : (u.sched p).queue.Nodup
  waiting : ∀ k ∈ (u.sched p).queue, (u.slot k).state = .queued ∧ (u.slot k).abortRequester = none ∧
    (u.cr (u.slot k).cr).state = .active ∧ IsTransaction (u.slot k).body

/-- From `u` to `t`, the scheduler takes the reference of slot `k`, by the link state at that moment (R45): it joins the queue
in TRAINING, RUNNING and RETRY_WAIT, with a decision in RUNNING, and is answered PORT_DOWN or PORT_STOPPED in the others. -/
def Arrives (k : SlotId) (u t : State) : Prop :=
  let p := portOf (u.slot k).sensor
  let joined := u.setSched p { u.sched p with queue := (u.sched p).queue ++ [k] }
  match (u.link p).state with
  | .running => Decides p joined t
  | .retryWait => t = joined
  | .training => t = joined
  | .down => Concluded k (plain .portDown) u t
  | .disabled => Concluded k (plain .portDown) u t
  | .stopping => Concluded k (plain .portStopped) u t

/-! ### A link leaves RUNNING -/

/-- The scheduler of a port whose link has left RUNNING: cycle timer stopped, any round ended (R44). -/
def roundOver (ps : Scheduler) : Scheduler :=
  { ps with
    cycleTimer := none, round := .none, lateMark := none, roundList := [], roundStep := none, heldPosition := none }

/-- From `u` to `t`, the references of a port's queue are answered in order with a status, detail 0, and the queue is empty
(R53). -/
def QueueFlushed (p : PortId) (st : Status) (u t : State) : Prop :=
  Through (fun k => Concluded k (plain st)) (u.sched p).queue (u.setSched p { u.sched p with queue := [] }) t

/-- From `u` to `t`, the port's host work is answered with a status (R29, R31, R54): the active transaction, where it has no
exchange out, with the exchanges done and the register values so far; then the queue. -/
def Flushed (p : PortId) (st : Status) (u t : State) : Prop :=
  let ps := u.sched p
  ∃ v, (match ps.active with
    | some k => if ps.owner = some .transaction then v = u else
      Concluded k (cutShort st ps.exchangesDone (u.slot k).body ps.progress.values) (u.setSched p (withoutActive ps)) v
    | none => v = u) ∧
    QueueFlushed p st v t

/-- The host work of a port can be answered: its queue, and an active transaction that is not one of the queue's. -/
structure FlushReady (p : PortId) (u : State) : Prop where
  queue : QueueReady p u
  active : ∀ k, (u.sched p).active = some k → (u.sched p).owner ≠ some .transaction →
    (u.slot k).state = .active ∧ Concludable k u ∧ ∀ a, (u.slot k).abortRequester = some a → a ∉ (u.sched p).queue

/-- The captures of a sensor that leaves ACQUIRING are dropped, and its mark says so (R58). -/
def droppedCaptures (c : Sensor) : Bool := decide (c.state = .acquiring) && c.captures.toList.any Option.isSome

/-- The state in which an ACQUIRING sensor of a port without a round has been suspended: WAITING, its pending captures
dropped, with a MARK SUSPEND posted (R58, R59, R66). -/
def suspended (n : SensorId) (u : State) : State :=
  let c := u.sensor n
  postRecord (markRecord n c .suspend .none u.time (droppedCaptures c))
    (u.setSensor n { c with state := .waiting, captures := Vector.replicate 4 none })

/-- The state in which every ACQUIRING sensor of the port has been suspended, in ascending sensor id (R66). -/
def allSuspended (p : PortId) (u : State) : State := (acquirers p u).foldl (fun s n => suspended n s) u

/-- A scheduler without a sensor's round entry (R43): where the entry is the head, its round step and held outcome go too. -/
def withoutEntry (n : SensorId) (ps : Scheduler) : Scheduler :=
  if ps.roundList.head? = some n then
    { ps with roundList := ps.roundList.tail, roundStep := none, heldPosition := none }
  else { ps with roundList := ps.roundList.filter fun m => m ≠ n }

/-- The state in which a sensor has faulted (R58, R69, R70): FAULTED with its cause, an ACQUIRING one losing its round entry
and its pending captures; a MARK FAULT posted, but for a BOUND one; a SENSOR_FAULT notice raised with the cause. -/
def faulted (n : SensorId) (cause : FaultCause) (time : Time) (u : State) : State :=
  let c := u.sensor n
  let left := if c.state = .acquiring then u.setSched (portOf n) (withoutEntry n (u.sched (portOf n))) else u
  let w := left.setSensor n { c with
    state := .faulted, cause := cause
    captures := if c.state = .acquiring then Vector.replicate 4 none else c.captures }
  raiseNotice (.sensor n) (BitVec.ofNat 32 cause.code) time
    (if c.state = .bound then w else postRecord (markRecord n c .fault cause time (droppedCaptures c)) w)

/-- The state in which a training end has compared the identity of sensor `n` with its slave's new entry (R23, R67, R70): equal,
a WAITING one resumes where the link becomes RUNNING, its last accepted value STALE where it was VALID; different, a BOUND or
WAITING one faults with IDENTITY_CHANGED. -/
def identityChecked (running : Bool) (n : SensorId) (u : State) : State :=
  let c := u.sensor n
  let e := entryOf n u
  if e.present = true ∧ sameIdentity e.word c.identity = true ∧ c.state = .waiting ∧ running = true then
    u.setSensor n { c with
      state := .acquiring
      last := { c.last with validity := if c.last.validity = .valid then .stale else c.last.validity } }
  else if e.present = true ∧ sameIdentity e.word c.identity = false ∧ (c.state = .bound ∨ c.state = .waiting) then
    faulted n .identityChanged u.time u
  else u

/-! ### Readings of rounds and transactions -/

/-- The outcome of an exchange of POSITION or REPEAT that ended with `e`: the reading reduced by the slave's ST and MT, or the
link fault (R6, R13, R35). -/
structure ReadingOutcome (word : BitVec 32) (a : Attempt) (e : AttemptEnd) (o : ExchangeOutcome) : Prop where
  result : (∃ f, e = .fault f ∧ o.result = .failed f) ∨
    ∃ warn alarm angle turn, e = .ok warn alarm (.position angle turn) ∧
      o.result = .ok warn alarm (.reading (angle.toNat % 2 ^ wordSt word) (turn.toNat % 2 ^ wordMt word))
  attempts : o.attempts = a.tags.length
  address : o.address = a.address
  kind : o.kind = a.kind
  time : o.requestTime = a.requestTime

/-- The reading that the end of a round's exchange with outcome `o` hands to the Sensor Processor for sensor `n` (R42): a REPEAT
goes with the POSITION outcome held before it, whose request time is the sample time. -/
def roundReading (ps : Scheduler) (n : SensorId) (step : RoundStep) (o : ExchangeOutcome) : Reading :=
  let position := if step = .repeat then ps.heldPosition.getD o else o
  { sensor := n, position := position, repeated := if step = .repeat then some o else none
    sampleTime := position.requestTime, late := ps.lateMark.getD false }

/-- A scheduler whose exchange is over, with what is left of the round's list; a round with an empty list has ended (R41). -/
def roundGoesOn (rest : List SensorId) (ps : Scheduler) : Scheduler :=
  { ps with
    owner := none, roundList := rest, roundStep := none, heldPosition := none
    round := if rest = [] then .none else ps.round, lateMark := if rest = [] then none else ps.lateMark }

/-- The context that a SET_POSITION's good reading leaves (R83, R88): accepted, with the offset that makes its position the
target. -/
def repositioned (c : Sensor) (angle turn : Nat) (time : Time) (target : Int) : Sensor :=
  { c with
    last := { extRaw := (c.turned angle turn).extRaw, angle := angle, turn := turn, sampleTime := time, validity := .valid }
    extendedTurn := if c.turnMode = .extend then (c.turned angle turn).candidate else c.extendedTurn
    rejects := 0
    offset := target - Int.tdiv ((c.turned angle turn).extRaw * c.scale) 65536 }

/-- What one frame of a reading said. -/
structure Heard where
  warn : Bool
  alarm : Bool
  angle : Nat
  turn : Nat

/-- What the Sensor Processor makes of a SET_POSITION's reading (R76, R87, R88, Table 34): `first` is its POSITION, `again` the
REPEAT where one was made, `made` the number of exchanges. From `u` to `u'`, `r` is the transaction's result. -/
def SetPositionTreated (n : SensorId) (target : Int) (made : Nat) (time : Time) (first : Heard) (again : Option Heard)
    (u : State) (r : Result) (u' : State) : Prop :=
  let c := u.sensor n
  let x := c.turned first.angle first.turn
  let alarmed := first.alarm = true ∨ ∃ h, again = some h ∧ h.alarm = true
  let differs := ∃ h, again = some h ∧ ¬ (h.angle = first.angle ∧ h.turn = first.turn)
  let jumps := c.last.validity = .valid ∧ c.jumpLimit ≠ 0 ∧ ∃ d, x.delta = some d ∧ (c.jumpLimit : Int) < |d|
  let offset := target - Int.tdiv (x.extRaw * c.scale) 65536
  let warning := first.warn = true ∨ ∃ h, again = some h ∧ h.warn = true
  let rejected (cause : BitVec 32) := r = { status := .rejected, detail := cause, data := 0 } ∧ u' = rejectReading n time u
  let outOfRange (which : BitVec 32) := r = { status := .range, detail := which, data := 0 } ∧ u' = u
  if c.state = .unbound ∨ c.state = .faulted then
    r = { status := .wrongState, detail := BitVec.ofNat 32 made, data := 0 } ∧ u' = u
  else
    (alarmed → rejected 1) ∧ (¬ alarmed → differs → rejected 2) ∧ (¬ alarmed → ¬ differs → jumps → rejected 3) ∧
    (¬ alarmed → ¬ differs → ¬ jumps →
      (c.turnMode = .extend ∧ inSigned24 x.candidate = false → outOfRange 1) ∧
      (¬ (c.turnMode = .extend ∧ inSigned24 x.candidate = false) → inSigned48 offset = false → outOfRange 2) ∧
      (¬ (c.turnMode = .extend ∧ inSigned24 x.candidate = false) → inSigned48 offset = true →
        (∃ detail, r = { status := .success, detail := detail
                         data := BitVec.ofNat 16 0 ++ BitVec.ofInt 24 (if c.turnMode = .extend then x.candidate else 0) ++
                           BitVec.ofNat 16 first.turn ++ BitVec.ofNat 24 first.angle ++ BitVec.ofInt 48 offset } ∧
          (warning → detail = if c.last.validity ≠ .valid then 768 else 256) ∧
          (¬ warning → detail = if c.last.validity ≠ .valid then 512 else 0)) ∧
        u' = u.setSensor n (repositioned c first.angle first.turn time target)))

/-- The last accepted value marked STALE where it was VALID (R68). -/
def staleContext (c : Sensor) : Sensor :=
  if c.state = .unbound then c
  else { c with last := { c.last with validity := if c.last.validity = .valid then .stale else c.last.validity } }

/-- The result of a register transaction at the end of an exchange that ended OK, where that completes it (R156): an ALARM at
any exchange, or the last one. -/
def RegistersAnswer (first : Nat) (ps : Scheduler) (warn alarm : Bool) (v : BitVec 16) (r : Result) : Prop :=
  (alarm = true ∧ r = { status := .slaveRefused, detail := BitVec.ofNat 32 (first + ps.exchangesDone)
                        data := registerData ps.progress.values }) ∨
    (alarm = false ∧ ps.progress.planned ≤ ps.exchangesDone + 1 ∧
      r = { status := .success
            detail := BitVec.ofNat 32 (ps.progress.planned + if ps.progress.warning = true ∨ warn = true then 256 else 0)
            data := registerData (ps.progress.values ++ [v]) })

/-- The exchange of the transaction in slot `k` that ended OK with `e` completes it with its own result `r` (R156 to R159): from
`u` to `u'` its effect on the sensor's context. `word` is the slave's identity word, `ps` the scheduler as it stood. -/
def OwnResult (k : SlotId) (a : Attempt) (word : BitVec 32) (ps : Scheduler) (e : AttemptEnd) (u : State) (r : Result)
    (u' : State) : Prop :=
  let n := (u.slot k).sensor
  match (u.slot k).body, e with
  | .regRead first _, .ok warn alarm (.register v) => RegistersAnswer first ps warn alarm v r ∧ u' = u
  | .regWrite first _ _, .ok warn alarm (.register v) => RegistersAnswer first ps warn alarm v r ∧ u' = u
  | .readPosition, .ok warn alarm (.position angle turn) =>
    r = readPositionResult (u.sensor n) warn alarm (angle.toNat % 2 ^ wordSt word) (turn.toNat % 2 ^ wordMt word)
      a.requestTime ∧ u' = u
  | .setPosition target, .ok warn alarm (.position angle turn) =>
    let heard : Heard :=
      { warn := warn, alarm := alarm, angle := angle.toNat % 2 ^ wordSt word, turn := turn.toNat % 2 ^ wordMt word }
    ps.progress.planned ≤ ps.exchangesDone + 1 ∧
      ((ps.progress.position = none ∧
          SetPositionTreated n target (ps.exchangesDone + 1) a.requestTime heard none u r u') ∨
        ∃ o h, ps.progress.position = some o ∧ o.result = .ok h.warn h.alarm (.reading h.angle h.turn) ∧
          SetPositionTreated n target (ps.exchangesDone + 1) o.requestTime h (some heard) u r u')
  | .slaveReset, .ok warn alarm .empty =>
    if alarm = true then r = plain .slaveRefused ∧ u' = u
    else r = { status := .success, detail := if warn = true then 256 else 0, data := 0 } ∧
      u' = u.setSensor n (staleContext (u.sensor n))
  | _, _ => False

/-- The exchange of the transaction in slot `k` that ended OK with `e` leaves further exchanges to come; `values` are the register
values gathered with it (R49, R156, R159). -/
def MoreToCome (k : SlotId) (ps : Scheduler) (e : AttemptEnd) (u : State) (values : List (BitVec 16)) : Prop :=
  ps.exchangesDone + 1 < ps.progress.planned ∧
    match (u.slot k).body, e with
    | .regRead _ _, .ok _ false (.register v) => values = ps.progress.values ++ [v]
    | .regWrite _ _ _, .ok _ false (.register v) => values = ps.progress.values ++ [v]
    | .setPosition _, .ok _ _ (.position _ _) => values = []
    | _, _ => False

/-! ### Captures -/

/-- From context `c` to `c'`, the pending captures of the given lines that lie at or before the current reading's sample time
complete, in the lines' order, with the records `rs` (R84, R97). -/
inductive Captured (n : SensorId) (v : Interval) : List LineId → Sensor → Sensor → List SampleRecord → Prop
  | nil (c : Sensor) : Captured n v [] c c []
  | keeps {l : LineId} {rest : List LineId} {c c' : Sensor} {rs : List SampleRecord}
      (later : ∀ x, c.captures[l] = some x → v.current.sampleTime < x.edgeTime) (next : Captured n v rest c c' rs) :
      Captured n v (l :: rest) c c' rs
  | completes {l : LineId} {rest : List LineId} {c c' : Sensor} {rs : List SampleRecord} {x : PendingCapture}
      (pending : c.captures[l] = some x) (reached : x.edgeTime ≤ v.current.sampleTime)
      (next : Captured n v rest (completeCapture n l x v c).1 c' rs) :
      Captured n v (l :: rest) c c' ((completeCapture n l x v c).2 :: rs)

/-! ### Slots -/

/-- The state in which slot `k` has been freed (R125): FREE, out of the fetch order, its ring holding one slot fewer and its
ring's chain state settled by `chain`. -/
def slotFreed (k : SlotId) (chain : ChainState) (s : State) : State :=
  let r := (s.slot k).rq
  { s with
    slots := s.slots.set k .initial
    slotOrder := s.slotOrder.filter fun j => j ≠ k
    rqs := s.rqs.set r { s.rq r with slotsHeld := (s.rq r).slotsHeld - 1, chain := chain } }

/-- The state in which the request in slot `k` is DONE with result `r` and its completion discarded, on a FAULTED completion
ring: the credit is returned and nothing is written (R127). -/
def completionDiscarded (k : SlotId) (r : Result) (s : State) : State :=
  let c := (s.slot k).cr
  (s.setSlot k { s.slot k with
    state := .done, predecessor := none, abortPending := false, abortRequester := none, result := some r }).setCr c
      { s.cr c with reserved := (s.cr c).reserved - 1 }

end Sys2Proof.Claims
end

