-- ==== Sys2Proof/Certificates/Slice0/Obligations.lean ====
section
/-! DEFINITION. The statements for the provers, in the order of OBLIGATIONS.json, with the vocabulary they are written in. -/

namespace Sys2Proof.Claims

open Sys2Proof.Machine

/-! ### Vocabulary -/

/-- The AX takes slot `k` next (R121, R135), and the slot can be answered on CR0; `u` is the state with the slot taken. -/
structure AxNext (k : SlotId) (s u : State) : Prop where
  head : s.axInbox.head? = some k
  taken : u = { s with axInbox := s.axInbox.tail }
  active : (s.slot k).state = .active
  onCr0 : (s.slot k).cr = 0
  alone : (s.slot k).abortRequester = none
  ring : (s.cr 0).state = .active
  settled : s.discarded = []

/-- The one request in flight for an object is that of slot `k`, which can be answered; `u` is the state with it taken out of
the admin-in-flight set (R137). -/
structure AnswersFor (o : AdminObject) (k : SlotId) (s u : State) : Prop where
  entry : ∃ e ∈ s.axInFlight, e.object = o ∧ e.slot = k ∧ ∀ e' ∈ s.axInFlight, e'.object = o → e' = e
  taken : u = { s with axInFlight := s.axInFlight.filter fun e => e.object ≠ o }
  active : (s.slot k).state = .active
  alone : (s.slot k).abortRequester = none
  ring : (s.cr (s.slot k).cr).state = .active

/-- The state at the beginning of a halt, with register window `w`: every block and table at its halt values, the DMA work in
flight left to end without effect, the MSI-X table and configuration, the device time and the commands that wait kept (R169,
R170). -/
def haltState (s : State) (w : Window) : State :=
  { State.reset with
    time := s.time
    lines := s.lines.map fun l => .initial l.input
    fetch := s.fetch.map fun f => { f with live := false }
    window := w
    msix := { s.msix with pending := Vector.replicate 16 false }
    outbox := s.outbox.map fun i => match i with
      | .record w => .record { w with live := false }
      | .message v => .message v
      | .read => .read
    sent := s.sent, readData := s.readData, pending := s.pending }

/-- The state of control that a halt enters: HALTING while DMA work is in flight, OFF at once otherwise (R170). -/
def HaltControl (s : State) (control : Control) : Prop :=
  (((∃ w, OutItem.record w ∈ s.outbox) ∨ s.fetch ≠ none) ∧ control = .halting) ∨
    ((∀ w, OutItem.record w ∉ s.outbox) ∧ s.fetch = none ∧ control = .off)

/-- An exchange of the transaction in slot `k` is on the line of its port, whose link is in a given state. -/
structure Carried (k : SlotId) (a : Attempt) (link : LinkState) (s : State) : Prop where
  active : (s.slot k).state = .active
  owner : (s.sched (portOf (s.slot k).sensor)).owner = some .transaction
  own : (s.sched (portOf (s.slot k).sensor)).active = some k
  running : (s.link (portOf (s.slot k).sensor)).state = link
  attempt : (s.link (portOf (s.slot k).sensor)).attempt = some a
  settled : s.discarded = []

/-- An exchange of the transaction in slot `k` is on the line of its port, in RUNNING; no round waits and no other transaction
does. -/
structure OnTheLine (k : SlotId) (a : Attempt) (s : State) : Prop extends Carried k a .running s where
  noRound : (s.sched (portOf (s.slot k).sensor)).round = .none
  empty : (s.sched (portOf (s.slot k).sensor)).queue = []

/-- The frame of the exchange on the line has been counted to its end (R24, R49), and the slot can be concluded, with the ABORT
that may wait on it. -/
structure LastExchange (k : SlotId) (a : Attempt) (s : State) : Prop extends OnTheLine k a s where
  counted : frameCounted (s.link (portOf (s.slot k).sensor)) a s.time = true
  concludable : Concludable k s

/-- The state in which the transaction in slot `k` has ended its last exchange OK: the link's attempt record is empty, its
failure count 0, the turnaround gap counts from now, and the scheduler's active fields are clear (R24, R52). -/
def exchangeOver (k : SlotId) (s : State) : State :=
  let p := portOf (s.slot k).sensor
  (s.setLink p { s.link p with attempt := none, failures := 0, lastEnd := some s.time }).setSched p { s.sched p with
    owner := none, active := none, exchangesDone := 0, hold := false, progress := .empty }

/-! ### The machine as a whole -/

end Sys2Proof.Claims

open Sys2Proof Sys2Proof.Machine Sys2Proof.Claims

/-- A step carries out the command at the front of the queue on the state with the queue's rest; on an empty queue one
tick of device time passes (the tick is the model's choice, assumption 1). -/
def Obligations.StepRunsFrontCommand : Prop :=
  (∀ (c : Instr) (rest : List Instr) (s : State),
      step { s with pending := c :: rest } = exec c { s with pending := rest }) ∧
    ∀ s : State, s.pending = [] → step s = .next { s with time := s.time + 1 }

/-- The state after reset stands as the tables say (Safe), its account of slots and credits at nought. -/
def Obligations.ResetStateIsSafe : Prop :=
  Safe State.reset ∧ State.reset.time = 0 ∧ State.reset.window.control = .off ∧ State.reset.window.enable = false ∧
    State.reset.pending = [] ∧ State.reset.notices = [] ∧ State.reset.slotOrder = [] ∧ State.reset.nextIoRing = 1

/-- Every step keeps every table of the part as the spec says it always stands: parameters in their ranges, a failure count
below the fail limit in every state but DOWN (R27), round lists ascending within the port, at most 4 held records (R108),
consecutive rejects below the limit in ACQUIRING and WAITING (R81), ring indices below the ring size, and no two notices of
one source and kind (R152). A request ring holds the slots in use for it and the one of its fetch in flight, at most 8, the
I/O rings together at most their share (R118, R119); a completion ring has reserved an entry for each request without a
result, and entries posted and reserved fit its size minus 1 (R117). A sensor is ACQUIRING only on a port in RUNNING or
RETRY_WAIT (R57); records are held only for a sensor whose ring is full and takes records (R109, R112); an ACTIVE sample ring
has its low-water level free and a CONGESTED one less than its resume level (R111); one admin request is in flight for an
object (R137). Model's choices: assumption 24. -/
def Obligations.EveryStepKeepsTheTables : Prop := ∀ s t : State, Safe s → step s = .next t → Safe t

/-- No command stops the part: every step answers a next state (assumption 4 is the model's choice for a command whose
event cannot occur). -/
def Obligations.EveryStepAnswersNext : Prop := ∀ s : State, Runs s

/-- Only the host's register writes, TIME reads and the device resets touch the admin registers, the TIME latch, the value
last read and device time (R163, R172, R173), and no command touches the commands that wait. Model's choices: assumption 1. -/
def Obligations.HostWordsKept : Prop :=
  ∀ (c : Instr) (s t : State), exec c s = .next t →
    t.pending = s.pending ∧
    (writesHostWords c = false →
      t.time = s.time ∧ t.window.adminRqBase = s.window.adminRqBase ∧ t.window.adminCrBase = s.window.adminCrBase ∧
        t.window.adminSizes = s.window.adminSizes ∧ t.window.timeLatch = s.window.timeLatch ∧ t.readData = s.readData)

/-! ### The line -/

namespace Sys2Proof.Claims

/-- The payload bits of a response, most significant bit first (Table 7, Table 47). -/
def payloadBits : WirePayload → List Bool
  | .identity w => bitsOf 32 w.toNat
  | .position angle turn => bitsOf 24 angle.toNat ++ bitsOf 16 turn.toNat
  | .register v => bitsOf 16 v.toNat
  | .empty => []

/-- The bits of a response frame after its start pattern: address, kind, tag, WARN, ALARM, payload, CRC-8 (R6, Table 47). -/
def responseFrame (address : SlaveAddr) (kind : FrameKind) (tag : BitVec 3) (warn alarm : Bool) (payload : WirePayload) :
    List Bool :=
  let body := bitsOf 2 address.val ++ bitsOf 3 kind.code ++ bitsOf 3 tag.toNat ++ [warn, alarm] ++ payloadBits payload
  body ++ bitsOf 8 (crc8 body).toNat

/-- The command of the row that an I/O request's body belongs to, for the end of an attempt of its exchange. -/
def transactionCommand (k : SlotId) (e : AttemptEnd) : Body → Option Instr
  | .regRead _ _ => some (.regRead k e)
  | .regWrite _ _ _ => some (.regWrite k e)
  | .readPosition => some (.readPosition k e)
  | .setPosition _ => some (.setPosition k e)
  | .slaveReset => some (.slaveReset k e)
  | _ => none

/-- The command ends the attempt on the line of port `p` with `e`: a frame counted to its end that the checks of R12 take so,
or the expiry of the response window (R11). -/
def EndsAttempt (p : PortId) (a : Attempt) (e : AttemptEnd) (c : Instr) (s : State) : Prop :=
  (s.link p).attempt = some a ∧
    ((∃ bits, c = .responseFrame p bits ∧ frameCounted (s.link p) a s.time = true ∧
        classify a (receivedBits a.kind bits) = .ended e) ∨
      (c = .responseWindowExpiry p ∧ e = .fault .noResponse ∧ a.phase = .listening ∧
        ∃ w, a.windowEnd = some w ∧ reached s.time w = true))

/-- The command ends the attempt on the line of the port of the transaction in slot `k` with `e`: an event of the line, or the
command of the transaction's own row at a moment at which the attempt can end so (R11, R12; assumption 2). -/
def EndsExchange (k : SlotId) (a : Attempt) (e : AttemptEnd) (c : Instr) (s : State) : Prop :=
  EndsAttempt (portOf (s.slot k).sensor) a e c s ∨
    ((s.link (portOf (s.slot k).sensor)).attempt = some a ∧ transactionCommand k e (s.slot k).body = some c ∧
      match e with
      | .fault .noResponse => a.phase = .listening ∧ ∃ w, a.windowEnd = some w ∧ reached s.time w = true
      | .fault .tagMismatch =>
        frameCounted (s.link (portOf (s.slot k).sensor)) a s.time = true ∧ ∃ tag, tag ∉ a.tags
      | .fault _ => frameCounted (s.link (portOf (s.slot k).sensor)) a s.time = true
      | .ok _ _ payload =>
        frameCounted (s.link (portOf (s.slot k).sensor)) a s.time = true ∧ payloadFits a.kind payload = true)

/-- The progress of a transaction with the exchange that ended OK with `e` gathered (R156, R159): the register value and the
WARNING, or the POSITION outcome that waits for its REPEAT. `word` is the slave's identity word. -/
def progressAfter (a : Attempt) (word : BitVec 32) (g : TransactionProgress) : AttemptEnd → TransactionProgress
  | .ok warn _ (.register v) => { g with values := g.values ++ [v], warning := g.warning || warn }
  | .ok warn alarm (.position angle turn) => { g with position := some {
      result := .ok warn alarm (.reading (angle.toNat % 2 ^ wordSt word) (turn.toNat % 2 ^ wordMt word))
      attempts := a.tags.length, address := a.address, kind := a.kind, requestTime := a.requestTime } }
  | _ => g

/-- The state in which an exchange of the transaction in slot `k` has ended OK with `e` and the transaction goes on: the link is
idle, the exchange counted and gathered (R24, R49). -/
def exchangeCounted (k : SlotId) (a : Attempt) (e : AttemptEnd) (s : State) : State :=
  let p := portOf (s.slot k).sensor
  let ps := s.sched p
  (s.setLink p { s.link p with attempt := none, failures := 0, lastEnd := some s.time }).setSched p { ps with
    owner := none, exchangesDone := ps.exchangesDone + 1
    progress := progressAfter a ((s.link p).identity[a.address]).word ps.progress e }

/-- An exchange of a transaction of the bodies `P` ends OK, whatever else stands on its port (R24, R47, R49, R52): where it
completes the transaction, by its own result or ABORTED, the request is concluded and the scheduler then decides; where it
does not, the exchange is counted and gathered and the scheduler then decides. So a round that is DUE starts with LATE set,
whether the transaction has ended or yields; without one it goes on, and after one that has ended the oldest reference of the
queue is activated. -/
def OkExchangeEnds (P : Body → Prop) : Prop :=
  ∀ (k : SlotId) (a : Attempt) (e : AttemptEnd) (c : Instr) (s : State),
    Carried k a .running s → Concludable k s → EndsExchange k a e c s → P (s.slot k).body →
    let p := portOf (s.slot k).sensor
    let ps := s.sched p
    QueueReady p s →
    (∀ r u, OwnResult k a ((s.link p).identity[a.address]).word ps e (exchangeOver k s) r u →
      Completes c s fun t => ∃ v, Concluded k r u v ∧ Decides p v t) ∧
    ∀ values, MoreToCome k ps e s values →
      ((s.slot k).abortPending = true → Completes c s fun t => ∃ v,
        Concluded k (cutShort .aborted (ps.exchangesDone + 1) (s.slot k).body values) (exchangeOver k s) v ∧ Decides p v t) ∧
      ((s.slot k).abortPending = false → Completes c s (Decides p (exchangeCounted k a e s)))

end Sys2Proof.Claims

/-- A response frame that a slave builds for the current attempt, with any status bits and any payload of the form its kind
calls for, is taken as that response: no bit of it is dropped, and bits after its counted length do not matter (R3, R6, R8,
R12). -/
def Sys2Proof.Claims.ResponseFrameReadsBack : Prop :=
  ∀ (a : Attempt) (tag : BitVec 3) (warn alarm : Bool) (payload : WirePayload) (rest : List Bool),
    a.tags.getLast? = some tag → payloadFits a.kind payload = true →
    classify a (receivedBits a.kind (responseFrame a.address a.kind tag warn alarm payload ++ rest)) =
      .ended (.ok warn alarm payload)

/-- The CRC-8 run over any frame with its CRC field included ends at zero (R8). -/
def Sys2Proof.Claims.CrcOverWholeFrameIsZero : Prop :=
  ∀ body : List Bool, crc8 (body ++ bitsOf 8 (crc8 body).toNat) = 0

/-- A response frame is read back whole, and its CRC closes it (R3, R6, R8, R12). -/
def Obligations.ResponseFramesCarryTheirFields : Prop := ResponseFrameReadsBack ∧ CrcOverWholeFrameIsZero

/-- The frame counted on the line, or the expiry of the window, is the end of an attempt that the transaction's own row speaks
of: both commands do the same to the part (R11, R12, R49; assumption 2 is the model's reading of these rows). Model's choices:
assumption 7. -/
def Obligations.LineEventsAreTransactionEnds : Prop :=
  ∀ (k : SlotId) (p : PortId) (s : State) (a : Attempt),
    portOf (s.slot k).sensor = p → (s.slot k).state = .active → (s.sched p).active = some k →
    (s.sched p).owner = some .transaction → (s.link p).attempt = some a →
    (∀ bits e c, frameCounted (s.link p) a s.time = true → classify a (receivedBits a.kind bits) = .ended e →
      transactionCommand k e (s.slot k).body = some c → exec (.responseFrame p bits) s = exec c s) ∧
    (∀ c, windowOver a s.time = true → transactionCommand k (.fault .noResponse) (s.slot k).body = some c →
      exec (.responseWindowExpiry p) s = exec c s)

/-! ### Device control -/

/-- ENABLE taken in OFF with CTRL.ENABLE at 0: valid admin registers create CR0 and RQ0 and set READY; others set CONFIG_ERROR
and create nothing (R168). In HALTING the enable is held (R170); where ENABLE reads 1 nothing happens. -/
def Obligations.EnableCreatesTheAdminRings : Prop :=
  ∀ s : State,
    (s.window.enable = true → exec .enable s = .next s) ∧
    (s.window.enable = false → s.window.control ≠ .off →
      exec .enable s = .next { s with window := { s.window with enable := true } }) ∧
    (s.window.enable = false → s.window.control = .off →
      let valid := s.window.adminRqBase.toNat % 64 = 0 ∧ s.window.adminCrBase.toNat % 32 = 0 ∧
        2 ≤ s.window.rqSize ∧ s.window.rqSize ≤ 4096 ∧ 2 ≤ s.window.crSize ∧ s.window.crSize ≤ 4096
      (valid → exec .enable s = .next { s with
        window := { s.window with enable := true, fatal := false, configError := false, control := .ready }
        crs := s.crs.set 0
          { state := .active, base := s.window.adminCrBase.toNat, size := s.window.crSize, vector := 0
            coalescingCount := 1, coalescingTime := 0, producer := 0, consumer := 0, phase := true, reserved := 0
            failedEntry := none, interrupt := { count := 0, timer := none } }
        rqs := s.rqs.set 0
          { state := .active, base := s.window.adminRqBase.toNat, size := s.window.rqSize, boundCr := some 0, tail := 0
            fetchHead := 0, slotsHeld := 0, chain := .noChain, failedEntry := none } }) ∧
      (¬ valid → exec .enable s = .next { s with
        window := { s.window with enable := true, fatal := false, configError := true } }))

/-- HALT taken in READY brings every block to its halt values and keeps the admin registers, BAD_NOTIFY, the TIME latch and
the device time; DMA work in flight is left to end, and the device waits for it in HALTING or is in OFF at once (R169, R170).
In OFF and HALTING it clears ENABLE and nothing else. -/
def Sys2Proof.Claims.HaltBringsTheHaltValues : Prop :=
  ∀ s : State,
    (s.window.enable = false → exec .halt s = .next s) ∧
    (s.window.enable = true → s.window.control ≠ .ready →
      exec .halt s = .next { s with window := { s.window with enable := false } }) ∧
    (s.window.enable = true → s.window.control = .ready →
      ∃ control, HaltControl s control ∧
        exec .halt s = .next (haltState s { s.window with enable := false, control := control }))

/-- HALT_COMPLETE, in HALTING with no DMA work in flight, enters OFF, and a held enable is then taken as ENABLE in OFF is;
while DMA work is in flight the device waits (R168, R170). -/
def Sys2Proof.Claims.HaltCompletes : Prop :=
  ∀ s : State,
    (s.window.control ≠ .halting ∨ (∃ w, OutItem.record w ∈ s.outbox) ∨ s.fetch ≠ none →
      exec .haltComplete s = .next s) ∧
    (s.window.control = .halting → (∀ w, OutItem.record w ∉ s.outbox) → s.fetch = none →
      (s.window.enable = false →
        exec .haltComplete s = .next { s with window := { s.window with control := .off } }) ∧
      (s.window.enable = true →
        exec .haltComplete s =
          exec .enable { s with window := { s.window with control := .off, enable := false } }))

/-- HALT and HALT_COMPLETE (R168 to R170). Model's choices: assumption 8, assumption 9, assumption 28. -/
def Obligations.HaltAndItsEnd : Prop := HaltBringsTheHaltValues ∧ HaltCompletes

/-- A device reset leaves the state after reset, but for the capture inputs, what was sent, what was read and the commands
that wait (assumption 22); by CTRL.RESET it keeps the MSI-X table and the configuration space, by another source it does not
(R172). -/
def Obligations.DeviceResetLeavesResetState : Prop :=
  ∀ (s : State) (b : Bool) (source : ResetSource),
    exec (.reset b) s = .next { State.reset with
      lines := s.lines.map fun l => .initial l.input
      msix := { s.msix with pending := Vector.replicate 16 false }
      sent := s.sent, readData := s.readData, pending := s.pending } ∧
    exec (.deviceReset source) s = .next { State.reset with
      lines := s.lines.map fun l => .initial l.input
      sent := s.sent, readData := s.readData, pending := s.pending }

/-- BAD_NOTIFY_CLEAR clears that flag alone (R164); a 32-bit read of TIME low returns the low word and latches the high one, a
64-bit read returns both, a narrower read the named bytes, and none changes anything else (R163, R173). -/
def Sys2Proof.Claims.FlagClearAndTimeLow : Prop :=
  ∀ s : State,
    exec .badNotifyClear s = .next { s with window := { s.window with badNotify := false } } ∧
    (∀ access, ∃ value : BitVec 64,
      exec (.timeLowRead access) s = .next { s with
        readData := value, window := { s.window with timeLatch := s.time.extractLsb' 32 32 } } ∧
      (access = .word → value = (s.time.extractLsb' 0 32).setWidth 64) ∧
      (access = .quad → value = s.time) ∧
      (∀ first count, access = .bytes first count → count ≤ 3 → first + count ≤ 4 →
        ∀ i, value.getLsbD i = (decide (i < 8 * count) && s.time.getLsbD (8 * first + i))))

/-- What a 32-bit read of each word of BAR0 returns (Tables 36 and 38), and what the other widths make of it: a narrower read
the named bytes, a 64-bit read two reads with the lower offset first; a read changes nothing but the TIME latch, and that at
TIME low alone (R163). -/
def Sys2Proof.Claims.RegisterReadsByWidth : Prop :=
  ∀ s : State,
    (s.bar0Read 0x00 = 0xA8320001#32 ∧ s.bar0Read 0x04 = BitVec.ofNat 31 0 ++ BitVec.ofBool s.window.enable ∧
      s.bar0Read 0x08 = BitVec.ofNat 27 0 ++ BitVec.ofBool s.window.badNotify ++ BitVec.ofBool s.window.configError ++
        BitVec.ofBool s.window.fatal ++ BitVec.ofBool (decide (s.window.control = .off)) ++
        BitVec.ofBool (decide (s.window.control = .ready)) ∧
      s.bar0Read 0x10 = s.window.adminRqBase.extractLsb' 0 32 ∧ s.bar0Read 0x14 = s.window.adminRqBase.extractLsb' 32 32 ∧
      s.bar0Read 0x18 = s.window.adminCrBase.extractLsb' 0 32 ∧ s.bar0Read 0x1C = s.window.adminCrBase.extractLsb' 32 32 ∧
      s.bar0Read 0x20 = s.window.adminSizes ∧ s.bar0Read 0x28 = s.time.extractLsb' 0 32 ∧
      s.bar0Read 0x2C = s.window.timeLatch ∧
      ∀ o, (o = 0x0C ∨ o = 0x24 ∨ (0x30 ≤ o ∧ o < 0x1000) ∨ (0x1100 ≤ o ∧ o ≠ 0x1800)) → s.bar0Read o = 0) ∧
    (∀ i : VectorId,
      s.bar0Read (0x1000 + 16 * i.val) = (s.msix.table[i]).address.extractLsb' 0 32 ∧
      s.bar0Read (0x1000 + 16 * i.val + 4) = (s.msix.table[i]).address.extractLsb' 32 32 ∧
      s.bar0Read (0x1000 + 16 * i.val + 8) = (s.msix.table[i]).data ∧
      s.bar0Read (0x1000 + 16 * i.val + 12) = BitVec.ofNat 31 0 ++ BitVec.ofBool (s.msix.table[i]).masked ∧
      (s.bar0Read 0x1800).getLsbD i.val = s.msix.pending[i]) ∧
    ∀ o : Nat,
      s.hostRead o .word = (s.bar0Read o).setWidth 64 ∧
      (∀ first count, first + count ≤ 4 → ∀ i, (s.hostRead o (.bytes first count)).getLsbD i =
        (decide (i < 8 * count) && (s.bar0Read o).getLsbD (8 * first + i))) ∧
      (o ≠ 0x28 → s.hostRead o .quad = s.bar0Read (o + 4) ++ s.bar0Read o ∧ s.afterRead o = s) ∧
      s.hostRead 0x28 .quad = s.time ∧
      s.afterRead 0x28 = { s with window := { s.window with timeLatch := s.time.extractLsb' 32 32 } }

/-- The flag that STATUS clears, and what reads of BAR0 return and change (R163, R164, R173). Model's choices: assumption 6
for the MSI-X table's words, assumption 9, assumption 32 for narrower reads of them. -/
def Obligations.FlagClearAndTimeRead : Prop := FlagClearAndTimeLow ∧ RegisterReadsByWidth

/-- RQ_TAIL stores the tail of a ring that is not ABSENT when the index lies below its size, and sets BAD_NOTIFY otherwise
(R164, R115). -/
def Sys2Proof.Claims.RqTailStoresTheTail : Prop :=
  ∀ (id : BitVec 3) (index : BitVec 16) (r : RqId) (s : State), id.toNat = r.val →
    ((s.rq r).state ≠ .absent → index.toNat < (s.rq r).size →
      exec (.rqTail id index) s = .next (s.setRq r { s.rq r with tail := index.toNat })) ∧
    ((s.rq r).state = .absent ∨ (s.rq r).size ≤ index.toNat →
      exec (.rqTail id index) s = .next { s with window := { s.window with badNotify := true } })

/-- CR_HEAD stores the consumer index of a ring that is not ABSENT when the new head lies below the size and does not pass
the producer, and sets BAD_NOTIFY otherwise (R164, R117). -/
def Sys2Proof.Claims.CrHeadStoresTheHead : Prop :=
  ∀ (id : BitVec 3) (index : BitVec 16) (r : CrId) (s : State), id.toNat = r.val → (s.cr r).Ok →
    let d := s.cr r
    let good := d.state ≠ .absent ∧ index.toNat < d.size ∧
      ((index.toNat : Int) - d.consumer) % d.size ≤ ((d.producer : Int) - d.consumer) % d.size
    (good → exec (.crHead id index) s = .next (s.setCr r { d with consumer := index.toNat })) ∧
    (¬ good → exec (.crHead id index) s = .next { s with window := { s.window with badNotify := true } })

/-- RQ_TAIL and CR_HEAD store their index or set BAD_NOTIFY (R115, R117, R164). -/
def Obligations.HeadsAndTailsAreStored : Prop := RqTailStoresTheTail ∧ CrHeadStoresTheHead

/-- SR_HEAD with nothing held stores the consumer index, and brings a CONGESTED ring back to ACTIVE where the free entries
have reached the resume level; a FAULTED ring stores the index alone; a head that fails a check sets BAD_NOTIFY (R110, R111,
R164). -/
def Sys2Proof.Claims.SrHeadStoresTheHead : Prop :=
  ∀ (id : BitVec 3) (index : BitVec 16) (s : State),
    (∀ r : SrId, id.toNat = r.val → (s.sr r).Ok →
      let d := s.sr r
      let good := d.state ≠ .absent ∧ index.toNat < d.size ∧
        ((index.toNat : Int) - d.consumer) % d.size ≤ ((d.producer : Int) - d.consumer) % d.size
      (good → (∀ n, (s.sensor n).ring = r → (s.sensor n).held = []) →
        exec (.srHead id index) s = .next (s.setSr r { d with
          consumer := index.toNat
          state := if d.state = .congested ∧ (d.resume : Int) ≤ d.size - 1 - ((d.producer : Int) - index.toNat) % d.size
            then .active else d.state })) ∧
      (¬ good → exec (.srHead id index) s = .next { s with window := { s.window with badNotify := true } })) ∧
    (4 ≤ id.toNat → exec (.srHead id index) s = .next { s with window := { s.window with badNotify := true } })

/-- An accepted SR_HEAD on an ACTIVE or CONGESTED ring writes held records of its sensors, in ascending sensor id and oldest
first in each, as many as the ring then has free entries for, each by R105; what is left stays held. The resume check comes
after the last write. Nothing else changes (R109 to R111). On a FAULTED ring it stores the index alone. -/
def Sys2Proof.Claims.SrHeadDrainsTheHeldQueues : Prop :=
  ∀ (id : BitVec 3) (index : BitVec 16) (r : SrId) (s : State), id.toNat = r.val → (s.sr r).Ok →
    index.toNat < (s.sr r).size →
    ((index.toNat : Int) - (s.sr r).consumer) % (s.sr r).size ≤
      ((s.sr r).producer - (s.sr r).consumer : Int) % (s.sr r).size →
    (∀ n, ∀ x ∈ (s.sensor n).held, x.sensor = n) →
    let free : Int := (s.sr r).size - 1 - ((s.sr r).producer - index.toNat : Int) % (s.sr r).size
    let held := allSensors.flatMap fun n =>
      if (s.sensor n).ring = r ∧ (s.sensor n).state ≠ .unbound then (s.sensor n).held else []
    ((s.sr r).state = .faulted → exec (.srHead id index) s = .next (s.setSr r { s.sr r with consumer := index.toNat })) ∧
    ((s.sr r).state = .active ∨ (s.sr r).state = .congested →
      Completes (.srHead id index) s fun t => ∃ (written left : SensorId → List SampleRecord) (v : State),
        (∀ n, (s.sensor n).held = written n ++ left n) ∧
        (∀ n, ¬ ((s.sensor n).ring = r ∧ (s.sensor n).state ≠ .unbound) → written n = []) ∧
        (∀ n m, n < m → (s.sensor n).ring = r → (s.sensor n).state ≠ .unbound → left n ≠ [] → written m = []) ∧
        ((allSensors.flatMap written).length : Int) = min (held.length : Int) free ∧
        Through Written (allSensors.flatMap written) (s.setSr r { s.sr r with consumer := index.toNat }) v ∧
        t = { v with sensors := t.sensors, srs := t.srs } ∧
        (∀ n, t.sensor n = { v.sensor n with held := left n }) ∧
        (∀ i, i ≠ r → t.sr i = v.sr i) ∧
        t.sr r = { v.sr r with
          state := if (v.sr r).state = .congested ∧ ((v.sr r).resume : Int) ≤
            (v.sr r).size - 1 - ((v.sr r).producer - (v.sr r).consumer : Int) % (v.sr r).size then .active
            else (v.sr r).state })

/-- SR_HEAD stores the consumer index, drains the held queues and resumes the ring, or sets BAD_NOTIFY (R109 to R111, R164). -/
def Obligations.SampleHeadUpdates : Prop := SrHeadStoresTheHead ∧ SrHeadDrainsTheHeldQueues

/-- REGISTER_WRITE: a write narrower than 32 bits is ignored, a 64-bit write is two 32-bit writes with the lower offset first,
and a 32-bit write acts as the command of the word it names: CTRL, STATUS and RING_NOTIFY as the commands of their rows, the
admin registers stored only while CTRL.ENABLE reads 0, every other word of the window ignored (R163, R164, R172); the words of
the MSI-X table set a vector's message and mask (their layout is assumption 6). Model's choices: assumption 23, assumption 32
for a narrower write to the MSI-X table and for a write to the pending-bit array, which are ignored. -/
def Obligations.RegisterWriteActsAsItsWord : Prop :=
  ∀ (v : BitVec 64) (s : State),
    (∀ o, exec (.registerWrite o .narrow v) s = .next s) ∧
    (∀ o, ∃ u, exec (.registerWrite o .word (v &&& 0xFFFFFFFF#64)) s = .next u ∧
      exec (.registerWrite o .quad v) s = exec (.registerWrite (o + 4) .word (v >>> 32)) u) ∧
    (v.getLsbD 1 = true → exec (.registerWrite 0x04 .word v) s = exec (.reset (v.getLsbD 0)) s) ∧
    (v.getLsbD 1 = false → v.getLsbD 0 = true → exec (.registerWrite 0x04 .word v) s = exec .enable s) ∧
    (v.getLsbD 1 = false → v.getLsbD 0 = false → exec (.registerWrite 0x04 .word v) s = exec .halt s) ∧
    exec (.registerWrite 0x08 .word v) s = (if v.getLsbD 4 = true then exec .badNotifyClear s else .next s) ∧
    (v.extractLsb' 20 2 = 0 →
      exec (.registerWrite 0x0C .word v) s = exec (.rqTail (v.extractLsb' 16 3) (v.extractLsb' 0 16)) s) ∧
    (v.extractLsb' 20 2 = 1 →
      exec (.registerWrite 0x0C .word v) s = exec (.crHead (v.extractLsb' 16 3) (v.extractLsb' 0 16)) s) ∧
    (v.extractLsb' 20 2 = 2 →
      exec (.registerWrite 0x0C .word v) s = exec (.srHead (v.extractLsb' 16 3) (v.extractLsb' 0 16)) s) ∧
    (v.extractLsb' 20 2 = 3 →
      exec (.registerWrite 0x0C .word v) s = .next { s with window := { s.window with badNotify := true } }) ∧
    (s.window.enable = true → ∀ o ∈ [0x10, 0x14, 0x18, 0x1C, 0x20], exec (.registerWrite o .word v) s = .next s) ∧
    (s.window.enable = false →
      exec (.registerWrite 0x10 .word v) s = .next { s with window := { s.window with
        adminRqBase := s.window.adminRqBase.extractLsb' 32 32 ++ v.extractLsb' 0 32 } } ∧
      exec (.registerWrite 0x14 .word v) s = .next { s with window := { s.window with
        adminRqBase := v.extractLsb' 0 32 ++ s.window.adminRqBase.extractLsb' 0 32 } } ∧
      exec (.registerWrite 0x18 .word v) s = .next { s with window := { s.window with
        adminCrBase := s.window.adminCrBase.extractLsb' 32 32 ++ v.extractLsb' 0 32 } } ∧
      exec (.registerWrite 0x1C .word v) s = .next { s with window := { s.window with
        adminCrBase := v.extractLsb' 0 32 ++ s.window.adminCrBase.extractLsb' 0 32 } } ∧
      exec (.registerWrite 0x20 .word v) s = .next { s with window := { s.window with
        adminSizes := v.extractLsb' 0 32 &&& 0x1FFF1FFF#32 } }) ∧
    (∀ o, (o ∈ [0x00, 0x24, 0x28, 0x2C] ∨ (0x30 ≤ o ∧ o < 0x1000) ∨ 0x1100 ≤ o) →
      exec (.registerWrite o .word v) s = .next s) ∧
    ∀ i : VectorId,
      exec (.registerWrite (0x1000 + 16 * i.val) .word v) s = exec (.vectorUnblock (.vectorMessage i
        ((s.msix.table[i]).address.extractLsb' 32 32 ++ v.extractLsb' 0 32) (s.msix.table[i]).data)) s ∧
      exec (.registerWrite (0x1000 + 16 * i.val + 4) .word v) s = exec (.vectorUnblock (.vectorMessage i
        (v.extractLsb' 0 32 ++ (s.msix.table[i]).address.extractLsb' 0 32) (s.msix.table[i]).data)) s ∧
      exec (.registerWrite (0x1000 + 16 * i.val + 8) .word v) s = exec (.vectorUnblock (.vectorMessage i
        (s.msix.table[i]).address (v.extractLsb' 0 32))) s ∧
      exec (.registerWrite (0x1000 + 16 * i.val + 12) .word v) s = exec (.vectorUnblock (.vectorMask i (v.getLsbD 0))) s

/-- From `m` to `m'`, a host write to the MSI-X table or the configuration space changes its one setting (R167). -/
def Sys2Proof.Claims.SettingWritten (w : MsixWrite) (m m' : MsixUnit) : Prop :=
  (∀ j b, w = .vectorMask j b → m' = { m with table := m.table.set j { m.table[j] with masked := b } }) ∧
  (∀ j a d, w = .vectorMessage j a d → m' = { m with table := m.table.set j { m.table[j] with address := a, data := d } }) ∧
  (∀ b, w = .functionMask b → m' = { m with functionMask := b }) ∧
  (∀ b, w = .msixEnable b → m' = { m with enabled := b }) ∧
  (∀ b, w = .busMaster b → m' = { m with busMaster := b })

/-- VECTOR_UNBLOCK: the write that clears the last condition blocking a pending vector sends its one message with the address
and data as they stand, and clears its flag; a write that unblocks no pending vector changes the setting alone (R167; the
other vectors are not pending here). While record writes are in flight the message goes behind them (R165, R167). -/
def Sys2Proof.Claims.OnePendingVectorSendsOnce : Prop :=
  ∀ (w : MsixWrite) (s : State) (v : VectorId),
    s.msix.pending[v] = true → (∀ j, j ≠ v → s.msix.pending[j] = false) →
    ∃ m : MsixUnit, m.pending = s.msix.pending ∧ SettingWritten w s.msix m ∧
      ((m.table[v]).masked = true ∨ m.functionMask = true ∨ m.enabled = false ∨ m.busMaster = false →
        exec (.vectorUnblock w) s = .next { s with msix := m }) ∧
      ((m.table[v]).masked = false → m.functionMask = false → m.enabled = true → m.busMaster = true →
        (s.outbox = [] → exec (.vectorUnblock w) s = .next { s with
          msix := { m with pending := m.pending.set v false }
          sent := s.sent ++ [.message { vector := v, address := (m.table[v]).address, data := (m.table[v]).data }] }) ∧
        (s.outbox ≠ [] → exec (.vectorUnblock w) s = .next { s with
          msix := { m with pending := m.pending.set v false }, outbox := s.outbox ++ [.message v] }))

/-- The same whatever is pending: each pending vector that the setting as written leaves unblocked has its flag cleared and
its one message sent, in ascending vector number (the model's choice: assumption 11), or put behind the record writes in
flight; the flags of blocked vectors stay. Where no vector is pending the write changes its setting alone (R165, R167). -/
def Sys2Proof.Claims.WriteReleasesThePendingVectors : Prop :=
  ∀ (w : MsixWrite) (s : State), ∃ m : MsixUnit, SettingWritten w s.msix m ∧
    ((∀ v : VectorId, s.msix.pending[v] = false) → exec (.vectorUnblock w) s = .next { s with msix := m }) ∧
    let released := (List.finRange 16).filter fun v => s.msix.pending[v] = true ∧ ¬ Blocked m v
    let kept := { m with pending := Vector.ofFn fun v : VectorId => s.msix.pending[v] && decide (Blocked m v) }
    (s.outbox = [] → exec (.vectorUnblock w) s = .next { s with
      msix := kept
      sent := s.sent ++ released.map fun v =>
        .message { vector := v, address := (m.table[v]).address, data := (m.table[v]).data } }) ∧
    (s.outbox ≠ [] → exec (.vectorUnblock w) s = .next { s with
      msix := kept, outbox := s.outbox ++ released.map .message })

/-- VECTOR_UNBLOCK with one vector pending, with several and with none (R165, R167). Model's choices: assumption 11, assumption
23. -/
def Obligations.UnblockedVectorSendsOnce : Prop := OnePendingVectorSendsOnce ∧ WriteReleasesThePendingVectors

/-! ### Fetching -/

namespace Sys2Proof.Claims

/-- A request ring is eligible for a fetch: the five conditions of R119. -/
structure Eligible (s : State) (r : RqId) : Prop where
  ring : (s.rq r).state = .active ∧ (s.rq r).tail ≠ (s.rq r).fetchHead
  slot : ∃ k, (s.slot k).state = .free
  held : (s.rq r).slotsHeld < 8
  together : r ≠ 0 → (s.rq 1).slotsHeld + (s.rq 2).slotsHeld + (s.rq 3).slotsHeld + (s.rq 4).slotsHeld + (s.rq 5).slotsHeld
    + (s.rq 6).slotsHeld + (s.rq 7).slotsHeld < 28
  entry : ∃ c, (s.rq r).boundCr = some c ∧ (s.cr c).state = .active ∧
    ((s.cr c).producer - (s.cr c).consumer : Int) % (s.cr c).size + (s.cr c).reserved + 1 < (s.cr c).size

/-- The place of an I/O ring in the turn that begins at `first` (R119): RQ1 to RQ7 in cyclic order. -/
def turnOf (first r : RqId) : Nat := (r.val + 7 - first.val) % 7

/-- The arbiter takes ring `r`: RQ0 if it is eligible, else the first eligible I/O ring in turn (R119). -/
def Takes (s : State) (r : RqId) : Prop :=
  Eligible s r ∧ (r ≠ 0 → ¬ Eligible s 0 ∧ ∀ q, q ≠ 0 → turnOf s.nextIoRing q < turnOf s.nextIoRing r → ¬ Eligible s q)

/-- The slot that holds a fetched request: the header fields of Table 39, the body of Table 40, in state `st`. -/
def requestSlot (f : Fetch) (e : BitVec 512) (st : SlotState) : Slot :=
  { state := st, rq := f.rq, cr := f.cr, tag := e.extractLsb' 16 16, kind := e.extractLsb' 0 8
    notify := e.getLsbD 8, link := e.getLsbD 9, holdPoll := e.getLsbD 10
    sensor := ⟨(e.extractLsb' 32 5).toNat, (e.extractLsb' 32 5).isLt⟩, body := entryBody e
    predecessor := none, abortPending := false, abortRequester := none, result := none }

/-- The state in which the request of entry `e` has been taken into its slot: the fetch has ended, the fetch head has
advanced, the slot stands last in fetch order (R121). -/
def requestTaken (f : Fetch) (e : BitVec 512) (st : SlotState) (chain : ChainState) (s : State) : State :=
  { s with
    fetch := none
    rqs := s.rqs.set f.rq { s.rq f.rq with fetchHead := ((s.rq f.rq).fetchHead + 1) % (s.rq f.rq).size, chain := chain }
    slots := s.slots.set f.slot (requestSlot f e st)
    slotOrder := s.slotOrder ++ [f.slot] }

/-- The state in which a fetch has failed and returned its slot and its credit (R120). -/
def fetchReturned (f : Fetch) (s : State) : State :=
  { s with
    fetch := none
    rqs := s.rqs.set f.rq { s.rq f.rq with slotsHeld := (s.rq f.rq).slotsHeld - 1 }
    crs := s.crs.set f.cr { s.cr f.cr with reserved := (s.cr f.cr).reserved - 1 } }

/-- The field of `n` bytes at byte `b` of a request record, little-endian (R174). -/
def bytesAt (e : BitVec 512) (b n : Nat) : Nat := (e.extractLsb' (8 * b) (8 * n)).toNat

end Sys2Proof.Claims

/-- FETCH_ISSUE takes the ring whose turn it is, holds the lowest-numbered FREE slot, raises the ring's slots held, reserves
one credit on its bound completion ring and has the entry at the fetch head read: at once, or behind the record writes in
flight; with a fetch in flight, or no eligible ring, it does nothing (R119, R165). The rings' indices are in range and the
turn is of an I/O ring (Safe). Model's choices: assumption 4. -/
def Obligations.FetchTakesTheRingInTurn : Prop :=
  ∀ s : State, (∀ r, (s.rq r).Ok) → (∀ c, (s.cr c).Ok) → s.nextIoRing ≠ 0 →
    (s.fetch ≠ none → exec .fetchIssue s = .next s) ∧
    ((∀ r, ¬ Eligible s r) → exec .fetchIssue s = .next s) ∧
    ∀ (r : RqId) (c : CrId) (k : SlotId), s.fetch = none → Takes s r → (s.rq r).boundCr = some c →
      (s.slot k).state = .free → (∀ j, j < k → (s.slot j).state ≠ .free) →
      let address := (s.rq r).base + 64 * (s.rq r).fetchHead
      exec .fetchIssue s = .next { s with
        rqs := s.rqs.set r { s.rq r with slotsHeld := (s.rq r).slotsHeld + 1 }
        crs := s.crs.set c { s.cr c with reserved := (s.cr c).reserved + 1 }
        nextIoRing := if r = 0 then s.nextIoRing else if r = 7 then 1 else r + 1
        outbox := if s.outbox = [] then [] else s.outbox ++ [.read]
        fetch := some { rq := r, cr := c, slot := k, entry := (s.rq r).fetchHead, address := address, live := true
                        read := if s.outbox ≠ [] then .waiting
                          else if s.msix.busMaster = true ∧ address + 64 ≤ 2 ^ 64 then .issued s.time else .notIssued } }

/-- The body of a request is read as Table 40 lays it out, for every kind (the selector, byte 28 of CREATE_RING, is the bound
CR of an RQ and the vector of a CR or SR). -/
def Obligations.RequestBodiesAreRead : Prop :=
  ∀ e : BitVec 512,
    (bytesAt e 0 1 = 0x01 → entryBody e = .createRing
      { ringClass := bytesAt e 8 1, ringId := bytesAt e 9 1, base := bytesAt e 16 8, size := bytesAt e 24 4
        selector := bytesAt e 28 1, coalescingCount := bytesAt e 29 1, coalescingTime := bytesAt e 30 2
        lowWater := bytesAt e 32 4, resume := bytesAt e 36 4 }) ∧
    (bytesAt e 0 1 = 0x02 → entryBody e = .deleteRing (bytesAt e 8 1) (bytesAt e 9 1)) ∧
    (bytesAt e 0 1 = 0x03 → entryBody e = .portConfig
      { port := bytesAt e 8 1, bitRate := bytesAt e 12 1, cyclePeriod := bytesAt e 14 2, responseWindow := bytesAt e 16 1
        retryLimit := bytesAt e 17 1, retryGap := bytesAt e 18 1, failLimit := bytesAt e 19 1
        retrainInterval := bytesAt e 20 1 }) ∧
    (bytesAt e 0 1 = 0x04 → entryBody e = .portStart (bytesAt e 8 1)) ∧
    (bytesAt e 0 1 = 0x05 → entryBody e = .portStop (bytesAt e 8 1)) ∧
    (bytesAt e 0 1 = 0x06 → entryBody e = .sensorBind
      { sensor := bytesAt e 8 1, ring := bytesAt e 9 1, turnMode := bytesAt e 10 1, confirm := bytesAt e 11 1
        rejectLimit := bytesAt e 12 1, captureMask := bytesAt e 13 1, decimation := bytesAt e 14 2
        jumpLimit := bytesAt e 16 4, scale := bytesAt e 20 4, offset := (e.extractLsb' 192 64).toInt }) ∧
    (bytesAt e 0 1 = 0x07 → entryBody e = .sensorUnbind (bytesAt e 8 1)) ∧
    (bytesAt e 0 1 = 0x08 → entryBody e = .sensorStart (bytesAt e 8 1)) ∧
    (bytesAt e 0 1 = 0x09 → entryBody e = .sensorStop (bytesAt e 8 1)) ∧
    (bytesAt e 0 1 = 0x0A → entryBody e = .captureConfig (bytesAt e 8 1) (bytesAt e 9 1) (bytesAt e 10 1)) ∧
    (bytesAt e 0 1 = 0x0B → entryBody e = .captureArm
      { line := bytesAt e 8 1, mode := bytesAt e 9 1, referencePresent := bytesAt e 10 1
        referenceSensor := bytesAt e 11 1, referencePosition := (e.extractLsb' 128 64).toInt }) ∧
    (bytesAt e 0 1 = 0x0C → entryBody e = .captureDisarm (bytesAt e 8 1)) ∧
    (bytesAt e 0 1 = 0x0D → entryBody e = .queryPort (bytesAt e 8 1)) ∧
    (bytesAt e 0 1 = 0x0E → entryBody e = .querySensor (bytesAt e 8 1)) ∧
    (bytesAt e 0 1 = 0x0F → entryBody e = .queryDevice) ∧
    (bytesAt e 0 1 = 0x10 → entryBody e = .abort (bytesAt e 8 1) (e.extractLsb' 80 16)) ∧
    (bytesAt e 0 1 = 0x20 → entryBody e = .regRead (bytesAt e 8 1) (bytesAt e 9 1)) ∧
    (bytesAt e 0 1 = 0x21 → entryBody e = .regWrite (bytesAt e 8 1) (bytesAt e 9 1)
      [e.extractLsb' 128 16, e.extractLsb' 144 16, e.extractLsb' 160 16, e.extractLsb' 176 16, e.extractLsb' 192 16,
        e.extractLsb' 208 16, e.extractLsb' 224 16, e.extractLsb' 240 16]) ∧
    (bytesAt e 0 1 = 0x22 → entryBody e = .readPosition) ∧
    (bytesAt e 0 1 = 0x23 → entryBody e = .setPosition (e.extractLsb' 128 64).toInt) ∧
    (bytesAt e 0 1 = 0x24 → entryBody e = .slaveReset)

/-- FETCH_END without error: the request is taken into its slot and placed by the first case of R121 that applies: ABORTED on
a DRAINING ring, INVALID_KIND for a kind not of the ring's class, handed to the AX from RQ0, and by the chain state of R122
from RQ1 to RQ7. A request with no chain before it arrives at the scheduler of its port, which takes it by the link state: the
queue with a decision, its checks and its first exchange with the HOLD_POLL setting, or PORT_DOWN or PORT_STOPPED (R45, R47,
R48, R155). Model's choices: assumption 25, assumption 26, assumption 27. -/
def Obligations.FetchedRequestIsPlaced : Prop :=
  ∀ (f : Fetch) (issue : Time) (e : BitVec 512) (s : State), s.fetch = some f → f.live = true → f.read = .issued issue →
    s.discarded = [] →
    let d := s.rq f.rq
    let code := bytesAt e 0 1
    let refused := if e.getLsbD 9 = true then ChainState.broken else .noChain
    let next := if e.getLsbD 9 = true then ChainState.openAt f.slot else .noChain
    let port := portOf (requestSlot f e .queued).sensor
    (d.state = .draining → (s.cr f.cr).state = .active →
      Replies (.fetchEnd (.data e)) s f.slot (plain .aborted) (requestTaken f e .active refused s)) ∧
    (d.state ≠ .draining → f.rq = 0 → ¬ (1 ≤ code ∧ code ≤ 0x10) → (s.cr f.cr).state = .active →
      Replies (.fetchEnd (.data e)) s f.slot (plain .invalidKind) (requestTaken f e .active d.chain s)) ∧
    (d.state ≠ .draining → f.rq = 0 → 1 ≤ code → code ≤ 0x10 →
      exec (.fetchEnd (.data e)) s =
        .next { requestTaken f e .active d.chain s with axInbox := s.axInbox ++ [f.slot] }) ∧
    (d.state ≠ .draining → f.rq ≠ 0 → ¬ (0x20 ≤ code ∧ code ≤ 0x24) → (s.cr f.cr).state = .active →
      Replies (.fetchEnd (.data e)) s f.slot (plain .invalidKind) (requestTaken f e .active refused s)) ∧
    (d.state ≠ .draining → f.rq ≠ 0 → 0x20 ≤ code → code ≤ 0x24 →
      (d.chain = .broken → (s.cr f.cr).state = .active →
        Replies (.fetchEnd (.data e)) s f.slot (plain .skipped) (requestTaken f e .active next s)) ∧
      (∀ j, d.chain = .openAt j → exec (.fetchEnd (.data e)) s =
        .next { requestTaken f e .active next s with
          slots := s.slots.set f.slot { requestSlot f e .linkWait with predecessor := some j } }) ∧
      (d.chain = .noChain → (s.link port).state = .training → exec (.fetchEnd (.data e)) s =
        .next { requestTaken f e .queued next s with
          scheds := s.scheds.set port { s.sched port with queue := (s.sched port).queue ++ [f.slot] } }) ∧
      (d.chain = .noChain → (s.cr f.cr).state = .active → QueueReady port s → f.slot ∉ (s.sched port).queue →
        Completes (.fetchEnd (.data e)) s (Arrives f.slot (requestTaken f e .queued next s))))

/-- A fetch that ends in error, or has no completion within 10 ms of its issue, returns its slot and its credit and leaves the
fetch head: an ACTIVE I/O ring enters FAULTED with a HOST_ACCESS_ERROR notice, a DRAINING ring that holds other slots stays
DRAINING, one that holds none becomes ABSENT with its DELETE_RING answered, an error on RQ0 in READY is fatal; a fetch issued
before a halt ends without effect (R120, R131, R133, R165, R171). A read that was in error when its turn came, and so was not
issued, ends so whatever the link returns; a read that still waits for its turn has no end yet (R165). Model's choices:
assumption 7, assumption 27, assumption 28. -/
def Obligations.FetchErrorReturnsSlotAndCredit : Prop :=
  ∀ (f : Fetch) (c : Instr) (s : State), s.fetch = some f → s.discarded = [] →
    (f.read = .waiting → (∀ r, exec (.fetchEnd r) s = .next s) ∧ exec .fetchTimeout s = .next s) ∧
    (((∃ t, f.read = .issued t ∧ (c = .fetchEnd .error ∨
        (c = .fetchTimeout ∧ reached s.time (after t 1250000) = true))) ∨
      (f.read = .notIssued ∧ ∃ r, c = .fetchEnd r)) →
    (f.live = false → exec c s = .next { s with fetch := none }) ∧
    (f.live = true → f.rq ≠ 0 → (s.rq f.rq).state = .active →
      exec c s = .next (raiseNotice (.rq f.rq) (BitVec.ofNat 32 (f.entry % 65536)) s.time
        ((fetchReturned f s).setRq f.rq { s.rq f.rq with
          slotsHeld := (s.rq f.rq).slotsHeld - 1, state := .faulted, failedEntry := some f.entry }))) ∧
    (f.live = true → f.rq ≠ 0 → (s.rq f.rq).state = .draining → 1 < (s.rq f.rq).slotsHeld →
      exec c s = .next (fetchReturned f s)) ∧
    (∀ k u, f.live = true → f.rq ≠ 0 → (s.rq f.rq).state = .draining → (s.rq f.rq).slotsHeld = 1 →
      AnswersFor (.rq f.rq) k ((fetchReturned f s).setRq f.rq .initial) u → Replies c s k (plain .success) u) ∧
    (f.live = true → f.rq = 0 → s.window.control = .ready →
      ∃ control, HaltControl (fetchReturned f s) control ∧ exec c s =
        .next (haltState (fetchReturned f s) { s.window with fatal := true, enable := false, control := control })))

/-! ### Admin requests -/

namespace Sys2Proof.Claims

/-- The AX has a request in flight that names the object (R135, R136). -/
def InFlight (o : AdminObject) (s : State) : Prop := ∃ e ∈ s.axInFlight, e.object = o

/-- The parameters of a PORT_CONFIG lie in the ranges of Table 11; the bit-rate codes are those of Table 44. -/
def GoodParameters (b : PortConfigBody) (rate : BitRate) : Prop :=
  ((b.bitRate = 0 ∧ rate = .mbit1) ∨ (b.bitRate = 1 ∧ rate = .mbit2_5) ∨ (b.bitRate = 2 ∧ rate = .mbit5) ∨
    (b.bitRate = 3 ∧ rate = .mbit10)) ∧
  50 ≤ b.cyclePeriod ∧ b.cyclePeriod ≤ 65535 ∧ 2 ≤ b.responseWindow ∧ b.responseWindow ≤ 255 ∧ b.retryLimit ≤ 7 ∧
  1 ≤ b.retryGap ∧ b.retryGap ≤ 255 ∧ 1 ≤ b.failLimit ∧ b.failLimit ≤ 15 ∧ b.retrainInterval ≤ 255

/-- The parameters a PORT_CONFIG carries. -/
def parametersOf (b : PortConfigBody) (rate : BitRate) : PortParameters :=
  { bitRate := rate, cyclePeriod := b.cyclePeriod, responseWindow := b.responseWindow, retryLimit := b.retryLimit
    retryGap := b.retryGap, failLimit := b.failLimit, retrainInterval := b.retrainInterval }

/-- The code of a turn mode and of a confirm setting (Table 44). -/
def turnModeCode : TurnMode → Nat
  | .none => 0
  | .sensor => 1
  | .extend => 2

def confirmCode : Confirm → Nat
  | .off => 0
  | .repeat => 1

/-- The field checks of a SENSOR_BIND (R60 check 3), with what the ring, mode and confirm codes name. -/
structure GoodBind (b : BindBody) (word : BitVec 32) (ring : SrId) (mode : TurnMode) (confirm : Confirm) (s : State) : Prop
    where
  ring : b.ring = ring.val ∧ ((s.sr ring).state = .active ∨ (s.sr ring).state = .congested)
  mode : b.turnMode = turnModeCode mode ∧ (mode = .sensor → 0 < wordMt word)
  confirm : b.confirm = confirmCode confirm ∧ (confirm = .repeat → wordRepeat word = true)
  jumpLimit : b.jumpLimit ≤ 16777215
  rejectLimit : 1 ≤ b.rejectLimit ∧ b.rejectLimit ≤ 15
  scale : b.scale ≠ 0
  offset : -140737488355328 ≤ b.offset ∧ b.offset ≤ 140737488355327
  decimation : 1 ≤ b.decimation ∧ b.decimation ≤ 256
  captureMask : b.captureMask < 16

/-- The context that a SENSOR_BIND leaves (R61): nine values and the bound identity written, all else cleared. -/
def boundSensor (b : BindBody) (word : BitVec 32) (ring : SrId) (mode : TurnMode) (confirm : Confirm) : Sensor :=
  { state := .bound, identity := word, ring := ring, turnMode := mode, confirm := confirm, jumpLimit := b.jumpLimit
    rejectLimit := b.rejectLimit, scale := b.scale, offset := b.offset, decimation := b.decimation
    captureMask := BitVec.ofNat 4 b.captureMask
    last := { extRaw := 0, angle := 0, turn := 0, sampleTime := 0, validity := .notValid }
    extendedTurn := 0, rejects := 0, decimationCounter := 0, sequence := 0, missed := 0, rejected := 0, withheld := 0
    captures := Vector.replicate 4 none, held := [], cause := .none }

/-- The context that a SENSOR_START leaves in `st` (R64): configuration, sequence number and held queue kept. -/
def startedSensor (c : Sensor) (st : SensorState) : Sensor :=
  { c with
    state := st, last := { extRaw := 0, angle := 0, turn := 0, sampleTime := 0, validity := .notValid }
    extendedTurn := 0, rejects := 0, decimationCounter := 0, missed := 0, rejected := 0, withheld := 0
    captures := Vector.replicate 4 none, cause := .none }

/-- A MARK START: time of the start, position, angle and turn zero (R59). -/
def startMark (n : SensorId) (now : Time) : SampleRecord :=
  { kind := .mark, sensor := n, time := now, position := 0, angle := 0, turn := 0, line := none, reason := some .start
    cause := .none
    flags := { late := false, warning := false, resync := false, mtWrap := false, noInterp := false, referenced := false
               captureOverrun := false, captureDropped := false, heldOverflow := false } }

/-- The oldest LINK_WAIT, QUEUED or ACTIVE slot of a ring with a tag (R128). -/
structure Target (r : RqId) (tag : BitVec 16) (s : State) (j : SlotId) : Prop where
  names : (s.slot j).rq = r ∧ (s.slot j).tag = tag
  live : (s.slot j).state = .linkWait ∨ (s.slot j).state = .queued ∨ (s.slot j).state = .active
  oldest : ∃ before behind, s.slotOrder = before ++ j :: behind ∧
    ∀ i ∈ before, ¬ ((s.slot i).rq = r ∧ (s.slot i).tag = tag ∧
      ((s.slot i).state = .linkWait ∨ (s.slot i).state = .queued ∨ (s.slot i).state = .active))

end Sys2Proof.Claims

/-- CREATE_RING of a request ring: identifier, in-flight, state and field checks in that order; a good one leaves the ring
ACTIVE and empty, bound to its completion ring (R116, R136, R139). -/
def Sys2Proof.Claims.CreateRequestRing : Prop :=
  ∀ (k : SlotId) (b : CreateRingBody) (s u : State), AxNext k s u → (s.slot k).body = .createRing b → b.ringClass = 0 →
    (¬ (1 ≤ b.ringId ∧ b.ringId ≤ 7) → Replies (.createRing k) s k (plain .invalidField) u) ∧
    ∀ r : RqId, r ≠ 0 → b.ringId = r.val →
      (InFlight (.rq r) s → Replies (.createRing k) s k (plain .busy) u) ∧
      (¬ InFlight (.rq r) s → (s.rq r).state ≠ .absent → Replies (.createRing k) s k (plain .wrongState) u) ∧
      (¬ InFlight (.rq r) s → (s.rq r).state = .absent →
        let good := b.base % 64 = 0 ∧ 2 ≤ b.size ∧ b.size ≤ 4096 ∧
          ∃ c : CrId, c ≠ 0 ∧ b.selector = c.val ∧ (s.cr c).state = .active
        (¬ good → Replies (.createRing k) s k (plain .invalidField) u) ∧
        (good → Replies (.createRing k) s k (plain .success) (u.setRq r
          { state := .active, base := b.base, size := b.size, boundCr := some ⟨b.selector % 8, Nat.mod_lt _ (by decide)⟩
            tail := 0, fetchHead := 0, slotsHeld := 0, chain := .noChain, failedEntry := none })))

/-- CREATE_RING of a completion ring, of a sample ring, and of a class that the part does not have: the checks in their
order, and the ring a good request leaves (R103, R117, R136, R139). -/
def Sys2Proof.Claims.CreateOutputRing : Prop :=
  ∀ (k : SlotId) (b : CreateRingBody) (s u : State), AxNext k s u → (s.slot k).body = .createRing b →
    (2 < b.ringClass → Replies (.createRing k) s k (plain .invalidField) u) ∧
    (b.ringClass = 1 →
      (¬ (1 ≤ b.ringId ∧ b.ringId ≤ 7) → Replies (.createRing k) s k (plain .invalidField) u) ∧
      ∀ r : CrId, r ≠ 0 → b.ringId = r.val →
        ((s.cr r).state ≠ .absent → Replies (.createRing k) s k (plain .wrongState) u) ∧
        ((s.cr r).state = .absent →
          let good := b.base % 32 = 0 ∧ 2 ≤ b.size ∧ b.size ≤ 4096 ∧ b.selector < 16 ∧ 1 ≤ b.coalescingCount ∧
            b.coalescingCount ≤ 255 ∧ b.coalescingTime ≤ 65535
          (¬ good → Replies (.createRing k) s k (plain .invalidField) u) ∧
          (good → Replies (.createRing k) s k (plain .success) (u.setCr r
            { state := .active, base := b.base, size := b.size, vector := ⟨b.selector % 16, Nat.mod_lt _ (by decide)⟩
              coalescingCount := b.coalescingCount, coalescingTime := b.coalescingTime, producer := 0, consumer := 0
              phase := true, reserved := 0, failedEntry := none, interrupt := { count := 0, timer := none } })))) ∧
    (b.ringClass = 2 →
      (3 < b.ringId → Replies (.createRing k) s k (plain .invalidField) u) ∧
      ∀ r : SrId, b.ringId = r.val →
        ((s.sr r).state ≠ .absent → Replies (.createRing k) s k (plain .wrongState) u) ∧
        ((s.sr r).state = .absent →
          let good := b.base % 32 = 0 ∧ 16 ≤ b.size ∧ b.size ≤ 65536 ∧ b.selector < 16 ∧ 1 ≤ b.coalescingCount ∧
            b.coalescingCount ≤ 255 ∧ b.coalescingTime ≤ 65535 ∧ 1 ≤ b.lowWater ∧ b.lowWater < b.resume ∧
            b.resume ≤ b.size - 1
          (¬ good → Replies (.createRing k) s k (plain .invalidField) u) ∧
          (good → Replies (.createRing k) s k (plain .success) (u.setSr r
            { state := .active, base := b.base, size := b.size, vector := ⟨b.selector % 16, Nat.mod_lt _ (by decide)⟩
              coalescingCount := b.coalescingCount, coalescingTime := b.coalescingTime, lowWater := b.lowWater
              resume := b.resume, producer := 0, consumer := 0, phase := true, failedEntry := none
              interrupt := { count := 0, timer := none } }))))

/-- CREATE_RING for the three ring classes (R103, R116, R117, R136, R139). Model's choices: assumption 3. -/
def Obligations.CreateRing : Prop := CreateRequestRing ∧ CreateOutputRing

/-- DELETE_RING of a completion or sample ring: a ring in use is refused IN_USE, another becomes ABSENT with its descriptor
at the initial values, and errors of its writes in flight will be disregarded (R113, R132, R136, R140). -/
def Sys2Proof.Claims.DeleteOutputRing : Prop :=
  ∀ (k : SlotId) (cls id : Nat) (s u : State), AxNext k s u → (s.slot k).body = .deleteRing cls id →
    (2 < cls → Replies (.deleteRing k) s k (plain .invalidField) u) ∧
    (cls = 1 → ¬ (1 ≤ id ∧ id ≤ 7) → Replies (.deleteRing k) s k (plain .invalidField) u) ∧
    (cls = 2 → 3 < id → Replies (.deleteRing k) s k (plain .invalidField) u) ∧
    (cls = 1 → ∀ r : CrId, r ≠ 0 → id = r.val →
      ((s.cr r).state = .absent → Replies (.deleteRing k) s k (plain .notFound) u) ∧
      ((s.cr r).state ≠ .absent → (∃ q, (s.rq q).state ≠ .absent ∧ (s.rq q).boundCr = some r) →
        Replies (.deleteRing k) s k (plain .inUse) u) ∧
      ((s.cr r).state ≠ .absent → (∀ q, (s.rq q).boundCr = some r → (s.rq q).state = .absent) →
        Replies (.deleteRing k) s k (plain .success) { u.setCr r CompletionRing.initial with
          outbox := s.outbox.map fun i => match i with
            | .record w => if ∃ j, w.kind = .completion r j then .record { w with live := false } else .record w
            | .message v => .message v
            | .read => .read })) ∧
    (cls = 2 → ∀ r : SrId, id = r.val →
      ((s.sr r).state = .absent → Replies (.deleteRing k) s k (plain .notFound) u) ∧
      ((s.sr r).state ≠ .absent → (∃ n, (s.sensor n).state ≠ .unbound ∧ (s.sensor n).ring = r) →
        Replies (.deleteRing k) s k (plain .inUse) u) ∧
      ((s.sr r).state ≠ .absent → (∀ n, (s.sensor n).ring = r → (s.sensor n).state = .unbound) →
        Replies (.deleteRing k) s k (plain .success) { u.setSr r SampleRing.initial with
          outbox := s.outbox.map fun i => match i with
            | .record w => if w.kind = .sample r then .record { w with live := false } else .record w
            | .message v => .message v
            | .read => .read }))

/-- DELETE_RING of a request ring: one that holds no slot becomes ABSENT at once; one that holds slots enters DRAINING with
the request in flight, its ACTIVE slots marked abort pending without a requester (shown where each is on the line and none
waits) (R131, R136, R137, R140). -/
def Sys2Proof.Claims.DeleteRequestRing : Prop :=
  ∀ (k : SlotId) (id : Nat) (s u : State), AxNext k s u → (s.slot k).body = .deleteRing 0 id →
    (¬ (1 ≤ id ∧ id ≤ 7) → Replies (.deleteRing k) s k (plain .invalidField) u) ∧
    ∀ r : RqId, r ≠ 0 → id = r.val →
      (InFlight (.rq r) s → Replies (.deleteRing k) s k (plain .busy) u) ∧
      (¬ InFlight (.rq r) s → (s.rq r).state = .absent → Replies (.deleteRing k) s k (plain .notFound) u) ∧
      (¬ InFlight (.rq r) s → (s.rq r).state ≠ .absent → (s.rq r).slotsHeld = 0 →
        Replies (.deleteRing k) s k (plain .success) (u.setRq r RequestRing.initial)) ∧
      (¬ InFlight (.rq r) s → (s.rq r).state ≠ .absent → (s.rq r).slotsHeld ≠ 0 →
        (∀ j, (s.slot j).rq = r → (s.slot j).state ≠ .queued ∧ (s.slot j).state ≠ .linkWait) →
        (∀ j, (s.slot j).rq = r → (s.slot j).state = .active → j ∈ s.slotOrder ∧
          (s.sched (portOf (s.slot j).sensor)).active = some j ∧
          (s.sched (portOf (s.slot j).sensor)).owner = some .transaction) →
        Completes (.deleteRing k) s fun t =>
          t = { u.setRq r { s.rq r with state := .draining, failedEntry := none } with
            axInFlight := s.axInFlight ++ [{ slot := k, kind := .deleteRing, object := .rq r }], slots := t.slots } ∧
          ∀ j, t.slot j = if (s.slot j).rq = r ∧ (s.slot j).state = .active then
            { s.slot j with
              abortPending := true
              abortRequester := if (s.slot j).abortPending = true then (s.slot j).abortRequester else none }
            else s.slot j)

namespace Sys2Proof.Claims

/-- From `u` to `t`, a slot in QUEUED or LINK_WAIT ends ABORTED with detail 0, its reference leaving its port queue (R46,
R129, R131). -/
def WaitingAborted (j : SlotId) (u t : State) : Prop :=
  let p := portOf (u.slot j).sensor
  Concluded j (plain .aborted)
    (u.setSched p { u.sched p with queue := (u.sched p).queue.filter fun i => i ≠ j }) t

/-- From `u` to `t`, an ACTIVE slot is marked abort pending by the draining of its ring: with its exchange out it goes on to
its boundary, and where it has yielded to a round it ends ABORTED at once, with the exchanges done (R51, R131). -/
def ActiveMarked (j : SlotId) (u t : State) : Prop :=
  let p := portOf (u.slot j).sensor
  let ps := u.sched p
  let marked := u.setSlot j { u.slot j with
    abortPending := true
    abortRequester := if (u.slot j).abortPending = true then (u.slot j).abortRequester else none }
  if ps.owner = some .transaction then t = marked
  else Concluded j (cutShort .aborted ps.exchangesDone (u.slot j).body ps.progress.values)
    (marked.setSched p (withoutActive ps)) t

/-- The slots of a ring can be ended: no slot stands twice in fetch order; those that wait have an ACTIVE completion ring;
those that are ACTIVE are their port's active transaction, on the line or yielded to a round, and then can be concluded; no
ABORT waits on two of them. -/
structure DrainReady (r : RqId) (s : State) : Prop where
  distinct : s.slotOrder.Nodup
  waiting : ∀ j ∈ s.slotOrder, (s.slot j).rq = r → (s.slot j).state = .queued ∨ (s.slot j).state = .linkWait →
    (s.slot j).abortRequester = none ∧ (s.cr (s.slot j).cr).state = .active
  running : ∀ j ∈ s.slotOrder, (s.slot j).rq = r → (s.slot j).state = .active →
    (s.sched (portOf (s.slot j).sensor)).active = some j ∧
    ((s.sched (portOf (s.slot j).sensor)).owner = some .transaction ∨
      (s.sched (portOf (s.slot j).sensor)).owner = some .round ∧ Concludable j s ∧
        ∀ a, (s.slot j).abortRequester = some a → (s.slot a).rq ≠ r)
  requesters : ∀ i ∈ s.slotOrder, ∀ j ∈ s.slotOrder, ∀ a, (s.slot i).abortRequester = some a →
    (s.slot j).abortRequester = some a → i = j

end Sys2Proof.Claims

/-- DELETE_RING of a request ring that holds slots, whatever stands in them: in fetch order the slots that wait end ABORTED,
then in fetch order those that are ACTIVE are marked, and the request stays in flight (R51, R129, R131, R137). The place and
order of the ACTIVE ones is the model's choice (assumption 29). -/
def Sys2Proof.Claims.DeleteRequestRingEndsItsSlots : Prop :=
  ∀ (k : SlotId) (id : Nat) (r : RqId) (s u : State), AxNext k s u → (s.slot k).body = .deleteRing 0 id →
    r ≠ 0 → id = r.val → ¬ InFlight (.rq r) s → (s.rq r).state ≠ .absent → (s.rq r).slotsHeld ≠ 0 → DrainReady r s →
    Completes (.deleteRing k) s fun t => ∃ v,
      Through WaitingAborted (s.slotOrder.filter fun j =>
          (s.slot j).rq = r ∧ ((s.slot j).state = .queued ∨ (s.slot j).state = .linkWait))
        { u.setRq r { s.rq r with state := .draining, failedEntry := none } with
          axInFlight := s.axInFlight ++ [{ slot := k, kind := .deleteRing, object := .rq r }] } v ∧
      Through ActiveMarked (s.slotOrder.filter fun j => (s.slot j).rq = r ∧ (s.slot j).state = .active) v t

/-- DELETE_RING for the three ring classes (R113, R131, R132, R136, R137, R140). Model's choices: assumption 3,
assumption 27, assumption 29. -/
def Obligations.DeleteRing : Prop := DeleteOutputRing ∧ DeleteRequestRing ∧ DeleteRequestRingEndsItsSlots

/-- PORT_CONFIG replaces the seven parameters together in DISABLED and DOWN, and in DOWN restarts or stops the retrain timer;
the checks of R136, the link state and the ranges come in that order (R17, R141). Model's choices: assumption 3. -/
def Obligations.PortConfigReplacesParameters : Prop :=
  ∀ (k : SlotId) (b : PortConfigBody) (s u : State), AxNext k s u → (s.slot k).body = .portConfig b →
    (8 ≤ b.port → Replies (.portConfig k) s k (plain .invalidField) u) ∧
    ∀ p : PortId, b.port = p.val →
      (InFlight (.port p) s → Replies (.portConfig k) s k (plain .busy) u) ∧
      (¬ InFlight (.port p) s → (s.link p).state ≠ .disabled → (s.link p).state ≠ .down →
        Replies (.portConfig k) s k (plain .wrongState) u) ∧
      (¬ InFlight (.port p) s → (s.link p).state = .disabled ∨ (s.link p).state = .down →
        ((∀ rate, ¬ GoodParameters b rate) → Replies (.portConfig k) s k (plain .invalidField) u) ∧
        (∀ rate, GoodParameters b rate → Replies (.portConfig k) s k (plain .success) (u.setLink p { s.link p with
          parameters := parametersOf b rate
          retrainTimer := if (s.link p).state = .down ∧ b.retrainInterval ≠ 0
            then some (after s.time (125000 * b.retrainInterval)) else none })))

/-- PORT_START by link state: from DISABLED and DOWN the link enters TRAINING at address 0 with an IDENTIFY to make, a
retraining is adopted, and the request stays in flight; RUNNING and RETRY_WAIT refuse it (R18, R19, R142). Model's choices:
assumption 3, assumption 25. -/
def Obligations.PortStartBeginsTraining : Prop :=
  ∀ (k : SlotId) (port : Nat) (s u : State), AxNext k s u → (s.slot k).body = .portStart port →
    (8 ≤ port → Replies (.portStart k) s k (plain .invalidField) u) ∧
    ∀ p : PortId, port = p.val →
      let flying := s.axInFlight ++ [{ slot := k, kind := .portStart, object := .port p }]
      (InFlight (.port p) s → Replies (.portStart k) s k (plain .busy) u) ∧
      (¬ InFlight (.port p) s → (s.link p).state = .disabled ∨ (s.link p).state = .down →
        exec (.portStart k) s = .next { u.setLink p { s.link p with
          state := .training, failures := 0, retrainTimer := none
          training := some { origin := .start, address := 0, provisional := [] }
          attempt := some (freshAttempt 0 .identify) } with
          axInFlight := flying }) ∧
      (∀ t, ¬ InFlight (.port p) s → (s.link p).state = .training → (s.link p).training = some t →
        exec (.portStart k) s = .next { u.setLink p { s.link p with training := some { t with origin := .start } } with
          axInFlight := flying }) ∧
      (¬ InFlight (.port p) s → (s.link p).state = .running ∨ (s.link p).state = .retryWait →
        Replies (.portStart k) s k (plain .wrongState) u)

/-- PORT_STOP by link state: DISABLED is left as it is, DOWN goes to DISABLED at once, and a RUNNING link with an attempt on
the line goes to STOPPING with the request in flight (shown where no transaction waits and no sensor is ACQUIRING); with no
exchange in progress it goes to DISABLED at once (R30, R31, R33, R143). -/
def Sys2Proof.Claims.PortStopByLinkState : Prop :=
  ∀ (k : SlotId) (port : Nat) (s u : State), AxNext k s u → (s.slot k).body = .portStop port →
    (8 ≤ port → Replies (.portStop k) s k (plain .invalidField) u) ∧
    ∀ p : PortId, port = p.val →
      let ended : Scheduler := { s.sched p with
        cycleTimer := none, round := .none, lateMark := none, roundList := [], roundStep := none, heldPosition := none }
      let disabled : LinkEngine := { s.link p with
        state := .disabled, failures := 0, retryGapTimer := none, retrainTimer := none, training := none, attempt := none }
      let quiet := (s.sched p).queue = [] ∧
        ((s.sched p).active = none ∨ (s.sched p).owner = some .transaction) ∧
        ∀ n, portOf n = p → (s.sensor n).state ≠ .acquiring
      (InFlight (.port p) s → Replies (.portStop k) s k (plain .busy) u) ∧
      (¬ InFlight (.port p) s → (s.link p).state = .disabled → Replies (.portStop k) s k (plain .success) u) ∧
      (¬ InFlight (.port p) s → (s.link p).state = .down →
        Replies (.portStop k) s k (plain .success) (u.setLink p disabled)) ∧
      (¬ InFlight (.port p) s → (s.link p).state = .running → (s.link p).attempt = none → quiet →
        Replies (.portStop k) s k (plain .success) ((u.setLink p disabled).setSched p ended)) ∧
      (∀ a, ¬ InFlight (.port p) s → (s.link p).state = .running → (s.link p).attempt = some a → a.phase ≠ .between →
        quiet → exec (.portStop k) s = .next { (u.setLink p { s.link p with
          state := .stopping, training := none, retryGapTimer := none }).setSched p ended with
          axInFlight := s.axInFlight ++ [{ slot := k, kind := .portStop, object := .port p }] })

/-- PORT_STOP in RUNNING, RETRY_WAIT and TRAINING, whatever stands on the port: the link enters STOPPING and the round ends;
the host work is flushed with PORT_STOPPED; the ACQUIRING sensors are suspended; and with an attempt on the line the request
stays in flight. With none, an exchange that stands between attempts ends: a transaction's answers PORT_STOPPED with its
exchanges done, whether it has made an attempt or is withdrawn, a round's or a training's gives nothing; and the link is
DISABLED (R29 to R33, R44, R54, R58, R66). -/
def Sys2Proof.Claims.PortStopFlushesAndSuspends : Prop :=
  ∀ (k : SlotId) (p : PortId) (s u : State), AxNext k s u → (s.slot k).body = .portStop p.val → ¬ InFlight (.port p) s →
    (s.link p).state = .running ∨ (s.link p).state = .retryWait ∨ (s.link p).state = .training →
    QueueReady p s →
    (∀ j, (s.sched p).active = some j → (s.slot j).abortRequester ≠ some k ∧ (s.slot j).state = .active ∧ j ≠ k ∧
      Concludable j s ∧ ∀ a, (s.slot j).abortRequester = some a → a ∉ (s.sched p).queue) →
    ((s.link p).attempt = none → (s.sched p).owner = none) →
    let stopping : LinkEngine := { s.link p with state := .stopping, training := none, retryGapTimer := none }
    let disabled : LinkEngine := { s.link p with
      state := .disabled, failures := 0, retryGapTimer := none, retrainTimer := none, training := none, attempt := none }
    let between := (s.link p).attempt = none ∨ ∃ a, (s.link p).attempt = some a ∧ a.phase = .between
    Completes (.portStop k) s fun t => ∃ v,
      Flushed p .portStopped ((u.setLink p stopping).setSched p (roundOver (s.sched p))) v ∧
      let w := allSuspended p v
      (¬ between → t = { w with axInFlight := s.axInFlight ++ [{ slot := k, kind := .portStop, object := .port p }] }) ∧
      (between → (s.sched p).owner ≠ some .transaction → Concluded k (plain .success)
        ((w.setLink p disabled).setSched p { w.sched p with owner := none }) t) ∧
      (∀ j, between → (s.sched p).owner = some .transaction → (s.sched p).active = some j → ∃ x,
        Concluded j (cutShort .portStopped (s.sched p).exchangesDone (s.slot j).body (s.sched p).progress.values)
          ((w.setLink p disabled).setSched p (withoutActive { w.sched p with owner := none })) x ∧
        Concluded k (plain .success) x t)

/-- PORT_STOP in every link state (R30 to R33, R143). Model's choices: assumption 3, assumption 18, assumption 27. -/
def Obligations.PortStopStopsTheLink : Prop := PortStopByLinkState ∧ PortStopFlushesAndSuspends

/-- SENSOR_BIND: identifier, state, slave and field checks in that order; a good one leaves the sensor BOUND with its nine
values and the slave's identity word, which the completion carries (R60, R61, R144). Model's choices: assumption 3. -/
def Obligations.SensorBindBindsTheContext : Prop :=
  ∀ (k : SlotId) (b : BindBody) (s u : State), AxNext k s u → (s.slot k).body = .sensorBind b →
    (32 ≤ b.sensor → Replies (.sensorBind k) s k (plain .invalidField) u) ∧
    ∀ n : SensorId, b.sensor = n.val →
      ((s.sensor n).state ≠ .unbound → (s.sensor n).state ≠ .bound →
        Replies (.sensorBind k) s k (plain .wrongState) u) ∧
      ((s.sensor n).state = .unbound ∨ (s.sensor n).state = .bound → (entryOf n s).present = false →
        Replies (.sensorBind k) s k (plain .noSlave) u) ∧
      ((s.sensor n).state = .unbound ∨ (s.sensor n).state = .bound → (entryOf n s).present = true →
        ((∀ ring mode confirm, ¬ GoodBind b (entryOf n s).word ring mode confirm s) →
          Replies (.sensorBind k) s k (plain .invalidField) u) ∧
        (∀ ring mode confirm, GoodBind b (entryOf n s).word ring mode confirm s →
          Replies (.sensorBind k) s k
            { status := .success, detail := 0, data := (entryOf n s).word.setWidth 128 }
            (u.setSensor n (boundSensor b (entryOf n s).word ring mode confirm))))

/-- SENSOR_UNBIND by the sensor's state: BOUND and FAULTED go to the reset values of Table 16 with the held queue discarded,
ACQUIRING and WAITING refuse, UNBOUND stays; no record is created (R62). Model's choices: assumption 3. -/
def Obligations.SensorUnbindClearsTheContext : Prop :=
  ∀ (k : SlotId) (sensor : Nat) (s u : State), AxNext k s u → (s.slot k).body = .sensorUnbind sensor →
    (32 ≤ sensor → Replies (.sensorUnbind k) s k (plain .invalidField) u) ∧
    ∀ n : SensorId, sensor = n.val →
      ((s.sensor n).state = .bound ∨ (s.sensor n).state = .faulted →
        Replies (.sensorUnbind k) s k (plain .success) (u.setSensor n Sensor.initial)) ∧
      ((s.sensor n).state = .acquiring ∨ (s.sensor n).state = .waiting →
        Replies (.sensorUnbind k) s k (plain .wrongState) u) ∧
      ((s.sensor n).state = .unbound → Replies (.sensorUnbind k) s k (plain .success) u)

/-- SENSOR_START: identifier, state, identity and held-queue checks in that order; a good one clears the acquisition state,
enters ACQUIRING where the link is RUNNING or RETRY_WAIT and the slave is PRESENT and WAITING otherwise, and posts a MARK
START (R59, R63, R64, R144). Model's choices: assumption 3. -/
def Obligations.SensorStartBeginsAcquisition : Prop :=
  ∀ (k : SlotId) (sensor : Nat) (s u : State), AxNext k s u → (s.slot k).body = .sensorStart sensor →
    (32 ≤ sensor → Replies (.sensorStart k) s k (plain .invalidField) u) ∧
    ∀ n : SensorId, sensor = n.val →
      let c := s.sensor n
      let e := entryOf n s
      let link := (s.link (portOf n)).state
      (c.state ≠ .bound → c.state ≠ .faulted → Replies (.sensorStart k) s k (plain .wrongState) u) ∧
      (c.state = .bound ∨ c.state = .faulted →
        (e.present = true → sameIdentity e.word c.identity = false →
          Replies (.sensorStart k) s k (plain .wrongState) u) ∧
        (¬ (e.present = true ∧ sameIdentity e.word c.identity = false) → c.held.length = 4 →
          Replies (.sensorStart k) s k (plain .wrongState) u) ∧
        (¬ (e.present = true ∧ sameIdentity e.word c.identity = false) → c.held.length ≠ 4 →
          (e.present = true → link = .running ∨ link = .retryWait →
            Replies (.sensorStart k) s k { status := .success, detail := 0, data := 2 }
              (postRecord (startMark n s.time) (u.setSensor n (startedSensor c .acquiring)))) ∧
          (¬ (e.present = true ∧ (link = .running ∨ link = .retryWait)) →
            Replies (.sensorStart k) s k { status := .success, detail := 0, data := 3 }
              (postRecord (startMark n s.time) (u.setSensor n (startedSensor c .waiting))))))

/-- SENSOR_STOP by the sensor's state: ACQUIRING, WAITING and FAULTED go to BOUND with cause NONE and a MARK STOP that carries
the last accepted value, an ACQUIRING one losing its round entry and its pending captures; BOUND stays; UNBOUND refuses (R58,
R59, R65). The round's list is shown where the sensor is not its head. Model's choices: assumption 3. -/
def Obligations.SensorStopReturnsToBound : Prop :=
  ∀ (k : SlotId) (sensor : Nat) (s u : State), AxNext k s u → (s.slot k).body = .sensorStop sensor →
    (32 ≤ sensor → Replies (.sensorStop k) s k (plain .invalidField) u) ∧
    ∀ n : SensorId, sensor = n.val →
      let c := s.sensor n
      let dropped := decide (c.state = .acquiring) && c.captures.toList.any Option.isSome
      let stopped : Sensor := { c with
        state := .bound, cause := .none
        captures := if c.state = .acquiring then Vector.replicate 4 none else c.captures }
      let mark := markRecord n c .stop .none s.time dropped
      (c.state = .waiting ∨ c.state = .faulted →
        Replies (.sensorStop k) s k (plain .success) (postRecord mark (u.setSensor n stopped))) ∧
      (c.state = .acquiring → (s.sched (portOf n)).roundList.head? ≠ some n →
        Replies (.sensorStop k) s k (plain .success) (postRecord mark ((u.setSched (portOf n) { s.sched (portOf n) with
          roundList := (s.sched (portOf n)).roundList.filter fun m => m ≠ n }).setSensor n stopped))) ∧
      (c.state = .acquiring → (s.sched (portOf n)).roundList.head? = some n →
        Replies (.sensorStop k) s k (plain .success) (postRecord mark ((u.setSched (portOf n) { s.sched (portOf n) with
          roundList := (s.sched (portOf n)).roundList.tail, roundStep := none, heldPosition := none }).setSensor n
            stopped))) ∧
      (c.state = .bound → Replies (.sensorStop k) s k (plain .success) u) ∧
      (c.state = .unbound → Replies (.sensorStop k) s k (plain .wrongState) u)

/-- CAPTURE_CONFIG: fields, then the line must be DISARMED; a good one replaces edge select and filter and keeps the
recognised level and a qualification in progress, which is measured against the new length from the next tick on (R93).
Model's choices: assumption 3. -/
def Obligations.CaptureConfigSetsEdgeAndFilter : Prop :=
  ∀ (k : SlotId) (line edge filter : Nat) (s u : State), AxNext k s u → (s.slot k).body = .captureConfig line edge filter →
    (¬ (line ≤ 3 ∧ edge ≤ 2 ∧ filter ≤ 255) → Replies (.captureConfig k) s k (plain .invalidField) u) ∧
    ∀ l : LineId, line = l.val → edge ≤ 2 → filter ≤ 255 →
      ((s.line l).arm ≠ .disarmed → Replies (.captureConfig k) s k (plain .wrongState) u) ∧
      ((s.line l).arm = .disarmed → Replies (.captureConfig k) s k (plain .success) (u.setLine l { s.line l with
        edgeSelect := if edge = 0 then .rising else if edge = 1 then .falling else .both, filter := filter
        qualification := (s.line l).qualification.map fun q => { q with configured := some s.time } }))

/-- CAPTURE_ARM: line, mode and reference checks in their order; a good one arms the line from now, with the reference it
carries for ONCE and none otherwise (R94). Model's choices: assumption 3. -/
def Obligations.CaptureArmArmsTheLine : Prop :=
  ∀ (k : SlotId) (b : ArmBody) (s u : State), AxNext k s u → (s.slot k).body = .captureArm b →
    let refused := fun st => Replies (.captureArm k) s k (plain st) u
    (4 ≤ b.line → refused .invalidField) ∧
    ∀ l : LineId, b.line = l.val →
      let armed := fun mode ref => Replies (.captureArm k) s k (plain .success)
        (u.setLine l { s.line l with arm := mode, armTime := some s.time, reference := ref })
      (¬ (b.mode = 1 ∨ b.mode = 2) → refused .invalidField) ∧
      (b.mode = 1 → b.referencePresent = 0 → armed .once none) ∧
      (b.mode = 2 → b.referencePresent = 0 → armed .continuous none) ∧
      (1 < b.referencePresent → refused .invalidField) ∧
      (b.mode = 2 → b.referencePresent = 1 → refused .invalidField) ∧
      (b.mode = 1 → b.referencePresent = 1 →
        (¬ (b.referenceSensor < 32 ∧ -140737488355328 ≤ b.referencePosition ∧ b.referencePosition ≤ 140737488355327) →
          refused .invalidField) ∧
        ∀ n : SensorId, b.referenceSensor = n.val → -140737488355328 ≤ b.referencePosition →
          b.referencePosition ≤ 140737488355327 →
          ((s.sensor n).state = .unbound → refused .wrongState) ∧
          ((s.sensor n).state ≠ .unbound → (s.sensor n).captureMask.getLsbD l.val = false → refused .invalidField) ∧
          ((s.sensor n).state ≠ .unbound → (s.sensor n).captureMask.getLsbD l.val = true →
            armed .once (some { sensor := n, position := b.referencePosition })))

/-- CAPTURE_DISARM: a line outside 0 to 3 completes INVALID_FIELD; otherwise the line becomes DISARMED with arm time and
reference absent, its configuration, recognised level and qualification kept, and pending captures in the sensor contexts stay
as they are (R95). Model's choices: assumption 3. -/
def Obligations.CaptureDisarmDisarmsTheLine : Prop :=
  ∀ (k : SlotId) (line : Nat) (s u : State), AxNext k s u → (s.slot k).body = .captureDisarm line →
    (4 ≤ line → Replies (.captureDisarm k) s k (plain .invalidField) u) ∧
    ∀ l : LineId, line = l.val → Replies (.captureDisarm k) s k (plain .success)
      (u.setLine l { s.line l with arm := .disarmed, armTime := none, reference := none })

/-- The three queries answer with what they ask for and change nothing (R147 to R149). -/
def Sys2Proof.Claims.QueriesAnswer : Prop :=
  ∀ (k : SlotId) (s u : State), AxNext k s u →
    (∀ port, (s.slot k).body = .queryPort port →
      (8 ≤ port → Replies (.queryPort k) s k (plain .invalidField) u) ∧
      ∀ p : PortId, port = p.val →
        (InFlight (.port p) s → Replies (.queryPort k) s k (plain .busy) u) ∧
        (¬ InFlight (.port p) s → Replies (.queryPort k) s k (queryPortResult (s.link p)) u)) ∧
    (∀ sensor, (s.slot k).body = .querySensor sensor →
      (32 ≤ sensor → Replies (.querySensor k) s k (plain .invalidField) u) ∧
      ∀ n : SensorId, sensor = n.val → Replies (.querySensor k) s k (querySensorResult (s.sensor n)) u) ∧
    ((s.slot k).body = .queryDevice →
      Replies (.queryDevice k) s k (queryDeviceResult s.time (slotsInUse s) (ringStateCodes s)) u)

/-- A QUERY_SENSOR of an UNBOUND sensor reports state UNBOUND, whose code is 0, and every other field zero (R148). -/
def Sys2Proof.Claims.UnboundSensorReportsZeros : Prop :=
  ∀ (k : SlotId) (n : SensorId) (s u : State), AxNext k s u → (s.slot k).body = .querySensor n.val →
    (s.sensor n).state = .unbound → Replies (.querySensor k) s k { status := .success, detail := 0, data := 0 } u

/-- The slots in use are those that are not FREE and the one that a fetch in flight holds (R118, R149). -/
def Sys2Proof.Claims.SlotsInUseAreCounted : Prop :=
  ∀ s : State, slotsInUse s =
    ((List.finRange 32).filter fun k => (s.slot k).state ≠ .free).length + if s.fetch = none then 0 else 1

/-- The three queries, what an UNBOUND sensor reports, and which slots are in use (R118, R147 to R149). Model's choices:
assumption 3, assumption 31 for the sequence number of a sensor whose next held record is a MARK START. -/
def Obligations.QueriesReport : Prop := QueriesAnswer ∧ UnboundSensorReportsZeros ∧ SlotsInUseAreCounted

/-- An ABORT whose target is ACTIVE with its exchange on the line marks the target and waits; one whose target is marked
already is BUSY, one that finds no target NOT_FOUND, one that names RQ0 or no ring INVALID_FIELD, one whose ring is draining
BUSY (R128, R130, R136, R146). -/
def Sys2Proof.Claims.AbortMarksAnActiveTarget : Prop :=
  ∀ (k : SlotId) (ring : Nat) (tag : BitVec 16) (s u : State), AxNext k s u → (s.slot k).body = .abort ring tag →
    (8 ≤ ring → Replies (.abort k) s k (plain .invalidField) u) ∧
    (ring = 0 → ¬ InFlight (.rq 0) s → Replies (.abort k) s k (plain .invalidField) u) ∧
    ∀ r : RqId, r ≠ 0 → ring = r.val →
      (InFlight (.rq r) s → Replies (.abort k) s k (plain .busy) u) ∧
      (¬ InFlight (.rq r) s → (∀ j, ¬ Target r tag s j) → Replies (.abort k) s k (plain .notFound) u) ∧
      (∀ j, ¬ InFlight (.rq r) s → Target r tag s j → (s.slot j).state = .active →
        ((s.slot j).abortPending = true → Replies (.abort k) s k (plain .busy) u) ∧
        ((s.slot j).abortPending = false → (s.sched (portOf (s.slot j).sensor)).owner = some .transaction →
          exec (.abort k) s =
            .next (u.setSlot j { s.slot j with abortPending := true, abortRequester := some k })))

/-- An ABORT whose target waits ends it: the target's reference leaves its port queue, a chain state that named the target is
BROKEN, the target is answered ABORTED, and then the ABORT SUCCESS, naming the tag and the target (R46, R129, R146). -/
def Sys2Proof.Claims.AbortEndsAWaitingTarget : Prop :=
  ∀ (k j : SlotId) (ring : Nat) (r : RqId) (tag : BitVec 16) (s u : State), AxNext k s u →
    (s.slot k).body = .abort ring tag → r ≠ 0 → ring = r.val → ¬ InFlight (.rq r) s → Target r tag s j →
    (s.slot j).state ≠ .active → (s.slot j).abortRequester = none → (s.cr (s.slot j).cr).state = .active →
    let p := portOf (s.slot j).sensor
    Completes (.abort k) s fun t => ∃ v,
      Answered j (plain .aborted)
        ((u.setSched p { s.sched p with queue := (s.sched p).queue.filter fun i => i ≠ j }).setRq r { s.rq r with
          chain := if (s.rq r).chain = .openAt j then .broken else (s.rq r).chain }) v ∧
      Answered k { status := .success, detail := 0, data := BitVec.ofNat 128 (tag.toNat + 65536 * j.val) } v t

/-- An ABORT whose target is ACTIVE but has yielded its port to a round ends it at once: the target is answered ABORTED with
its exchanges done and its register values so far, the port has no active transaction, and then the ABORT is answered SUCCESS
(R51, R130, R146). -/
def Sys2Proof.Claims.AbortEndsAYieldedTarget : Prop :=
  ∀ (k j : SlotId) (ring : Nat) (r : RqId) (tag : BitVec 16) (s u : State), AxNext k s u →
    (s.slot k).body = .abort ring tag → r ≠ 0 → ring = r.val → ¬ InFlight (.rq r) s → Target r tag s j → j ≠ k →
    (s.slot j).state = .active → (s.slot j).abortPending = false → (s.cr (s.slot j).cr).state = .active →
    (schedOf j s).active = some j → (schedOf j s).owner = some .round →
    Completes (.abort k) s fun t => ∃ v,
      Answered j (cutShort .aborted (schedOf j s).exchangesDone (s.slot j).body (schedOf j s).progress.values)
        ((u.setSlot j { s.slot j with abortPending := true, abortRequester := some k }).setSched
          (portOf (s.slot j).sensor) (withoutActive (schedOf j s))) v ∧
      Answered k { status := .success, detail := 0, data := BitVec.ofNat 128 (tag.toNat + 65536 * j.val) } v t

/-- ABORT of an ACTIVE and of a waiting target (R46, R51, R128 to R130, R136, R146). Model's choices: assumption 3, assumption
10, assumption 27. -/
def Obligations.AbortByTargetState : Prop :=
  AbortMarksAnActiveTarget ∧ AbortEndsAWaitingTarget ∧ AbortEndsAYieldedTarget

/-! ### I/O transactions -/

namespace Sys2Proof.Claims

/-- The register command of a row, for slot `k` and the end `e`. -/
def registerCommand (write : Bool) (k : SlotId) (e : AttemptEnd) : Instr := if write then .regWrite k e else .regRead k e

/-- The body is that of a REG_READ or REG_WRITE from register `first` (Table 40). -/
def RegisterBody (write : Bool) (first : Nat) : Body → Prop
  | .regRead f _ => write = false ∧ f = first
  | .regWrite f _ _ => write = true ∧ f = first
  | _ => False

/-- The kind of a register exchange (Table 33). -/
def registerKind (write : Bool) : FrameKind := if write then .regWrite else .regRead

end Sys2Proof.Claims

/-- The last exchange of a REG_READ or REG_WRITE answers SUCCESS with the number of exchanges, the WARNING indication and the
values in register order; an ALARM at any exchange answers SLAVE_REFUSED with the register refused and the values before it
(R154, R156). -/
def Sys2Proof.Claims.RegisterTransactionAnswers : Prop :=
  ∀ (write : Bool) (k : SlotId) (a : Attempt) (first : Nat) (warn : Bool) (v : BitVec 16) (s : State),
    LastExchange k a s → RegisterBody write first (s.slot k).body → a.kind = registerKind write →
    let ps := schedOf k s
    (ps.progress.planned ≤ ps.exchangesDone + 1 →
      Replies (registerCommand write k (.ok warn false (.register v))) s k
        { status := .success
          detail := BitVec.ofNat 32 (ps.progress.planned + if ps.progress.warning = true ∨ warn = true then 256 else 0)
          data := registerData (ps.progress.values ++ [v]) } (exchangeOver k s)) ∧
    Replies (registerCommand write k (.ok warn true (.register v))) s k
      { status := .slaveRefused, detail := BitVec.ofNat 32 (first + ps.exchangesDone)
        data := registerData ps.progress.values } (exchangeOver k s)

/-- A REG_READ or REG_WRITE with registers still to come keeps the link: the value is gathered, one more exchange is done and
the next register's exchange is offered, with the next value of a REG_WRITE; with an abort pending it completes ABORTED at
that boundary (R49, R154, R156). -/
def Sys2Proof.Claims.RegisterTransactionGoesOn : Prop :=
  ∀ (write : Bool) (k : SlotId) (a : Attempt) (first : Nat) (warn : Bool) (v : BitVec 16) (s : State),
    LastExchange k a s → RegisterBody write first (s.slot k).body → a.kind = registerKind write →
    let p := portOf (s.slot k).sensor
    let ps := schedOf k s
    let progress : TransactionProgress :=
      { ps.progress with values := ps.progress.values ++ [v], warning := ps.progress.warning || warn }
    let command := registerCommand write k (.ok warn false (.register v))
    ps.exchangesDone + 1 < ps.progress.planned →
    ((s.slot k).abortPending = true →
      Replies command s k
        { status := .aborted, detail := BitVec.ofNat 32 (ps.exchangesDone + 1), data := registerData progress.values }
        (exchangeOver k s)) ∧
    (∀ next, (s.slot k).abortPending = false → IsExchange (s.slot k) (ps.exchangesDone + 1) next →
      exec command s = .next ((s.setLink p { s.link p with
        attempt := some next, failures := 0, lastEnd := some s.time }).setSched p
          { ps with exchangesDone := ps.exchangesDone + 1, progress := progress }))

/-- The same whatever stands on the port: the answer or the abort, or the value gathered, and then the decision, which gives
the link to a round that is DUE before it gives it to the transaction or to the oldest reference (R47, R49, R52, R156). -/
def Sys2Proof.Claims.RegisterExchangeEnds : Prop :=
  OkExchangeEnds fun b => ∃ write first, RegisterBody write first b

/-- REG_READ and REG_WRITE at the boundary of an exchange: the answer at the last one or at an ALARM, the next exchange or the
abort at an earlier one (R49, R154, R156). Model's choices: assumption 2, assumption 18, assumption 25, assumption 27. -/
def Obligations.RegisterTransactionsRun : Prop :=
  RegisterTransactionAnswers ∧ RegisterTransactionGoesOn ∧ RegisterExchangeEnds

/-- The last allowed attempt of a transaction's exchange ending in a link fault, below the fail limit, answers LINK_FAILED
with the exchanges done and the register values gathered, and raises the failure count; an ABORT that waits on it is answered
TOO_LATE after it (R27, R49, R130, R162; shown for a port with no other work). The fault is that of a frame that fails a
check, or NO_RESPONSE at the expiry of the window. -/
def Sys2Proof.Claims.FailedExchangeOnAQuietPort : Prop :=
  ∀ (k : SlotId) (a : Attempt) (f : LinkFault) (c : Instr) (s : State),
    OnTheLine k a s → Concludable k s → EndsExchange k a (.fault f) c s →
    let p := portOf (s.slot k).sensor
    (s.link p).parameters.retryLimit < a.tags.length →
    (s.link p).failures + 1 < (s.link p).parameters.failLimit →
    Replies c s k (cutShort .linkFailed (schedOf k s).exchangesDone (s.slot k).body (schedOf k s).progress.values)
      ((exchangeOver k s).setLink p { s.link p with
        attempt := none, failures := (s.link p).failures + 1, lastEnd := some s.time })

/-- The same whatever else stands on the port: the transaction answers LINK_FAILED and the scheduler then decides, so that a
round that is DUE starts, or the oldest reference of the queue is activated (R27, R47, R49, R52, R162). -/
def Sys2Proof.Claims.FailedExchangeInCompany : Prop :=
  ∀ (k : SlotId) (a : Attempt) (f : LinkFault) (c : Instr) (s : State),
    Carried k a .running s → Concludable k s → EndsExchange k a (.fault f) c s →
    let p := portOf (s.slot k).sensor
    QueueReady p s →
    (s.link p).parameters.retryLimit < a.tags.length →
    (s.link p).failures + 1 < (s.link p).parameters.failLimit →
    Completes c s fun t => ∃ v,
      Concluded k (cutShort .linkFailed (schedOf k s).exchangesDone (s.slot k).body (schedOf k s).progress.values)
        ((exchangeOver k s).setLink p { s.link p with
          attempt := none, failures := (s.link p).failures + 1, lastEnd := some s.time }) v ∧
      Decides p v t

/-- A transaction's failed exchange below the fail limit (R27, R47, R49, R52, R130, R162). Model's choices: assumption 2,
assumption 18, assumption 25, assumption 27. -/
def Obligations.FailedExchangeAnswersLinkFailed : Prop := FailedExchangeOnAQuietPort ∧ FailedExchangeInCompany

/-- READ_POSITION answers SUCCESS with the reading's fields reduced by the slave's ST and MT, evaluated against the sensor's
context without changing it (R6, R89, R158). -/
def Sys2Proof.Claims.ReadPositionAnswersTheReading : Prop :=
  ∀ (k : SlotId) (a : Attempt) (warn alarm : Bool) (angle : BitVec 24) (turn : BitVec 16) (s : State),
    LastExchange k a s → (s.slot k).body = .readPosition → a.kind = .position →
    let word := ((s.link (portOf (s.slot k).sensor)).identity[a.address]).word
    Replies (.readPosition k (.ok warn alarm (.position angle turn))) s k
      (readPositionResult (s.sensor (s.slot k).sensor) warn alarm (angle.toNat % 2 ^ wordSt word)
        (turn.toNat % 2 ^ wordMt word) a.requestTime)
      (exchangeOver k s)

/-- The same whatever else stands on the port: the answer, and then the decision (R47, R49, R52, R158). -/
def Sys2Proof.Claims.ReadPositionExchangeEnds : Prop :=
  OkExchangeEnds fun b => b = .readPosition

/-- READ_POSITION at the end of its exchange (R6, R47, R49, R52, R89, R158). Model's choices: assumption 2, assumption 18,
assumption 25, assumption 27. -/
def Obligations.ReadPositionAnswers : Prop := ReadPositionAnswersTheReading ∧ ReadPositionExchangeEnds

/-- SET_POSITION without confirm: a good reading within the gate and the ranges is accepted and the offset becomes the one
under which its position is the target; the completion carries that offset, the angle, the turn and the extended turn; an
UNBOUND or FAULTED sensor answers WRONG_STATE and keeps its context (R82, R87, R88, R159). -/
def Sys2Proof.Claims.SetPositionAccepts : Prop :=
  ∀ (k : SlotId) (a : Attempt) (warn : Bool) (angleBits : BitVec 24) (turnBits : BitVec 16) (target : Int) (s : State),
    LastExchange k a s → (s.slot k).body = .setPosition target → a.kind = .position →
    (schedOf k s).progress.position = none → (schedOf k s).progress.planned ≤ (schedOf k s).exchangesDone + 1 →
    let n := (s.slot k).sensor
    let c := s.sensor n
    let word := ((s.link (portOf n)).identity[a.address]).word
    let angle := angleBits.toNat % 2 ^ wordSt word
    let turn := turnBits.toNat % 2 ^ wordMt word
    let command := Instr.setPosition k (.ok warn false (.position angleBits turnBits))
    let c' := repositioned c angle turn a.requestTime target
    (c.state = .unbound ∨ c.state = .faulted →
      Replies command s k { status := .wrongState, detail := BitVec.ofNat 32 ((schedOf k s).exchangesDone + 1), data := 0 }
        (exchangeOver k s)) ∧
    (c.state ≠ .unbound → c.state ≠ .faulted → c.jumps (c.turned angle turn) = false →
      (c.turnMode = .extend → inSigned24 (c.turned angle turn).candidate = true) → inSigned48 c'.offset = true →
      c'.positionOf c'.last.extRaw = target ∧
      Replies command s k
        { status := .success
          detail := BitVec.ofNat 32 ((if warn = true then 256 else 0) + if c.last.validity ≠ .valid then 512 else 0)
          data := BitVec.ofNat 16 0 ++ BitVec.ofInt 24 (if c.turnMode = .extend then c'.extendedTurn else 0) ++
            BitVec.ofNat 16 turn ++ BitVec.ofNat 24 angle ++ BitVec.ofInt 48 c'.offset }
        ((exchangeOver k s).setSensor n c'))

/-- The last exchange of a SET_POSITION, ended OK: its POSITION reading, with the REPEAT where one was made, is treated by the
Sensor Processor, and the transaction answers what that gives: SUCCESS, REJECTED for an ALARM, a confirm mismatch or a jump,
RANGE, or WRONG_STATE (R76, R87, R88, R159; Table 34). -/
def Sys2Proof.Claims.SetPositionTreatsTheReading : Prop :=
  ∀ (k : SlotId) (a : Attempt) (warn alarm : Bool) (angle : BitVec 24) (turn : BitVec 16) (target : Int) (c : Instr) (s : State),
    OnTheLine k a s → Concludable k s → EndsExchange k a (.ok warn alarm (.position angle turn)) c s →
    (s.slot k).body = .setPosition target → (schedOf k s).progress.planned ≤ (schedOf k s).exchangesDone + 1 →
    let word := ((s.link (portOf (s.slot k).sensor)).identity[a.address]).word
    let heard : Heard :=
      { warn := warn, alarm := alarm, angle := angle.toNat % 2 ^ wordSt word, turn := turn.toNat % 2 ^ wordMt word }
    let treated := SetPositionTreated (s.slot k).sensor target ((schedOf k s).exchangesDone + 1)
    ((schedOf k s).progress.position = none → ∀ r u, treated a.requestTime heard none (exchangeOver k s) r u →
      Replies c s k r u) ∧
    (∀ o h, (schedOf k s).progress.position = some o → o.result = .ok h.warn h.alarm (.reading h.angle h.turn) →
      ∀ r u, treated o.requestTime h (some heard) (exchangeOver k s) r u → Replies c s k r u)

/-- What the Sensor Processor makes of a SET_POSITION's reading is one result and one context. -/
def Sys2Proof.Claims.SetPositionTreatmentIsOne : Prop :=
  ∀ (n : SensorId) (target : Int) (made : Nat) (time : Time) (first : Heard) (again : Option Heard) (u : State),
    ∃ r u', SetPositionTreated n target made time first again u r u' ∧
      ∀ q v, SetPositionTreated n target made time first again u q v → q = r ∧ v = u'

/-- The POSITION exchange of a SET_POSITION with confirm REPEAT, ended OK, is kept and the REPEAT is offered, whatever status
bits the response carried; with an abort pending the transaction answers ABORTED with one exchange done (R49, R154, R159,
R160). -/
def Sys2Proof.Claims.SetPositionGoesOnToItsRepeat : Prop :=
  ∀ (k : SlotId) (a : Attempt) (warn alarm : Bool) (angle : BitVec 24) (turn : BitVec 16) (target : Int) (c : Instr) (s : State),
    OnTheLine k a s → Concludable k s → EndsExchange k a (.ok warn alarm (.position angle turn)) c s →
    (s.slot k).body = .setPosition target → (schedOf k s).exchangesDone + 1 < (schedOf k s).progress.planned →
    let p := portOf (s.slot k).sensor
    let ps := schedOf k s
    let word := ((s.link p).identity[a.address]).word
    let kept : ExchangeOutcome :=
      { result := .ok warn alarm (.reading (angle.toNat % 2 ^ wordSt word) (turn.toNat % 2 ^ wordMt word))
        attempts := a.tags.length, address := a.address, kind := a.kind, requestTime := a.requestTime }
    ((s.slot k).abortPending = true → Replies c s k
      { status := .aborted, detail := BitVec.ofNat 32 (ps.exchangesDone + 1), data := 0 } (exchangeOver k s)) ∧
    (∀ next, (s.slot k).abortPending = false → IsExchange (s.slot k) (ps.exchangesDone + 1) next →
      exec c s = .next ((s.setLink p { s.link p with
        attempt := some next, failures := 0, lastEnd := some s.time }).setSched p { ps with
          exchangesDone := ps.exchangesDone + 1, progress := { ps.progress with position := some kept } }))

/-- The same whatever else stands on the port: the answer or the abort, or the POSITION kept for its REPEAT, and then the
decision (R47, R49, R52, R159). -/
def Sys2Proof.Claims.SetPositionExchangeEnds : Prop :=
  OkExchangeEnds fun b => ∃ target, b = .setPosition target

/-- SET_POSITION at the boundary of its exchanges (R49, R76, R82, R87, R88, R154, R159, R160). Model's choices: assumption 2,
assumption 18, assumption 25, assumption 27. -/
def Obligations.SetPositionSetsTheOffset : Prop :=
  SetPositionAccepts ∧ SetPositionTreatsTheReading ∧ SetPositionTreatmentIsOne ∧ SetPositionGoesOnToItsRepeat ∧
    SetPositionExchangeEnds

/-- SLAVE_RESET answers SUCCESS with the WARNING indication and marks the sensor's last accepted value STALE; an ALARM answers
SLAVE_REFUSED and marks nothing (R68, R157). -/
def Sys2Proof.Claims.SlaveResetAnswers : Prop :=
  ∀ (k : SlotId) (a : Attempt) (warn : Bool) (s : State),
    LastExchange k a s → (s.slot k).body = .slaveReset → a.kind = .slaveReset →
    Replies (.slaveReset k (.ok warn false .empty)) s k
      { status := .success, detail := if warn = true then 256 else 0, data := 0 }
      ((exchangeOver k s).setSensor (s.slot k).sensor (staleContext (s.sensor (s.slot k).sensor))) ∧
    Replies (.slaveReset k (.ok warn true .empty)) s k (plain .slaveRefused) (exchangeOver k s)

/-- The same whatever else stands on the port: the answer, and then the decision (R47, R49, R52, R157). -/
def Sys2Proof.Claims.SlaveResetExchangeEnds : Prop :=
  OkExchangeEnds fun b => b = .slaveReset

/-- SLAVE_RESET at the end of its exchange (R47, R49, R52, R68, R157). Model's choices: assumption 2, assumption 18, assumption
25, assumption 27. -/
def Obligations.SlaveResetMarksStale : Prop := SlaveResetAnswers ∧ SlaveResetExchangeEnds

/-! ### Link events -/

namespace Sys2Proof.Claims

/-- The turnaround gap of 4 bit times in ticks of 8 ns: 4, 1.6, 0.8 and 0.4 µs (R4). -/
def gapTicks : BitRate → Nat
  | .mbit1 => 500
  | .mbit2_5 => 200
  | .mbit5 => 100
  | .mbit10 => 50

/-- One bit time in ticks, doubled where it is no whole number: 1, 0.4, 0.2 and 0.1 µs (R2). -/
def twoBitTicks : BitRate → Nat
  | .mbit1 => 250
  | .mbit2_5 => 100
  | .mbit5 => 50
  | .mbit10 => 25

/-- The bits of a request frame, start pattern included (R5). -/
def requestLength : FrameKind → Nat
  | .identify => 18
  | .position => 18
  | .repeat => 18
  | .slaveReset => 18
  | .regRead => 26
  | .regWrite => 42

/-- The bits of a field in the order in which they go onto the line, most significant bit first (R5). -/
def inOrder {n : Nat} (v : BitVec n) : List Bool := (List.range n).map v.getMsbD

end Sys2Proof.Claims

/-- ATTEMPT_BEGIN takes the counter's value as the tag, advances the counter modulo 8, records the request time and puts the
request frame on the line, once the turnaround gap has elapsed and no retry gap runs; REQUEST_FRAME_SENT opens the response
window at the last CRC bit, and the line is watched from then; START_PATTERN_SEEN begins the frame where both bits of the
pattern fall in LISTENING and the first no later than the window's expiry, and does nothing otherwise (R2 to R5, R9 to R11,
R24). -/
def Sys2Proof.Claims.AttemptRunsByItsEvents : Prop :=
  ∀ (p : PortId) (a : Attempt) (s : State), (s.link p).attempt = some a →
    let le := s.link p
    (a.phase = .between → le.state = .running ∨ le.state = .training → le.retryGapTimer = none →
      (∀ t, le.lastEnd = some t → reached s.time (after t (gapTicks le.parameters.bitRate)) = true) →
      exec (.attemptBegin p) s = .next (s.setLink p { le with
        tagCounter := le.tagCounter + 1
        attempt := some { a with tags := a.tags ++ [le.tagCounter], requestTime := s.time, phase := .sending }
        driverEnable := true
        lineOut := requestFrame a.address a.kind le.tagCounter a.register a.data })) ∧
    (a.phase = .sending →
      reached s.time (after a.requestTime (requestLength a.kind / 2 * twoBitTicks le.parameters.bitRate)) = true →
      exec (.requestFrameSent p) s = .next (s.setLink p { le with
        attempt := some { a with
          phase := .listening, windowEnd := some (after s.time (125 * le.parameters.responseWindow))
          listeningSince := some s.time }
        driverEnable := false, lineOut := [] })) ∧
    (∀ w t, a.phase = .listening → a.windowEnd = some w → a.listeningSince = some t →
      reached s.time (after t (twoBitTicks le.parameters.bitRate)) = true →
      reached (after w (twoBitTicks le.parameters.bitRate)) s.time = true →
      exec (.startPatternSeen p) s = .next (s.setLink p { le with
        attempt := some { a with phase := .receiving, listeningSince := none, frameStart := some s.time } })) ∧
    (∀ w t, a.phase = .listening → a.windowEnd = some w → a.listeningSince = some t →
      reached s.time (after t (twoBitTicks le.parameters.bitRate)) = false ∨
        reached (after w (twoBitTicks le.parameters.bitRate)) s.time = false →
      exec (.startPatternSeen p) s = .next s) ∧
    (a.phase ≠ .listening → exec (.startPatternSeen p) s = .next s)

/-- The CRC-8 of R8, bit by bit: from 0xFF, a shift left, and 0x07 exclusive-ORed where the bit shifted out differs from the
input bit. -/
def Sys2Proof.Claims.CrcFollowsItsSteps : Prop :=
  crc8 [] = 0xFF#8 ∧ ∀ (bits : List Bool) (b : Bool),
    crc8 (bits ++ [b]) = (crc8 bits <<< 1) ^^^ if (crc8 bits).getLsbD 7 = b then 0x00#8 else 0x07#8

/-- A request frame of each kind, bit for bit (R5, R8, Tables 6 and 46): start pattern 1, 0, address, kind, tag, the register
of REG_READ and REG_WRITE, the data of REG_WRITE, and the CRC-8 of what stands after the start pattern, each field most
significant bit first; 18, 26 or 42 bits. -/
def Sys2Proof.Claims.RequestFrameIsLaidOut : Prop :=
  ∀ (address : SlaveAddr) (tag : BitVec 3) (r : BitVec 8) (d : BitVec 16),
    let frame (kind : BitVec 3) (fields : List Bool) : List Bool :=
      let body := inOrder (BitVec.ofNat 2 address.val) ++ inOrder kind ++ inOrder tag ++ fields
      [true, false] ++ body ++ inOrder (crc8 body)
    requestFrame address .identify tag none none = frame 0 [] ∧
    requestFrame address .position tag none none = frame 1 [] ∧
    requestFrame address .repeat tag none none = frame 2 [] ∧
    requestFrame address .regRead tag (some r) none = frame 3 (inOrder r) ∧
    requestFrame address .regWrite tag (some r) (some d) = frame 4 (inOrder r ++ inOrder d) ∧
    requestFrame address .slaveReset tag none none = frame 5 [] ∧
    (frame 0 []).length = requestLength .identify ∧ (frame 3 (inOrder r)).length = requestLength .regRead ∧
    (frame 4 (inOrder r ++ inOrder d)).length = requestLength .regWrite

/-- An attempt from its beginning to the start of its response, and the request frame it sends (R2 to R5, R8 to R11, R24).
Model's choices: assumption 7. -/
def Obligations.AttemptRunsOnTheLine : Prop := AttemptRunsByItsEvents ∧ CrcFollowsItsSteps ∧ RequestFrameIsLaidOut

/-- A link fault with retries left, in RUNNING, puts the link in RETRY_WAIT with the attempt BETWEEN and the retry-gap timer
running from the end of the attempt; in TRAINING the link stays there. The PS hears nothing. This holds for a frame that fails
a check and for the expiry of the response window (R11, R12, R20, R25). -/
def Sys2Proof.Claims.FaultStartsTheRetryGap : Prop :=
  ∀ (p : PortId) (a : Attempt) (f : LinkFault) (c : Instr) (s : State), EndsAttempt p a (.fault f) c s →
    a.tags.length ≤ (s.link p).parameters.retryLimit → s.discarded = [] →
    (s.link p).state = .running ∨ (s.link p).state = .training →
    exec c s = .next (s.setLink p { s.link p with
      state := if (s.link p).state = .running then .retryWait else .training
      attempt := some { a with
        phase := .between, windowEnd := none, listeningSince := none, frameStart := none, lastFault := some f }
      lastEnd := some s.time
      retryGapTimer := some (after s.time (125 * (s.link p).parameters.retryGap)) })

/-- The late response to an earlier attempt of the exchange is discarded: the attempt returns to LISTENING where its window has
not expired, and ends NO_RESPONSE, as at the expiry of its window, where it has (R11, R12). -/
def Sys2Proof.Claims.LateResponseIsDiscarded : Prop :=
  ∀ (p : PortId) (a : Attempt) (tag : BitVec 3) (warn alarm : Bool) (payload : WirePayload) (rest : List Bool) (w : Time)
    (s : State), (s.link p).attempt = some a → frameCounted (s.link p) a s.time = true → a.windowEnd = some w →
    tag ∈ a.tags → a.tags.getLast? ≠ some tag → payloadFits a.kind payload = true → s.discarded = [] →
    let c := Instr.responseFrame p (responseFrame a.address a.kind tag warn alarm payload ++ rest)
    let listening := s.setLink p { s.link p with
      attempt := some { a with phase := .listening, listeningSince := some s.time, frameStart := none } }
    (reached s.time w = false → exec c s = .next listening) ∧
    (reached s.time w = true → exec c s = exec (.responseWindowExpiry p) listening)

/-- An attempt whose exchange has used all eight tags cannot end TAG_MISMATCH: no frame is classified so, and the command of the
transaction's own row with that end does nothing (R9, R12). -/
def Sys2Proof.Claims.EighthAttemptHasNoTagMismatch : Prop :=
  ∀ a : Attempt, (∀ tag : BitVec 3, tag ∈ a.tags) →
    (∀ bits, classify a (receivedBits a.kind bits) ≠ .ended (.fault .tagMismatch)) ∧
    ∀ (k : SlotId) (c : Instr) (s : State), (s.link (portOf (s.slot k).sensor)).attempt = some a →
      transactionCommand k (.fault .tagMismatch) (s.slot k).body = some c → exec c s = .next s

/-- What an attempt that has not ended well gives: a retry after the gap, or, for a late response, the same attempt again; and
that the eighth attempt ends in no TAG_MISMATCH (R9, R11, R12, R20, R25). Model's choices: assumption 2, assumption 7,
assumption 18. -/
def Obligations.FaultWithRetriesLeftWaits : Prop :=
  FaultStartsTheRetryGap ∧ LateResponseIsDiscarded ∧ EighthAttemptHasNoTagMismatch

namespace Sys2Proof.Claims

/-- The PORT_STATE cause of a link fault (Table 44). -/
def faultCode : LinkFault → Nat
  | .crcError => 1
  | .noResponse => 2
  | .addressMismatch => 3
  | .kindMismatch => 4
  | .tagMismatch => 5

/-- The retrain timer as it starts on entry to DOWN (R28). -/
def retrainFrom (now : Time) (interval : Nat) : Option Time :=
  if interval = 0 then none else some (after now (125000 * interval))

/-- The entry that the end of an IDENTIFY exchange writes (R20): PRESENT for a word with ST in 8 to 24 and MT in 0 to 16 (R14,
Table 48), ABSENT otherwise. -/
def TrainedEntry (e : AttemptEnd) (x : IdentityEntry) : Prop :=
  (∃ warn alarm w, e = .ok warn alarm (.identity w) ∧ x =
      if 8 ≤ (w.extractLsb' 19 5).toNat ∧ (w.extractLsb' 19 5).toNat ≤ 24 ∧ (w.extractLsb' 14 5).toNat ≤ 16
      then { present := true, word := w, cause := .none }
      else { present := false, word := w, cause := .badIdentity }) ∨
    ∃ f, e = .fault f ∧ x = { present := false, word := 0, cause := .linkFault f }

/-- The training exchange on the line of port `p` ends with `e` (a fault is that of its last allowed attempt), and its entry
is `x` (R20). -/
structure TrainingEnds (p : PortId) (t : Training) (a : Attempt) (e : AttemptEnd) (x : IdentityEntry) (c : Instr) (s : State) :
    Prop where
  state : (s.link p).state = .training
  training : (s.link p).training = some t
  ends : EndsAttempt p a e c s
  last : ∀ f, e = .fault f → (s.link p).parameters.retryLimit < a.tags.length
  entry : TrainedEntry e x
  settled : s.discarded = []

/-- The sensor contexts after a training end in RUNNING with identity table `table` (R23, R67): a WAITING sensor of the port
whose slave is PRESENT is ACQUIRING, its last accepted value STALE where it was VALID. -/
def resumedSensors (p : PortId) (table : Vector IdentityEntry 4) (s : State) : Vector Sensor 32 :=
  Vector.ofFn fun n : SensorId =>
    if portOf n = p ∧ (s.sensor n).state = .waiting ∧ (table[addrOf n]).present = true then
      { s.sensor n with
        state := .acquiring
        last := { (s.sensor n).last with
          validity := if (s.sensor n).last.validity = .valid then .stale else (s.sensor n).last.validity } }
    else s.sensor n

/-- The state in which a training has ended with identity table `table` and the link is RUNNING (R22, R23, R37). -/
def trainedRunning (p : PortId) (table : Vector IdentityEntry 4) (s : State) : State :=
  { (s.setLink p { s.link p with
      state := .running, identity := table, training := none, attempt := none, lastEnd := some s.time }).setSched p
    { s.sched p with
      cycleTimer := some (after s.time (125 * (s.link p).parameters.cyclePeriod))
      periodInForce := (s.link p).parameters.cyclePeriod } with
    sensors := resumedSensors p table s }

/-- The exchange on the line of a RUNNING port is the round's: that of the head entry, or of an entry removed meanwhile (R43). A
fault is that of the last allowed attempt. -/
structure RoundOnTheLine (p : PortId) (a : Attempt) (e : AttemptEnd) (c : Instr) (s : State) : Prop where
  ends : EndsAttempt p a e c s
  running : (s.link p).state = .running
  owner : (s.sched p).owner = some .round
  round : (s.sched p).round = .inProgress
  head : ((s.sched p).roundStep = none ∧ (s.sched p).heldPosition = none) ∨
    ((s.sched p).roundStep = some .position ∧ (s.sched p).heldPosition = none ∧ (s.sched p).roundList ≠ []) ∨
    ((s.sched p).roundStep = some .repeat ∧ (s.sched p).heldPosition ≠ none ∧ (s.sched p).roundList ≠ [])
  last : ∀ f, e = .fault f → (s.link p).parameters.retryLimit < a.tags.length
  settled : s.discarded = []

/-- From `u` to `t`, the round of a port takes the outcome `o` of its exchange (R41 to R43): a POSITION that ended OK and
calls for a REPEAT is held; any other outcome of the head entry ends its poll, its reading going to the Sensor Processor; that
of an entry removed meanwhile is discarded. A round whose list is then empty ends. -/
def RoundTakes (p : PortId) (o : ExchangeOutcome) (u t : State) : Prop :=
  let ps := u.sched p
  (ps.roundStep = none → t = u.setSched p (roundGoesOn ps.roundList ps)) ∧
  ∀ step n rest, ps.roundStep = some step → ps.roundList = n :: rest →
    let held := step = .position ∧ (∃ warn alarm x, o.result = .ok warn alarm x) ∧ (u.sensor n).confirm = .repeat
    (held → t = u.setSched p { ps with owner := none, roundStep := none, heldPosition := some o }) ∧
    (¬ held → t = takeReading (roundReading ps n step o) (u.setSched p (roundGoesOn rest ps)))

/-- The link of a port as the end of an exchange leaves it: the attempt record empty, the turnaround gap counting from now (R24,
R27). -/
def exchangeEnded (le : LinkEngine) (failures : Nat) (now : Time) : LinkEngine :=
  { le with attempt := none, failures := failures, lastEnd := some now }

/-- From `u` to `t`, a port's link goes DOWN with the fault of the exchange that failed (R28, R29, R44, R54, R66): the round
ends, the host work is answered PORT_DOWN, the ACQUIRING sensors are suspended, the notice is raised and the retrain timer
starts. -/
def GoesDown (p : PortId) (f : LinkFault) (u t : State) : Prop :=
  ∃ w, Flushed p .portDown ((u.setLink p { u.link p with state := .down }).setSched p (roundOver (u.sched p))) w ∧
    t = (raiseNotice (.port p) (BitVec.ofNat 32 (4 + 16 * faultCode f)) u.time (allSuspended p w)).setLink p
      { w.link p with retrainTimer := retrainFrom u.time (u.link p).parameters.retrainInterval }

end Sys2Proof.Claims

/-- The POSITION outcome of a round's exchange: with confirm REPEAT it is held and the REPEAT is offered; without, the reading
goes to the Sensor Processor and the round ends with its last entry (R41, R42; shown for an outcome that ended OK and a port
with nothing else to do). -/
def Sys2Proof.Claims.GoodReadingReachesTheSensor : Prop :=
  ∀ (p : PortId) (n : SensorId) (a : Attempt) (warn alarm : Bool) (angle : BitVec 24) (turn : BitVec 16) (c : Instr) (s : State),
    EndsAttempt p a (.ok warn alarm (.position angle turn)) c s → (s.link p).state = .running →
    (s.sched p).owner = some .round → (s.sched p).round = .inProgress → (s.sched p).roundStep = some .position →
    (s.sched p).heldPosition = none → s.discarded = [] →
    let word := ((s.link p).identity[a.address]).word
    let outcome : ExchangeOutcome :=
      { result := .ok warn alarm (.reading (angle.toNat % 2 ^ wordSt word) (turn.toNat % 2 ^ wordMt word))
        attempts := a.tags.length, address := a.address, kind := a.kind, requestTime := a.requestTime }
    let link : LinkEngine := { s.link p with attempt := none, failures := 0, lastEnd := some s.time }
    (∀ rest, (s.sched p).roundList = n :: rest → (s.sensor n).confirm = .repeat →
      exec c s = .next ((s.setLink p { link with attempt := some (freshAttempt (addrOf n) .repeat) }).setSched p
        { s.sched p with roundStep := some .repeat, heldPosition := some outcome })) ∧
    ((s.sched p).roundList = [n] → (s.sensor n).confirm = .off → (s.sched p).queue = [] → (s.sched p).active = none →
      exec c s = .next (takeReading
        { sensor := n, position := outcome, repeated := none, sampleTime := a.requestTime
          late := (s.sched p).lateMark.getD false }
        ((s.setLink p link).setSched p { s.sched p with
          owner := none, round := .none, lateMark := none, roundList := [], roundStep := none })))

/-- The end of a round's exchange, OK or failed below the fail limit: the round takes the outcome, an OK exchange clears the
failure count and a failed one raises it, and the scheduler decides what follows (R24, R27, R41 to R43, R47). -/
def Sys2Proof.Claims.RoundExchangeEnds : Prop :=
  ∀ (p : PortId) (a : Attempt) (e : AttemptEnd) (o : ExchangeOutcome) (c : Instr) (s : State),
    RoundOnTheLine p a e c s → ReadingOutcome ((s.link p).identity[a.address]).word a e o →
    ((s.sched p).active = none → QueueReady p s) →
    (∀ f, e = .fault f → (s.link p).failures + 1 < (s.link p).parameters.failLimit) →
    Completes c s fun t => ∃ v,
      ((∀ warn alarm x, e = .ok warn alarm x →
          RoundTakes p o (s.setLink p (exchangeEnded (s.link p) 0 s.time)) v) ∧
        ∀ f, e = .fault f →
          RoundTakes p o (s.setLink p (exchangeEnded (s.link p) ((s.link p).failures + 1) s.time)) v) ∧
      Decides p v t

/-- What the end of a round's exchange gives the sensor and the round (R24, R27, R41 to R43, R47). Model's choices: assumption
18, assumption 25, assumption 27. -/
def Obligations.PollReadingReachesTheSensor : Prop := GoodReadingReachesTheSensor ∧ RoundExchangeEnds

/-- An IDENTIFY exchange of a training that ends below address 3 writes its provisional entry and begins the exchange to the
next address; the identity table keeps its contents (R19, R20). -/
def Sys2Proof.Claims.TrainingGathersEntries : Prop :=
  ∀ (p : PortId) (t : Training) (a : Attempt) (e : AttemptEnd) (x : IdentityEntry) (c : Instr) (s : State) (next : SlaveAddr),
    TrainingEnds p t a e x c s → next.val = t.address.val + 1 →
    exec c s = .next (s.setLink p { s.link p with
      training := some { t with address := next, provisional := t.provisional ++ [x] }
      attempt := some (freshAttempt next .identify), lastEnd := some s.time })

/-- The exchange to address 3 ends the training: the four entries become the identity table together, the link enters RUNNING
where one is PRESENT, and DISABLED (origin START) or DOWN (origin RETRAIN) where none is; PORT_START completes, a retraining
raises a PORT_STATE notice, waiting sensors resume (R22, R23, R37, R67; shown where no identity of the port's sensors has
changed and the port queue is empty). -/
def Sys2Proof.Claims.TrainingEndPublishesTheTable : Prop :=
  ∀ (p : PortId) (t : Training) (a : Attempt) (e : AttemptEnd) (x0 x1 x2 x : IdentityEntry) (c : Instr) (s : State),
    TrainingEnds p t a e x c s → t.address = 3 → t.provisional = [x0, x1, x2] →
    (s.sched p).round = .none → (s.sched p).queue = [] → (s.sched p).active = none →
    let table : Vector IdentityEntry 4 := #v[x0, x1, x2, x]
    (∀ n, portOf n = p → (s.sensor n).state = .bound ∨ (s.sensor n).state = .waiting → (table[addrOf n]).present = true →
      sameIdentity (table[addrOf n]).word (s.sensor n).identity = true) →
    let mask := x0.present.toNat + 2 * x1.present.toNat + 4 * x2.present.toNat + 8 * x.present.toNat
    let down : State := s.setLink p { s.link p with
      state := .down, identity := table, training := none, attempt := none, lastEnd := some s.time
      retrainTimer := retrainFrom s.time (s.link p).parameters.retrainInterval }
    let disabled : State := s.setLink p { s.link p with
      state := .disabled, identity := table, training := none, attempt := none, lastEnd := some s.time, failures := 0
      retryGapTimer := none, retrainTimer := none }
    (mask ≠ 0 → t.origin = .retrain →
      exec c s = .next (raiseNotice (.port p) (BitVec.ofNat 32 (2 + 256 * mask)) s.time (trainedRunning p table s))) ∧
    (∀ k u, mask ≠ 0 → t.origin = .start → AnswersFor (.port p) k (trainedRunning p table s) u →
      Replies c s k (portStartResult .success table) u) ∧
    (mask = 0 → t.origin = .retrain →
      exec c s = .next (raiseNotice (.port p) (BitVec.ofNat 32 (4 + 16 * 6)) s.time down)) ∧
    (∀ k u, mask = 0 → t.origin = .start → AnswersFor (.port p) k disabled u → Replies c s k (portStartResult .noSlave table) u)

/-- The training end whatever the port holds: each sensor is compared with its slave's new entry, in ascending id, before the
link state is entered, one whose identity has changed faulting; in RUNNING the PORT_START is answered or the notice raised and
the scheduler decides, so that queued requests gain the link; without a slave the queue is answered PORT_DOWN (R22, R23, R29,
R37, R53, R67, R70). -/
def Sys2Proof.Claims.TrainingEndTreatsThePort : Prop :=
  ∀ (p : PortId) (t : Training) (a : Attempt) (e : AttemptEnd) (x0 x1 x2 x : IdentityEntry) (c : Instr) (s : State),
    TrainingEnds p t a e x c s → t.address = 3 → t.provisional = [x0, x1, x2] →
    (s.sched p).active = none → (s.sched p).owner = none → QueueReady p s →
    let table : Vector IdentityEntry 4 := #v[x0, x1, x2, x]
    let mask := x0.present.toNat + 2 * x1.present.toNat + 4 * x2.present.toNat + 8 * x.present.toNat
    let published := s.setLink p { s.link p with
      identity := table, training := none, attempt := none, lastEnd := some s.time }
    let checked := (sensorsOf p).foldl (fun u n => identityChecked true n u) published
    let running := (checked.setLink p { published.link p with state := .running }).setSched p { checked.sched p with
      cycleTimer := some (after s.time (125 * (s.link p).parameters.cyclePeriod))
      periodInForce := (s.link p).parameters.cyclePeriod }
    let down := s.setLink p { published.link p with
      state := .down, retrainTimer := retrainFrom s.time (s.link p).parameters.retrainInterval }
    let disabled := s.setLink p { published.link p with
      state := .disabled, failures := 0, retryGapTimer := none, retrainTimer := none }
    (mask ≠ 0 → t.origin = .retrain → Completes c s
      (Decides p (raiseNotice (.port p) (BitVec.ofNat 32 (2 + 256 * mask)) s.time running))) ∧
    (∀ k u, mask ≠ 0 → t.origin = .start → AnswersFor (.port p) k running u → Completes c s fun z =>
      ∃ v, Concluded k (portStartResult .success table) u v ∧ Decides p v z) ∧
    (mask = 0 → t.origin = .retrain → Completes c s fun z => ∃ v, Flushed p .portDown down v ∧
      z = raiseNotice (.port p) (BitVec.ofNat 32 (4 + 16 * 6)) s.time v) ∧
    (∀ k u, mask = 0 → t.origin = .start → AnswersFor (.port p) k disabled u → Completes c s fun z =>
      ∃ v, QueueFlushed p .portDown disabled v ∧
        Concluded k (portStartResult .noSlave table) { v with axInFlight := u.axInFlight } z)

/-- Training: the exchanges to the four addresses and its end (R19 to R23). Model's choices: assumption 12, assumption 18,
assumption 25, assumption 27. -/
def Obligations.TrainingBuildsTheTable : Prop :=
  TrainingGathersEntries ∧ TrainingEndPublishesTheTable ∧ TrainingEndTreatsThePort

/-- A failed exchange that brings the failure count to the fail limit takes the link DOWN after the transaction has answered
LINK_FAILED: the count is kept, the cycle timer stopped, the retrain timer started where the interval is not 0, and a
PORT_STATE notice raised with the fault (R27, R28; shown for a port with no ACQUIRING sensor and no other host work). -/
def Sys2Proof.Claims.FailLimitOnAQuietPort : Prop :=
  ∀ (k : SlotId) (a : Attempt) (f : LinkFault) (c : Instr) (s : State),
    OnTheLine k a s → Concludable k s → EndsExchange k a (.fault f) c s →
    let p := portOf (s.slot k).sensor
    (s.link p).parameters.retryLimit < a.tags.length →
    (s.link p).parameters.failLimit ≤ (s.link p).failures + 1 →
    (∀ n, portOf n = p → (s.sensor n).state ≠ .acquiring) →
    Replies c s k (cutShort .linkFailed (schedOf k s).exchangesDone (s.slot k).body (schedOf k s).progress.values)
      (raiseNotice (.port p) (BitVec.ofNat 32 (4 + 16 * faultCode f)) s.time
        (((exchangeOver k s).setLink p { s.link p with
          state := .down, attempt := none, failures := (s.link p).failures + 1, lastEnd := some s.time
          retrainTimer := retrainFrom s.time (s.link p).parameters.retrainInterval }).setSched p
            (roundOver ((exchangeOver k s).sched p))))

/-- The same whatever stands on the port: the transaction answers LINK_FAILED and then the link goes DOWN, which flushes the
queue PORT_DOWN and suspends the ACQUIRING sensors (R27 to R29, R54, R59, R66). -/
def Sys2Proof.Claims.TransactionFailureTakesTheLinkDown : Prop :=
  ∀ (k : SlotId) (a : Attempt) (f : LinkFault) (c : Instr) (s : State),
    Carried k a .running s → Concludable k s → EndsExchange k a (.fault f) c s →
    let p := portOf (s.slot k).sensor
    QueueReady p s →
    (s.link p).parameters.retryLimit < a.tags.length →
    (s.link p).parameters.failLimit ≤ (s.link p).failures + 1 →
    Completes c s fun t => ∃ v,
      Concluded k (cutShort .linkFailed (schedOf k s).exchangesDone (s.slot k).body (schedOf k s).progress.values)
        ((exchangeOver k s).setLink p (exchangeEnded (s.link p) ((s.link p).failures + 1) s.time)) v ∧
      GoesDown p f v t

/-- A round's exchange that brings the failure count to the fail limit: the round takes the failed outcome, a missed reading
where its sensor still stands in the list, and then the link goes DOWN, with a yielded transaction answered PORT_DOWN before
the queue (R27 to R29, R41, R43, R44, R54, R59, R66). -/
def Sys2Proof.Claims.RoundFailureTakesTheLinkDown : Prop :=
  ∀ (p : PortId) (a : Attempt) (f : LinkFault) (o : ExchangeOutcome) (c : Instr) (s : State),
    RoundOnTheLine p a (.fault f) c s → ReadingOutcome ((s.link p).identity[a.address]).word a (.fault f) o →
    FlushReady p s → (s.link p).parameters.failLimit ≤ (s.link p).failures + 1 →
    Completes c s fun t => ∃ v,
      RoundTakes p o (s.setLink p (exchangeEnded (s.link p) ((s.link p).failures + 1) s.time)) v ∧ GoesDown p f v t

/-- The failure that reaches the fail limit, of a transaction's exchange and of a round's (R27 to R29, R44, R54, R66). Model's
choices: assumption 2, assumption 18, assumption 27. -/
def Obligations.FailLimitTakesTheLinkDown : Prop :=
  FailLimitOnAQuietPort ∧ TransactionFailureTakesTheLinkDown ∧ RoundFailureTakesTheLinkDown

/-- The attempt on the line of a STOPPING link ends: the link enters DISABLED and the PORT_STOP completes SUCCESS. Shown for
an outcome that no transaction owns, which is discarded, and for a transaction's that failed, which completes PORT_STOPPED
first, with the exchanges done (R32, R33). -/
def Sys2Proof.Claims.StoppingDiscardsOrFails : Prop :=
  ∀ (p : PortId) (a : Attempt) (e : AttemptEnd) (c : Instr) (k : SlotId) (s : State),
    EndsAttempt p a e c s → (s.link p).state = .stopping → (s.sched p).round = .none → s.discarded = [] →
    let disabled : LinkEngine := { s.link p with
      state := .disabled, failures := 0, retryGapTimer := none, retrainTimer := none, training := none, attempt := none
      lastEnd := some s.time }
    (∀ u, (s.sched p).owner ≠ some .transaction →
      AnswersFor (.port p) k ((s.setLink p disabled).setSched p { s.sched p with owner := none }) u →
      Replies c s k (plain .success) u) ∧
    (∀ j f u, e = .fault f → (s.sched p).owner = some .transaction → (s.sched p).active = some j → j ≠ k →
      (s.slot j).state = .active → (s.slot j).abortRequester = none → (s.cr (s.slot j).cr).state = .active →
      AnswersFor (.port p) k s u →
      Completes c s fun t => ∃ v,
        Answered j (cutShort .portStopped (s.sched p).exchangesDone (s.slot j).body (s.sched p).progress.values)
          ((s.setLink p disabled).setSched p (withoutActive { s.sched p with owner := none })) v ∧
        Answered k (plain .success) { v with axInFlight := u.axInFlight } t)

/-- The end of a transaction's exchange on a STOPPING link, however it ends: failed, PORT_STOPPED with the exchanges done; OK
with more to come, PORT_STOPPED with this exchange counted; OK and its last, or an ALARM that ends it, its own result; then
the PORT_STOP is answered SUCCESS (R32, R33, R156 to R159). -/
def Sys2Proof.Claims.StoppingSettlesTheTransaction : Prop :=
  ∀ (j k : SlotId) (a : Attempt) (e : AttemptEnd) (c : Instr) (s u : State),
    Carried j a .stopping s → Concludable j s → EndsExchange j a e c s →
    let p := portOf (s.slot j).sensor
    (s.sched p).round = .none → AnswersFor (.port p) k s u → j ≠ k → (s.slot j).abortRequester ≠ some k →
    let ps := s.sched p
    let gone := (s.setLink p { s.link p with
      state := .disabled, failures := 0, retryGapTimer := none, retrainTimer := none, training := none, attempt := none
      lastEnd := some s.time }).setSched p (withoutActive { ps with owner := none })
    Completes c s fun t =>
      (∀ f, e = .fault f → ∃ v,
        Concluded j (cutShort .portStopped ps.exchangesDone (s.slot j).body ps.progress.values) gone v ∧
        Answered k (plain .success) { v with axInFlight := u.axInFlight } t) ∧
      (∀ values, MoreToCome j ps e s values → ∃ v,
        Concluded j (cutShort .portStopped (ps.exchangesDone + 1) (s.slot j).body values) gone v ∧
        Answered k (plain .success) { v with axInFlight := u.axInFlight } t) ∧
      (∀ r z, OwnResult j a ((s.link p).identity[a.address]).word ps e gone r z → ∃ v,
        Concluded j r z v ∧ Answered k (plain .success) { v with axInFlight := u.axInFlight } t)

/-- The end of a STOPPING link's attempt, whoever owns the exchange (R32, R33). Model's choices: assumption 13, assumption 18,
assumption 27. -/
def Obligations.StoppingEndsInDisabled : Prop := StoppingDiscardsOrFails ∧ StoppingSettlesTheTransaction

/-- RETRY_GAP_EXPIRY stops the timer and returns RETRY_WAIT to RUNNING; RETRAIN_TIMER_EXPIRY takes a DOWN link into TRAINING
with origin RETRAIN; neither acts before its timer's expiry (R19, R20, R26, R30). Model's choices: assumption 7, assumption
25. -/
def Obligations.LinkTimersExpire : Prop :=
  ∀ (p : PortId) (t : Time) (s : State),
    ((s.link p).retryGapTimer = some t → reached s.time t = true →
      exec (.retryGapExpiry p) s = .next (s.setLink p { s.link p with
        retryGapTimer := none
        state := if (s.link p).state = .retryWait then .running else (s.link p).state })) ∧
    ((s.link p).state = .down → (s.link p).retrainTimer = some t → reached s.time t = true →
      exec (.retrainTimerExpiry p) s = .next (s.setLink p { s.link p with
        state := .training, failures := 0, retrainTimer := none
        training := some { origin := .retrain, address := 0, provisional := [] }
        attempt := some (freshAttempt 0 .identify) })) ∧
    ((s.link p).retryGapTimer = some t → reached s.time t = false → exec (.retryGapExpiry p) s = .next s) ∧
    ((s.link p).retrainTimer = some t → reached s.time t = false → exec (.retrainTimerExpiry p) s = .next s)

/-- CYCLE_TIMER_EXPIRY reloads the timer from its own expiry time; with a round present or HOLD ON each ACQUIRING sensor of
the port is given one missed reading, saturating at 255, and no other sensor is touched; with a host exchange in progress the
round falls DUE with LATE set; otherwise a round starts with the ACQUIRING sensors in ascending order (shown on an idle
RUNNING link, whose first POSITION exchange it offers) (R37 to R41). -/
def Sys2Proof.Claims.CycleExpiryByCase : Prop :=
  ∀ (p : PortId) (t0 : Time) (s : State), (s.sched p).cycleTimer = some t0 → reached s.time t0 = true →
    s.discarded = [] →
    let timer := some (after t0 (125 * (s.sched p).periodInForce))
    ((s.sched p).round ≠ .none ∨ (s.sched p).hold = true → Completes (.cycleTimerExpiry p) s fun t =>
      t = { s.setSched p { s.sched p with cycleTimer := timer } with sensors := t.sensors } ∧
      ∀ n, t.sensor n = if portOf n = p ∧ (s.sensor n).state = .acquiring then
        { s.sensor n with missed := min 255 ((s.sensor n).missed + 1) } else s.sensor n) ∧
    ((s.sched p).round = .none → (s.sched p).hold = false → (s.sched p).owner = some .transaction →
      exec (.cycleTimerExpiry p) s = .next (s.setSched p { s.sched p with
        cycleTimer := timer, round := .due, lateMark := some true })) ∧
    (∀ n rest, (s.sched p).round = .none → (s.sched p).hold = false → (s.sched p).owner = none →
      (s.sched p).heldPosition = none → (s.link p).state = .running → (s.link p).attempt = none →
      (sensorsOf p).filter (fun m => (s.sensor m).state = .acquiring) = n :: rest →
      exec (.cycleTimerExpiry p) s = .next ((s.setLink p { s.link p with
        attempt := some (freshAttempt (addrOf n) .position) }).setSched p
        { s.sched p with
          cycleTimer := timer, round := .inProgress, lateMark := some false, roundList := n :: rest
          roundStep := some .position, owner := some .round }))

/-- Case (d) of Table 14 whatever the port holds: the round starts with the ACQUIRING sensors and LATE clear, and the
scheduler decides; with no ACQUIRING sensor the round ends at once, and the decision goes on to the host work (R38, R40,
R47). -/
def Sys2Proof.Claims.ImmediateRoundIsDecided : Prop :=
  ∀ (p : PortId) (t0 : Time) (s : State), (s.sched p).cycleTimer = some t0 → reached s.time t0 = true → s.discarded = [] →
    (s.sched p).round = .none → (s.sched p).hold = false → (s.sched p).owner ≠ some .transaction →
    ((s.sched p).active = none → QueueReady p s) →
    let reloaded := { s.sched p with cycleTimer := some (after t0 (125 * (s.sched p).periodInForce)) }
    (acquirers p s = [] → Completes (.cycleTimerExpiry p) s
      (Decides p (s.setSched p { reloaded with round := .none, lateMark := none, roundList := [] }))) ∧
    (acquirers p s ≠ [] → Completes (.cycleTimerExpiry p) s
      (Decides p (s.setSched p { reloaded with round := .inProgress, lateMark := some false, roundList := acquirers p s })))

/-- CYCLE_TIMER_EXPIRY in the four cases of Table 14 (R37 to R41, R47). Model's choices: assumption 7, assumption 18, assumption
25, assumption 27. -/
def Obligations.CycleExpiryFollowsTable14 : Prop := CycleExpiryByCase ∧ ImmediateRoundIsDecided

/-! ### Capture lines -/

/-- CAPTURE_INPUT_TRANSITION: a sample opposite to the recognised level starts a qualification from now and leaves one in
progress as it is; a sample back at the recognised level abandons it (R91). -/
def Sys2Proof.Claims.InputSampleStartsOrEndsQualification : Prop :=
  ∀ (l : LineId) (level : Bool) (s : State),
    (level = (s.line l).recognised →
      exec (.captureInputTransition l level) s =
        .next (s.setLine l { s.line l with input := level, qualification := none })) ∧
    (level ≠ (s.line l).recognised → (s.line l).qualification = none →
      exec (.captureInputTransition l level) s = .next (s.setLine l { s.line l with
        input := level, qualification := some { level := level, since := s.time, configured := none } })) ∧
    (∀ q, level ≠ (s.line l).recognised → (s.line l).qualification = some q →
      exec (.captureInputTransition l level) s = .next (s.setLine l { s.line l with input := level }))

/-- TRANSITION_RECOGNISED, once the candidate has held for the filter's length, and where a CAPTURE_CONFIG has come meanwhile
at a later tick than that (R93): the recognised level becomes the candidate, an edge by the edge select whose time is at or
after the arm time of an armed line sets one pending capture, or its overrun flag, in each ACQUIRING sensor whose mask has the
line, and a ONCE line is then DISARMED; nothing else changes (R91, R92, R96). -/
def Sys2Proof.Claims.RecognisedEdgeSetsCaptures : Prop :=
  ∀ (l : LineId) (q : Qualification) (s : State), (s.line l).qualification = some q →
    (¬ (reached s.time (after q.since (s.line l).filter) = true ∧
        ∀ t0, q.configured = some t0 → reached s.time (after t0 1) = true) →
      exec (.transitionRecognised l) s = .next s) ∧
    (reached s.time (after q.since (s.line l).filter) = true →
    (∀ t0, q.configured = some t0 → reached s.time (after t0 1) = true) →
    let c := s.line l
    let acted := ((c.edgeSelect = .rising ∧ q.level = true) ∨ (c.edgeSelect = .falling ∧ q.level = false) ∨
      c.edgeSelect = .both) ∧ c.arm ≠ .disarmed ∧ ∃ t0, c.armTime = some t0 ∧ t0 ≤ q.since
    Completes (.transitionRecognised l) s fun t =>
      t = { s with lines := t.lines, sensors := t.sensors } ∧
      (∀ m, m ≠ l → t.line m = s.line m) ∧
      (acted → c.arm = .once → t.line l = { c with
        recognised := q.level, qualification := none, arm := .disarmed, armTime := none, reference := none }) ∧
      (¬ (acted ∧ c.arm = .once) → t.line l = { c with recognised := q.level, qualification := none }) ∧
      ∀ n, (¬ (acted ∧ (s.sensor n).state = .acquiring ∧ (s.sensor n).captureMask.getLsbD l.val = true) →
          t.sensor n = s.sensor n) ∧
        (acted → (s.sensor n).state = .acquiring → (s.sensor n).captureMask.getLsbD l.val = true →
          t.sensor n = { s.sensor n with captures := (s.sensor n).captures.set l (some (
            match (s.sensor n).captures[l] with
            | some x => { x with overrun := true }
            | none =>
              { edgeTime := q.since, overrun := false
                reference := if c.arm = .once then
                  (match c.reference with
                  | some r => if r.sensor = n then some r.position else none
                  | none => none) else none })) }))

/-- The two events of a capture line (R91, R92, R96). Model's choices: assumption 7. -/
def Obligations.CaptureEvents : Prop := InputSampleStartsOrEndsQualification ∧ RecognisedEdgeSetsCaptures

/-! ### Delivery -/

namespace Sys2Proof.Claims

/-- What the end of a completion's write on ring `c` leaves before its slot is freed (R125, R126): the write handed over, or, in
error on an ACTIVE ring, the ring FAULTED with its failed entry and a notice raised. -/
def completionEnded (c : CrId) (w : RecordWrite) (behind rest : List OutItem) (s : State) : State :=
  if Errs w s then
    if (s.cr c).state = .active then
      raiseNotice (.cr c) (BitVec.ofNat 32 (w.entry % 65536)) s.time
        ((writeEnded w behind rest false s).setCr c { s.cr c with state := .faulted, failedEntry := some w.entry })
    else writeEnded w behind rest false s
  else writeEnded w behind rest true s

/-- No slot waits on slot `k`. -/
def NoFollower (k : SlotId) (s : State) : Prop := ∀ j, ¬ ((s.slot j).state = .linkWait ∧ (s.slot j).predecessor = some k)

/-- Slot `j` waits on slot `k`, and it alone. -/
def Follows (j k : SlotId) (s : State) : Prop :=
  (s.slot j).state = .linkWait ∧ (s.slot j).predecessor = some k ∧
    ∀ i, (s.slot i).state = .linkWait → (s.slot i).predecessor = some k → i = j

/-- Freeing slot `k` leaves its ring as it is: the ring is not DRAINING, or it holds further slots (R131). -/
def RingStays (k : SlotId) (s : State) : Prop :=
  ¬ ((s.rq (s.slot k).rq).state = .draining ∧ (s.rq (s.slot k).rq).slotsHeld ≤ 1)

/-- The chain state of slot `k`'s ring once the completion of slot `k` has ended with a status, where no slot waits on it (R123). -/
def chainAfter (k : SlotId) (st : Status) (s : State) : ChainState :=
  let chain := (s.rq (s.slot k).rq).chain
  if chain = .openAt k then (if st = .success then .noChain else .broken) else chain

/-- From `u` to `t`, the request in slot `k` has its result on a FAULTED completion ring (R127): the completion is discarded,
the slot is freed and its follower settled by the status, as it would have been: handed to its scheduler (shown where it joins
the queue, and where an idle port takes it up at once), or SKIPPED with its own completion discarded. -/
def DiscardSettles (k : SlotId) (r : Result) (u t : State) : Prop :=
  let gone := completionDiscarded k r u
  let freed := slotFreed k (u.rq (u.slot k).rq).chain gone
  (NoFollower k u → t = slotFreed k (chainAfter k r.status u) gone) ∧
  ∀ j, Follows j k u → (u.slot j).abortRequester = none →
    let p := portOf (u.slot j).sensor
    let ps := u.sched p
    let released := freed.setSlot j { u.slot j with state := .queued, predecessor := none }
    (r.status = .success → (u.link p).state = .training ∨ (u.link p).state = .retryWait →
      t = released.setSched p { ps with queue := ps.queue ++ [j] }) ∧
    (∀ first, r.status = .success → MayDecide p u → ps.round = .none → ps.active = none → ps.queue = [] →
      (∀ st, ¬ Unfit (u.slot j).body (entryOf (u.slot j).sensor u) (u.sensor (u.slot j).sensor).state st) →
      IsExchange (u.slot j) 0 first → t = offered p .transaction first (activated p j [] released)) ∧
    (r.status ≠ .success → (u.cr (u.slot j).cr).state = .faulted → NoFollower j u → RingStays j freed →
      t = slotFreed j (chainAfter j .skipped freed) (completionDiscarded j (plain .skipped) freed))

end Sys2Proof.Claims

/-- SAMPLE_WRITE_END: a good end hands the record to the host, lets what waited behind it follow, and changes nothing else; an
error on an ACTIVE or CONGESTED ring makes it FAULTED with the failed entry, empties the held queues of the sensors that name
it and raises a notice; an error on a ring that is FAULTED, or of a write from before a halt or deletion, is disregarded (R112
to R114, R165). Model's choices: assumption 20, assumption 30. -/
def Obligations.SampleWriteEnds : Prop :=
  ∀ (i : SrId) (w : RecordWrite) (behind rest : List OutItem) (s : State), Oldest w behind rest s →
    w.kind = .sample i →
    (¬ Errs w s → exec .sampleWriteEnd s = .next (writeEnded w behind rest true s)) ∧
    (Errs w s → w.live = false ∨ (s.sr i).state = .faulted ∨ (s.sr i).state = .absent →
      exec .sampleWriteEnd s = .next (writeEnded w behind rest false s)) ∧
    (Errs w s → w.live = true → (s.sr i).state = .active ∨ (s.sr i).state = .congested →
      exec .sampleWriteEnd s = .next (raiseNotice (.sr i) (BitVec.ofNat 32 (w.entry % 65536)) s.time
        { (writeEnded w behind rest false s).setSr i { s.sr i with state := .faulted, failedEntry := some w.entry } with
          sensors := s.sensors.map fun c => if c.ring = i then { c with held := [] } else c }))

/-- COMPLETION_WRITE_END of a completion: a good end frees the slot and settles the ring's chain state by the completion's
status; an error on an ACTIVE CR1 to CR7 makes it FAULTED with a notice besides; an error on CR0 in READY is fatal; the end of
a write from before a halt or deletion frees nothing (R123, R125, R126, R133, R171). Shown for a slot that no other slot waits
on and that is not the last of a DRAINING ring; the statements below show those. -/
def Sys2Proof.Claims.CompletionEndFreesTheSlot : Prop :=
  ∀ (c : CrId) (k : SlotId) (r : Result) (w : RecordWrite) (behind rest : List OutItem) (s : State),
    Oldest w behind rest s → w.kind = .completion c k → (s.slot k).result = some r → s.discarded = [] →
    NoFollower k s → RingStays k s → (s.slot k).state = .done →
    let chain := chainAfter k r.status s
    (w.live = true → ¬ Errs w s →
      exec .completionWriteEnd s = .next (slotFreed k chain (writeEnded w behind rest true s))) ∧
    (w.live = true → Errs w s → c ≠ 0 → (s.cr c).state = .active →
      exec .completionWriteEnd s = .next (slotFreed k chain
        (raiseNotice (.cr c) (BitVec.ofNat 32 (w.entry % 65536)) s.time
          ((writeEnded w behind rest false s).setCr c { s.cr c with state := .faulted, failedEntry := some w.entry })))) ∧
    (w.live = true → Errs w s → c ≠ 0 → (s.cr c).state = .faulted →
      exec .completionWriteEnd s = .next (slotFreed k chain (writeEnded w behind rest false s))) ∧
    (w.live = true → Errs w s → c = 0 → s.window.control = .ready →
      ∃ control, HaltControl (writeEnded w behind rest false s) control ∧ exec .completionWriteEnd s =
        .next (haltState (writeEnded w behind rest false s)
          { s.window with fatal := true, enable := false, control := control })) ∧
    (w.live = false → ∃ good, (good = true ↔ ¬ Errs w s) ∧
      exec .completionWriteEnd s = .next (writeEnded w behind rest good s))

/-- The end of a notice's write: a good end hands it to the host, an error in READY is fatal (R126, R153, R171). -/
def Sys2Proof.Claims.NoticeEndIsHandedOver : Prop :=
  ∀ (w : RecordWrite) (behind rest : List OutItem) (s : State), Oldest w behind rest s → w.kind = .notice →
    (¬ Errs w s → exec .completionWriteEnd s = .next (writeEnded w behind rest true s)) ∧
    (w.live = false → Errs w s → exec .completionWriteEnd s = .next (writeEnded w behind rest false s)) ∧
    (w.live = true → Errs w s → s.window.control = .ready →
      ∃ control, HaltControl (writeEnded w behind rest false s) control ∧ exec .completionWriteEnd s =
        .next (haltState (writeEnded w behind rest false s)
          { s.window with fatal := true, enable := false, control := control }))

/-- The end of a completion releases the request chained to it: with SUCCESS the follower is handed to its scheduler, which
takes it by the link state; with any other status it is answered SKIPPED, or, where the end of the write has made its
completion ring FAULTED, ends SKIPPED with its completion discarded (R45, R123, R125 to R127). -/
def Sys2Proof.Claims.CompletionEndSettlesTheFollower : Prop :=
  ∀ (c : CrId) (k j : SlotId) (r : Result) (w : RecordWrite) (behind rest : List OutItem) (s : State),
    Oldest w behind rest s → w.kind = .completion c k → w.live = true → (Errs w s → c ≠ 0) → (s.slot k).result = some r →
    s.discarded = [] → (s.slot k).state = .done → Follows j k s → (s.slot j).abortRequester = none → RingStays k s →
    let freed := slotFreed k (s.rq (s.slot k).rq).chain (completionEnded c w behind rest s)
    let port := portOf (s.slot j).sensor
    let released := freed.setSlot j { s.slot j with state := .queued, predecessor := none }
    (r.status ≠ .success → (freed.cr (s.slot j).cr).state = .active →
      Replies .completionWriteEnd s j (plain .skipped) freed) ∧
    (r.status ≠ .success → (freed.cr (s.slot j).cr).state = .faulted → NoFollower j s → RingStays j freed →
      exec .completionWriteEnd s = .next (slotFreed j (chainAfter j .skipped freed)
        (completionDiscarded j (plain .skipped) freed))) ∧
    (r.status = .success → (s.link port).state = .training → exec .completionWriteEnd s =
      .next (released.setSched port { s.sched port with queue := (s.sched port).queue ++ [j] })) ∧
    (r.status = .success → QueueReady port freed → (freed.cr (s.slot j).cr).state = .active → IsTransaction (s.slot j).body →
      Completes .completionWriteEnd s (Arrives j released))

/-- The last slot of a DRAINING ring is freed: the ring becomes ABSENT with its descriptor at the initial values, and its
DELETE_RING is answered SUCCESS (R125, R126, R131). -/
def Sys2Proof.Claims.LastSlotEndsTheDraining : Prop :=
  ∀ (c : CrId) (k d : SlotId) (r : Result) (w : RecordWrite) (behind rest : List OutItem) (s u : State),
    Oldest w behind rest s → w.kind = .completion c k → w.live = true → (Errs w s → c ≠ 0) → (s.slot k).result = some r →
    s.discarded = [] → (s.slot k).state = .done → NoFollower k s →
    (s.rq (s.slot k).rq).state = .draining → (s.rq (s.slot k).rq).slotsHeld ≤ 1 →
    AnswersFor (.rq (s.slot k).rq) d
      ((slotFreed k .noChain (completionEnded c w behind rest s)).setRq (s.slot k).rq RequestRing.initial) u →
    Replies .completionWriteEnd s d (plain .success) u

/-- A request that ends on a FAULTED completion ring: shown for a READ_POSITION that succeeds and for a transaction whose
exchange failed. Its completion is discarded, its slot freed and its follower settled; an ABORT that waits on it is answered
on CR0 first; the last slot of a DRAINING ring ends the draining (R127, R130, R131). -/
def Sys2Proof.Claims.FaultedRingDiscardsTheCompletion : Prop :=
  ∀ (k : SlotId) (a : Attempt) (s : State), OnTheLine k a s → (s.cr (s.slot k).cr).state = .faulted →
    let p := portOf (s.slot k).sensor
    let rq := (s.slot k).rq
    (∀ warn alarm angle turn c, (s.slot k).body = .readPosition → a.kind = .position →
      EndsExchange k a (.ok warn alarm (.position angle turn)) c s → (s.slot k).abortRequester = none → RingStays k s →
      let word := ((s.link p).identity[a.address]).word
      Completes c s (DiscardSettles k
        (readPositionResult (s.sensor (s.slot k).sensor) warn alarm (angle.toNat % 2 ^ wordSt word)
          (turn.toNat % 2 ^ wordMt word) a.requestTime) (exchangeOver k s))) ∧
    (∀ f c, EndsExchange k a (.fault f) c s → (s.link p).parameters.retryLimit < a.tags.length →
      (s.link p).failures + 1 < (s.link p).parameters.failLimit →
      let r := cutShort .linkFailed (schedOf k s).exchangesDone (s.slot k).body (schedOf k s).progress.values
      let u := (exchangeOver k s).setLink p (exchangeEnded (s.link p) ((s.link p).failures + 1) s.time)
      ((s.slot k).abortRequester = none → RingStays k s → Completes c s (DiscardSettles k r u)) ∧
      (∀ q, (s.slot k).abortRequester = some q → q ≠ k → (s.slot q).state = .active → (s.slot q).cr = 0 →
        (s.cr 0).state = .active → NoFollower k s → RingStays k s → Completes c s fun t => ∃ v,
          Answered q (abortAnswer q k .linkFailed u) (completionDiscarded k r u) v ∧
          t = slotFreed k (chainAfter k .linkFailed s) v) ∧
      (∀ d v, (s.slot k).abortRequester = none → NoFollower k s → (s.rq rq).state = .draining → (s.rq rq).slotsHeld ≤ 1 →
        AnswersFor (.rq rq) d ((slotFreed k .noChain (completionDiscarded k r u)).setRq rq RequestRing.initial) v →
        Replies c s d (plain .success) v))

/-- COMPLETION_WRITE_END frees the slot, settles the follower, ends a DRAINING ring with its last slot, and faults the ring or
the device on an error; on a FAULTED ring the completion is discarded instead (R123, R125 to R127, R130, R131, R133, R153,
R171). Model's choices: assumption 2, assumption 20, assumption 25, assumption 27, assumption 28, assumption 30. -/
def Obligations.CompletionWriteEnds : Prop :=
  CompletionEndFreesTheSlot ∧ NoticeEndIsHandedOver ∧ CompletionEndSettlesTheFollower ∧ LastSlotEndsTheDraining ∧
    FaultedRingDiscardsTheCompletion

/-- NOTICE_WRITE takes the oldest notice into CR0's entry at the producer index when CR0 is ACTIVE with a free unreserved
entry, signals the record and takes no credit; otherwise nothing is written (R117, R153, R166). -/
def Obligations.NoticeWriteDeliversTheOldest : Prop :=
  ∀ (n : Notice) (rest : List Notice) (s : State), s.notices = n :: rest → (s.cr 0).Ok →
    let d := s.cr 0
    let room := d.state = .active ∧
      (d.producer - d.consumer : Int) % d.size + d.reserved + 1 < d.size
    (¬ room → exec .noticeWrite s = .next s) ∧
    (room → Completes .noticeWrite s fun t => ∃ it ms,
      t = { s with notices := rest, crs := t.crs, outbox := t.outbox, msix := t.msix } ∧
      t.outbox = s.outbox ++ .record
        { kind := .notice, entry := d.producer, address := d.base + 32 * d.producer, data := encodeNotice n d.phase
          live := true } :: ms ∧
      t.cr 0 = { d with
        producer := if d.producer + 1 = d.size then 0 else d.producer + 1
        phase := if d.producer + 1 = d.size then !d.phase else d.phase, interrupt := it } ∧
      (∀ c, c ≠ 0 → t.cr c = s.cr c) ∧
      Signalled s t d.vector d.coalescingCount d.coalescingTime false d.interrupt it ms)

/-- COALESCING_TIMER_EXPIRY makes a message due on the ring's vector and clears the ring's interrupt state: sent at once where
the vector is not blocked and no record write is in flight, behind those otherwise, pending where it is blocked (R166, R167).
Model's choices: assumption 7. -/
def Obligations.CoalescingExpirySignals : Prop :=
  ∀ (ring : SignalRing) (t0 : Time) (v : VectorId) (s u : State), reached s.time t0 = true →
    (∀ r, ring = .cr r → (s.cr r).interrupt.timer = some t0 ∧ (s.cr r).vector = v ∧
      u = s.setCr r { s.cr r with interrupt := { count := 0, timer := none } }) →
    (∀ r, ring = .sr r → (s.sr r).interrupt.timer = some t0 ∧ (s.sr r).vector = v ∧
      u = s.setSr r { s.sr r with interrupt := { count := 0, timer := none } }) →
    let blocked := (s.msix.table[v]).masked = true ∨ s.msix.functionMask = true ∨ s.msix.enabled = false ∨
      s.msix.busMaster = false
    let message : Message := { vector := v, address := (s.msix.table[v]).address, data := (s.msix.table[v]).data }
    (blocked → exec (.coalescingTimerExpiry ring) s =
      .next { u with msix := { s.msix with pending := s.msix.pending.set v true } }) ∧
    (¬ blocked → s.outbox = [] → exec (.coalescingTimerExpiry ring) s =
      .next { u with sent := s.sent ++ [.message message] }) ∧
    (¬ blocked → s.outbox ≠ [] → exec (.coalescingTimerExpiry ring) s =
      .next { u with outbox := s.outbox ++ [.message v] })

/-! ### Records, readings and notices -/

/-- A sample record's 32 bytes stand as Table 45 lays them out, byte 31 highest, little-endian, with two's complement for the
position and the turn (R174); a completion's and a notice's as Table 42 does. -/
def Sys2Proof.Claims.RecordsAreLaidOut : Prop :=
  (∀ (r : SampleRecord) (f : WriteFields), encodeSample r f =
    BitVec.ofNat 4 0 ++ BitVec.ofNat 3 r.cause.code ++ BitVec.ofBool f.phase ++ BitVec.ofNat 8 r.byte30 ++
    BitVec.ofNat 6 0 ++ BitVec.ofBool f.congested ++ BitVec.ofBool r.flags.heldOverflow ++
    BitVec.ofBool r.flags.captureDropped ++ BitVec.ofBool r.flags.captureOverrun ++ BitVec.ofBool r.flags.referenced ++
    BitVec.ofBool r.flags.noInterp ++ BitVec.ofBool r.flags.mtWrap ++ BitVec.ofBool r.flags.resync ++
    BitVec.ofBool r.flags.warning ++ BitVec.ofBool r.flags.late ++
    BitVec.ofNat 16 f.withheld ++ BitVec.ofNat 8 f.rejected ++ BitVec.ofNat 8 f.missed ++ BitVec.ofInt 24 r.turn ++
    BitVec.ofNat 24 r.angle ++ BitVec.ofInt 48 r.position ++ r.time ++ f.sequence ++ BitVec.ofNat 8 r.sensor.val ++
    BitVec.ofNat 8 r.kind.code) ∧
  (∀ (head : Nat) (rq : RqId) (tag : BitVec 16) (r : Result) (phase : Bool), encodeCompletion head rq tag r phase =
    BitVec.ofNat 7 0 ++ BitVec.ofBool phase ++ BitVec.ofNat 24 0 ++ r.data ++ r.detail ++ BitVec.ofNat 8 0 ++
    BitVec.ofNat 8 r.status.code ++ tag ++ BitVec.ofNat 8 rq.val ++ BitVec.ofNat 8 0 ++ BitVec.ofNat 16 head) ∧
  (∀ (n : Notice) (phase : Bool), encodeNotice n phase =
    BitVec.ofNat 7 0 ++ BitVec.ofBool phase ++ BitVec.ofNat 72 0 ++ BitVec.ofNat 16 n.occurrences ++ n.firstTime ++ n.detail ++
    BitVec.ofNat 16 0 ++ BitVec.ofNat 8 n.source.id ++ BitVec.ofNat 8 n.source.classCode ++
    BitVec.ofNat 8 n.source.kindCode ++ BitVec.ofNat 8 1 ++ BitVec.ofNat 16 0)

/-- The detail and data of PORT_START, QUERY_PORT, QUERY_SENSOR, QUERY_DEVICE and READ_POSITION stand as Table 43 lays them out. -/
def Sys2Proof.Claims.ResultsAreLaidOut : Prop :=
  (∀ (st : Status) (t : Vector IdentityEntry 4), portStartResult st t =
    { status := st
      detail := BitVec.ofNat 3 t[3].cause.code ++ BitVec.ofNat 3 t[2].cause.code ++ BitVec.ofNat 3 t[1].cause.code ++
        BitVec.ofNat 3 t[0].cause.code ++ BitVec.ofNat 16 0 ++ BitVec.ofBool t[3].present ++ BitVec.ofBool t[2].present ++
        BitVec.ofBool t[1].present ++ BitVec.ofBool t[0].present
      data := t[3].word ++ t[2].word ++ t[1].word ++ t[0].word }) ∧
  (∀ le : LinkEngine, le.failures ≤ 15 → queryPortResult le =
    { status := .success
      detail := BitVec.ofNat 3 le.identity[3].cause.code ++ BitVec.ofNat 3 le.identity[2].cause.code ++
        BitVec.ofNat 3 le.identity[1].cause.code ++ BitVec.ofNat 3 le.identity[0].cause.code ++
        BitVec.ofBool le.identity[3].present ++ BitVec.ofBool le.identity[2].present ++
        BitVec.ofBool le.identity[1].present ++ BitVec.ofBool le.identity[0].present ++ BitVec.ofNat 4 0 ++
        BitVec.ofNat 4 le.failures ++ BitVec.ofNat 5 0 ++ BitVec.ofNat 3 le.state.code
      data := le.identity[3].word ++ le.identity[2].word ++ le.identity[1].word ++ le.identity[0].word }) ∧
  (∀ c : Sensor, c.state ≠ .unbound → querySensorResult c =
    { status := .success, detail := 0
      data := BitVec.ofNat 8 0 ++ BitVec.ofNat 8 c.held.length ++ c.sequence ++ BitVec.ofInt 24 c.extendedTurn ++
        BitVec.ofNat 16 c.last.turn ++ BitVec.ofNat 24 c.last.angle ++ BitVec.ofNat 8 c.last.validity.code ++
        BitVec.ofNat 8 c.rejects ++ BitVec.ofNat 8 c.cause.code ++ BitVec.ofNat 8 c.state.code }) ∧
  (SensorState.unbound.code = 0 ∧ ∀ c : Sensor, c.state = .unbound →
    querySensorResult c = { status := .success, detail := 0, data := 0 }) ∧
  (∀ s : State, ∃ rings : BitVec 40,
    queryDeviceResult s.time (slotsInUse s) (ringStateCodes s) =
      { status := .success, detail := 0
        data := BitVec.ofNat 16 0 ++ rings ++ BitVec.ofNat 8 (slotsInUse s) ++ s.time } ∧
    (∀ r : RqId, rings.extractLsb' (2 * r.val) 2 = BitVec.ofNat 2 (s.rq r).state.code) ∧
    (∀ r : CrId, rings.extractLsb' (16 + 2 * r.val) 2 = BitVec.ofNat 2 (s.cr r).state.code) ∧
    (∀ r : SrId, rings.extractLsb' (32 + 2 * r.val) 2 = BitVec.ofNat 2 (s.sr r).state.code)) ∧
  (∀ (c : Sensor) (warn alarm : Bool) (angle turn : Nat) (time : Time),
    let t := c.turned angle turn
    let evaluated := decide (c.state ≠ .unbound)
    let inRange := (decide (c.turnMode ≠ .extend) || inSigned24 t.candidate) && inSigned48 (c.positionOf t.extRaw)
    let jump := decide (c.last.validity = .valid) && decide (c.jumpLimit ≠ 0) &&
      t.delta.any fun d => decide ((c.jumpLimit : Int) < |d|)
    readPositionResult c warn alarm angle turn time =
      { status := .success
        detail := BitVec.ofNat 27 0 ++ BitVec.ofBool (evaluated && !inRange) ++ BitVec.ofBool (evaluated && jump) ++
          BitVec.ofBool evaluated ++ BitVec.ofBool alarm ++ BitVec.ofBool warn
        data := time.extractLsb' 0 40 ++ BitVec.ofNat 16 turn ++ BitVec.ofNat 24 angle ++
          BitVec.ofInt 48 (if evaluated = true ∧ inRange = true then c.positionOf t.extRaw else 0) })

/-- Records and results stand in their bytes as the tables lay them out (R174; Tables 42, 43 and 45). Model's choices:
assumption 31 for the sequence number of QUERY_SENSOR. -/
def Obligations.RecordsAndResultsAreLaidOut : Prop := RecordsAreLaidOut ∧ ResultsAreLaidOut

/-- A SAMPLE record is written where the ring is ACTIVE or CONGESTED and not full and nothing is held, withheld with the count
saturating at 65535 where it is full or something is held, and discarded on a FAULTED ring (R107; R105 for the write). -/
def Obligations.SamplePostedByRingState : Prop :=
  ∀ (r : SampleRecord) (s : State), r.kind = .sample → (s.sr (s.sensor r.sensor).ring).Ok →
    let c := s.sensor r.sensor
    let d := s.sr c.ring
    (d.state = .active ∨ d.state = .congested →
      (c.held = [] → ¬ Full d → Written r s (postRecord r s)) ∧
      (c.held ≠ [] ∨ Full d →
        postRecord r s = s.setSensor r.sensor { c with withheld := min 65535 (c.withheld + 1) })) ∧
    (d.state = .faulted ∨ d.state = .absent → postRecord r s = s)

/-- A MARK or CAPTURE record is written where nothing is held and the ring is not full, joins the held queue behind at most 3
records, and with 4 held is discarded with HELD_OVERFLOW set on the newest; a FAULTED ring discards it (R108; R105 for the
write). -/
def Obligations.HeldRecordPostedByRingState : Prop :=
  ∀ (r : SampleRecord) (s : State), r.kind ≠ .sample → (s.sr (s.sensor r.sensor).ring).Ok →
    let c := s.sensor r.sensor
    let d := s.sr c.ring
    (d.state = .active ∨ d.state = .congested →
      (c.held = [] → ¬ Full d → Written r s (postRecord r s)) ∧
      (c.held ≠ [] ∨ Full d → c.held.length ≤ 3 →
        postRecord r s = s.setSensor r.sensor { c with held := c.held ++ [r] }) ∧
      (∀ older newest, c.held = older ++ [newest] → older.length = 3 →
        postRecord r s = s.setSensor r.sensor { c with
          held := older ++ [{ newest with flags := { newest.flags with heldOverflow := true } }] })) ∧
    (d.state = .faulted ∨ d.state = .absent → postRecord r s = s)

/-- The phase of R106: the m-th record written to a ring since its creation, counted from 0, stands at entry m modulo the
size and carries phase 1 exactly on the even passes. -/
def Obligations.PhaseTellsThePass : Prop :=
  ∀ (d : SampleRing) (m : Nat), d.producer = 0 → d.phase = true → 2 ≤ d.size →
    let written := Nat.iterate SampleRing.advance m d
    written.producer = m % d.size ∧ (written.phase = true ↔ (m / d.size) % 2 = 0) ∧ written.size = d.size

/-- The delta of R77 is the one value from −M/2 to M/2 − 1 congruent to the plain difference, for every even modulus and
every plain difference that two values below the modulus can have. -/
def Sys2Proof.Claims.DeltaIsTheShortestMovement : Prop :=
  ∀ (d m : Int), 0 < m → m % 2 = 0 → -m < d → d < m →
    -(m / 2) ≤ wrapDelta d m ∧ wrapDelta d m ≤ m / 2 - 1 ∧ (wrapDelta d m - d) % m = 0

/-- In EXTEND, against a last accepted value whose extended raw is its extended turn times 2^ST plus its angle, the reading's
extended raw is the last accepted extended raw plus the delta, and the extended turn moves by at most one (R79). -/
def Sys2Proof.Claims.ExtendedRawFollowsTheDelta : Prop :=
  ∀ (c : Sensor) (angle turn : Nat), c.turnMode = .extend → c.last.validity ≠ .notValid →
    c.last.extRaw = c.extendedTurn * 2 ^ wordSt c.identity + c.last.angle →
    ∃ delta, (c.turned angle turn).delta = some delta ∧
      (c.turned angle turn).extRaw = c.last.extRaw + delta ∧
      (c.turned angle turn).extRaw = (c.turned angle turn).candidate * 2 ^ wordSt c.identity + angle ∧
      (c.turned angle turn).candidate - c.extendedTurn ≤ 1 ∧ c.extendedTurn - (c.turned angle turn).candidate ≤ 1

/-- What a reading gives against the last accepted value, by turn mode (R77 to R79). NONE and SENSOR: the delta of the angles
modulo 2^ST, or of the combined values modulo 2^(ST+MT), the reading's own extended raw, the kept turn, and in SENSOR the mark
MT_WRAP where the delta differs from the plain difference. EXTEND: the delta and the candidate turn by the three rows of R79.
Against a NOT_VALID value no delta is formed, no mark is set and the turn is the kept one. -/
def Sys2Proof.Claims.ReadingFormedByTurnMode : Prop :=
  ∀ (c : Sensor) (angle turn : Nat),
    let one : Int := 2 ^ wordSt c.identity
    let combined (turn angle : Nat) : Int := turn * one + angle
    let plain : Int := angle - c.last.angle
    let x := c.turned angle turn
    (c.turnMode = .none → x.extRaw = angle ∧ x.candidate = c.extendedTurn ∧ x.wrapped = false ∧
      (c.last.validity ≠ .notValid → x.delta = some (wrapDelta plain one))) ∧
    (c.turnMode = .sensor → x.extRaw = combined turn angle ∧ x.candidate = c.extendedTurn ∧
      (c.last.validity ≠ .notValid →
        let plain := combined turn angle - combined c.last.turn c.last.angle
        let delta := wrapDelta plain (2 ^ (wordSt c.identity + wordMt c.identity))
        x.delta = some delta ∧ (x.wrapped = true ↔ delta ≠ plain))) ∧
    (c.turnMode = .extend → x.extRaw = x.candidate * one + angle ∧ x.wrapped = false ∧
      (c.last.validity ≠ .notValid → x.delta = some (wrapDelta plain one) ∧
        (plain < -(one / 2) → x.delta = some (plain + one) ∧ x.candidate = c.extendedTurn + 1) ∧
        (-(one / 2) ≤ plain → plain ≤ one / 2 - 1 → x.delta = some plain ∧ x.candidate = c.extendedTurn) ∧
        (one / 2 ≤ plain → x.delta = some (plain - one) ∧ x.candidate = c.extendedTurn - 1))) ∧
    (c.last.validity = .notValid → x.delta = none ∧ x.candidate = c.extendedTurn ∧ x.wrapped = false)

/-- The scaled value of R82 truncates toward zero: a product and its negative give values of the same size, which is the
product's size divided by 65536 and rounded down; the offset is then added exactly. -/
def Sys2Proof.Claims.PositionTruncatesTowardZero : Prop :=
  ∀ (c : Sensor) (x : Int),
    (0 ≤ x → c.positionOf x = x * c.scale / 65536 + c.offset) ∧
    (x < 0 → c.positionOf x = -(-x * c.scale / 65536) + c.offset)

/-- The arithmetic of a reading: delta, extended raw, turn, MT_WRAP and position (R77 to R79, R82). The ST and MT are those of
the identity bound at SENSOR_BIND (the model's reading: assumption 15). -/
def Obligations.ReadingArithmetic : Prop :=
  DeltaIsTheShortestMovement ∧ ReadingFormedByTurnMode ∧ ExtendedRawFollowsTheDelta ∧ PositionTruncatesTowardZero

/-- The completion of a pending capture: its position is formed from the interpolated extended raw, saturated at 48 bits; a
reference in range sets the offset and takes the position's place; the capture leaves the pending set, and its record carries
the line, the edge time, the raw angle, the turn by mode and the flags (R82, R98 to R100). -/
def Sys2Proof.Claims.CaptureCompletes : Prop :=
  ∀ (n : SensorId) (l : LineId) (x : PendingCapture) (v : Interval) (c : Sensor),
    let raw := interpolate c v x.edgeTime
    let scaled := Int.tdiv (raw * c.scale) 65536
    let inRange : Int → Prop := fun y => -140737488355328 ≤ y ∧ y ≤ 140737488355327
    let record (position : Int) (referenced : Bool) : SampleRecord :=
      { kind := .capture, sensor := n, time := x.edgeTime, position := position
        angle := (raw % 2 ^ wordSt c.identity).toNat
        turn := if c.turnMode = .none then 0 else raw / 2 ^ wordSt c.identity
        line := some l, reason := none, cause := .none
        flags := { late := v.late, warning := v.warning, resync := false, mtWrap := v.mtWrap
                   noInterp := !(decide (v.previous.validity = .valid) && decide (v.previous.sampleTime ≤ x.edgeTime))
                   referenced := referenced, captureOverrun := x.overrun, captureDropped := false, heldOverflow := false } }
    let done : Sensor := { c with captures := c.captures.set l none }
    (∀ ref, x.reference = some ref → inRange (scaled + c.offset) → inRange (ref - scaled) →
      completeCapture n l x v c = ({ done with offset := ref - scaled }, record ref true)) ∧
    ((∀ ref, x.reference = some ref → ¬ (inRange (scaled + c.offset) ∧ inRange (ref - scaled))) →
      completeCapture n l x v c =
        (done, record (max (-140737488355328) (min 140737488355327 (scaled + c.offset))) false))

/-- The interpolation of R98 in EXTEND lies between the two extended raws, is the previous one at its sample time and the
current one at its own, and is the current one where the previous value is not usable. -/
def Sys2Proof.Claims.InterpolationMeetsTheReadings : Prop :=
  ∀ (c : Sensor) (v : Interval) (edge : Time), c.turnMode = .extend →
    v.current.extRaw = v.previous.extRaw + v.delta → v.previous.sampleTime < v.current.sampleTime →
    edge ≤ v.current.sampleTime →
    (min v.previous.extRaw v.current.extRaw ≤ interpolate c v edge ∧
      interpolate c v edge ≤ max v.previous.extRaw v.current.extRaw) ∧
    (edge = v.current.sampleTime → interpolate c v edge = v.current.extRaw) ∧
    (v.previous.validity = .valid → edge = v.previous.sampleTime → interpolate c v edge = v.previous.extRaw) ∧
    (v.previous.validity ≠ .valid ∨ edge < v.previous.sampleTime → interpolate c v edge = v.current.extRaw)

/-- In NONE and SENSOR the interpolated extended raw of a usable previous value lies in 0 to M − 1 and is congruent to the
previous one plus the truncated quotient (R98). -/
def Sys2Proof.Claims.InterpolationIsReduced : Prop :=
  ∀ (c : Sensor) (v : Interval) (edge : Time), c.turnMode ≠ .extend → v.previous.validity = .valid →
    v.previous.sampleTime ≤ edge → v.previous.sampleTime < v.current.sampleTime →
    let m : Int := 2 ^ (if c.turnMode = .sensor then wordSt c.identity + wordMt c.identity else wordSt c.identity)
    let quotient := Int.tdiv (v.delta * ((edge.toNat : Int) - v.previous.sampleTime.toNat))
      ((v.current.sampleTime.toNat : Int) - v.previous.sampleTime.toNat)
    0 ≤ interpolate c v edge ∧ interpolate c v edge < m ∧
      (interpolate c v edge - (v.previous.extRaw + quotient)) % m = 0

/-- The interpolated extended raw, exactly: in EXTEND the previous one plus the truncated quotient; in NONE and SENSOR the
previous one at its sample time, and the current one at its own where the delta leads to it; where the previous value is not
usable, the current one in every mode (R98). -/
def Sys2Proof.Claims.InterpolationIsExact : Prop :=
  ∀ (c : Sensor) (v : Interval) (edge : Time),
    let m : Int := 2 ^ (if c.turnMode = .sensor then wordSt c.identity + wordMt c.identity else wordSt c.identity)
    let quotient := Int.tdiv (v.delta * ((edge.toNat : Int) - v.previous.sampleTime.toNat))
      ((v.current.sampleTime.toNat : Int) - v.previous.sampleTime.toNat)
    (v.previous.validity ≠ .valid ∨ edge < v.previous.sampleTime → interpolate c v edge = v.current.extRaw) ∧
    (v.previous.validity = .valid → v.previous.sampleTime ≤ edge → v.previous.sampleTime < v.current.sampleTime →
      (c.turnMode = .extend → interpolate c v edge = v.previous.extRaw + quotient) ∧
      (c.turnMode ≠ .extend → edge = v.previous.sampleTime → 0 ≤ v.previous.extRaw → v.previous.extRaw < m →
        interpolate c v edge = v.previous.extRaw) ∧
      (c.turnMode ≠ .extend → edge = v.current.sampleTime → 0 ≤ v.current.extRaw → v.current.extRaw < m →
        (v.previous.extRaw + v.delta - v.current.extRaw) % m = 0 → interpolate c v edge = v.current.extRaw))

/-- A capture's interpolated value, and what its completion makes of it (R98 to R100). The ST and MT are those of the identity
bound at SENSOR_BIND (the model's reading: assumption 15). -/
def Obligations.InterpolationLiesBetween : Prop :=
  InterpolationMeetsTheReadings ∧ InterpolationIsReduced ∧ InterpolationIsExact ∧ CaptureCompletes

/-- A rejected reading of an ACQUIRING sensor raises the rejected count, saturating at 255, and the consecutive rejects by
one, and changes nothing else below the reject limit; at the limit the sensor is FAULTED with cause REJECT_LIMIT, its pending
captures dropped, and a SENSOR_FAULT notice is raised (R69, R80, R81). -/
def Sys2Proof.Claims.RejectionCounts : Prop :=
  ∀ (n : SensorId) (time : Time) (s : State), (s.sensor n).Ok → (s.sensor n).state = .acquiring →
    let c := s.sensor n
    let counted := { c with rejected := min 255 (c.rejected + 1), rejects := c.rejects + 1 }
    (c.rejects + 1 < c.rejectLimit → rejectReading n time s = s.setSensor n counted) ∧
    (c.rejects + 1 = c.rejectLimit →
      let t := rejectReading n time s
      t = faulted n .rejectLimit time (s.setSensor n counted) ∧
      (t.sensor n).state = .faulted ∧ (t.sensor n).cause = .rejectLimit ∧ (t.sensor n).rejects = c.rejectLimit ∧
        (t.sensor n).last = c.last ∧ (t.sensor n).extendedTurn = c.extendedTurn ∧
        (∀ l : LineId, (t.sensor n).captures[l] = none) ∧ (∃ x ∈ t.notices, x.source = .sensor n ∧ x.detail = 1) ∧
        (∀ m, m ≠ n → t.sensor m = s.sensor m))

/-- The same for a SET_POSITION's reading in BOUND and WAITING as in ACQUIRING (R81, R87): the rejected count rises,
saturating, and the consecutive rejects by one; where the count now equals the reject limit the sensor is FAULTED, from BOUND
without a MARK. Past 15, which only a BOUND sensor can reach, the new count is a free value of 0 to 15 (the model's choice:
assumption 24). -/
def Sys2Proof.Claims.RejectionCountsInEveryState : Prop :=
  ∀ (n : SensorId) (time : Time) (s : State),
    (s.sensor n).state = .bound ∨ (s.sensor n).state = .waiting ∨ (s.sensor n).state = .acquiring →
    let c := s.sensor n
    ∃ count, (c.rejects < 15 → count = c.rejects + 1) ∧ count ≤ 15 ∧
      let counted := { c with rejected := min 255 (c.rejected + 1), rejects := count }
      (count ≠ c.rejectLimit → rejectReading n time s = s.setSensor n counted) ∧
      (count = c.rejectLimit → rejectReading n time s = faulted n .rejectLimit time (s.setSensor n counted)) ∧
      (count = c.rejectLimit → c.state = .bound → rejectReading n time s = raiseNotice (.sensor n) 1 time
        (s.setSensor n { counted with state := .faulted, cause := .rejectLimit }))

/-- A fault, from any state of the sensor: acquisition left with its round entry and its pending captures, FAULTED with the
cause, a MARK FAULT but from BOUND, and the notice (R58, R59, R69 to R71). -/
def Sys2Proof.Claims.FaultTakesTheSensor : Prop :=
  ∀ (n : SensorId) (cause : FaultCause) (time : Time) (s : State), faultSensor n cause time s = faulted n cause time s

/-- What a MARK carries (Table 17, R59): zeros for a START or where the last accepted value is NOT_VALID, and else its
position under the current scale and offset, saturated at 48 bits, its angle and its turn by mode; no flag but
CAPTURE_DROPPED. -/
def Sys2Proof.Claims.MarkCarriesTheLastValue : Prop :=
  ∀ (n : SensorId) (c : Sensor) (reason : MarkReason) (cause : FaultCause) (time : Time) (dropped : Bool),
    let mark (position : Int) (angle : Nat) (turn : Int) : SampleRecord :=
      { kind := .mark, sensor := n, time := time, position := position, angle := angle, turn := turn, line := none
        reason := some reason, cause := cause
        flags := { late := false, warning := false, resync := false, mtWrap := false, noInterp := false, referenced := false
                   captureOverrun := false, captureDropped := dropped, heldOverflow := false } }
    (reason = .start ∨ c.last.validity = .notValid → markRecord n c reason cause time dropped = mark 0 0 0) ∧
    (reason ≠ .start → c.last.validity ≠ .notValid → markRecord n c reason cause time dropped =
      mark (max (-140737488355328) (min 140737488355327 (Int.tdiv (c.last.extRaw * c.scale) 65536 + c.offset))) c.last.angle
        (match c.turnMode with
          | .none => 0
          | .sensor => c.last.turn
          | .extend => c.extendedTurn))

/-- Rejection, the fault of a sensor, and the MARK that goes with it (R58, R59, R69 to R71, R80, R81, R87). Model's
choices: assumption 24. -/
def Obligations.RejectionCountsAndFaults : Prop :=
  RejectionCounts ∧ RejectionCountsInEveryState ∧ FaultTakesTheSensor ∧ MarkCarriesTheLastValue

/-- Steps 1 and 2 of a poll reading: a failed POSITION, or a failed REPEAT of a good POSITION without ALARM, is missed; an
ALARM, or a REPEAT whose data differ, is rejected; a good one goes on with WARNING where either frame carried it; a sensor
that is not ACQUIRING discards it (R57, R74 to R76). -/
def Sys2Proof.Claims.ReadingIsScreened : Prop :=
  ∀ (r : Reading) (s : State),
    let c := s.sensor r.sensor
    let missed := s.setSensor r.sensor { c with missed := min 255 (c.missed + 1) }
    let rejected := rejectReading r.sensor r.sampleTime s
    (c.state ≠ .acquiring → takeReading r s = s) ∧
    (c.state = .acquiring →
      (∀ f, r.position.result = .failed f → takeReading r s = missed) ∧
      (∀ warn x, r.position.result = .ok warn true x → takeReading r s = rejected) ∧
      ∀ warn angle turn, r.position.result = .ok warn false (.reading angle turn) →
        (r.repeated = none → r.screen = .good angle turn warn) ∧
        ∀ o, r.repeated = some o →
          (∀ f, o.result = .failed f → takeReading r s = missed) ∧
          (∀ w x, o.result = .ok w true x → takeReading r s = rejected) ∧
          (∀ w x y, o.result = .ok w false (.reading x y) →
            (¬ (x = angle ∧ y = turn) → takeReading r s = rejected) ∧
            (x = angle → y = turn → r.screen = .good angle turn (warn || w))))

/-- A reading whose delta exceeds a nonzero jump limit is rejected against a VALID reference alone; against a STALE or
NOT_VALID one, or with the limit 0, it passes the gate, and a delta equal to the limit passes (R80). -/
def Sys2Proof.Claims.JumpGateByValidity : Prop :=
  ∀ (r : Reading) (angle turn : Nat) (warning : Bool) (s : State),
    (s.sensor r.sensor).state = .acquiring → r.screen = .good angle turn warning →
    let c := s.sensor r.sensor
    (c.last.validity = .valid → c.jumpLimit ≠ 0 →
      (∃ d, (c.turned angle turn).delta = some d ∧ (c.jumpLimit : Int) < |d|) →
      takeReading r s = rejectReading r.sensor r.sampleTime s) ∧
    (c.last.validity ≠ .valid ∨ c.jumpLimit = 0 ∨ (∀ d, (c.turned angle turn).delta = some d → |d| ≤ c.jumpLimit) →
      takeReading r s = admitReading r angle turn warning s)

/-- An accepted reading becomes the last accepted value, VALID, with the consecutive rejects 0 and in EXTEND the extended turn
its candidate; it completes the pending captures whose edge lies at or before its sample time, in ascending line order; it
hands over their CAPTURE records and then one SAMPLE, when its decimation step or a forced record calls for it; a reading that
leaves the turn range or the position range faults the sensor instead (R83 to R86, R97). -/
def Sys2Proof.Claims.AcceptedReadingBecomesTheReference : Prop :=
  ∀ (r : Reading) (angle turn : Nat) (warning : Bool) (s : State),
    let c := s.sensor r.sensor
    let x := c.turned angle turn
    let forced := decide (c.last.validity ≠ .valid) || x.wrapped
    let step := if (s.sr c.ring).state = .congested then min 1024 (4 * c.decimation) else c.decimation
    let sampled := forced || decide (step ≤ c.decimationCounter + 1)
    let accepted := { c with
      last := { extRaw := x.extRaw, angle := angle, turn := turn, sampleTime := r.sampleTime, validity := .valid }
      extendedTurn := if c.turnMode = .extend then x.candidate else c.extendedTurn
      rejects := 0 }
    let interval : Interval :=
      { previous := c.last, current := accepted.last, delta := x.delta.getD 0, late := r.late, warning := warning
        mtWrap := x.wrapped }
    let sample : SampleRecord :=
      { kind := .sample, sensor := r.sensor, time := r.sampleTime, position := c.positionOf x.extRaw, angle := angle
        turn := match c.turnMode with
          | .none => 0
          | .sensor => turn
          | .extend => x.candidate
        line := none, reason := none, cause := .none
        flags := { late := r.late, warning := warning, resync := decide (c.last.validity ≠ .valid), mtWrap := x.wrapped
                   noInterp := false, referenced := false, captureOverrun := false, captureDropped := false
                   heldOverflow := false } }
    (c.turnMode = .extend → inSigned24 x.candidate = false →
      admitReading r angle turn warning s = faulted r.sensor .turnRange r.sampleTime s) ∧
    ((c.turnMode = .extend → inSigned24 x.candidate = true) → inSigned48 (c.positionOf x.extRaw) = false →
      admitReading r angle turn warning s = faulted r.sensor .positionRange r.sampleTime s) ∧
    ((c.turnMode = .extend → inSigned24 x.candidate = true) → inSigned48 (c.positionOf x.extRaw) = true →
      ∃ captured records, Captured r.sensor interval [0, 1, 2, 3] accepted captured records ∧
        admitReading r angle turn warning s = postRecords (records ++ if sampled = true then [sample] else [])
          (s.setSensor r.sensor { captured with
            decimationCounter := if sampled = true then 0 else c.decimationCounter + 1 }))

/-- An accepted reading that finds no capture pending completes none (R97). -/
def Sys2Proof.Claims.NothingPendingNothingCaptured : Prop :=
  ∀ (n : SensorId) (v : Interval) (c c' : Sensor) (rs : List SampleRecord), (∀ l : LineId, c.captures[l] = none) →
    Captured n v [0, 1, 2, 3] c c' rs → c' = c ∧ rs = []

/-- The steps of a poll reading: screening, jump gate, acceptance, captures and delivery (R57, R74 to R76, R80, R83 to R86,
R97). -/
def Obligations.ReadingPassesTheGate : Prop :=
  ReadingIsScreened ∧ JumpGateByValidity ∧ AcceptedReadingBecomesTheReference ∧ NothingPendingNothingCaptured

/-- An event raised with no notice of its source waiting is appended with count 1; with one waiting it raises that notice's
count, saturating at 65535, and replaces its detail, keeping its place and first time; no other notice changes (R152). -/
def Obligations.RaisedEventCoalesces : Prop :=
  ∀ (src : NoticeSource) (detail : BitVec 32) (time : Time) (s : State),
    ((∀ n ∈ s.notices, n.source ≠ src) → raiseNotice src detail time s = { s with
      notices := s.notices ++ [{ source := src, detail := detail, firstTime := time, occurrences := 1 }] }) ∧
    (∀ before n behind, s.notices = before ++ n :: behind → n.source = src →
      (∀ x ∈ before ++ behind, x.source ≠ src) → raiseNotice src detail time s = { s with
        notices := before ++ { n with detail := detail, occurrences := min 65535 (n.occurrences + 1) } :: behind })
end

