-- ==== Sys2Proof/Laws/State.lean ====
section
/-! SUPPORT. The small lemmas of State: what each named read gives after each named write, and that a write leaves every
other field as it was. -/

namespace Sys2Proof.Machine

/-! ### Writing links -/

theorem State.link_setLink (s : State) (i j : PortId) (x : LinkEngine) :
    (s.setLink i x).link j = if i = j then x else s.link j := by
  simp [State.link, State.setLink, Vector.getElem_set, Fin.ext_iff]

@[simp] theorem State.link_setLink_same (s : State) (i : PortId) (x : LinkEngine) : (s.setLink i x).link i = x := by
  simp [State.link_setLink]

theorem State.link_setLink_ne (s : State) (i j : PortId) (x : LinkEngine) (h : i ≠ j) :
    (s.setLink i x).link j = s.link j := by
  simp [State.link_setLink, h]

@[simp] theorem State.setLink_time (s : State) (i : PortId) (x : LinkEngine) : (s.setLink i x).time = s.time := rfl

@[simp] theorem State.setLink_scheds (s : State) (i : PortId) (x : LinkEngine) : (s.setLink i x).scheds = s.scheds := rfl

@[simp] theorem State.setLink_sensors (s : State) (i : PortId) (x : LinkEngine) : (s.setLink i x).sensors = s.sensors := rfl

@[simp] theorem State.setLink_lines (s : State) (i : PortId) (x : LinkEngine) : (s.setLink i x).lines = s.lines := rfl

@[simp] theorem State.setLink_rqs (s : State) (i : PortId) (x : LinkEngine) : (s.setLink i x).rqs = s.rqs := rfl

@[simp] theorem State.setLink_crs (s : State) (i : PortId) (x : LinkEngine) : (s.setLink i x).crs = s.crs := rfl

@[simp] theorem State.setLink_srs (s : State) (i : PortId) (x : LinkEngine) : (s.setLink i x).srs = s.srs := rfl

@[simp] theorem State.setLink_slots (s : State) (i : PortId) (x : LinkEngine) : (s.setLink i x).slots = s.slots := rfl

@[simp] theorem State.setLink_slotOrder (s : State) (i : PortId) (x : LinkEngine) : (s.setLink i x).slotOrder = s.slotOrder := rfl

@[simp] theorem State.setLink_fetch (s : State) (i : PortId) (x : LinkEngine) : (s.setLink i x).fetch = s.fetch := rfl

@[simp] theorem State.setLink_nextIoRing (s : State) (i : PortId) (x : LinkEngine) : (s.setLink i x).nextIoRing = s.nextIoRing := rfl

@[simp] theorem State.setLink_notices (s : State) (i : PortId) (x : LinkEngine) : (s.setLink i x).notices = s.notices := rfl

@[simp] theorem State.setLink_axInbox (s : State) (i : PortId) (x : LinkEngine) : (s.setLink i x).axInbox = s.axInbox := rfl

@[simp] theorem State.setLink_axInFlight (s : State) (i : PortId) (x : LinkEngine) : (s.setLink i x).axInFlight = s.axInFlight := rfl

@[simp] theorem State.setLink_window (s : State) (i : PortId) (x : LinkEngine) : (s.setLink i x).window = s.window := rfl

@[simp] theorem State.setLink_msix (s : State) (i : PortId) (x : LinkEngine) : (s.setLink i x).msix = s.msix := rfl

@[simp] theorem State.setLink_outbox (s : State) (i : PortId) (x : LinkEngine) : (s.setLink i x).outbox = s.outbox := rfl

@[simp] theorem State.setLink_discarded (s : State) (i : PortId) (x : LinkEngine) : (s.setLink i x).discarded = s.discarded := rfl

@[simp] theorem State.setLink_sent (s : State) (i : PortId) (x : LinkEngine) : (s.setLink i x).sent = s.sent := rfl

@[simp] theorem State.setLink_readData (s : State) (i : PortId) (x : LinkEngine) : (s.setLink i x).readData = s.readData := rfl

@[simp] theorem State.setLink_pending (s : State) (i : PortId) (x : LinkEngine) : (s.setLink i x).pending = s.pending := rfl

@[simp] theorem State.sched_setLink (s : State) (i : PortId) (x : LinkEngine) (j : PortId) : (s.setLink i x).sched j = s.sched j := rfl

@[simp] theorem State.sensor_setLink (s : State) (i : PortId) (x : LinkEngine) (j : SensorId) : (s.setLink i x).sensor j = s.sensor j := rfl

@[simp] theorem State.line_setLink (s : State) (i : PortId) (x : LinkEngine) (j : LineId) : (s.setLink i x).line j = s.line j := rfl

@[simp] theorem State.rq_setLink (s : State) (i : PortId) (x : LinkEngine) (j : RqId) : (s.setLink i x).rq j = s.rq j := rfl

@[simp] theorem State.cr_setLink (s : State) (i : PortId) (x : LinkEngine) (j : CrId) : (s.setLink i x).cr j = s.cr j := rfl

@[simp] theorem State.sr_setLink (s : State) (i : PortId) (x : LinkEngine) (j : SrId) : (s.setLink i x).sr j = s.sr j := rfl

@[simp] theorem State.slot_setLink (s : State) (i : PortId) (x : LinkEngine) (j : SlotId) : (s.setLink i x).slot j = s.slot j := rfl

/-! ### Writing scheds -/

theorem State.sched_setSched (s : State) (i j : PortId) (x : Scheduler) :
    (s.setSched i x).sched j = if i = j then x else s.sched j := by
  simp [State.sched, State.setSched, Vector.getElem_set, Fin.ext_iff]

@[simp] theorem State.sched_setSched_same (s : State) (i : PortId) (x : Scheduler) : (s.setSched i x).sched i = x := by
  simp [State.sched_setSched]

theorem State.sched_setSched_ne (s : State) (i j : PortId) (x : Scheduler) (h : i ≠ j) :
    (s.setSched i x).sched j = s.sched j := by
  simp [State.sched_setSched, h]

@[simp] theorem State.setSched_time (s : State) (i : PortId) (x : Scheduler) : (s.setSched i x).time = s.time := rfl

@[simp] theorem State.setSched_links (s : State) (i : PortId) (x : Scheduler) : (s.setSched i x).links = s.links := rfl

@[simp] theorem State.setSched_sensors (s : State) (i : PortId) (x : Scheduler) : (s.setSched i x).sensors = s.sensors := rfl

@[simp] theorem State.setSched_lines (s : State) (i : PortId) (x : Scheduler) : (s.setSched i x).lines = s.lines := rfl

@[simp] theorem State.setSched_rqs (s : State) (i : PortId) (x : Scheduler) : (s.setSched i x).rqs = s.rqs := rfl

@[simp] theorem State.setSched_crs (s : State) (i : PortId) (x : Scheduler) : (s.setSched i x).crs = s.crs := rfl

@[simp] theorem State.setSched_srs (s : State) (i : PortId) (x : Scheduler) : (s.setSched i x).srs = s.srs := rfl

@[simp] theorem State.setSched_slots (s : State) (i : PortId) (x : Scheduler) : (s.setSched i x).slots = s.slots := rfl

@[simp] theorem State.setSched_slotOrder (s : State) (i : PortId) (x : Scheduler) : (s.setSched i x).slotOrder = s.slotOrder := rfl

@[simp] theorem State.setSched_fetch (s : State) (i : PortId) (x : Scheduler) : (s.setSched i x).fetch = s.fetch := rfl

@[simp] theorem State.setSched_nextIoRing (s : State) (i : PortId) (x : Scheduler) : (s.setSched i x).nextIoRing = s.nextIoRing := rfl

@[simp] theorem State.setSched_notices (s : State) (i : PortId) (x : Scheduler) : (s.setSched i x).notices = s.notices := rfl

@[simp] theorem State.setSched_axInbox (s : State) (i : PortId) (x : Scheduler) : (s.setSched i x).axInbox = s.axInbox := rfl

@[simp] theorem State.setSched_axInFlight (s : State) (i : PortId) (x : Scheduler) : (s.setSched i x).axInFlight = s.axInFlight := rfl

@[simp] theorem State.setSched_window (s : State) (i : PortId) (x : Scheduler) : (s.setSched i x).window = s.window := rfl

@[simp] theorem State.setSched_msix (s : State) (i : PortId) (x : Scheduler) : (s.setSched i x).msix = s.msix := rfl

@[simp] theorem State.setSched_outbox (s : State) (i : PortId) (x : Scheduler) : (s.setSched i x).outbox = s.outbox := rfl

@[simp] theorem State.setSched_discarded (s : State) (i : PortId) (x : Scheduler) : (s.setSched i x).discarded = s.discarded := rfl

@[simp] theorem State.setSched_sent (s : State) (i : PortId) (x : Scheduler) : (s.setSched i x).sent = s.sent := rfl

@[simp] theorem State.setSched_readData (s : State) (i : PortId) (x : Scheduler) : (s.setSched i x).readData = s.readData := rfl

@[simp] theorem State.setSched_pending (s : State) (i : PortId) (x : Scheduler) : (s.setSched i x).pending = s.pending := rfl

@[simp] theorem State.link_setSched (s : State) (i : PortId) (x : Scheduler) (j : PortId) : (s.setSched i x).link j = s.link j := rfl

@[simp] theorem State.sensor_setSched (s : State) (i : PortId) (x : Scheduler) (j : SensorId) : (s.setSched i x).sensor j = s.sensor j := rfl

@[simp] theorem State.line_setSched (s : State) (i : PortId) (x : Scheduler) (j : LineId) : (s.setSched i x).line j = s.line j := rfl

@[simp] theorem State.rq_setSched (s : State) (i : PortId) (x : Scheduler) (j : RqId) : (s.setSched i x).rq j = s.rq j := rfl

@[simp] theorem State.cr_setSched (s : State) (i : PortId) (x : Scheduler) (j : CrId) : (s.setSched i x).cr j = s.cr j := rfl

@[simp] theorem State.sr_setSched (s : State) (i : PortId) (x : Scheduler) (j : SrId) : (s.setSched i x).sr j = s.sr j := rfl

@[simp] theorem State.slot_setSched (s : State) (i : PortId) (x : Scheduler) (j : SlotId) : (s.setSched i x).slot j = s.slot j := rfl

/-! ### Writing sensors -/

theorem State.sensor_setSensor (s : State) (i j : SensorId) (x : Sensor) :
    (s.setSensor i x).sensor j = if i = j then x else s.sensor j := by
  simp [State.sensor, State.setSensor, Vector.getElem_set, Fin.ext_iff]

@[simp] theorem State.sensor_setSensor_same (s : State) (i : SensorId) (x : Sensor) : (s.setSensor i x).sensor i = x := by
  simp [State.sensor_setSensor]

theorem State.sensor_setSensor_ne (s : State) (i j : SensorId) (x : Sensor) (h : i ≠ j) :
    (s.setSensor i x).sensor j = s.sensor j := by
  simp [State.sensor_setSensor, h]

@[simp] theorem State.setSensor_time (s : State) (i : SensorId) (x : Sensor) : (s.setSensor i x).time = s.time := rfl

@[simp] theorem State.setSensor_links (s : State) (i : SensorId) (x : Sensor) : (s.setSensor i x).links = s.links := rfl

@[simp] theorem State.setSensor_scheds (s : State) (i : SensorId) (x : Sensor) : (s.setSensor i x).scheds = s.scheds := rfl

@[simp] theorem State.setSensor_lines (s : State) (i : SensorId) (x : Sensor) : (s.setSensor i x).lines = s.lines := rfl

@[simp] theorem State.setSensor_rqs (s : State) (i : SensorId) (x : Sensor) : (s.setSensor i x).rqs = s.rqs := rfl

@[simp] theorem State.setSensor_crs (s : State) (i : SensorId) (x : Sensor) : (s.setSensor i x).crs = s.crs := rfl

@[simp] theorem State.setSensor_srs (s : State) (i : SensorId) (x : Sensor) : (s.setSensor i x).srs = s.srs := rfl

@[simp] theorem State.setSensor_slots (s : State) (i : SensorId) (x : Sensor) : (s.setSensor i x).slots = s.slots := rfl

@[simp] theorem State.setSensor_slotOrder (s : State) (i : SensorId) (x : Sensor) : (s.setSensor i x).slotOrder = s.slotOrder := rfl

@[simp] theorem State.setSensor_fetch (s : State) (i : SensorId) (x : Sensor) : (s.setSensor i x).fetch = s.fetch := rfl

@[simp] theorem State.setSensor_nextIoRing (s : State) (i : SensorId) (x : Sensor) : (s.setSensor i x).nextIoRing = s.nextIoRing := rfl

@[simp] theorem State.setSensor_notices (s : State) (i : SensorId) (x : Sensor) : (s.setSensor i x).notices = s.notices := rfl

@[simp] theorem State.setSensor_axInbox (s : State) (i : SensorId) (x : Sensor) : (s.setSensor i x).axInbox = s.axInbox := rfl

@[simp] theorem State.setSensor_axInFlight (s : State) (i : SensorId) (x : Sensor) : (s.setSensor i x).axInFlight = s.axInFlight := rfl

@[simp] theorem State.setSensor_window (s : State) (i : SensorId) (x : Sensor) : (s.setSensor i x).window = s.window := rfl

@[simp] theorem State.setSensor_msix (s : State) (i : SensorId) (x : Sensor) : (s.setSensor i x).msix = s.msix := rfl

@[simp] theorem State.setSensor_outbox (s : State) (i : SensorId) (x : Sensor) : (s.setSensor i x).outbox = s.outbox := rfl

@[simp] theorem State.setSensor_discarded (s : State) (i : SensorId) (x : Sensor) : (s.setSensor i x).discarded = s.discarded := rfl

@[simp] theorem State.setSensor_sent (s : State) (i : SensorId) (x : Sensor) : (s.setSensor i x).sent = s.sent := rfl

@[simp] theorem State.setSensor_readData (s : State) (i : SensorId) (x : Sensor) : (s.setSensor i x).readData = s.readData := rfl

@[simp] theorem State.setSensor_pending (s : State) (i : SensorId) (x : Sensor) : (s.setSensor i x).pending = s.pending := rfl

@[simp] theorem State.link_setSensor (s : State) (i : SensorId) (x : Sensor) (j : PortId) : (s.setSensor i x).link j = s.link j := rfl

@[simp] theorem State.sched_setSensor (s : State) (i : SensorId) (x : Sensor) (j : PortId) : (s.setSensor i x).sched j = s.sched j := rfl

@[simp] theorem State.line_setSensor (s : State) (i : SensorId) (x : Sensor) (j : LineId) : (s.setSensor i x).line j = s.line j := rfl

@[simp] theorem State.rq_setSensor (s : State) (i : SensorId) (x : Sensor) (j : RqId) : (s.setSensor i x).rq j = s.rq j := rfl

@[simp] theorem State.cr_setSensor (s : State) (i : SensorId) (x : Sensor) (j : CrId) : (s.setSensor i x).cr j = s.cr j := rfl

@[simp] theorem State.sr_setSensor (s : State) (i : SensorId) (x : Sensor) (j : SrId) : (s.setSensor i x).sr j = s.sr j := rfl

@[simp] theorem State.slot_setSensor (s : State) (i : SensorId) (x : Sensor) (j : SlotId) : (s.setSensor i x).slot j = s.slot j := rfl

/-! ### Writing lines -/

theorem State.line_setLine (s : State) (i j : LineId) (x : CaptureLine) :
    (s.setLine i x).line j = if i = j then x else s.line j := by
  simp [State.line, State.setLine, Vector.getElem_set, Fin.ext_iff]

@[simp] theorem State.line_setLine_same (s : State) (i : LineId) (x : CaptureLine) : (s.setLine i x).line i = x := by
  simp [State.line_setLine]

theorem State.line_setLine_ne (s : State) (i j : LineId) (x : CaptureLine) (h : i ≠ j) :
    (s.setLine i x).line j = s.line j := by
  simp [State.line_setLine, h]

@[simp] theorem State.setLine_time (s : State) (i : LineId) (x : CaptureLine) : (s.setLine i x).time = s.time := rfl

@[simp] theorem State.setLine_links (s : State) (i : LineId) (x : CaptureLine) : (s.setLine i x).links = s.links := rfl

@[simp] theorem State.setLine_scheds (s : State) (i : LineId) (x : CaptureLine) : (s.setLine i x).scheds = s.scheds := rfl

@[simp] theorem State.setLine_sensors (s : State) (i : LineId) (x : CaptureLine) : (s.setLine i x).sensors = s.sensors := rfl

@[simp] theorem State.setLine_rqs (s : State) (i : LineId) (x : CaptureLine) : (s.setLine i x).rqs = s.rqs := rfl

@[simp] theorem State.setLine_crs (s : State) (i : LineId) (x : CaptureLine) : (s.setLine i x).crs = s.crs := rfl

@[simp] theorem State.setLine_srs (s : State) (i : LineId) (x : CaptureLine) : (s.setLine i x).srs = s.srs := rfl

@[simp] theorem State.setLine_slots (s : State) (i : LineId) (x : CaptureLine) : (s.setLine i x).slots = s.slots := rfl

@[simp] theorem State.setLine_slotOrder (s : State) (i : LineId) (x : CaptureLine) : (s.setLine i x).slotOrder = s.slotOrder := rfl

@[simp] theorem State.setLine_fetch (s : State) (i : LineId) (x : CaptureLine) : (s.setLine i x).fetch = s.fetch := rfl

@[simp] theorem State.setLine_nextIoRing (s : State) (i : LineId) (x : CaptureLine) : (s.setLine i x).nextIoRing = s.nextIoRing := rfl

@[simp] theorem State.setLine_notices (s : State) (i : LineId) (x : CaptureLine) : (s.setLine i x).notices = s.notices := rfl

@[simp] theorem State.setLine_axInbox (s : State) (i : LineId) (x : CaptureLine) : (s.setLine i x).axInbox = s.axInbox := rfl

@[simp] theorem State.setLine_axInFlight (s : State) (i : LineId) (x : CaptureLine) : (s.setLine i x).axInFlight = s.axInFlight := rfl

@[simp] theorem State.setLine_window (s : State) (i : LineId) (x : CaptureLine) : (s.setLine i x).window = s.window := rfl

@[simp] theorem State.setLine_msix (s : State) (i : LineId) (x : CaptureLine) : (s.setLine i x).msix = s.msix := rfl

@[simp] theorem State.setLine_outbox (s : State) (i : LineId) (x : CaptureLine) : (s.setLine i x).outbox = s.outbox := rfl

@[simp] theorem State.setLine_discarded (s : State) (i : LineId) (x : CaptureLine) : (s.setLine i x).discarded = s.discarded := rfl

@[simp] theorem State.setLine_sent (s : State) (i : LineId) (x : CaptureLine) : (s.setLine i x).sent = s.sent := rfl

@[simp] theorem State.setLine_readData (s : State) (i : LineId) (x : CaptureLine) : (s.setLine i x).readData = s.readData := rfl

@[simp] theorem State.setLine_pending (s : State) (i : LineId) (x : CaptureLine) : (s.setLine i x).pending = s.pending := rfl

@[simp] theorem State.link_setLine (s : State) (i : LineId) (x : CaptureLine) (j : PortId) : (s.setLine i x).link j = s.link j := rfl

@[simp] theorem State.sched_setLine (s : State) (i : LineId) (x : CaptureLine) (j : PortId) : (s.setLine i x).sched j = s.sched j := rfl

@[simp] theorem State.sensor_setLine (s : State) (i : LineId) (x : CaptureLine) (j : SensorId) : (s.setLine i x).sensor j = s.sensor j := rfl

@[simp] theorem State.rq_setLine (s : State) (i : LineId) (x : CaptureLine) (j : RqId) : (s.setLine i x).rq j = s.rq j := rfl

@[simp] theorem State.cr_setLine (s : State) (i : LineId) (x : CaptureLine) (j : CrId) : (s.setLine i x).cr j = s.cr j := rfl

@[simp] theorem State.sr_setLine (s : State) (i : LineId) (x : CaptureLine) (j : SrId) : (s.setLine i x).sr j = s.sr j := rfl

@[simp] theorem State.slot_setLine (s : State) (i : LineId) (x : CaptureLine) (j : SlotId) : (s.setLine i x).slot j = s.slot j := rfl

/-! ### Writing rqs -/

theorem State.rq_setRq (s : State) (i j : RqId) (x : RequestRing) :
    (s.setRq i x).rq j = if i = j then x else s.rq j := by
  simp [State.rq, State.setRq, Vector.getElem_set, Fin.ext_iff]

@[simp] theorem State.rq_setRq_same (s : State) (i : RqId) (x : RequestRing) : (s.setRq i x).rq i = x := by
  simp [State.rq_setRq]

theorem State.rq_setRq_ne (s : State) (i j : RqId) (x : RequestRing) (h : i ≠ j) :
    (s.setRq i x).rq j = s.rq j := by
  simp [State.rq_setRq, h]

@[simp] theorem State.setRq_time (s : State) (i : RqId) (x : RequestRing) : (s.setRq i x).time = s.time := rfl

@[simp] theorem State.setRq_links (s : State) (i : RqId) (x : RequestRing) : (s.setRq i x).links = s.links := rfl

@[simp] theorem State.setRq_scheds (s : State) (i : RqId) (x : RequestRing) : (s.setRq i x).scheds = s.scheds := rfl

@[simp] theorem State.setRq_sensors (s : State) (i : RqId) (x : RequestRing) : (s.setRq i x).sensors = s.sensors := rfl

@[simp] theorem State.setRq_lines (s : State) (i : RqId) (x : RequestRing) : (s.setRq i x).lines = s.lines := rfl

@[simp] theorem State.setRq_crs (s : State) (i : RqId) (x : RequestRing) : (s.setRq i x).crs = s.crs := rfl

@[simp] theorem State.setRq_srs (s : State) (i : RqId) (x : RequestRing) : (s.setRq i x).srs = s.srs := rfl

@[simp] theorem State.setRq_slots (s : State) (i : RqId) (x : RequestRing) : (s.setRq i x).slots = s.slots := rfl

@[simp] theorem State.setRq_slotOrder (s : State) (i : RqId) (x : RequestRing) : (s.setRq i x).slotOrder = s.slotOrder := rfl

@[simp] theorem State.setRq_fetch (s : State) (i : RqId) (x : RequestRing) : (s.setRq i x).fetch = s.fetch := rfl

@[simp] theorem State.setRq_nextIoRing (s : State) (i : RqId) (x : RequestRing) : (s.setRq i x).nextIoRing = s.nextIoRing := rfl

@[simp] theorem State.setRq_notices (s : State) (i : RqId) (x : RequestRing) : (s.setRq i x).notices = s.notices := rfl

@[simp] theorem State.setRq_axInbox (s : State) (i : RqId) (x : RequestRing) : (s.setRq i x).axInbox = s.axInbox := rfl

@[simp] theorem State.setRq_axInFlight (s : State) (i : RqId) (x : RequestRing) : (s.setRq i x).axInFlight = s.axInFlight := rfl

@[simp] theorem State.setRq_window (s : State) (i : RqId) (x : RequestRing) : (s.setRq i x).window = s.window := rfl

@[simp] theorem State.setRq_msix (s : State) (i : RqId) (x : RequestRing) : (s.setRq i x).msix = s.msix := rfl

@[simp] theorem State.setRq_outbox (s : State) (i : RqId) (x : RequestRing) : (s.setRq i x).outbox = s.outbox := rfl

@[simp] theorem State.setRq_discarded (s : State) (i : RqId) (x : RequestRing) : (s.setRq i x).discarded = s.discarded := rfl

@[simp] theorem State.setRq_sent (s : State) (i : RqId) (x : RequestRing) : (s.setRq i x).sent = s.sent := rfl

@[simp] theorem State.setRq_readData (s : State) (i : RqId) (x : RequestRing) : (s.setRq i x).readData = s.readData := rfl

@[simp] theorem State.setRq_pending (s : State) (i : RqId) (x : RequestRing) : (s.setRq i x).pending = s.pending := rfl

@[simp] theorem State.link_setRq (s : State) (i : RqId) (x : RequestRing) (j : PortId) : (s.setRq i x).link j = s.link j := rfl

@[simp] theorem State.sched_setRq (s : State) (i : RqId) (x : RequestRing) (j : PortId) : (s.setRq i x).sched j = s.sched j := rfl

@[simp] theorem State.sensor_setRq (s : State) (i : RqId) (x : RequestRing) (j : SensorId) : (s.setRq i x).sensor j = s.sensor j := rfl

@[simp] theorem State.line_setRq (s : State) (i : RqId) (x : RequestRing) (j : LineId) : (s.setRq i x).line j = s.line j := rfl

@[simp] theorem State.cr_setRq (s : State) (i : RqId) (x : RequestRing) (j : CrId) : (s.setRq i x).cr j = s.cr j := rfl

@[simp] theorem State.sr_setRq (s : State) (i : RqId) (x : RequestRing) (j : SrId) : (s.setRq i x).sr j = s.sr j := rfl

@[simp] theorem State.slot_setRq (s : State) (i : RqId) (x : RequestRing) (j : SlotId) : (s.setRq i x).slot j = s.slot j := rfl

/-! ### Writing crs -/

theorem State.cr_setCr (s : State) (i j : CrId) (x : CompletionRing) :
    (s.setCr i x).cr j = if i = j then x else s.cr j := by
  simp [State.cr, State.setCr, Vector.getElem_set, Fin.ext_iff]

@[simp] theorem State.cr_setCr_same (s : State) (i : CrId) (x : CompletionRing) : (s.setCr i x).cr i = x := by
  simp [State.cr_setCr]

theorem State.cr_setCr_ne (s : State) (i j : CrId) (x : CompletionRing) (h : i ≠ j) :
    (s.setCr i x).cr j = s.cr j := by
  simp [State.cr_setCr, h]

@[simp] theorem State.setCr_time (s : State) (i : CrId) (x : CompletionRing) : (s.setCr i x).time = s.time := rfl

@[simp] theorem State.setCr_links (s : State) (i : CrId) (x : CompletionRing) : (s.setCr i x).links = s.links := rfl

@[simp] theorem State.setCr_scheds (s : State) (i : CrId) (x : CompletionRing) : (s.setCr i x).scheds = s.scheds := rfl

@[simp] theorem State.setCr_sensors (s : State) (i : CrId) (x : CompletionRing) : (s.setCr i x).sensors = s.sensors := rfl

@[simp] theorem State.setCr_lines (s : State) (i : CrId) (x : CompletionRing) : (s.setCr i x).lines = s.lines := rfl

@[simp] theorem State.setCr_rqs (s : State) (i : CrId) (x : CompletionRing) : (s.setCr i x).rqs = s.rqs := rfl

@[simp] theorem State.setCr_srs (s : State) (i : CrId) (x : CompletionRing) : (s.setCr i x).srs = s.srs := rfl

@[simp] theorem State.setCr_slots (s : State) (i : CrId) (x : CompletionRing) : (s.setCr i x).slots = s.slots := rfl

@[simp] theorem State.setCr_slotOrder (s : State) (i : CrId) (x : CompletionRing) : (s.setCr i x).slotOrder = s.slotOrder := rfl

@[simp] theorem State.setCr_fetch (s : State) (i : CrId) (x : CompletionRing) : (s.setCr i x).fetch = s.fetch := rfl

@[simp] theorem State.setCr_nextIoRing (s : State) (i : CrId) (x : CompletionRing) : (s.setCr i x).nextIoRing = s.nextIoRing := rfl

@[simp] theorem State.setCr_notices (s : State) (i : CrId) (x : CompletionRing) : (s.setCr i x).notices = s.notices := rfl

@[simp] theorem State.setCr_axInbox (s : State) (i : CrId) (x : CompletionRing) : (s.setCr i x).axInbox = s.axInbox := rfl

@[simp] theorem State.setCr_axInFlight (s : State) (i : CrId) (x : CompletionRing) : (s.setCr i x).axInFlight = s.axInFlight := rfl

@[simp] theorem State.setCr_window (s : State) (i : CrId) (x : CompletionRing) : (s.setCr i x).window = s.window := rfl

@[simp] theorem State.setCr_msix (s : State) (i : CrId) (x : CompletionRing) : (s.setCr i x).msix = s.msix := rfl

@[simp] theorem State.setCr_outbox (s : State) (i : CrId) (x : CompletionRing) : (s.setCr i x).outbox = s.outbox := rfl

@[simp] theorem State.setCr_discarded (s : State) (i : CrId) (x : CompletionRing) : (s.setCr i x).discarded = s.discarded := rfl

@[simp] theorem State.setCr_sent (s : State) (i : CrId) (x : CompletionRing) : (s.setCr i x).sent = s.sent := rfl

@[simp] theorem State.setCr_readData (s : State) (i : CrId) (x : CompletionRing) : (s.setCr i x).readData = s.readData := rfl

@[simp] theorem State.setCr_pending (s : State) (i : CrId) (x : CompletionRing) : (s.setCr i x).pending = s.pending := rfl

@[simp] theorem State.link_setCr (s : State) (i : CrId) (x : CompletionRing) (j : PortId) : (s.setCr i x).link j = s.link j := rfl

@[simp] theorem State.sched_setCr (s : State) (i : CrId) (x : CompletionRing) (j : PortId) : (s.setCr i x).sched j = s.sched j := rfl

@[simp] theorem State.sensor_setCr (s : State) (i : CrId) (x : CompletionRing) (j : SensorId) : (s.setCr i x).sensor j = s.sensor j := rfl

@[simp] theorem State.line_setCr (s : State) (i : CrId) (x : CompletionRing) (j : LineId) : (s.setCr i x).line j = s.line j := rfl

@[simp] theorem State.rq_setCr (s : State) (i : CrId) (x : CompletionRing) (j : RqId) : (s.setCr i x).rq j = s.rq j := rfl

@[simp] theorem State.sr_setCr (s : State) (i : CrId) (x : CompletionRing) (j : SrId) : (s.setCr i x).sr j = s.sr j := rfl

@[simp] theorem State.slot_setCr (s : State) (i : CrId) (x : CompletionRing) (j : SlotId) : (s.setCr i x).slot j = s.slot j := rfl

/-! ### Writing srs -/

theorem State.sr_setSr (s : State) (i j : SrId) (x : SampleRing) :
    (s.setSr i x).sr j = if i = j then x else s.sr j := by
  simp [State.sr, State.setSr, Vector.getElem_set, Fin.ext_iff]

@[simp] theorem State.sr_setSr_same (s : State) (i : SrId) (x : SampleRing) : (s.setSr i x).sr i = x := by
  simp [State.sr_setSr]

theorem State.sr_setSr_ne (s : State) (i j : SrId) (x : SampleRing) (h : i ≠ j) :
    (s.setSr i x).sr j = s.sr j := by
  simp [State.sr_setSr, h]

@[simp] theorem State.setSr_time (s : State) (i : SrId) (x : SampleRing) : (s.setSr i x).time = s.time := rfl

@[simp] theorem State.setSr_links (s : State) (i : SrId) (x : SampleRing) : (s.setSr i x).links = s.links := rfl

@[simp] theorem State.setSr_scheds (s : State) (i : SrId) (x : SampleRing) : (s.setSr i x).scheds = s.scheds := rfl

@[simp] theorem State.setSr_sensors (s : State) (i : SrId) (x : SampleRing) : (s.setSr i x).sensors = s.sensors := rfl

@[simp] theorem State.setSr_lines (s : State) (i : SrId) (x : SampleRing) : (s.setSr i x).lines = s.lines := rfl

@[simp] theorem State.setSr_rqs (s : State) (i : SrId) (x : SampleRing) : (s.setSr i x).rqs = s.rqs := rfl

@[simp] theorem State.setSr_crs (s : State) (i : SrId) (x : SampleRing) : (s.setSr i x).crs = s.crs := rfl

@[simp] theorem State.setSr_slots (s : State) (i : SrId) (x : SampleRing) : (s.setSr i x).slots = s.slots := rfl

@[simp] theorem State.setSr_slotOrder (s : State) (i : SrId) (x : SampleRing) : (s.setSr i x).slotOrder = s.slotOrder := rfl

@[simp] theorem State.setSr_fetch (s : State) (i : SrId) (x : SampleRing) : (s.setSr i x).fetch = s.fetch := rfl

@[simp] theorem State.setSr_nextIoRing (s : State) (i : SrId) (x : SampleRing) : (s.setSr i x).nextIoRing = s.nextIoRing := rfl

@[simp] theorem State.setSr_notices (s : State) (i : SrId) (x : SampleRing) : (s.setSr i x).notices = s.notices := rfl

@[simp] theorem State.setSr_axInbox (s : State) (i : SrId) (x : SampleRing) : (s.setSr i x).axInbox = s.axInbox := rfl

@[simp] theorem State.setSr_axInFlight (s : State) (i : SrId) (x : SampleRing) : (s.setSr i x).axInFlight = s.axInFlight := rfl

@[simp] theorem State.setSr_window (s : State) (i : SrId) (x : SampleRing) : (s.setSr i x).window = s.window := rfl

@[simp] theorem State.setSr_msix (s : State) (i : SrId) (x : SampleRing) : (s.setSr i x).msix = s.msix := rfl

@[simp] theorem State.setSr_outbox (s : State) (i : SrId) (x : SampleRing) : (s.setSr i x).outbox = s.outbox := rfl

@[simp] theorem State.setSr_discarded (s : State) (i : SrId) (x : SampleRing) : (s.setSr i x).discarded = s.discarded := rfl

@[simp] theorem State.setSr_sent (s : State) (i : SrId) (x : SampleRing) : (s.setSr i x).sent = s.sent := rfl

@[simp] theorem State.setSr_readData (s : State) (i : SrId) (x : SampleRing) : (s.setSr i x).readData = s.readData := rfl

@[simp] theorem State.setSr_pending (s : State) (i : SrId) (x : SampleRing) : (s.setSr i x).pending = s.pending := rfl

@[simp] theorem State.link_setSr (s : State) (i : SrId) (x : SampleRing) (j : PortId) : (s.setSr i x).link j = s.link j := rfl

@[simp] theorem State.sched_setSr (s : State) (i : SrId) (x : SampleRing) (j : PortId) : (s.setSr i x).sched j = s.sched j := rfl

@[simp] theorem State.sensor_setSr (s : State) (i : SrId) (x : SampleRing) (j : SensorId) : (s.setSr i x).sensor j = s.sensor j := rfl

@[simp] theorem State.line_setSr (s : State) (i : SrId) (x : SampleRing) (j : LineId) : (s.setSr i x).line j = s.line j := rfl

@[simp] theorem State.rq_setSr (s : State) (i : SrId) (x : SampleRing) (j : RqId) : (s.setSr i x).rq j = s.rq j := rfl

@[simp] theorem State.cr_setSr (s : State) (i : SrId) (x : SampleRing) (j : CrId) : (s.setSr i x).cr j = s.cr j := rfl

@[simp] theorem State.slot_setSr (s : State) (i : SrId) (x : SampleRing) (j : SlotId) : (s.setSr i x).slot j = s.slot j := rfl

/-! ### Writing slots -/

theorem State.slot_setSlot (s : State) (i j : SlotId) (x : Slot) :
    (s.setSlot i x).slot j = if i = j then x else s.slot j := by
  simp [State.slot, State.setSlot, Vector.getElem_set, Fin.ext_iff]

@[simp] theorem State.slot_setSlot_same (s : State) (i : SlotId) (x : Slot) : (s.setSlot i x).slot i = x := by
  simp [State.slot_setSlot]

theorem State.slot_setSlot_ne (s : State) (i j : SlotId) (x : Slot) (h : i ≠ j) :
    (s.setSlot i x).slot j = s.slot j := by
  simp [State.slot_setSlot, h]

@[simp] theorem State.setSlot_time (s : State) (i : SlotId) (x : Slot) : (s.setSlot i x).time = s.time := rfl

@[simp] theorem State.setSlot_links (s : State) (i : SlotId) (x : Slot) : (s.setSlot i x).links = s.links := rfl

@[simp] theorem State.setSlot_scheds (s : State) (i : SlotId) (x : Slot) : (s.setSlot i x).scheds = s.scheds := rfl

@[simp] theorem State.setSlot_sensors (s : State) (i : SlotId) (x : Slot) : (s.setSlot i x).sensors = s.sensors := rfl

@[simp] theorem State.setSlot_lines (s : State) (i : SlotId) (x : Slot) : (s.setSlot i x).lines = s.lines := rfl

@[simp] theorem State.setSlot_rqs (s : State) (i : SlotId) (x : Slot) : (s.setSlot i x).rqs = s.rqs := rfl

@[simp] theorem State.setSlot_crs (s : State) (i : SlotId) (x : Slot) : (s.setSlot i x).crs = s.crs := rfl

@[simp] theorem State.setSlot_srs (s : State) (i : SlotId) (x : Slot) : (s.setSlot i x).srs = s.srs := rfl

@[simp] theorem State.setSlot_slotOrder (s : State) (i : SlotId) (x : Slot) : (s.setSlot i x).slotOrder = s.slotOrder := rfl

@[simp] theorem State.setSlot_fetch (s : State) (i : SlotId) (x : Slot) : (s.setSlot i x).fetch = s.fetch := rfl

@[simp] theorem State.setSlot_nextIoRing (s : State) (i : SlotId) (x : Slot) : (s.setSlot i x).nextIoRing = s.nextIoRing := rfl

@[simp] theorem State.setSlot_notices (s : State) (i : SlotId) (x : Slot) : (s.setSlot i x).notices = s.notices := rfl

@[simp] theorem State.setSlot_axInbox (s : State) (i : SlotId) (x : Slot) : (s.setSlot i x).axInbox = s.axInbox := rfl

@[simp] theorem State.setSlot_axInFlight (s : State) (i : SlotId) (x : Slot) : (s.setSlot i x).axInFlight = s.axInFlight := rfl

@[simp] theorem State.setSlot_window (s : State) (i : SlotId) (x : Slot) : (s.setSlot i x).window = s.window := rfl

@[simp] theorem State.setSlot_msix (s : State) (i : SlotId) (x : Slot) : (s.setSlot i x).msix = s.msix := rfl

@[simp] theorem State.setSlot_outbox (s : State) (i : SlotId) (x : Slot) : (s.setSlot i x).outbox = s.outbox := rfl

@[simp] theorem State.setSlot_discarded (s : State) (i : SlotId) (x : Slot) : (s.setSlot i x).discarded = s.discarded := rfl

@[simp] theorem State.setSlot_sent (s : State) (i : SlotId) (x : Slot) : (s.setSlot i x).sent = s.sent := rfl

@[simp] theorem State.setSlot_readData (s : State) (i : SlotId) (x : Slot) : (s.setSlot i x).readData = s.readData := rfl

@[simp] theorem State.setSlot_pending (s : State) (i : SlotId) (x : Slot) : (s.setSlot i x).pending = s.pending := rfl

@[simp] theorem State.link_setSlot (s : State) (i : SlotId) (x : Slot) (j : PortId) : (s.setSlot i x).link j = s.link j := rfl

@[simp] theorem State.sched_setSlot (s : State) (i : SlotId) (x : Slot) (j : PortId) : (s.setSlot i x).sched j = s.sched j := rfl

@[simp] theorem State.sensor_setSlot (s : State) (i : SlotId) (x : Slot) (j : SensorId) : (s.setSlot i x).sensor j = s.sensor j := rfl

@[simp] theorem State.line_setSlot (s : State) (i : SlotId) (x : Slot) (j : LineId) : (s.setSlot i x).line j = s.line j := rfl

@[simp] theorem State.rq_setSlot (s : State) (i : SlotId) (x : Slot) (j : RqId) : (s.setSlot i x).rq j = s.rq j := rfl

@[simp] theorem State.cr_setSlot (s : State) (i : SlotId) (x : Slot) (j : CrId) : (s.setSlot i x).cr j = s.cr j := rfl

@[simp] theorem State.sr_setSlot (s : State) (i : SlotId) (x : Slot) (j : SrId) : (s.setSlot i x).sr j = s.sr j := rfl

/-! ### The value after reset -/

@[simp] theorem State.link_reset (i : PortId) : State.reset.link i = .initial := by
  simp [State.link, State.reset]

@[simp] theorem State.sched_reset (i : PortId) : State.reset.sched i = .initial := by
  simp [State.sched, State.reset]

@[simp] theorem State.sensor_reset (i : SensorId) : State.reset.sensor i = .initial := by
  simp [State.sensor, State.reset]

@[simp] theorem State.line_reset (i : LineId) : State.reset.line i = .initial false := by
  simp [State.line, State.reset]

@[simp] theorem State.rq_reset (i : RqId) : State.reset.rq i = .initial := by
  simp [State.rq, State.reset]

@[simp] theorem State.cr_reset (i : CrId) : State.reset.cr i = .initial := by
  simp [State.cr, State.reset]

@[simp] theorem State.sr_reset (i : SrId) : State.reset.sr i = .initial := by
  simp [State.sr, State.reset]

@[simp] theorem State.slot_reset (i : SlotId) : State.reset.slot i = .initial := by
  simp [State.slot, State.reset]

end Sys2Proof.Machine
end

