-- ==== Sys2Proof/Laws/Contexts.lean ====
section
/-! SUPPORT. Every change that an operation makes to one context or descriptor keeps that context or descriptor as its table
says it stands (the `Ok` predicates of Safety.lean). -/

namespace Sys2Proof.Machine

theorem saturating_le (limit count : Nat) : saturating limit count ≤ limit := Nat.min_le_left _ _

theorem le_saturating {limit count : Nat} (hl : 1 ≤ limit) : 1 ≤ saturating limit count := by
  unfold saturating; omega

/-! ### The values after reset -/

theorem PortParameters.default_inRange : PortParameters.default.InRange := by
  constructor <;> simp [PortParameters.default]

theorem LinkEngine.initial_ok : LinkEngine.initial.Ok :=
  ⟨PortParameters.default_inRange, fun _ => rfl, fun _ => by simp [LinkEngine.initial, PortParameters.default],
    Nat.zero_le _⟩

theorem Scheduler.initial_ok (p : PortId) : Scheduler.initial.Ok p :=
  ⟨List.nil_sublist _, fun _ => rfl, by simp [Scheduler.initial], fun _ => ⟨rfl, rfl⟩⟩

theorem Sensor.initial_ok : Sensor.initial.Ok := by
  constructor <;> simp [Sensor.initial, Config.heldPerSensor, inSigned24, inSigned48]

theorem CaptureLine.initial_ok (level : Bool) : (CaptureLine.initial level).Ok := by
  constructor <;> simp [CaptureLine.initial]

theorem RequestRing.initial_ok : RequestRing.initial.Ok := by constructor <;> simp [RequestRing.initial]

theorem CompletionRing.initial_ok : CompletionRing.initial.Ok := by
  constructor <;> simp [CompletionRing.initial, Interrupt.clear]

theorem SampleRing.initial_ok : SampleRing.initial.Ok := by constructor <;> simp [SampleRing.initial, Interrupt.clear]

/-! ### Interrupt states (R166) -/

/-- The unsignalled count stays below a coalescing count of at most 255. -/
theorem Interrupt.record_count (it : Interrupt) (count time : Nat) (notify : Bool) (now : Time) (hc : count ≤ 255) :
    (it.record count time notify now).1.count ≤ 254 := by
  unfold Interrupt.record
  split
  · simp [Interrupt.clear]
  · rename_i h
    simp only [Bool.or_eq_true, decide_eq_true_eq, not_or] at h
    simp only
    omega

/-! ### Rings -/

theorem CompletionRing.Ok.interrupt {d : CompletionRing} (h : d.Ok) (time : Nat) (notify : Bool) (now : Time) :
    CompletionRing.Ok { d with interrupt := (d.interrupt.record d.coalescingCount time notify now).1 } :=
  ⟨h.size, h.producer, h.consumer, h.failed, h.coalescing, Interrupt.record_count _ _ _ _ _ h.coalescing⟩

theorem CompletionRing.Ok.cleared {d : CompletionRing} (h : d.Ok) : CompletionRing.Ok { d with interrupt := .clear } :=
  ⟨h.size, h.producer, h.consumer, h.failed, h.coalescing, Nat.zero_le _⟩

theorem CompletionRing.Ok.reserved {d : CompletionRing} (h : d.Ok) (n : Nat) : CompletionRing.Ok { d with reserved := n } :=
  ⟨h.size, h.producer, h.consumer, h.failed, h.coalescing, h.unsignalled⟩

theorem CompletionRing.Ok.advance {d : CompletionRing} (h : d.Ok) : d.advance.Ok := by
  unfold CompletionRing.advance
  split
  · exact ⟨h.size, fun ha => by have := h.size ha; simp only; omega, h.consumer, h.failed, h.coalescing, h.unsignalled⟩
  · rename_i hne
    exact ⟨h.size, fun ha => by have := h.producer ha; simp only at hne ⊢; omega, h.consumer, h.failed, h.coalescing,
      h.unsignalled⟩

theorem SampleRing.Ok.interrupt {d : SampleRing} (h : d.Ok) (time : Nat) (notify : Bool) (now : Time) :
    SampleRing.Ok { d with interrupt := (d.interrupt.record d.coalescingCount time notify now).1 } :=
  ⟨h.size, h.producer, h.consumer, h.levels, h.failed, h.coalescing, Interrupt.record_count _ _ _ _ _ h.coalescing⟩

theorem SampleRing.Ok.cleared {d : SampleRing} (h : d.Ok) : SampleRing.Ok { d with interrupt := .clear } :=
  ⟨h.size, h.producer, h.consumer, h.levels, h.failed, h.coalescing, Nat.zero_le _⟩

theorem SampleRing.Ok.advance {d : SampleRing} (h : d.Ok) : d.advance.Ok := by
  unfold SampleRing.advance
  split
  · exact ⟨h.size, fun ha => by have := h.size ha; simp only; omega, h.consumer, h.levels, h.failed, h.coalescing,
      h.unsignalled⟩
  · rename_i hne
    exact ⟨h.size, fun ha => by have := h.producer ha; simp only at hne ⊢; omega, h.consumer, h.levels, h.failed,
      h.coalescing, h.unsignalled⟩

theorem SampleRing.Ok.congest {d : SampleRing} (h : d.Ok) : d.congest.Ok := by
  unfold SampleRing.congest
  split
  · rename_i hc
    have ha : d.state ≠ .absent := by rw [hc.1]; decide
    refine ⟨fun _ => h.size ha, fun _ => h.producer ha, fun _ => h.consumer ha, fun _ => h.levels ha, ?_, h.coalescing,
      h.unsignalled⟩
    rw [show ({ d with state := .congested } : SampleRing).failedEntry = d.failedEntry from rfl, h.failed, hc.1]
    simp
  · exact h

theorem SampleRing.Ok.tryResume {d : SampleRing} (h : d.Ok) : d.tryResume.Ok := by
  unfold SampleRing.tryResume
  split
  · rename_i hc
    have ha : d.state ≠ .absent := by rw [hc.1]; decide
    refine ⟨fun _ => h.size ha, fun _ => h.producer ha, fun _ => h.consumer ha, fun _ => h.levels ha, ?_, h.coalescing,
      h.unsignalled⟩
    rw [show ({ d with state := .active } : SampleRing).failedEntry = d.failedEntry from rfl, h.failed, hc.1]
    simp
  · exact h

theorem SampleRing.Ok.consumed {d : SampleRing} (h : d.Ok) (index : Nat) (hi : d.state ≠ .absent → index < d.size) :
    SampleRing.Ok { d with consumer := index } :=
  ⟨h.size, h.producer, hi, h.levels, h.failed, h.coalescing, h.unsignalled⟩

theorem SampleRing.Ok.faulted {d : SampleRing} (h : d.Ok) (ha : d.state ≠ .absent) (entry : Nat) :
    SampleRing.Ok { d with state := .faulted, failedEntry := some entry } :=
  ⟨fun _ => h.size ha, fun _ => h.producer ha, fun _ => h.consumer ha, fun _ => h.levels ha, by simp, h.coalescing,
    h.unsignalled⟩

theorem CompletionRing.Ok.faulted {d : CompletionRing} (h : d.Ok) (ha : d.state ≠ .absent) (entry : Nat) :
    CompletionRing.Ok { d with state := .faulted, failedEntry := some entry } :=
  ⟨fun _ => h.size ha, fun _ => h.producer ha, fun _ => h.consumer ha, by simp, h.coalescing, h.unsignalled⟩

theorem CompletionRing.Ok.consumed {d : CompletionRing} (h : d.Ok) (index : Nat) (hi : index < d.size) :
    CompletionRing.Ok { d with consumer := index } :=
  ⟨h.size, h.producer, fun _ => hi, h.failed, h.coalescing, h.unsignalled⟩

/-- A request ring's bookkeeping (slots held and chain state) does not bear on its indices. -/
theorem RequestRing.Ok.keep {d x : RequestRing} (h : d.Ok) (hst : x.state = d.state) (hs : x.size = d.size)
    (ht : x.tail = d.tail) (hf : x.fetchHead = d.fetchHead) (he : x.failedEntry = d.failedEntry) : x.Ok :=
  ⟨by rw [hst, hs]; exact h.size, by rw [hst, hs, ht]; exact h.tail, by rw [hst, hs, hf]; exact h.fetchHead,
    by rw [he, hst]; exact h.failed⟩

theorem RequestRing.Ok.notified {d : RequestRing} (h : d.Ok) (index : Nat) (hi : index < d.size) :
    RequestRing.Ok { d with tail := index } := ⟨h.size, fun _ => hi, h.fetchHead, h.failed⟩

theorem RequestRing.Ok.draining {d : RequestRing} (h : d.Ok) (ha : d.state ≠ .absent) :
    RequestRing.Ok { d with state := .draining, failedEntry := none } :=
  ⟨fun _ => h.size ha, fun _ => h.tail ha, fun _ => h.fetchHead ha, by simp⟩

theorem RequestRing.Ok.faulted {d : RequestRing} (h : d.Ok) (ha : d.state ≠ .absent) (entry : Nat) :
    RequestRing.Ok { d with state := .faulted, failedEntry := some entry } :=
  ⟨fun _ => h.size ha, fun _ => h.tail ha, fun _ => h.fetchHead ha, by simp⟩

theorem RequestRing.Ok.fetched {d : RequestRing} (h : d.Ok) :
    RequestRing.Ok { d with fetchHead := (d.fetchHead + 1) % d.size } :=
  ⟨h.size, h.tail, fun ha => Nat.mod_lt _ (lt_of_lt_of_le (by decide) (h.size ha).1), h.failed⟩

theorem RequestRing.created_ok (base size : Nat) (cr : CrId) (hz : 2 ≤ size ∧ size ≤ 4096) :
    RequestRing.Ok { RequestRing.initial with state := .active, base := base, size := size, boundCr := some cr } :=
  ⟨fun _ => hz, fun _ => lt_of_lt_of_le (Nat.succ_pos _) hz.1, fun _ => lt_of_lt_of_le (Nat.succ_pos _) hz.1,
    by simp [RequestRing.initial]⟩

theorem CompletionRing.created_ok (base size : Nat) (v : VectorId) (count time : Nat) (hz : 2 ≤ size ∧ size ≤ 4096)
    (hc : count ≤ 255) :
    CompletionRing.Ok { CompletionRing.initial with
      state := .active, base := base, size := size, vector := v, coalescingCount := count, coalescingTime := time } :=
  ⟨fun _ => hz, fun _ => lt_of_lt_of_le (Nat.succ_pos _) hz.1, fun _ => lt_of_lt_of_le (Nat.succ_pos _) hz.1,
    by simp [CompletionRing.initial], hc, Nat.zero_le _⟩

theorem SampleRing.created_ok (base size : Nat) (v : VectorId) (count time low high : Nat)
    (hz : 16 ≤ size ∧ size ≤ 65536) (hc : count ≤ 255) (hw : 1 ≤ low ∧ low < high ∧ high + 1 ≤ size) :
    SampleRing.Ok { SampleRing.initial with
      state := .active, base := base, size := size, vector := v, coalescingCount := count, coalescingTime := time,
      lowWater := low, resume := high } :=
  ⟨fun _ => hz, fun _ => lt_of_lt_of_le (Nat.succ_pos _) hz.1, fun _ => lt_of_lt_of_le (Nat.succ_pos _) hz.1, fun _ => hw,
    by simp [SampleRing.initial], hc, Nat.zero_le _⟩

theorem Window.adminValid_sizes {w : Window} (h : w.adminValid = true) :
    (2 ≤ w.rqSize ∧ w.rqSize ≤ 4096) ∧ (2 ≤ w.crSize ∧ w.crSize ≤ 4096) := by
  simp only [Window.adminValid, Bool.and_eq_true, decide_eq_true_eq] at h
  exact ⟨⟨h.1.1.1.2, h.1.1.2⟩, ⟨h.1.2, h.2⟩⟩

/-! ### Sensors: held queues and counts (R72, R104 to R110) -/

theorem Sensor.Ok.written {c : Sensor} (h : c.Ok) (seq : BitVec 16) :
    Sensor.Ok { c with sequence := seq, missed := 0, rejected := 0, withheld := 0 } :=
  { h with missed := Nat.zero_le _, rejected := Nat.zero_le _, withheld := Nat.zero_le _ }

theorem Sensor.Ok.withheldMore {c : Sensor} (h : c.Ok) : Sensor.Ok { c with withheld := saturating 65535 c.withheld } :=
  { h with withheld := saturating_le _ _ }

theorem Sensor.Ok.missedMore {c : Sensor} (h : c.Ok) : Sensor.Ok { c with missed := saturating 255 c.missed } :=
  { h with missed := saturating_le _ _ }

theorem Sensor.Ok.setHeld {c : Sensor} (h : c.Ok) {l : List SampleRecord} (hl : l.length ≤ Config.heldPerSensor) :
    Sensor.Ok { c with held := l } := { h with held := hl }

theorem overflowTail_length : ∀ l : List SampleRecord, (overflowTail l).length = l.length
  | [] => rfl
  | [_] => rfl
  | a :: b :: l => by
    rw [overflowTail]
    · simp [overflowTail_length (b :: l)]
    · simp

/-! ### Sensors: states (R58 to R70) -/

theorem noCaptures (l : LineId) : (Vector.replicate 4 (none : Option PendingCapture))[l] = none := by
  simp only [Fin.getElem_fin, Vector.getElem_replicate]

theorem Sensor.Ok.dropped {c : Sensor} (h : c.Ok) : Sensor.Ok { c with captures := Vector.replicate 4 none } :=
  { h with captures := fun _ l => noCaptures l }

/-- The context of a sensor that has left acquisition takes a state other than ACQUIRING, WAITING and UNBOUND, with the
fault cause of that state. -/
theorem Sensor.Ok.toRest {c : Sensor} (h : c.Ok) (hl : 1 ≤ c.rejectLimit ∧ c.rejectLimit ≤ 15)
    (hc : ∀ l : LineId, c.captures[l] = none) (st : SensorState) (cause : FaultCause)
    (hst : (st = .bound ∧ cause = .none) ∨ (st = .faulted ∧ cause ≠ .none)) :
    Sensor.Ok { c with state := st, cause := cause } := by
  refine { h with rejectLimit := fun _ => hl, belowLimit := ?_, cause := ?_, captures := fun _ => hc }
  · rcases hst with ⟨rfl, rfl⟩ | ⟨rfl, _⟩ <;> simp
  · rcases hst with ⟨rfl, rfl⟩ | ⟨rfl, h2⟩
    · simp
    · simpa using h2

theorem Sensor.Ok.suspended {c : Sensor} (h : c.Ok) (hs : c.state = .acquiring) (hc : ∀ l : LineId, c.captures[l] = none) :
    Sensor.Ok { c with state := .waiting } := by
  have hcause := h.cause
  rw [hs] at hcause
  have hl := h.rejectLimit (by rw [hs]; decide)
  refine { h with rejectLimit := fun _ => hl, belowLimit := fun _ => h.belowLimit (.inl hs), cause := ?_, captures := fun _ => hc }
  simpa using hcause

theorem Sensor.Ok.stale {c : Sensor} (h : c.Ok) : c.markStale.Ok := { h with }

theorem Sensor.Ok.resumed {c : Sensor} (h : c.Ok) (hs : c.state = .waiting) :
    Sensor.Ok { c.markStale with state := .acquiring } := by
  have hcause := h.cause
  rw [hs] at hcause
  have hl := h.rejectLimit (by rw [hs]; decide)
  have hb := h.belowLimit (.inr hs)
  refine { h with rejectLimit := fun _ => hl, belowLimit := fun _ => hb, cause := ?_, captures := fun hne => absurd rfl hne }
  simpa [Sensor.markStale] using hcause

/-! ### Sensors: readings (R80 to R100) -/

theorem Sensor.rejectsAfter_le (c : Sensor) (n : SensorId) (time : Time) : c.rejectsAfter n time ≤ 15 := by
  unfold Sensor.rejectsAfter
  split
  · omega
  · have := (Config.freeRejects n.val time.toNat).isLt
    omega

/-- While the rejects are below a limit of at most 15, a rejection raises them by one (R81). -/
theorem Sensor.rejectsAfter_of_lt (c : Sensor) (n : SensorId) (time : Time) (h : c.rejects < 15) :
    c.rejectsAfter n time = c.rejects + 1 := by
  unfold Sensor.rejectsAfter
  rw [if_pos h]

theorem Sensor.Ok.accepted {c : Sensor} (h : c.Ok) (hb : c.state ≠ .unbound) (angle turn : Nat) (time : Time) (t : Turned)
    (ht : c.turnInRange t = true) : (c.accept angle turn time t).Ok := by
  refine { h with rejects := Nat.zero_le _, belowLimit := ?_, extendedTurn := ?_ }
  · intro _
    exact (h.rejectLimit hb).1
  · simp only [Sensor.accept]
    split
    · rename_i hm
      simpa [Sensor.turnInRange, hm] using ht
    · exact h.extendedTurn

theorem completeCapture_ok (n : SensorId) (l : LineId) (p : PendingCapture) (v : Interval) {c : Sensor} (h : c.Ok) :
    (completeCapture n l p v c).1.Ok := by
  refine { h with captures := ?_, offset := ?_ }
  · intro hne m
    have hold := h.captures hne
    simp only [completeCapture, Fin.getElem_fin, Vector.getElem_set] at hold ⊢
    split
    · rfl
    · exact hold m
  · simp only [completeCapture]
    split
    · rename_i happ
      simp only [Bool.and_eq_true] at happ
      cases hr : p.reference with
      | none => simpa [hr] using h.offset
      | some ref => simpa [hr] using happ.2
    · exact h.offset

theorem completeCaptures_ok (n : SensorId) (v : Interval) {c : Sensor} (h : c.Ok) : (completeCaptures n v c).1.Ok := by
  have step : ∀ (l : List LineId) (acc : Sensor × List SampleRecord), acc.1.Ok →
      (l.foldl (fun (acc : Sensor × List SampleRecord) l =>
        match acc.1.captures[l] with
        | none => acc
        | some p =>
          if p.edgeTime ≤ v.current.sampleTime then
            let (c', r) := completeCapture n l p v acc.1
            (c', acc.2 ++ [r])
          else acc) acc).1.Ok := by
    intro l
    induction l with
    | nil => intro acc hacc; exact hacc
    | cons a l ih =>
      intro acc hacc
      refine ih _ ?_
      dsimp only
      split
      · exact hacc
      · split
        · exact completeCapture_ok n _ _ _ hacc
        · exact hacc
  exact step _ _ h

/-- A reading's captures leave the state, the ring and the held records of a context. -/
theorem completeCaptures_keeps (n : SensorId) (v : Interval) (c : Sensor) :
    (completeCaptures n v c).1.state = c.state ∧ (completeCaptures n v c).1.ring = c.ring ∧
      (completeCaptures n v c).1.held = c.held ∧ ∀ r ∈ (completeCaptures n v c).2, r.sensor = n := by
  have step : ∀ (l : List LineId) (acc : Sensor × List SampleRecord),
      (acc.1.state = c.state ∧ acc.1.ring = c.ring ∧ acc.1.held = c.held ∧ ∀ r ∈ acc.2, r.sensor = n) →
      let out := l.foldl (fun (acc : Sensor × List SampleRecord) l =>
        match acc.1.captures[l] with
        | none => acc
        | some p =>
          if p.edgeTime ≤ v.current.sampleTime then
            let (c', r) := completeCapture n l p v acc.1
            (c', acc.2 ++ [r])
          else acc) acc
      out.1.state = c.state ∧ out.1.ring = c.ring ∧ out.1.held = c.held ∧ ∀ r ∈ out.2, r.sensor = n := by
    intro l
    induction l with
    | nil => intro acc hacc; exact hacc
    | cons a l ih =>
      intro acc hacc
      refine ih _ ?_
      dsimp only
      split
      · exact hacc
      · split
        · refine ⟨hacc.1, hacc.2.1, hacc.2.2.1, fun r hr => ?_⟩
          rcases List.mem_append.1 hr with hr | hr
          · exact hacc.2.2.2 r hr
          · rw [List.mem_singleton.1 hr]; rfl
        · exact hacc
  exact step _ _ ⟨rfl, rfl, rfl, by simp⟩

/-- The decimation leaves the state, the ring and the held records of a context. -/
theorem decimate_keeps (c : Sensor) (ring : SampleRingState) (forced : Bool) :
    (decimate c ring forced).1.state = c.state ∧ (decimate c ring forced).1.ring = c.ring ∧
      (decimate c ring forced).1.held = c.held := by
  unfold decimate
  split <;> exact ⟨rfl, rfl, rfl⟩

/-- An edge leaves the state, the ring and the held records of a context. -/
theorem edgeAtSensor_keeps (l : LineId) (edge : Time) (ref : Option CaptureReference) (n : SensorId) (c : Sensor) :
    (edgeAtSensor l edge ref n c).state = c.state ∧ (edgeAtSensor l edge ref n c).ring = c.ring ∧
      (edgeAtSensor l edge ref n c).held = c.held := by
  unfold edgeAtSensor
  split
  · split <;> exact ⟨rfl, rfl, rfl⟩
  · exact ⟨rfl, rfl, rfl⟩

theorem effectiveDecimation_le (configured : Nat) (ring : SampleRingState) (h : configured ≤ 256) :
    effectiveDecimation configured ring ≤ 1024 := by
  unfold effectiveDecimation
  split <;> omega

theorem decimate_ok {c : Sensor} (h : c.Ok) (ring : SampleRingState) (forced : Bool) : (decimate c ring forced).1.Ok := by
  have hd := effectiveDecimation_le c.decimation ring h.decimation
  unfold decimate
  by_cases hlt : effectiveDecimation c.decimation ring ≤ c.decimationCounter + 1
  · simp only [hlt, decide_true, Bool.or_true, if_true]
    exact { h with counter := Nat.zero_le _ }
  · split
    · exact { h with counter := Nat.zero_le _ }
    · refine { h with counter := ?_ }
      dsimp only
      omega

theorem edgeAtSensor_ok (l : LineId) (edge : Time) (ref : Option CaptureReference) (n : SensorId) {c : Sensor} (h : c.Ok) :
    (edgeAtSensor l edge ref n c).Ok := by
  unfold edgeAtSensor
  split
  · rename_i ha
    split
    · exact { h with captures := fun hne => absurd ha.1 hne }
    · exact { h with captures := fun hne => absurd ha.1 hne }
  · exact h

theorem boundContext_ok {b : BindBody} {word : BitVec 32} {s : State} {c : Sensor} (h : boundContext b word s = some c) :
    c.Ok := by
  unfold boundContext at h
  split at h
  · split at h
    · rename_i hc
      cases h
      have h0 := Sensor.initial_ok
      refine { h0 with rejectLimit := fun _ => ⟨hc.2.2.2.2.1, hc.2.2.2.2.2.1⟩, belowLimit := ?_, cause := ?_,
                       decimation := hc.2.2.2.2.2.2.2.2.2.1, offset := hc.2.2.2.2.2.2.2.1, captures := fun _ l => noCaptures l }
      · simp
      · simp [Sensor.initial]
    · cases h
  · cases h

theorem Sensor.Ok.started {c : Sensor} (h : c.Ok) (hb : c.state ≠ .unbound) (st : SensorState)
    (hst : st = .acquiring ∨ st = .waiting) : (c.started st).Ok := by
  have hl := h.rejectLimit hb
  have h24 : inSigned24 (c.started st).extendedTurn = true := by simp [Sensor.started, inSigned24]
  have h0 : ∀ n, 0 ≤ n := Nat.zero_le
  refine ⟨h.held, fun _ => hl, h0 _, fun _ => hl.1, ?_, fun _ l => noCaptures l, h0 _, h0 _, h0 _, h.decimation, h0 _, h24, h.offset⟩
  rcases hst with rfl | rfl <;> simp [Sensor.started]

theorem startState_cases (link : LinkState) (present : Bool) :
    startState link present = .acquiring ∨ startState link present = .waiting := by
  unfold startState
  split <;> simp

/-! ### Sensors: leaving acquisition and faulting (R58, R69, R70, R81) -/

/-- What `leaveAcquisition` makes of a context: the pending captures of an ACQUIRING sensor are dropped. -/
def Sensor.left (c : Sensor) : Sensor :=
  if c.state = .acquiring then { c with captures := Vector.replicate 4 none } else c

theorem Sensor.Ok.left {c : Sensor} (h : c.Ok) : c.left.Ok := by
  unfold Sensor.left
  split
  · exact h.dropped
  · exact h

@[simp] theorem Sensor.left_state (c : Sensor) : c.left.state = c.state := by unfold Sensor.left; split <;> rfl
@[simp] theorem Sensor.left_rejectLimit (c : Sensor) : c.left.rejectLimit = c.rejectLimit := by
  unfold Sensor.left; split <;> rfl
@[simp] theorem Sensor.left_held (c : Sensor) : c.left.held = c.held := by unfold Sensor.left; split <;> rfl
@[simp] theorem Sensor.left_ring (c : Sensor) : c.left.ring = c.ring := by unfold Sensor.left; split <;> rfl
@[simp] theorem Sensor.left_rejects (c : Sensor) : c.left.rejects = c.rejects := by unfold Sensor.left; split <;> rfl

theorem Sensor.Ok.left_captures {c : Sensor} (h : c.Ok) (l : LineId) : c.left.captures[l] = none := by
  unfold Sensor.left
  split
  · exact noCaptures l
  · exact h.captures ‹_› l

/-- A context that leaves acquisition for BOUND or FAULTED. -/
theorem Sensor.Ok.leftToRest {c : Sensor} (h : c.Ok) (hb : c.state ≠ .unbound) (st : SensorState) (cause : FaultCause)
    (hst : (st = .bound ∧ cause = .none) ∨ (st = .faulted ∧ cause ≠ .none)) :
    Sensor.Ok { c.left with state := st, cause := cause } :=
  h.left.toRest (by rw [Sensor.left_rejectLimit]; exact h.rejectLimit hb) h.left_captures st cause hst

/-- The context after one more rejection (R81). -/
def Sensor.rejectedOnce (c : Sensor) (n : SensorId) (time : Time) : Sensor :=
  { c with rejected := saturating 255 c.rejected, rejects := c.rejectsAfter n time }

theorem Sensor.Ok.rejectedOnce {c : Sensor} (h : c.Ok) (n : SensorId) (time : Time) (hb : c.state ≠ .unbound)
    (hne : (c.rejectedOnce n time).rejects ≠ c.rejectLimit) : (c.rejectedOnce n time).Ok := by
  have hr := Sensor.rejectsAfter_le c n time
  have hs := saturating_le 255 c.rejected
  refine ⟨h.held, h.rejectLimit, hr, fun hst => ?_, h.cause, h.captures, h.missed, hs, h.withheld, h.decimation, h.counter,
    h.extendedTurn, h.offset⟩
  have h1 := h.belowLimit hst
  have h2 := h.rejectLimit hb
  have h3 := Sensor.rejectsAfter_of_lt c n time (by omega)
  change c.rejectsAfter n time ≠ c.rejectLimit at hne
  change c.rejectsAfter n time < c.rejectLimit
  omega

theorem Sensor.Ok.rejectedToFault {c : Sensor} (h : c.Ok) (n : SensorId) (time : Time) (hb : c.state ≠ .unbound)
    (cause : FaultCause) (hc : cause ≠ .none) :
    Sensor.Ok { (c.rejectedOnce n time).left with state := .faulted, cause := cause } := by
  have hl := h.leftToRest hb .faulted cause (.inr ⟨rfl, hc⟩)
  have hr := Sensor.rejectsAfter_le c n time
  have hs := saturating_le 255 c.rejected
  unfold Sensor.left Sensor.rejectedOnce at *
  dsimp only at *
  split at hl
  · rename_i ha
    rw [if_pos ha]
    exact ⟨hl.held, hl.rejectLimit, hr, fun hst => (by simp at hst), hl.cause, hl.captures, hl.missed, hs, hl.withheld,
      hl.decimation, hl.counter, hl.extendedTurn, hl.offset⟩
  · rename_i ha
    rw [if_neg ha]
    exact ⟨hl.held, hl.rejectLimit, hr, fun hst => (by simp at hst), hl.cause, hl.captures, hl.missed, hs, hl.withheld,
      hl.decimation, hl.counter, hl.extendedTurn, hl.offset⟩

/-! ### Schedulers (R40 to R55) -/

/-- A scheduler whose round and active fields are untouched stays as Table 13 says. -/
theorem Scheduler.Ok.keep {p : PortId} {d x : Scheduler} (h : d.Ok p) (h1 : x.roundList = d.roundList)
    (h2 : x.round = d.round) (h3 : x.lateMark = d.lateMark) (h4 : x.active = d.active)
    (h5 : x.exchangesDone = d.exchangesDone) (h6 : x.hold = d.hold) : x.Ok p :=
  ⟨by rw [h1]; exact h.list, by rw [h1, h2]; exact h.listEmpty, by rw [h2, h3]; exact h.late,
    by rw [h4, h5, h6]; exact h.idle⟩

/-- The active fields are cleared (R52). -/
theorem Scheduler.Ok.cleared {p : PortId} {d : Scheduler} (h : d.Ok p) (progress : TransactionProgress) :
    Scheduler.Ok p { d with active := none, exchangesDone := 0, hold := false, progress := progress } :=
  ⟨h.list, h.listEmpty, h.late, fun _ => ⟨rfl, rfl⟩⟩

/-- A transaction is active, whatever its exchanges done and its HOLD (R48, R49). -/
theorem Scheduler.Ok.active {p : PortId} {d x : Scheduler} (h : d.Ok p) (h1 : x.roundList = d.roundList)
    (h2 : x.round = d.round) (h3 : x.lateMark = d.lateMark) (ha : x.active ≠ none) : x.Ok p :=
  ⟨by rw [h1]; exact h.list, by rw [h1, h2]; exact h.listEmpty, by rw [h2, h3]; exact h.late, fun e => absurd e ha⟩

/-- A round begins with the ACQUIRING sensors of the port (R40). -/
theorem Scheduler.Ok.began {p : PortId} {d : Scheduler} (h : d.Ok p) (late : Bool) {l : List SensorId}
    (hl : l.Sublist (sensorsOf p)) :
    Scheduler.Ok p { d with round := .inProgress, lateMark := some late, roundList := l } :=
  ⟨hl, fun hne => absurd rfl hne, by simp, h.idle⟩

/-- No round. -/
theorem Scheduler.Ok.noRound {p : PortId} {d : Scheduler} (h : d.Ok p) :
    Scheduler.Ok p { d with round := .none, lateMark := none, roundList := [] } :=
  ⟨List.nil_sublist _, fun _ => rfl, by simp, h.idle⟩

/-- A round falls DUE where there was none (R38). -/
theorem Scheduler.Ok.fallDue {p : PortId} {d : Scheduler} (h : d.Ok p) (hn : d.round = .none) :
    Scheduler.Ok p { d with round := .due, lateMark := some true } :=
  ⟨h.list, fun _ => h.listEmpty (by rw [hn]; decide), by simp, h.idle⟩

theorem Scheduler.Ok.leaveRunning {p : PortId} {d : Scheduler} (h : d.Ok p) : d.leaveRunning.Ok p :=
  ⟨List.nil_sublist _, fun _ => rfl, by simp [Scheduler.leaveRunning], h.idle⟩

theorem Scheduler.Ok.endIfEmpty {p : PortId} {d : Scheduler} (h : d.Ok p) : d.endIfEmpty.Ok p := by
  unfold Scheduler.endIfEmpty
  split
  · rename_i he
    exact ⟨h.list, fun _ => he.2, by simp, h.idle⟩
  · exact h

theorem Scheduler.Ok.shorter {p : PortId} {d : Scheduler} (h : d.Ok p) {l : List SensorId} (hl : l.Sublist d.roundList)
    {step : Option RoundStep} {heldPosition : Option ExchangeOutcome} {owner : Option ExchangeOwner} :
    Scheduler.Ok p { d with
      roundList := l, roundStep := step, heldPosition := heldPosition, owner := owner } :=
  ⟨hl.trans h.list, fun hne => by
      have := h.listEmpty hne
      rw [this] at hl
      exact List.sublist_nil.mp hl, h.late, h.idle⟩

theorem Scheduler.Ok.dropEntry {p : PortId} {d : Scheduler} (h : d.Ok p) (n : SensorId) : (d.dropEntry n).Ok p := by
  unfold Scheduler.dropEntry
  split
  · exact h.shorter (List.tail_sublist _)
  · exact h.shorter (List.filter_sublist)

/-! ### Links (R19 to R33) -/

/-- A change of a link that leaves its state, its failures and its parameters. -/
theorem LinkEngine.Ok.keep {le x : LinkEngine} (h : le.Ok) (hs : x.state = le.state) (hf : x.failures = le.failures)
    (hp : x.parameters = le.parameters) : x.Ok :=
  ⟨by rw [hp]; exact h.parameters, by rw [hs, hf]; exact h.atRest, by rw [hs, hf, hp]; exact h.belowLimit,
    by rw [hf]; exact h.range⟩

/-- The failure count becomes 0. -/
theorem LinkEngine.Ok.zero {le x : LinkEngine} (h : le.Ok) (hf : x.failures = 0) (hp : x.parameters = le.parameters) :
    x.Ok :=
  ⟨by rw [hp]; exact h.parameters, fun _ => hf, fun _ => by rw [hf, hp]; exact h.parameters.failLimit.1,
    by rw [hf]; exact Nat.zero_le _⟩

/-- The link goes DOWN. -/
theorem LinkEngine.Ok.down {le x : LinkEngine} (h : le.Ok) (hs : x.state = .down) (hf : x.failures ≤ 15)
    (hp : x.parameters = le.parameters) : x.Ok :=
  ⟨by rw [hp]; exact h.parameters, by rw [hs]; simp, fun hne => absurd hs hne, hf⟩

/-- A link that is not DOWN goes to a state other than DISABLED, TRAINING and DOWN. -/
theorem LinkEngine.Ok.moved {le x : LinkEngine} (h : le.Ok) (hd : le.state ≠ .down)
    (hs : ¬ (x.state = .disabled ∨ x.state = .training)) (hf : x.failures = le.failures)
    (hp : x.parameters = le.parameters) : x.Ok :=
  ⟨by rw [hp]; exact h.parameters, fun e => absurd e hs, fun _ => by rw [hf, hp]; exact h.belowLimit hd,
    by rw [hf]; exact h.range⟩

/-- A DISABLED or DOWN link takes new parameters (R17). -/
theorem LinkEngine.Ok.configured {le : LinkEngine} (h : le.Ok) (hs : le.state = .disabled ∨ le.state = .down)
    {q : PortParameters} (hq : q.InRange) (timer : Option Time) :
    LinkEngine.Ok { le with parameters := q, retrainTimer := timer } := by
  refine ⟨hq, h.atRest, fun hd => ?_, h.range⟩
  rcases hs with e | e
  · have := h.atRest (.inl e)
    change le.failures < q.failLimit
    rw [this]
    exact hq.failLimit.1
  · exact absurd e hd

theorem PortConfigBody.parameters_inRange {b : PortConfigBody} {q : PortParameters} (h : b.parameters = some q) :
    q.InRange := by
  unfold PortConfigBody.parameters at h
  split at h
  · cases h
  · split at h
    · rename_i hc
      cases h
      obtain ⟨h1, h2, h3, h4, h5, h6, h7, h8, h9, h10⟩ := hc
      exact ⟨⟨h1, h2⟩, ⟨h3, h4⟩, h5, ⟨h6, h7⟩, ⟨h8, h9⟩, h10⟩
    · cases h

/-- The retry gap is over (R26). -/
theorem LinkEngine.Ok.gapOver {le : LinkEngine} (h : le.Ok) (timer : Option Time) :
    LinkEngine.Ok { le with
      retryGapTimer := timer, state := if le.state = .retryWait then .running else le.state } := by
  by_cases hr : le.state = .retryWait
  · rw [if_pos hr]
    exact h.moved (by rw [hr]; decide) (by simp) rfl rfl
  · rw [if_neg hr]
    exact h.keep rfl rfl rfl

/-- One more failure below or at a fail limit of at most 15. -/
theorem LinkEngine.Ok.oneMore {le : LinkEngine} (h : le.Ok) (hd : le.state ≠ .down) : le.failures + 1 ≤ 15 := by
  have h1 := h.belowLimit hd
  have h2 := h.parameters.failLimit.2
  omega

/-! ### Lines (R91 to R96) -/

theorem CaptureLine.Ok.sampled {c : CaptureLine} (h : c.Ok) (level : Bool) (now : Time) : (c.sampled level now).Ok := by
  unfold CaptureLine.sampled
  split
  · exact { h with candidate := by simp }
  · rename_i hne
    split
    · refine { h with candidate := ?_ }
      intro q hq
      cases hq
      cases level <;> cases hr : c.recognised <;> simp_all
    · exact { h with }

theorem CaptureLine.Ok.disarmed {c : CaptureLine} (h : c.Ok) : c.disarmed.Ok :=
  { h with armTime := by simp [CaptureLine.disarmed], reference := by simp [CaptureLine.disarmed] }

theorem CaptureLine.Ok.recognised {c : CaptureLine} (h : c.Ok) (level : Bool) :
    CaptureLine.Ok { c with recognised := level, qualification := none } := { h with candidate := by simp }

theorem armModeOfCode_cases {code : Nat} {mode : ArmState} (h : armModeOfCode code = some mode) :
    mode = .once ∨ mode = .continuous := by
  unfold armModeOfCode at h
  split at h <;> simp at h <;> simp [← h]

/-- The line takes an arming; a reference comes with ONCE alone (R94). -/
theorem CaptureLine.Ok.armed {c : CaptureLine} (h : c.Ok) (mode : ArmState) (now : Time) (ref : Option CaptureReference)
    (hm : mode ≠ .disarmed) (hr : ref.isSome = true → mode = .once) :
    CaptureLine.Ok { c with arm := mode, armTime := some now, reference := ref } :=
  { h with armTime := by simpa using hm, reference := hr }

theorem CaptureLine.Ok.configured {c : CaptureLine} (h : c.Ok) (e : EdgeSelect) (f : Nat) (now : Time) (hf : f ≤ 255) :
    (c.configure e f now).Ok := by
  refine { h with filter := hf, candidate := fun q hq => ?_ }
  obtain ⟨x, hx, rfl⟩ := Option.map_eq_some_iff.1 hq
  exact h.candidate x hx

end Sys2Proof.Machine
end

