-- ==== Sys2Proof/Laws/Closure.lean ====
section
/-! SUPPORT. What no operation inside the part can do, said once. A property of states is kept `Within` the part when it
survives every change that the blocks make among themselves without a link: a change of a scheduler, sensor context, line
or ring that stands as its table says after it if it did before (the `Ok` predicates of Safety.lean) and that leaves to the
moves named below the records held, the entries of the rings, the slots and the credits; a notice raised by R152 or taken
from the list's head. `Closed` adds the changes of a link that keep its state. Every shared operation keeps every such
property (`Within.<operation>`, `Closed.<operation>`); `Steps`, in Steps.lean, adds the moves that single commands make. So an invariant is proved by showing that each move keeps it. -/

namespace Sys2Proof.Machine

/-! ### What a move leaves -/

/-- The words of the register window that only the host's accesses and a device reset change. -/
structure Window.SameHostWords (w w' : Window) : Prop where
  rqBase : w'.adminRqBase = w.adminRqBase
  crBase : w'.adminCrBase = w.adminCrBase
  sizes : w'.adminSizes = w.adminSizes
  latch : w'.timeLatch = w.timeLatch

/-- A change of a sensor context that holds no record more, and enters neither ACQUIRING nor UNBOUND with records held. -/
structure Sensor.Tame (c x : Sensor) : Prop where
  held : x.held = [] ∨ (x.held = c.held ∧ x.ring = c.ring ∧ (x.state = .unbound → c.state = .unbound))
  acquiring : x.state = .acquiring → c.state = .acquiring

theorem Sensor.Tame.refl (c : Sensor) : c.Tame c := ⟨.inr ⟨rfl, rfl, id⟩, id⟩

/-- A context that keeps its state, its ring and its held records. -/
theorem Sensor.Tame.same {c x : Sensor} (hs : x.state = c.state) (hr : x.ring = c.ring) (hh : x.held = c.held) : c.Tame x :=
  ⟨.inr ⟨hh, hr, fun e => hs ▸ e⟩, fun e => hs ▸ e⟩

/-- A context that keeps its ring and its held records and rests in BOUND, WAITING or FAULTED. -/
theorem Sensor.Tame.rest {c x : Sensor} (hu : x.state ≠ .unbound) (ha : x.state ≠ .acquiring) (hr : x.ring = c.ring)
    (hh : x.held = c.held) : c.Tame x := ⟨.inr ⟨hh, hr, fun e => absurd e hu⟩, fun e => absurd e ha⟩

/-- A change of a request ring that leaves its slots, its completion ring and its existence. -/
structure RequestRing.SameAccount (d x : RequestRing) : Prop where
  slotsHeld : x.slotsHeld = d.slotsHeld
  boundCr : x.boundCr = d.boundCr
  absent : x.state = .absent ↔ d.state = .absent

/-- A change of a completion ring that leaves its entries, its credits and its existence. -/
structure CompletionRing.SameAccount (d x : CompletionRing) : Prop where
  size : x.size = d.size
  producer : x.producer = d.producer
  consumer : x.consumer = d.consumer
  reserved : x.reserved = d.reserved
  absent : x.state = .absent ↔ d.state = .absent

/-- A change of a sample ring that leaves its entries, its levels and its state. -/
structure SampleRing.SameEntries (d x : SampleRing) : Prop where
  state : x.state = d.state
  size : x.size = d.size
  producer : x.producer = d.producer
  consumer : x.consumer = d.consumer
  lowWater : x.lowWater = d.lowWater
  resume : x.resume = d.resume

/-- What a fetch in flight claims. -/
def Fetch.claim (f : Fetch) : RqId × CrId × SlotId × Bool := (f.rq, f.cr, f.slot, f.live)

/-- A change of a slot in use: its request ring and completion ring stay, and it is in the same state or has no result before
and after. -/
structure Slot.SameAccount (sl x : Slot) : Prop where
  rq : x.rq = sl.rq
  cr : x.cr = sl.cr
  state : x.state = sl.state ∨ (sl.isOpen = true ∧ x.isOpen = true)

/-- A property that survives every change the blocks make among themselves, but for changes of a link. -/
structure Within (P : State → Prop) : Prop where
  scheds : ∀ (s : State) (v : Vector Scheduler 8),
    (∀ p : PortId, (s.sched p).Ok p → Scheduler.Ok p v[p]) → P s → P { s with scheds := v }
  sensors : ∀ (s : State) (v : Vector Sensor 32),
    (∀ n : SensorId, (s.sensor n).Ok → Sensor.Ok v[n]) → (∀ n : SensorId, (s.sensor n).Tame v[n]) →
    P s → P { s with sensors := v }
  hold : ∀ (s : State) (n : SensorId) (l : List SampleRecord), (s.sensor n).state ≠ .unbound →
    (s.sr (s.sensor n).ring).writable = true → ((s.sensor n).held ≠ [] ∨ (s.sr (s.sensor n).ring).full = true) →
    ((s.sensor n).held.length ≤ Config.heldPerSensor → l.length ≤ Config.heldPerSensor) →
    P s → P (s.setSensor n { s.sensor n with held := l })
  lines : ∀ (s : State) (v : Vector CaptureLine 4),
    (∀ l : LineId, (s.line l).Ok → CaptureLine.Ok v[l]) → P s → P { s with lines := v }
  setRq : ∀ {s : State} (r : RqId) (x : RequestRing), ((s.rq r).Ok → x.Ok) → (s.rq r).SameAccount x → P s → P (s.setRq r x)
  /-- A ring that holds no slot ends. -/
  dropRq : ∀ (s : State) (r : RqId), (s.rq r).slotsHeld = 0 → P s → P (s.setRq r .initial)
  setCr : ∀ {s : State} (c : CrId) (x : CompletionRing), ((s.cr c).Ok → x.Ok) → (s.cr c).SameAccount x →
    P s → P (s.setCr c x)
  setSr : ∀ {s : State} (i : SrId) (x : SampleRing), ((s.sr i).Ok → x.Ok) → (s.sr i).SameEntries x → P s → P (s.setSr i x)
  /-- A record is written to a ring that is not full. -/
  writeSr : ∀ (s : State) (i : SrId), (s.sr i).writable = true → (s.sr i).full = false →
    P s → P (s.setSr i (s.sr i).advance.congest)
  setSlot : ∀ {s : State} (k : SlotId) (x : Slot), (s.slot k).SameAccount x → P s → P (s.setSlot k x)
  /-- A request has its result, which its completion ring takes. -/
  post : ∀ (s : State) (k : SlotId) (x : Slot), (s.slot k).isOpen = true → x.state = .done → x.rq = (s.slot k).rq →
    x.cr = (s.slot k).cr → (s.cr (s.slot k).cr).state = .active → P s →
    P ((s.setSlot k x).setCr (s.slot k).cr
      { (s.cr (s.slot k).cr).advance with reserved := (s.cr (s.slot k).cr).reserved - 1 })
  /-- A request has its result, which its FAULTED completion ring discards. -/
  discard : ∀ (s : State) (k : SlotId) (x : Slot), (s.slot k).isOpen = true → x.state = .done → x.rq = (s.slot k).rq →
    x.cr = (s.slot k).cr → (s.cr (s.slot k).cr).state = .faulted → P s →
    P ((s.setSlot k x).setCr (s.slot k).cr { s.cr (s.slot k).cr with reserved := (s.cr (s.slot k).cr).reserved - 1 })
  /-- A request has its result and no completion ring, which no request of a run is. -/
  lose : ∀ (s : State) (k : SlotId) (x : Slot), (s.slot k).isOpen = true → x.state = .done → x.rq = (s.slot k).rq →
    x.cr = (s.slot k).cr → (s.cr (s.slot k).cr).state = .absent → P s → P (s.setSlot k x)
  free : ∀ (s : State) (k : SlotId), (s.slot k).state = .done → P s →
    P ((s.setSlot k .initial).setRq (s.slot k).rq
      { s.rq (s.slot k).rq with slotsHeld := (s.rq (s.slot k).rq).slotsHeld - 1 })
  slotOrder : ∀ (s : State) v, P s → P { s with slotOrder := v }
  fetch : ∀ (s : State) v, v.map Fetch.claim = s.fetch.map Fetch.claim → P s → P { s with fetch := v }
  nextIoRing : ∀ (s : State) v, (s.nextIoRing ≠ 0 → v ≠ 0) → P s → P { s with nextIoRing := v }
  axInbox : ∀ (s : State) v, P s → P { s with axInbox := v }
  axInFlight : ∀ (s : State) v, v.Sublist s.axInFlight → P s → P { s with axInFlight := v }
  msix : ∀ (s : State) v, P s → P { s with msix := v }
  outbox : ∀ (s : State) v, P s → P { s with outbox := v }
  discarded : ∀ (s : State) v, P s → P { s with discarded := v }
  sent : ∀ (s : State) v, P s → P { s with sent := v }
  raise : ∀ (s : State) src detail time, P s → P (raiseNotice src detail time s)
  dropNotices : ∀ (s : State) l, l <:+ s.notices → P s → P { s with notices := l }

/-- A property that survives every change the blocks make among themselves, with links that keep their state. -/
structure Closed (P : State → Prop) : Prop extends Within P where
  links : ∀ (s : State) (v : Vector LinkEngine 8), (∀ p : PortId, (s.link p).Ok → LinkEngine.Ok v[p]) →
    (∀ p : PortId, v[p].state = (s.link p).state) → P s → P { s with links := v }

theorem Closed.setLink {P : State → Prop} {s : State} (h : Closed P) (p : PortId) (x : LinkEngine)
    (hx : (s.link p).Ok → x.Ok) (hst : x.state = (s.link p).state) (hs : P s) : P (s.setLink p x) := by
  refine h.links s _ (fun j hj => ?_) (fun j => ?_) hs
  · have key := s.link_setLink p j x
    change ((s.setLink p x).link j).Ok
    rw [key]
    split
    · rename_i e; subst e; exact hx hj
    · exact hj
  · have key := s.link_setLink p j x
    change ((s.setLink p x).link j).state = _
    rw [key]
    split
    · rename_i e; subst e; exact hst
    · rfl

namespace Within

variable {P : State → Prop} {s : State}

/-! ### The named writes -/

theorem setSched (h : Within P) (p : PortId) (x : Scheduler) (hx : (s.sched p).Ok p → x.Ok p) (hs : P s) :
    P (s.setSched p x) := by
  refine h.scheds s _ (fun j hj => ?_) hs
  have key := s.sched_setSched p j x
  change ((s.setSched p x).sched j).Ok j
  rw [key]
  split
  · rename_i e; subst e; exact hx hj
  · exact hj

theorem setSensor (h : Within P) (n : SensorId) (x : Sensor) (hx : (s.sensor n).Ok → x.Ok) (ht : (s.sensor n).Tame x)
    (hs : P s) : P (s.setSensor n x) := by
  have key := fun j => s.sensor_setSensor n j x
  refine h.sensors s _ (fun j hj => ?_) (fun j => ?_) hs
  · change ((s.setSensor n x).sensor j).Ok
    rw [key]
    split
    · rename_i e; subst e; exact hx hj
    · exact hj
  · change (s.sensor j).Tame ((s.setSensor n x).sensor j)
    rw [key]
    split
    · rename_i e; subst e; exact ht
    · exact .refl _

theorem setLine (h : Within P) (l : LineId) (x : CaptureLine) (hx : (s.line l).Ok → x.Ok) (hs : P s) :
    P (s.setLine l x) := by
  refine h.lines s _ (fun j hj => ?_) hs
  have key := s.line_setLine l j x
  change ((s.setLine l x).line j).Ok
  rw [key]
  split
  · rename_i e; subst e; exact hx hj
  · exact hj

/-! ### Iteration -/

theorem foldl {α : Type} (step : State → α → State) (hstep : ∀ s a, P s → P (step s a)) (l : List α) :
    ∀ s, P s → P (l.foldl step s) := by
  induction l with
  | nil => intro s hs; exact hs
  | cons a l ih => intro s hs; exact ih _ (hstep _ _ hs)

/-! ### Operations of Ops.lean -/

theorem sendMessage (h : Within P) (v : VectorId) (hs : P s) : P (Machine.sendMessage v s) := by
  unfold Machine.sendMessage
  split
  · exact h.msix _ _ hs
  · exact h.sent _ _ hs

theorem messageDue (h : Within P) (v : VectorId) (hs : P s) : P (Machine.messageDue v s) := by
  unfold Machine.messageDue
  split
  · exact h.sendMessage v hs
  · exact h.outbox _ _ hs

theorem signalCr (h : Within P) (r : CrId) (notify : Bool) (hs : P s) : P (Machine.signalCr r notify s) := by
  unfold Machine.signalCr
  dsimp only
  split
  · exact h.messageDue _ (h.setCr _ _ (fun ok => ok.interrupt _ _ _) ⟨rfl, rfl, rfl, rfl, .rfl⟩ hs)
  · exact h.setCr _ _ (fun ok => ok.interrupt _ _ _) ⟨rfl, rfl, rfl, rfl, .rfl⟩ hs

theorem signalSr (h : Within P) (r : SrId) (hs : P s) : P (Machine.signalSr r s) := by
  unfold Machine.signalSr
  dsimp only
  split
  · exact h.messageDue _ (h.setSr _ _ (fun ok => ok.interrupt _ _ _) ⟨rfl, rfl, rfl, rfl, rfl, rfl⟩ hs)
  · exact h.setSr _ _ (fun ok => ok.interrupt _ _ _) ⟨rfl, rfl, rfl, rfl, rfl, rfl⟩ hs

theorem issueWrite (h : Within P) (kind : WriteKind) (entry base : Nat) (data : BitVec 256) (hs : P s) :
    P (Machine.issueWrite kind entry base data s) := h.outbox _ _ hs

theorem issueRead (h : Within P) (hs : P s) : P (Machine.issueRead s) :=
  h.fetch _ _ (by rw [Option.map_map]; rfl) hs

theorem releaseOutbox (h : Within P) : ∀ (items : List OutItem) (s : State), P s → P (Machine.releaseOutbox items s)
  | [], _, hs => h.outbox _ _ hs
  | .record _ :: _, _, hs => h.outbox _ _ hs
  | .message v :: rest, _, hs => releaseOutbox h rest _ (h.sendMessage v hs)
  | .read :: rest, _, hs => releaseOutbox h rest _ (h.issueRead hs)

theorem takeRead (h : Within P) (f : Fetch) (hs : P { s with fetch := some f }) : P (Machine.takeRead f s) := by
  unfold Machine.takeRead
  split
  · exact h.fetch { s with fetch := some f } _ rfl hs
  · exact h.outbox { s with fetch := some f } _ hs

theorem endWrite (h : Within P) (w : RecordWrite) (rest : List OutItem) (hs : P s) : P (Machine.endWrite w rest s) :=
  h.releaseOutbox rest _ (h.sent s _ hs)

/-- A record is written for a sensor whose ring takes records and is not full (R105). -/
theorem writeRecord (h : Within P) (m : SensorId) (r : SampleRecord) (hw : (s.sr (s.sensor m).ring).writable = true)
    (hf : (s.sr (s.sensor m).ring).full = false) (hs : P s) : P (Machine.writeRecord m r s) := by
  unfold Machine.writeRecord
  exact h.signalSr _ (h.issueWrite _ _ _ _ (h.writeSr _ _ hw hf
    (h.setSensor _ _ (fun ok => ok.written _) ⟨.inr ⟨rfl, rfl, id⟩, id⟩ hs)))

theorem postRecord (h : Within P) (r : SampleRecord) (hb : (s.sensor r.sensor).state ≠ .unbound) (hs : P s) :
    P (Machine.postRecord r s) := by
  unfold Machine.postRecord
  dsimp only
  split
  · exact hs
  rename_i hw
  simp only [Bool.not_eq_true, Bool.not_eq_false'] at hw
  split
  · rename_i hf
    simp only [Bool.and_eq_true, Bool.not_eq_true'] at hf
    exact h.writeRecord r.sensor r hw hf.2 hs
  rename_i hf
  have hfull : (s.sensor r.sensor).held ≠ [] ∨ (s.sr (s.sensor r.sensor).ring).full = true := by
    by_contra hc
    simp only [not_or, ne_eq, not_not, Bool.not_eq_true] at hc
    exact hf (by simp [hc.1, hc.2])
  split
  · exact h.setSensor _ _ (fun ok => ok.withheldMore) ⟨.inr ⟨rfl, rfl, id⟩, id⟩ hs
  split
  · rename_i hlt
    refine h.hold _ _ _ hb hw hfull (fun _ => ?_) hs
    simp only [List.length_append, List.length_cons, List.length_nil]
    omega
  · exact h.hold _ _ _ hb hw hfull (fun hl => by rw [overflowTail_length]; exact hl) hs

end Within

/-- Writing a record touches the context of its sensor alone, and of that one the counts. -/
theorem writeRecord_sensor (m : SensorId) (r : SampleRecord) (s : State) (n : SensorId) :
    (writeRecord m r s).sensor n = if m = n then
      { s.sensor m with
        sequence := (if r.isMarkStart then 0 else (s.sensor m).sequence) + 1, missed := 0, rejected := 0, withheld := 0 }
      else s.sensor n := by
  have hmsg : ∀ v (u : State), (messageDue v u).sensor n = u.sensor n := by
    intro v u
    unfold messageDue sendMessage
    split
    · split <;> rfl
    · rfl
  have hsig : ∀ i (u : State), (signalSr i u).sensor n = u.sensor n := by
    intro i u
    unfold signalSr
    dsimp only
    split
    · rw [hmsg]; rfl
    · rfl
  unfold writeRecord
  dsimp only
  rw [hsig]
  exact State.sensor_setSensor _ _ _ _

/-- Posting a record leaves the state of every sensor. -/
theorem postRecord_state (r : SampleRecord) (s : State) (n : SensorId) :
    ((postRecord r s).sensor n).state = (s.sensor n).state := by
  have hset : ∀ x : Sensor, x.state = (s.sensor r.sensor).state →
      ((s.setSensor r.sensor x).sensor n).state = (s.sensor n).state := by
    intro x hx
    rw [State.sensor_setSensor]
    split
    · rename_i e; subst e; exact hx
    · rfl
  unfold postRecord
  dsimp only
  split
  · rfl
  split
  · rw [writeRecord_sensor]
    split
    · rename_i e; subst e; rfl
    · rfl
  split
  · exact hset _ rfl
  split
  · exact hset _ rfl
  · exact hset _ rfl

namespace Within

variable {P : State → Prop} {s : State}

theorem postRecords (h : Within P) : ∀ (rs : List SampleRecord) (s : State),
    (∀ r ∈ rs, (s.sensor r.sensor).state ≠ .unbound) → P s → P (Machine.postRecords rs s)
  | [], _, _, hs => hs
  | r :: rs, s, hb, hs =>
    postRecords h rs (Machine.postRecord r s)
      (fun x hx => by rw [postRecord_state]; exact hb x (List.mem_cons_of_mem _ hx))
      (h.postRecord r (hb r List.mem_cons_self) hs)

theorem postResult (h : Within P) (k : SlotId) (r : Result) (hs : P s) : P (Machine.postResult k r s) := by
  unfold Machine.postResult
  dsimp only
  split
  · exact hs
  rename_i ho
  simp only [Bool.not_eq_true, Bool.not_eq_false'] at ho
  split
  · rename_i hst
    unfold Machine.writeCompletion
    dsimp only
    rw [State.slot_setSlot_same]
    refine h.signalCr _ _ ?_
    exact h.outbox _ _ (h.post s k
      { s.slot k with state := .done, predecessor := none, abortPending := false, abortRequester := none, result := some r }
      ho rfl rfl rfl hst hs)
  · rename_i hst
    exact h.discarded _ _ (h.discard s k _ ho rfl rfl rfl hst hs)
  · rename_i hst
    exact h.lose s k _ ho rfl rfl rfl hst hs

theorem completeSlot (h : Within P) (k : SlotId) (r : Result) (hs : P s) : P (Machine.completeSlot k r s) := by
  unfold Machine.completeSlot
  dsimp only
  split
  · exact h.postResult _ _ hs
  · exact h.postResult _ _ (h.postResult _ _ hs)

theorem completeInFlight (h : Within P) (o : AdminObject) (r : Result) (hs : P s) :
    P (Machine.completeInFlight o r s) := by
  unfold Machine.completeInFlight
  split
  · exact hs
  · exact h.completeSlot _ _ (h.axInFlight _ _ List.filter_sublist hs)

theorem freeSlot (h : Within P) (k : SlotId) (hk : (s.slot k).state = .done) (hs : P s) : P (Machine.freeSlot k s) := by
  unfold Machine.freeSlot
  dsimp only
  have h1 : ∀ l, P (({ (s.setSlot k .initial) with slotOrder := l }).setRq (s.slot k).rq
      { s.rq (s.slot k).rq with slotsHeld := (s.rq (s.slot k).rq).slotsHeld - 1 }) := fun l =>
    h.slotOrder _ _ (h.free s k hk hs)
  split
  · rename_i hd
    refine h.completeInFlight _ _ (h.dropRq _ _ ?_ (h1 _))
    rw [State.rq_setRq_same]
    exact hd.2
  · exact h1 _

end Within

end Sys2Proof.Machine
end

