-- ==== Sys2Proof/Laws/Account.lean ====
section
/-! SUPPORT. The account of slots and credits (R117 to R119) and the room on a ring (R102, R117): what each change of a slot,
a fetch or a ring does to the numbers that `Account` and `Levelled` speak of. -/

namespace Sys2Proof.Machine

/-! ### Counting slots -/

/-- Two predicates that agree but for one member count alike but for it. -/
theorem countP_update {α : Type} (p q : α → Bool) (k : α) : ∀ (l : List α), l.Nodup → k ∈ l →
    (∀ j, j ≠ k → p j = q j) → l.countP p + (q k).toNat = l.countP q + (p k).toNat
  | [], _, hk, _ => by cases hk
  | a :: l, hn, hk, h => by
    rw [List.countP_cons, List.countP_cons]
    have hb : ∀ b : Bool, (if b = true then 1 else 0) = b.toNat := by decide
    rw [hb, hb]
    by_cases hak : a = k
    · subst hak
      have : l.countP p = l.countP q := List.countP_congr fun j hj => by
        rw [h j (fun e => (List.nodup_cons.1 hn).1 (e ▸ hj))]
      omega
    · have := countP_update p q k l (List.nodup_cons.1 hn).2 ((List.mem_cons.1 hk).resolve_left fun e => hak e.symm) h
      rw [h a hak]
      omega

theorem mem_allSlots (k : SlotId) : k ∈ allSlots := List.mem_finRange k

theorem allSlots_nodup : allSlots.Nodup := List.nodup_finRange 32

/-- The slot stands in the count of a request ring. -/
def Slot.heldBy (sl : Slot) (r : RqId) : Bool := decide (sl.state ≠ .free ∧ sl.rq = r)

/-- The slot stands in the count of a completion ring. -/
def Slot.owedTo (sl : Slot) (c : CrId) : Bool := sl.isOpen && decide (sl.cr = c)

/-- The fetch in flight stands in the count of a request ring. -/
def fetchHolds (fetch : Option Fetch) (r : RqId) : Nat := (fetch.filter fun f => f.live && decide (f.rq = r)).toList.length

/-- The fetch in flight stands in the count of a completion ring. -/
def fetchOwes (fetch : Option Fetch) (c : CrId) : Nat := (fetch.filter fun f => f.live && decide (f.cr = c)).toList.length

theorem slotsOf_eq (r : RqId) (s : State) :
    slotsOf r s = allSlots.countP (fun k => (s.slot k).heldBy r) + fetchHolds s.fetch r := rfl

theorem creditsOf_eq (c : CrId) (s : State) :
    creditsOf c s = allSlots.countP (fun k => (s.slot k).owedTo c) + fetchOwes s.fetch c := rfl

theorem fetchHolds_some (f : Fetch) (r : RqId) : fetchHolds (some f) r = (f.live && decide (f.rq = r)).toNat := by
  unfold fetchHolds
  cases h : (f.live && decide (f.rq = r)) <;> simp [Option.filter, h]

theorem fetchOwes_some (f : Fetch) (c : CrId) : fetchOwes (some f) c = (f.live && decide (f.cr = c)).toNat := by
  unfold fetchOwes
  cases h : (f.live && decide (f.cr = c)) <;> simp [Option.filter, h]

/-- A fetch that claims the same stands in the same counts. -/
theorem fetchHolds_congr {a b : Option Fetch} (h : a.map Fetch.claim = b.map Fetch.claim) (r : RqId) :
    fetchHolds a r = fetchHolds b r := by
  cases a <;> cases b <;> simp [Fetch.claim] at h
  · rfl
  · rw [fetchHolds_some, fetchHolds_some, h.1, h.2.2.2]

theorem fetchOwes_congr {a b : Option Fetch} (h : a.map Fetch.claim = b.map Fetch.claim) (c : CrId) :
    fetchOwes a c = fetchOwes b c := by
  cases a <;> cases b <;> simp [Fetch.claim] at h
  · rfl
  · rw [fetchOwes_some, fetchOwes_some, h.2.1, h.2.2.2]

theorem slotsOf_setSlot (s : State) (k : SlotId) (x : Slot) (r : RqId) :
    slotsOf r (s.setSlot k x) + ((s.slot k).heldBy r).toNat = slotsOf r s + (x.heldBy r).toNat := by
  have := countP_update (fun j => ((s.setSlot k x).slot j).heldBy r) (fun j => (s.slot j).heldBy r) k allSlots
    allSlots_nodup (mem_allSlots k) (fun j hj => by rw [State.slot_setSlot_ne _ _ _ _ (Ne.symm hj)])
  rw [State.slot_setSlot_same] at this
  rw [slotsOf_eq, slotsOf_eq]
  change _ + fetchHolds s.fetch r + _ = _
  omega

theorem creditsOf_setSlot (s : State) (k : SlotId) (x : Slot) (c : CrId) :
    creditsOf c (s.setSlot k x) + ((s.slot k).owedTo c).toNat = creditsOf c s + (x.owedTo c).toNat := by
  have := countP_update (fun j => ((s.setSlot k x).slot j).owedTo c) (fun j => (s.slot j).owedTo c) k allSlots
    allSlots_nodup (mem_allSlots k) (fun j hj => by rw [State.slot_setSlot_ne _ _ _ _ (Ne.symm hj)])
  rw [State.slot_setSlot_same] at this
  rw [creditsOf_eq, creditsOf_eq]
  change _ + fetchOwes s.fetch c + _ = _
  omega

/-- A slot in use is one of those that its request ring holds. -/
theorem slotsOf_pos {s : State} {k : SlotId} (h : (s.slot k).state ≠ .free) : 0 < slotsOf (s.slot k).rq s := by
  have : 0 < allSlots.countP (fun j => (s.slot j).heldBy (s.slot k).rq) :=
    List.countP_pos_iff.2 ⟨k, mem_allSlots k, by simp [Slot.heldBy, h]⟩
  rw [slotsOf_eq]
  omega

/-- A request without a result is one of those that its completion ring owes. -/
theorem creditsOf_pos {s : State} {k : SlotId} (h : (s.slot k).isOpen = true) : 0 < creditsOf (s.slot k).cr s := by
  have : 0 < allSlots.countP (fun j => (s.slot j).owedTo (s.slot k).cr) :=
    List.countP_pos_iff.2 ⟨k, mem_allSlots k, by simp [Slot.owedTo, h]⟩
  rw [creditsOf_eq]
  omega

theorem Slot.isOpen_ne {sl : Slot} (h : sl.isOpen = true) : sl.state ≠ .free ∧ sl.state ≠ .done := by
  constructor <;> intro e <;> simp [Slot.isOpen, e] at h

/-- The slots of the I/O rings, written out. -/
theorem ioSlotsHeld_eq (s : State) : ioSlotsHeld s = (s.rq 1).slotsHeld + (s.rq 2).slotsHeld + (s.rq 3).slotsHeld
    + (s.rq 4).slotsHeld + (s.rq 5).slotsHeld + (s.rq 6).slotsHeld + (s.rq 7).slotsHeld := by
  have : List.finRange 8 = [0, 1, 2, 3, 4, 5, 6, 7] := by decide
  unfold ioSlotsHeld
  rw [this]
  simp [Nat.add_assoc]

/-- What a change of one ring's slots does to the slots of the I/O rings. -/
theorem ioSlotsHeld_setRq (s : State) (r : RqId) (x : RequestRing) :
    ioSlotsHeld (s.setRq r x) + (if r = 0 then 0 else (s.rq r).slotsHeld)
      = ioSlotsHeld s + (if r = 0 then 0 else x.slotsHeld) := by
  rw [ioSlotsHeld_eq, ioSlotsHeld_eq]
  simp only [State.rq_setRq]
  fin_cases r <;> simp <;> omega

/-! ### Entries of a ring (R102, R115, R117) -/

/-- The unconsumed entries, without the remainder. -/
theorem unconsumed_split (p c n : Nat) (hp : p < n) (hc : c < n) :
    unconsumed p c n = if c ≤ p then p - c else p + n - c := by
  unfold unconsumed
  split
  · have : p + n - c = (p - c) + n := by omega
    rw [this, Nat.add_mod_right, Nat.mod_eq_of_lt (by omega)]
  · exact Nat.mod_eq_of_lt (by omega)

theorem unconsumed_lt (p c n : Nat) (h : 0 < n) : unconsumed p c n < n := Nat.mod_lt _ h

/-- One more entry. -/
theorem unconsumed_advance (p c n : Nat) (hp : p < n) (hc : c < n) (hr : unconsumed p c n + 1 < n) :
    unconsumed (if p + 1 = n then 0 else p + 1) c n = unconsumed p c n + 1 := by
  have h := unconsumed_split p c n hp hc
  split
  · rw [unconsumed_split 0 c n (by omega) hc]
    split at h <;> split <;> omega
  · rw [unconsumed_split (p + 1) c n (by omega) hc]
    split at h <;> split <;> omega

/-- A head that does not pass the producer consumes entries (R164). -/
theorem unconsumed_consumed (i p c n : Nat) (hi : i < n) (hp : p < n) (hc : c < n)
    (h : unconsumed i c n ≤ unconsumed p c n) : unconsumed p i n ≤ unconsumed p c n := by
  rw [unconsumed_split i c n hi hc, unconsumed_split p c n hp hc] at h
  rw [unconsumed_split p c n hp hc, unconsumed_split p i n hp hi]
  split at h <;> split at h <;> split <;> omega

theorem SampleRing.used_advance (d : SampleRing) (hp : d.producer < d.size) (hc : d.consumer < d.size)
    (hf : d.full = false) : d.advance.used = d.used + 1 := by
  have hfree : d.used + 1 < d.size := by
    simp only [SampleRing.full, SampleRing.free, beq_eq_false_iff_ne] at hf
    omega
  have := unconsumed_advance d.producer d.consumer d.size hp hc hfree
  unfold SampleRing.used SampleRing.advance at *
  split
  · rename_i e; rw [if_pos e] at this; exact this
  · rename_i e; rw [if_neg e] at this; exact this

theorem CompletionRing.posted_advance (d : CompletionRing) (hp : d.producer < d.size) (hc : d.consumer < d.size)
    (hf : d.posted + 1 < d.size) : d.advance.posted = d.posted + 1 := by
  have := unconsumed_advance d.producer d.consumer d.size hp hc hf
  unfold CompletionRing.posted CompletionRing.advance at *
  split
  · rename_i e; rw [if_pos e] at this; exact this
  · rename_i e; rw [if_neg e] at this; exact this

@[simp] theorem SampleRing.advance_state (d : SampleRing) : d.advance.state = d.state := by
  unfold SampleRing.advance; split <;> rfl
@[simp] theorem SampleRing.advance_size (d : SampleRing) : d.advance.size = d.size := by
  unfold SampleRing.advance; split <;> rfl
@[simp] theorem SampleRing.advance_consumer (d : SampleRing) : d.advance.consumer = d.consumer := by
  unfold SampleRing.advance; split <;> rfl
@[simp] theorem SampleRing.advance_lowWater (d : SampleRing) : d.advance.lowWater = d.lowWater := by
  unfold SampleRing.advance; split <;> rfl
@[simp] theorem SampleRing.advance_resume (d : SampleRing) : d.advance.resume = d.resume := by
  unfold SampleRing.advance; split <;> rfl
@[simp] theorem CompletionRing.advance_state (d : CompletionRing) : d.advance.state = d.state := by
  unfold CompletionRing.advance; split <;> rfl
@[simp] theorem CompletionRing.advance_size (d : CompletionRing) : d.advance.size = d.size := by
  unfold CompletionRing.advance; split <;> rfl
@[simp] theorem CompletionRing.advance_reserved (d : CompletionRing) : d.advance.reserved = d.reserved := by
  unfold CompletionRing.advance; split <;> rfl

/-- The congestion check leaves everything but the state (R111). -/
theorem SampleRing.congest_keeps (d : SampleRing) :
    d.congest.size = d.size ∧ d.congest.free = d.free ∧ d.congest.full = d.full ∧ d.congest.lowWater = d.lowWater ∧
      d.congest.resume = d.resume ∧ d.congest.writable = d.writable := by
  unfold SampleRing.congest
  split
  · rename_i h; exact ⟨rfl, rfl, rfl, rfl, rfl, by simp [SampleRing.writable, h.1]⟩
  · exact ⟨rfl, rfl, rfl, rfl, rfl, rfl⟩

/-- The resume check leaves everything but the state (R111). -/
theorem SampleRing.tryResume_keeps (d : SampleRing) :
    d.tryResume.size = d.size ∧ d.tryResume.free = d.free ∧ d.tryResume.full = d.full ∧
      d.tryResume.lowWater = d.lowWater ∧ d.tryResume.resume = d.resume ∧ d.tryResume.writable = d.writable := by
  unfold SampleRing.tryResume
  split
  · rename_i h; exact ⟨rfl, rfl, rfl, rfl, rfl, by simp [SampleRing.writable, h.1]⟩
  · exact ⟨rfl, rfl, rfl, rfl, rfl, rfl⟩

/-- A written entry takes one free entry, and the congestion check keeps the levels of an ACTIVE ring; a CONGESTED ring goes
further below its resume level (R111). -/
theorem SampleRing.written_levels {d : SampleRing} (h : d.Ok) (hw : d.writable = true) (hf : d.full = false) :
    d.advance.congest.free + 1 = d.free ∧ (d.advance.congest.state = .active → d.lowWater ≤ d.advance.congest.free) ∧
      (d.advance.congest.state = .congested → d.state = .congested ∨ d.advance.congest.free < d.resume) := by
  have ha : d.state ≠ .absent := by
    intro e; simp [SampleRing.writable, e] at hw
  have hu := d.used_advance (h.producer ha) (h.consumer ha) hf
  have hfree : d.advance.free + 1 = d.free := by
    simp only [SampleRing.full, beq_eq_false_iff_ne] at hf
    unfold SampleRing.free at *
    rw [SampleRing.advance_size, hu]
    omega
  refine ⟨by rw [d.advance.congest_keeps.2.1]; exact hfree, ?_, ?_⟩
  · intro hst
    rw [d.advance.congest_keeps.2.1]
    unfold SampleRing.congest at hst
    split at hst
    · cases hst
    · rename_i hn
      by_contra hlt
      exact hn ⟨hst, by rw [SampleRing.advance_lowWater]; omega⟩
  · intro hst
    unfold SampleRing.congest at hst
    split at hst
    · rename_i hc
      right
      rw [d.advance.congest_keeps.2.1]
      have h1 := hc.2
      rw [SampleRing.advance_lowWater] at h1
      have h2 := (h.levels ha).2.1
      omega
    · left
      rw [SampleRing.advance_state] at hst
      exact hst

end Sys2Proof.Machine
end

