-- ==== Sys2Proof/Laws/ClosureBlocks.lean ====
section
/-! SUPPORT. Every operation of the Sensor Processor, the Port Scheduler, the Link Engine and device control keeps every
closed property. -/

namespace Sys2Proof.Machine

/-- A context set to what it is. -/
theorem State.setSensor_self (s : State) (n : SensorId) : s.setSensor n (s.sensor n) = s := by
  simp [State.setSensor, State.sensor]

/-- Leaving acquisition of a context just set, and what the caller then makes of it, as one change of the context beside a
change of the scheduler. -/
theorem leaveAcquisition_set (s : State) (n : SensorId) (c : Sensor) (f : Sensor → Sensor) :
    (leaveAcquisition n (s.setSensor n c)).setSensor n (f ((leaveAcquisition n (s.setSensor n c)).sensor n))
      = (if c.state = .acquiring then s.setSched (portOf n) ((s.sched (portOf n)).dropEntry n) else s).setSensor n
          (f c.left) := by
  unfold leaveAcquisition Sensor.left
  simp only [State.sensor_setSensor_same]
  split
  · rename_i ha
    simp only [State.sensor_setSensor_same, State.sched_setSensor]
    simp [State.setSensor, State.setSched]
  · simp [State.setSensor, State.sensor]

namespace Within

variable {P : State → Prop} {s : State}

/-! ### Sensors.lean -/

/-- A sensor leaves acquisition and takes the context that the caller gives it. -/
theorem leaveInto (h : Within P) (n : SensorId) (c : Sensor) (f : Sensor → Sensor)
    (hx : (s.sensor n).Ok → (f c.left).Ok) (ht : (s.sensor n).Tame (f c.left)) (hs : P s) :
    P ((leaveAcquisition n (s.setSensor n c)).setSensor n (f ((leaveAcquisition n (s.setSensor n c)).sensor n))) := by
  rw [leaveAcquisition_set]
  split
  · exact h.setSensor _ _ hx ht (h.setSched _ _ (fun ok => ok.dropEntry n) hs)
  · exact h.setSensor _ _ hx ht hs

theorem leaveInto_self (h : Within P) (n : SensorId) (f : Sensor → Sensor)
    (hx : (s.sensor n).Ok → (f (s.sensor n).left).Ok) (ht : (s.sensor n).Tame (f (s.sensor n).left)) (hs : P s) :
    P ((leaveAcquisition n s).setSensor n (f ((leaveAcquisition n s).sensor n))) := by
  have := h.leaveInto n (s.sensor n) f hx ht hs
  rwa [State.setSensor_self] at this

theorem faultSensor_set (h : Within P) (n : SensorId) (c : Sensor) (cause : FaultCause) (time : Time)
    (hx : (s.sensor n).Ok → Sensor.Ok { c.left with state := .faulted, cause := cause })
    (hr : c.ring = (s.sensor n).ring) (hh : c.held = (s.sensor n).held) (hs : P s) :
    P (Machine.faultSensor n cause time (s.setSensor n c)) := by
  unfold Machine.faultSensor
  dsimp only
  have h1 := h.leaveInto n c (fun x => { x with state := .faulted, cause := cause }) hx
    (.rest (by simp) (by simp) (by simpa using hr) (by simpa using hh)) hs
  split
  · exact h.raise _ _ _ _ h1
  · exact h.raise _ _ _ _ (h.postRecord _ (by simp [markRecord]) h1)

theorem faultSensor (h : Within P) (n : SensorId) (cause : FaultCause) (time : Time)
    (hb : (s.sensor n).state ≠ .unbound) (hc : cause ≠ .none) (hs : P s) : P (Machine.faultSensor n cause time s) := by
  have := h.faultSensor_set n (s.sensor n) cause time (fun ok => ok.leftToRest hb _ _ (.inr ⟨rfl, hc⟩)) rfl rfl hs
  rwa [State.setSensor_self] at this

theorem suspendSensor (h : Within P) (n : SensorId) (hs : P s) : P (Machine.suspendSensor n s) := by
  unfold Machine.suspendSensor
  dsimp only
  split
  · rename_i ha
    exact h.postRecord _ (by simp [markRecord]) (h.leaveInto_self n (fun x => { x with state := .waiting })
      (fun ok => ok.left.suspended (by rw [Sensor.left_state]; exact ha) ok.left_captures)
      (.rest (by simp) (by simp) (by simp) (by simp)) hs)
  · exact hs

theorem suspendPort (h : Within P) (p : PortId) (hs : P s) : P (Machine.suspendPort p s) :=
  Within.foldl _ (fun _ n hs => h.suspendSensor n hs) _ _ hs

theorem rejectReading (h : Within P) (n : SensorId) (time : Time) (hb : (s.sensor n).state ≠ .unbound) (hs : P s) :
    P (Machine.rejectReading n time s) := by
  unfold Machine.rejectReading
  dsimp only
  split
  · exact h.faultSensor_set n ((s.sensor n).rejectedOnce n time) _ _
      (fun ok => ok.rejectedToFault n time hb _ (by decide)) rfl rfl hs
  · rename_i hne
    exact h.setSensor _ _ (fun ok => ok.rejectedOnce n time hb hne) (.same rfl rfl rfl) hs

theorem missReading (h : Within P) (n : SensorId) (hs : P s) : P (Machine.missReading n s) :=
  h.setSensor _ _ (fun ok => ok.missedMore) (.same rfl rfl rfl) hs

/-- Steps 7 and 8 of an accepted reading: the captures and the sample record. -/
theorem deliverAdmitted (h : Within P) (r : Reading) (acc : Sensor) (v : Interval) (rst : SampleRingState) (forced : Bool)
    (sample : SampleRecord) (hx : (s.sensor r.sensor).Ok → acc.Ok) (h1 : acc.state = (s.sensor r.sensor).state)
    (h2 : acc.ring = (s.sensor r.sensor).ring) (h3 : acc.held = (s.sensor r.sensor).held)
    (hb : (s.sensor r.sensor).state ≠ .unbound) (hs : P s) (hsam : sample.sensor = r.sensor := by rfl) :
    P (Machine.postRecords
      ((completeCaptures r.sensor v acc).2 ++
        if (decimate (completeCaptures r.sensor v acc).1 rst forced).2 = true then [sample] else [])
      (s.setSensor r.sensor (decimate (completeCaptures r.sensor v acc).1 rst forced).1)) := by
  obtain ⟨k1, k2, k3, k4⟩ := completeCaptures_keeps r.sensor v acc
  obtain ⟨d1, d2, d3⟩ := decimate_keeps (completeCaptures r.sensor v acc).1 rst forced
  refine h.postRecords _ _ (fun x hm => ?_) (h.setSensor _ _
    (fun ok => decimate_ok (completeCaptures_ok _ _ (hx ok)) _ _)
    (.same (d1.trans (k1.trans h1)) (d2.trans (k2.trans h2)) (d3.trans (k3.trans h3))) hs)
  have hxs : x.sensor = r.sensor := by
    rcases List.mem_append.1 hm with hm | hm
    · exact k4 x hm
    · split at hm
      · rw [List.mem_singleton.1 hm]; exact hsam
      · cases hm
  rw [hxs, State.sensor_setSensor_same, d1, k1, h1]
  exact hb

theorem admitReading (h : Within P) (r : Reading) (angle turn : Nat) (warning : Bool)
    (hb : (s.sensor r.sensor).state ≠ .unbound) (hs : P s) : P (Machine.admitReading r angle turn warning s) := by
  unfold Machine.admitReading
  dsimp only
  split
  · exact h.faultSensor _ _ _ hb (by decide) hs
  split
  · exact h.faultSensor _ _ _ hb (by decide) hs
  · rename_i ht _
    exact h.deliverAdmitted r _ _ _ _ _ (fun ok => ok.accepted hb _ _ _ _ (by simpa using ht)) rfl rfl rfl hb hs

theorem takeReading (h : Within P) (r : Reading) (hs : P s) : P (Machine.takeReading r s) := by
  unfold Machine.takeReading
  dsimp only
  split
  · exact hs
  rename_i ha
  have hb : (s.sensor r.sensor).state ≠ .unbound := by
    intro e
    rw [e] at ha
    exact ha (by decide)
  split
  · exact h.missReading _ hs
  · exact h.rejectReading _ _ hb hs
  · split
    · exact h.rejectReading _ _ hb hs
    · exact h.admitReading _ _ _ _ hb hs

theorem takeSetPosition (h : Within P) (r : Reading) (target : Int) (made : Nat) (hs : P s) :
    P (Machine.takeSetPosition r target made s).1 := by
  unfold Machine.takeSetPosition
  dsimp only
  split
  · exact hs
  rename_i ha
  have hb : (s.sensor r.sensor).state ≠ .unbound := fun e => ha (.inl e)
  split
  · exact hs
  · exact h.rejectReading _ _ hb hs
  · split
    · exact h.rejectReading _ _ hb hs
    rename_i angle turn _ _ _
    split
    · exact hs
    split
    · exact hs
    · rename_i ht ho
      refine h.setSensor _ _ (fun ok => ?_) (.same rfl rfl rfl) hs
      have hacc := ok.accepted hb angle turn r.sampleTime _ (by simpa using ht)
      exact { hacc with offset := by simpa using ho }

theorem slaveWasReset (h : Within P) (n : SensorId) (hs : P s) : P (Machine.slaveWasReset n s) := by
  unfold Machine.slaveWasReset
  dsimp only
  split
  · exact hs
  · exact h.setSensor _ _ (fun ok => ok.stale) (.same rfl rfl rfl) hs

theorem edgeEvent (h : Within P) (l : LineId) (edge : Time) (ref : Option CaptureReference) (hs : P s) :
    P (Machine.edgeEvent l edge ref s) :=
  Within.foldl _ (fun _ _ hs => h.setSensor _ _ (fun ok => edgeAtSensor_ok _ _ _ _ ok)
    (.same (edgeAtSensor_keeps _ _ _ _ _).1 (edgeAtSensor_keeps _ _ _ _ _).2.1 (edgeAtSensor_keeps _ _ _ _ _).2.2) hs) _ _ hs

/-! ### Ports.lean: what the schedulers do without touching a link -/

theorem completeActive (h : Within P) (p : PortId) (r : Result) (hs : P s) : P (Machine.completeActive p r s) := by
  unfold Machine.completeActive
  dsimp only
  split
  · exact hs
  · exact h.setSched _ _ (fun ok => ok.cleared _) (h.completeSlot _ _ hs)

theorem cutActive (h : Within P) (p : PortId) (st : Status) (done : Nat) (hs : P s) :
    P (Machine.cutActive p st done s) := by
  unfold Machine.cutActive
  dsimp only
  split
  · exact hs
  · exact h.completeActive _ _ hs

theorem activate (h : Within P) (p : PortId) (k : SlotId) (rest : List SlotId) (hq : (s.slot k).state = .queued)
    (hs : P s) : P (Machine.activate p k rest s) :=
  h.setSched _ _ (fun ok => ok.active rfl rfl rfl (by simp))
    (h.setSlot _ _ ⟨rfl, rfl, .inr ⟨by simp [Slot.isOpen, hq], rfl⟩⟩ hs)

theorem startRound (h : Within P) (p : PortId) (late : Bool) (hs : P s) : P (Machine.startRound p late s) := by
  unfold Machine.startRound
  dsimp only
  split
  · exact h.setSched _ _ (fun ok => ok.noRound) hs
  · exact h.setSched _ _ (fun ok => ok.began _ List.filter_sublist) hs

theorem roundOutcome (h : Within P) (p : PortId) (o : ExchangeOutcome) (hs : P s) : P (Machine.roundOutcome p o s) := by
  have hk : ∀ {d : Scheduler}, d.Ok p → Scheduler.Ok p { d with owner := none } := fun ok => ok.keep rfl rfl rfl rfl rfl rfl
  unfold Machine.roundOutcome
  dsimp only
  split
  · rename_i n rest hr hst hl
    split
    · exact h.setSched _ _ (fun ok => ok.keep rfl rfl rfl rfl rfl rfl) hs
    · refine h.takeReading _ (h.setSched _ _ (fun ok => ?_) hs)
      refine Scheduler.Ok.endIfEmpty (Scheduler.Ok.shorter ok ?_)
      rw [hl]
      exact List.sublist_cons_self _ _
  · exact h.setSched _ _ (fun ok => (hk ok).endIfEmpty) hs

theorem continueTransaction (h : Within P) (p : PortId) (k : SlotId) (progress : TransactionProgress) (stopping : Bool)
    (ha : (s.sched p).active ≠ none) (hs : P s) : P (Machine.continueTransaction p k progress stopping s) := by
  unfold Machine.continueTransaction
  dsimp only
  have h1 : P (s.setSched p { s.sched p with progress := progress }) :=
    h.setSched _ _ (fun ok => ok.keep rfl rfl rfl rfl rfl rfl) hs
  split
  · exact h.cutActive _ _ _ h1
  split
  · exact h.cutActive _ _ _ h1
  · exact h.setSched _ _ (fun ok => ok.active rfl rfl rfl ha) hs

theorem registerBoundary (h : Within P) (p : PortId) (k : SlotId) (first : Nat) (warn alarm : Bool) (value : BitVec 16)
    (stopping : Bool) (ha : (s.sched p).active ≠ none) (hs : P s) :
    P (Machine.registerBoundary p k first warn alarm value stopping s) := by
  unfold Machine.registerBoundary
  dsimp only
  split
  · exact h.completeActive _ _ hs
  split
  · exact h.completeActive _ _ hs
  · exact h.continueTransaction _ _ _ _ ha hs

theorem resetBoundary (h : Within P) (p : PortId) (k : SlotId) (warn alarm : Bool) (hs : P s) :
    P (Machine.resetBoundary p k warn alarm s) := by
  unfold Machine.resetBoundary
  split
  · exact h.completeActive _ _ hs
  · exact h.completeActive _ _ (h.slaveWasReset _ hs)

theorem readPositionBoundary (h : Within P) (p : PortId) (k : SlotId) (warn alarm : Bool) (payload : Payload)
    (time : Time) (hs : P s) : P (Machine.readPositionBoundary p k warn alarm payload time s) :=
  h.completeActive _ _ hs

theorem setPositionBoundary (h : Within P) (p : PortId) (k : SlotId) (target : Int) (o : ExchangeOutcome)
    (stopping : Bool) (ha : (s.sched p).active ≠ none) (hs : P s) :
    P (Machine.setPositionBoundary p k target o stopping s) := by
  unfold Machine.setPositionBoundary
  dsimp only
  split
  · exact h.completeActive _ _ (h.takeSetPosition _ _ _ hs)
  · exact h.continueTransaction _ _ _ _ ha hs

theorem transactionOutcome (h : Within P) (p : PortId) (stopping : Bool) (o : ExchangeOutcome) (hs : P s) :
    P (Machine.transactionOutcome p stopping o s) := by
  unfold Machine.transactionOutcome
  dsimp only
  have h1 : P (s.setSched p { s.sched p with owner := none }) :=
    h.setSched _ _ (fun ok => ok.keep rfl rfl rfl rfl rfl rfl) hs
  split
  · exact h1
  rename_i k hk
  have ha : ((s.setSched p { s.sched p with owner := none }).sched p).active ≠ none := by rw [hk]; simp
  split
  · exact h.cutActive _ _ _ h1
  split
  · exact h.registerBoundary _ _ _ _ _ _ _ ha h1
  · exact h.registerBoundary _ _ _ _ _ _ _ ha h1
  · exact h.readPositionBoundary _ _ _ _ _ _ h1
  · exact h.setPositionBoundary _ _ _ _ _ ha h1
  · exact h.resetBoundary _ _ _ _ h1
  · exact h1

theorem deliverOutcome (h : Within P) (p : PortId) (stopping : Bool) (o : ExchangeOutcome) (hs : P s) :
    P (Machine.deliverOutcome p stopping o s) := by
  unfold Machine.deliverOutcome
  split
  · exact h.roundOutcome _ _ hs
  · exact h.transactionOutcome _ _ _ hs
  · exact hs

/-- The links stay as they are under every operation that keeps the properties of `Within`. -/
theorem linksAre (L : Vector LinkEngine 8) : Within fun u => u.links = L where
  scheds _ _ _ h := h
  sensors _ _ _ _ h := h
  hold _ _ _ _ _ _ _ h := h
  lines _ _ _ h := h
  setRq _ _ _ _ h := h
  dropRq _ _ _ h := h
  setCr _ _ _ _ h := h
  setSr _ _ _ _ h := h
  writeSr _ _ _ _ h := h
  setSlot _ _ _ h := h
  post _ _ _ _ _ _ _ _ h := h
  discard _ _ _ _ _ _ _ _ h := h
  lose _ _ _ _ _ _ _ _ h := h
  free _ _ _ h := h
  slotOrder _ _ h := h
  fetch _ _ _ h := h
  nextIoRing _ _ _ h := h
  axInbox _ _ h := h
  axInFlight _ _ _ h := h
  msix _ _ h := h
  outbox _ _ h := h
  discarded _ _ h := h
  sent _ _ h := h
  raise _ _ _ _ h := by unfold raiseNotice; split <;> exact h
  dropNotices _ _ _ h := h

end Within

/-- The SP, the RM and the PS leave every link as it is when an outcome is delivered. -/
theorem deliverOutcome_links (p : PortId) (stopping : Bool) (o : ExchangeOutcome) (s : State) :
    (deliverOutcome p stopping o s).links = s.links := (Within.linksAre s.links).deliverOutcome p stopping o rfl

theorem deliverOutcome_link (p q : PortId) (stopping : Bool) (o : ExchangeOutcome) (s : State) :
    (deliverOutcome p stopping o s).link q = s.link q := by
  unfold State.link
  rw [deliverOutcome_links]

theorem suspendPort_link (p q : PortId) (s : State) : (suspendPort p s).link q = s.link q := by
  unfold State.link
  rw [(Within.linksAre s.links).suspendPort p rfl]

theorem State.setLink_setLink (s : State) (p : PortId) (x y : LinkEngine) :
    (s.setLink p x).setLink p y = s.setLink p y := by
  simp [State.setLink]

namespace Closed

variable {P : State → Prop} {s : State}

/-! ### Ports.lean -/

theorem offerExchange (h : Closed P) (p : PortId) (owner : ExchangeOwner) (a : Attempt) (hs : P s) :
    P (Machine.offerExchange p owner a s) :=
  h.setSched _ _ (fun ok => ok.keep rfl rfl rfl rfl rfl rfl) (h.setLink _ _ (fun ok => ok.keep rfl rfl rfl) rfl hs)

theorem offerRound (h : Closed P) (p : PortId) (hs : P s) : P (Machine.offerRound p s) := by
  unfold Machine.offerRound
  dsimp only
  split
  · exact hs
  · exact h.offerExchange _ _ _ (h.setSched _ _ (fun ok => ok.keep rfl rfl rfl rfl rfl rfl) hs)

theorem offerTransaction (h : Closed P) (p : PortId) (k : SlotId) (hs : P s) : P (Machine.offerTransaction p k s) := by
  unfold Machine.offerTransaction
  dsimp only
  split
  · exact hs
  · exact h.offerExchange _ _ _ hs

theorem activateFrom (h : Closed P) (p : PortId) : ∀ (l : List SlotId) (s : State), P s → P (Machine.activateFrom p l s)
  | [], _, hs => hs
  | k :: rest, s, hs => by
    unfold Machine.activateFrom
    dsimp only
    split
    · rename_i hq
      split
      · exact activateFrom h p rest _ (h.completeActive _ _ (h.activate _ _ _ hq hs))
      · exact h.offerTransaction _ _ (h.activate _ _ _ hq hs)
    · exact activateFrom h p rest _ (h.setSched _ _ (fun ok => ok.keep rfl rfl rfl rfl rfl rfl) hs)

theorem makeDecision (h : Closed P) (p : PortId) (hs : P s) : P (Machine.makeDecision p s) := by
  unfold Machine.makeDecision
  dsimp only
  have h1 : P (if (s.sched p).round = .due then Machine.startRound p true s else s) := by
    split
    · exact h.startRound _ _ hs
    · exact hs
  generalize (if (s.sched p).round = .due then Machine.startRound p true s else s) = u at h1 ⊢
  split
  · exact hs
  split
  · exact h.offerRound _ h1
  split
  · exact h.offerTransaction _ _ h1
  · exact h.activateFrom _ _ _ h1

theorem arrive (h : Closed P) (k : SlotId) (hs : P s) : P (Machine.arrive k s) := by
  unfold Machine.arrive
  dsimp only
  split
  · exact h.makeDecision _ (h.setSched _ _ (fun ok => ok.keep rfl rfl rfl rfl rfl rfl) hs)
  · exact h.makeDecision _ (h.setSched _ _ (fun ok => ok.keep rfl rfl rfl rfl rfl rfl) hs)
  · exact h.setSched _ _ (fun ok => ok.keep rfl rfl rfl rfl rfl rfl) hs
  · exact h.completeSlot _ _ hs
  · exact h.completeSlot _ _ hs
  · exact h.completeSlot _ _ hs

theorem settleFollower (h : Closed P) (r : RqId) (k : SlotId) (st : Status) (hs : P s) :
    P (Machine.settleFollower r k st s) := by
  unfold Machine.settleFollower
  split
  · rename_i j hj
    have hw := List.find?_some hj
    simp only [Bool.and_eq_true, beq_iff_eq] at hw
    split
    · exact h.arrive _ (h.setSlot _ _ ⟨rfl, rfl, .inr ⟨by simp [Slot.isOpen, hw.1], rfl⟩⟩ hs)
    · exact h.completeSlot _ _ hs
  · split
    · exact h.setRq _ _ (fun ok => ok.keep rfl rfl rfl rfl rfl) ⟨rfl, rfl, .rfl⟩ hs
    · exact hs

theorem endCompletion (h : Closed P) (k : SlotId) (hs : P s) : P (Machine.endCompletion k s) := by
  unfold Machine.endCompletion
  dsimp only
  split
  · rename_i hd
    exact h.settleFollower _ _ _ (h.freeSlot _ hd hs)
  · exact hs

theorem settleDiscarded (h : Closed P) : ∀ (n : Nat) (s : State), P s → P (Machine.settleDiscarded n s)
  | 0, _, hs => hs
  | n + 1, s, hs => by
    unfold Machine.settleDiscarded
    split
    · exact hs
    · exact settleDiscarded h n _ (h.endCompletion _ (h.discarded _ _ hs))

theorem settle (h : Closed P) (hs : P s) : P (Machine.settle s) := h.settleDiscarded _ _ hs

theorem flushQueue (h : Closed P) (p : PortId) (st : Status) (hs : P s) : P (Machine.flushQueue p st s) :=
  Within.foldl _ (fun _ _ hs => h.settle (h.completeSlot _ _ hs)) _ _ (h.setSched _ _ (fun ok => ok.keep rfl rfl rfl rfl rfl rfl) hs)

theorem flushPort (h : Closed P) (p : PortId) (st : Status) (hs : P s) : P (Machine.flushPort p st s) := by
  unfold Machine.flushPort
  dsimp only
  refine h.flushQueue _ _ ?_
  split
  · exact hs
  · exact h.settle (h.cutActive _ _ _ hs)

theorem sendUnblocked (h : Closed P) (hs : P s) : P (Machine.sendUnblocked s) := by
  refine Within.foldl _ (fun u v hu => ?_) _ _ hs
  dsimp only
  split
  · exact h.messageDue _ (h.msix _ _ hu)
  · exact hu

theorem writeMsix (h : Closed P) (w : MsixWrite) (hs : P s) : P (Machine.writeMsix w s) :=
  h.sendUnblocked (h.msix _ _ hs)

theorem dequeue (h : Closed P) (k : SlotId) (hs : P s) : P (Machine.dequeue k s) :=
  h.setSched _ _ (fun ok => ok.keep rfl rfl rfl rfl rfl rfl) hs

theorem abortWaiting (h : Closed P) (k : SlotId) (hs : P s) : P (Machine.abortWaiting k s) :=
  h.completeSlot _ _ (h.dequeue _ hs)

theorem markAbort (h : Closed P) (k : SlotId) (requester : Option SlotId) (hs : P s) :
    P (Machine.markAbort k requester s) := by
  unfold Machine.markAbort
  have h1 : ∀ a r, P (s.setSlot k { s.slot k with abortPending := a, abortRequester := r }) := fun _ _ =>
    h.setSlot _ _ ⟨rfl, rfl, .inl rfl⟩ hs
  dsimp only
  split <;> split
  · exact h.makeDecision _ (h.cutActive _ _ _ (h1 _ _))
  · exact h1 _ _
  · exact h.makeDecision _ (h.cutActive _ _ _ (h1 _ _))
  · exact h1 _ _

theorem startDraining (h : Closed P) (r : RqId) (ha : (s.rq r).state ≠ .absent) (hs : P s) :
    P (Machine.startDraining r s) := by
  unfold Machine.startDraining
  dsimp only
  exact Within.foldl _ (fun _ k hs => h.markAbort k none hs) _ _
    (Within.foldl _ (fun _ k hs => h.abortWaiting k hs) _ _
      (h.setRq _ _ (fun ok => ok.draining ha) ⟨rfl, rfl, by simp [ha]⟩ hs))

theorem okExchange (h : Closed P) (p : PortId) (a : Attempt) (e : AttemptEnd) (hs : P s) :
    P (Machine.okExchange p a e s) :=
  h.makeDecision _ (h.deliverOutcome _ _ _ (h.setLink _ _ (fun ok => ok.zero rfl rfl) rfl hs))

/-- The state of every link stays as it is. -/
theorem statesAre (st : PortId → LinkState) : Closed fun u => ∀ q, (u.link q).state = st q where
  scheds _ _ _ h := h
  sensors _ _ _ _ h := h
  hold _ _ _ _ _ _ _ h := h
  lines _ _ _ h := h
  setRq _ _ _ _ h := h
  dropRq _ _ _ h := h
  setCr _ _ _ _ h := h
  setSr _ _ _ _ h := h
  writeSr _ _ _ _ h := h
  setSlot _ _ _ h := h
  post _ _ _ _ _ _ _ _ h := h
  discard _ _ _ _ _ _ _ _ h := h
  lose _ _ _ _ _ _ _ _ h := h
  free _ _ _ h := h
  slotOrder _ _ h := h
  fetch _ _ _ h := h
  nextIoRing _ _ _ h := h
  axInbox _ _ h := h
  axInFlight _ _ _ h := h
  msix _ _ h := h
  outbox _ _ h := h
  discarded _ _ h := h
  sent _ _ h := h
  raise _ _ _ _ h := by unfold raiseNotice; split <;> exact h
  dropNotices _ _ _ h := h
  links _ _ _ hv h q := (hv q).trans (h q)

/-- An object with no admin request in flight gets none. -/
theorem notInFlight (o : AdminObject) : Closed fun u => ∀ e ∈ u.axInFlight, e.object ≠ o where
  scheds _ _ _ h := h
  sensors _ _ _ _ h := h
  hold _ _ _ _ _ _ _ h := h
  lines _ _ _ h := h
  setRq _ _ _ _ h := h
  dropRq _ _ _ h := h
  setCr _ _ _ _ h := h
  setSr _ _ _ _ h := h
  writeSr _ _ _ _ h := h
  setSlot _ _ _ h := h
  post _ _ _ _ _ _ _ _ h := h
  discard _ _ _ _ _ _ _ _ h := h
  lose _ _ _ _ _ _ _ _ h := h
  free _ _ _ h := h
  slotOrder _ _ h := h
  fetch _ _ _ h := h
  nextIoRing _ _ _ h := h
  axInbox _ _ h := h
  axInFlight _ _ hv h e he := h e (hv.subset he)
  msix _ _ h := h
  outbox _ _ h := h
  discarded _ _ h := h
  sent _ _ h := h
  raise _ _ _ _ h := by unfold raiseNotice; split <;> exact h
  dropNotices _ _ _ h := h
  links _ _ _ _ h := h

end Closed

/-- A sensor that is not ACQUIRING does not become so. -/
theorem Within.quiet (n : SensorId) : Within fun u => (u.sensor n).state ≠ .acquiring where
  scheds _ _ _ h := h
  sensors _ _ _ ht h e := h ((ht n).acquiring e)
  hold s m _ _ _ _ _ h := by
    rw [State.sensor_setSensor]
    split
    · rename_i e; subst e; exact h
    · exact h
  lines _ _ _ h := h
  setRq _ _ _ _ h := h
  dropRq _ _ _ h := h
  setCr _ _ _ _ h := h
  setSr _ _ _ _ h := h
  writeSr _ _ _ _ h := h
  setSlot _ _ _ h := h
  post _ _ _ _ _ _ _ _ h := h
  discard _ _ _ _ _ _ _ _ h := h
  lose _ _ _ _ _ _ _ _ h := h
  free _ _ _ h := h
  slotOrder _ _ h := h
  fetch _ _ _ h := h
  nextIoRing _ _ _ h := h
  axInbox _ _ h := h
  axInFlight _ _ _ h := h
  msix _ _ h := h
  outbox _ _ h := h
  discarded _ _ h := h
  sent _ _ h := h
  raise _ _ _ _ h := by unfold raiseNotice; split <;> exact h
  dropNotices _ _ _ h := h

/-- A suspended sensor is not ACQUIRING (R66). -/
theorem suspendSensor_quiet (n : SensorId) (s : State) : ((suspendSensor n s).sensor n).state ≠ .acquiring := by
  unfold suspendSensor
  dsimp only
  split
  · rw [postRecord_state, State.sensor_setSensor_same]
    simp
  · assumption

/-- A suspended port has no ACQUIRING sensor (R66). -/
theorem suspendPort_quiet (p : PortId) (s : State) (n : SensorId) (hn : n ∈ sensorsOf p) :
    ((suspendPort p s).sensor n).state ≠ .acquiring := by
  unfold suspendPort
  generalize sensorsOf p = l at hn
  induction l generalizing s with
  | nil => cases hn
  | cons m l ih =>
    by_cases hm : n ∈ l
    · exact ih _ hm
    · obtain rfl : n = m := (List.mem_cons.1 hn).resolve_right hm
      exact Within.foldl (P := fun u => (u.sensor n).state ≠ .acquiring) (fun s n => suspendSensor n s)
        (fun _ k hs => (Within.quiet n).suspendSensor k hs) l _ (suspendSensor_quiet n s)

end Sys2Proof.Machine
end

