-- ==== Sys2Proof/Laws/Steps.lean ====
section
/-! SUPPORT. What no step but a host write or a device reset can do (`Steps`): beside the moves of `Closed`, the moves that
single commands make: links change state, rings are created and deleted, entries are consumed, fetches are issued and end,
the device halts and is enabled. A property is indexed by the port, if any, whose link or sensors are in the middle of an
event: there alone the states of the link and of its sensors may disagree (R57). -/

namespace Sys2Proof.Machine

/-- A property that survives every move of a step. -/
structure Steps (P : Option PortId → State → Prop) : Prop where
  closed : ∀ e, Closed (P e)
  /-- An event begins at a port. -/
  weaken : ∀ {s : State} (p : PortId), P none s → P (some p) s
  /-- It ends with the link and the sensors of the port in accord (R57). -/
  settled : ∀ {s : State} (p : PortId),
    ((s.link p).state.polls = true ∨ ∀ n ∈ sensorsOf p, (s.sensor n).state ≠ .acquiring) → P (some p) s → P none s
  relink : ∀ {s : State} (e : Option PortId) (p : PortId) (x : LinkEngine), ((s.link p).Ok → x.Ok) →
    ((s.link p).state.polls = true → x.state.polls = true ∨ e = some p) → P e s → P e (s.setLink p x)
  acquire : ∀ {s : State} (e : Option PortId) (n : SensorId) (x : Sensor), ((s.sensor n).Ok → x.Ok) →
    x.state = .acquiring → x.ring = (s.sensor n).ring → x.held = (s.sensor n).held →
    ((s.link (portOf n)).state.polls = true ∨ e = some (portOf n)) → P e s → P e (s.setSensor n x)
  headUpdate : ∀ {s : State} (i : SrId) (index : Nat), (s.sr i).state ≠ .absent → index < (s.sr i).size →
    headPasses index (s.sr i).consumer (s.sr i).producer (s.sr i).size = true → P none s →
    P none (sampleHeadUpdate i index s)
  srFault : ∀ {s : State} (i : SrId) (entry : Nat), P none s → P none (sampleRingFault i entry s)
  createRq : ∀ {s : State} (k : SlotId) (r : RqId) (base size : Nat) (c : CrId), (s.slot k).state = .active →
    (s.rq r).state = .absent → (s.cr c).state = .active → 2 ≤ size ∧ size ≤ 4096 → P none s →
    P none (Machine.createRq r base size c s)
  createCr : ∀ {s : State} (k : SlotId) (r : CrId) (base size : Nat) (v : VectorId) (count time : Nat),
    (s.slot k).state = .active → (s.cr r).state = .absent → 2 ≤ size ∧ size ≤ 4096 → count ≤ 255 → P none s →
    P none (Machine.createCr r base size v count time s)
  createSr : ∀ {s : State} (r : SrId) (base size : Nat) (v : VectorId) (count time low high : Nat),
    (s.sr r).state = .absent → 16 ≤ size ∧ size ≤ 65536 → count ≤ 255 → 1 ≤ low ∧ low < high ∧ high + 1 ≤ size →
    P none s → P none (Machine.createSr r base size v count time low high s)
  deleteCr : ∀ {s : State} (r : CrId), crInUse r s = false → P none s → P none (s.setCr r .initial)
  deleteSr : ∀ {s : State} (r : SrId), srInUse r s = false → P none s → P none (s.setSr r .initial)
  crConsumed : ∀ {s : State} (r : CrId) (index : Nat), (s.cr r).state ≠ .absent → index < (s.cr r).size →
    headPasses index (s.cr r).consumer (s.cr r).producer (s.cr r).size = true → P none s →
    P none (s.setCr r { s.cr r with consumer := index })
  /-- A notice record takes an entry of CR0. -/
  crNotice : ∀ {s : State}, (s.cr 0).state = .active → 0 < (s.cr 0).unreserved → P none s →
    P none (s.setCr 0 (s.cr 0).advance)
  fetchIssued : ∀ {s : State} (f : Fetch), f.live = true → s.fetch = none → eligible f.rq s = true →
    (s.rq f.rq).boundCr = some f.cr → (s.slot f.slot).state = .free → P none s →
    P none { (s.setRq f.rq { s.rq f.rq with slotsHeld := (s.rq f.rq).slotsHeld + 1 }).setCr f.cr
      { s.cr f.cr with reserved := (s.cr f.cr).reserved + 1 } with fetch := some f }
  fetchReturned : ∀ {s : State} (f : Fetch), f.live = true → s.fetch = some f → P none s →
    P none (({ s with fetch := none }.setCr f.cr { s.cr f.cr with reserved := (s.cr f.cr).reserved - 1 }).setRq f.rq
      { s.rq f.rq with slotsHeld := (s.rq f.rq).slotsHeld - 1 })
  fetchArrived : ∀ {s : State} (f : Fetch) (x : Slot), f.live = true → s.fetch = some f → x.isOpen = true →
    x.rq = f.rq → x.cr = f.cr → P none s → P none ({ s with fetch := none }.setSlot f.slot x)
  fetchDropped : ∀ {s : State} (f : Fetch), f.live = false → s.fetch = some f → P none s →
    P none { s with fetch := none }
  inFlightMore : ∀ {s : State} (k : SlotId) (kind : InFlightKind) (o : AdminObject), (∀ e ∈ s.axInFlight, e.object ≠ o) →
    P none s → P none (addInFlight k kind o s)
  window : ∀ {s : State} (w : Window), s.window.SameHostWords w →
    (w.control = s.window.control ∨ s.window.control ≠ .ready ∨
      (∀ r, (s.rq r).state = .absent) ∧ ∀ c, (s.cr c).state = .absent) → P none s → P none { s with window := w }
  enable : ∀ {s : State}, s.window.control = .off → P none s → P none (takeEnable s)
  halt : ∀ {s : State}, P none s → P none (haltBlocks s)

/-! ### What the two moves of a sample ring leave -/

/-- The parts of the machine that a sample record never touches: the host's words, the commands that wait, and every table
but the sensor contexts and the sample rings. -/
structure SameBut (s t : State) : Prop where
  time : t.time = s.time
  window : t.window = s.window
  readData : t.readData = s.readData
  pending : t.pending = s.pending
  links : t.links = s.links
  scheds : t.scheds = s.scheds
  lines : t.lines = s.lines
  rqs : t.rqs = s.rqs
  crs : t.crs = s.crs
  slots : t.slots = s.slots
  fetch : t.fetch = s.fetch

theorem SameBut.refl (s : State) : SameBut s s := ⟨rfl, rfl, rfl, rfl, rfl, rfl, rfl, rfl, rfl, rfl, rfl⟩

theorem SameBut.trans {s t u : State} (h : SameBut s t) (k : SameBut t u) : SameBut s u :=
  ⟨k.time.trans h.time, k.window.trans h.window, k.readData.trans h.readData, k.pending.trans h.pending,
    k.links.trans h.links, k.scheds.trans h.scheds, k.lines.trans h.lines, k.rqs.trans h.rqs, k.crs.trans h.crs,
    k.slots.trans h.slots, k.fetch.trans h.fetch⟩

theorem messageDue_same (v : VectorId) (s : State) : SameBut s (messageDue v s) := by
  unfold messageDue sendMessage
  split
  · split <;> exact ⟨rfl, rfl, rfl, rfl, rfl, rfl, rfl, rfl, rfl, rfl, rfl⟩
  · exact ⟨rfl, rfl, rfl, rfl, rfl, rfl, rfl, rfl, rfl, rfl, rfl⟩

theorem State.setSr_same (s : State) (i : SrId) (x : SampleRing) : SameBut s (s.setSr i x) :=
  ⟨rfl, rfl, rfl, rfl, rfl, rfl, rfl, rfl, rfl, rfl, rfl⟩

theorem signalSr_same (i : SrId) (s : State) : SameBut s (signalSr i s) := by
  unfold signalSr
  dsimp only
  split
  · exact (s.setSr_same i _).trans (messageDue_same _ _)
  · exact s.setSr_same i _

theorem writeRecord_same (n : SensorId) (r : SampleRecord) (s : State) : SameBut s (writeRecord n r s) := by
  have key : ∀ i u, SameBut s u → SameBut s (signalSr i u) := fun i u h => h.trans (signalSr_same i u)
  unfold writeRecord
  exact key _ _ ⟨rfl, rfl, rfl, rfl, rfl, rfl, rfl, rfl, rfl, rfl, rfl⟩

theorem drainHeld_same (n : SensorId) : ∀ (l : List SampleRecord) (s : State), SameBut s (drainHeld n l s)
  | [], _ => ⟨rfl, rfl, rfl, rfl, rfl, rfl, rfl, rfl, rfl, rfl, rfl⟩
  | r :: rest, s => by
    unfold drainHeld
    split
    · exact ⟨rfl, rfl, rfl, rfl, rfl, rfl, rfl, rfl, rfl, rfl, rfl⟩
    · exact (writeRecord_same n r s).trans (drainHeld_same n rest _)

theorem drainRing_same (i : SrId) (s : State) : SameBut s (drainRing i s) :=
  Within.foldl (P := SameBut s) _ (fun u n hu => by
    dsimp only
    split
    · exact hu.trans (drainHeld_same _ _ _)
    · exact hu) _ _ (.refl s)

/-- A head update of a sample ring touches sensor contexts, the ring and the messages and writes alone (R110). -/
theorem sampleHeadUpdate_same (i : SrId) (index : Nat) (s : State) : SameBut s (sampleHeadUpdate i index s) := by
  have h := s.setSr_same i { s.sr i with consumer := index }
  unfold sampleHeadUpdate
  dsimp only
  split
  · exact (h.trans (drainRing_same i _)).trans (State.setSr_same _ _ _)
  · exact h

/-- A write to a sample ring that ended in error touches sensor contexts, the ring and the notices alone (R112). -/
theorem sampleRingFault_same (i : SrId) (entry : Nat) (s : State) : SameBut s (sampleRingFault i entry s) := by
  unfold sampleRingFault raiseNotice
  dsimp only
  split
  · split <;> exact ⟨rfl, rfl, rfl, rfl, rfl, rfl, rfl, rfl, rfl, rfl, rfl⟩
  · exact .refl s

namespace Steps

variable {P : Option PortId → State → Prop} {s : State} {e : Option PortId}

theorem portOf_of_mem {n : SensorId} {p : PortId} (h : n ∈ sensorsOf p) : portOf n = p := by
  revert h; revert p n; decide

/-! ### Links -/

/-- A change of a link at rest that does not take it out of RUNNING and RETRY_WAIT. -/
theorem setLink (h : Steps P) (p : PortId) (x : LinkEngine) (hx : (s.link p).Ok → x.Ok) (hst : x.state = (s.link p).state)
    (hs : P e s) : P e (s.setLink p x) := (h.closed e).setLink p x hx hst hs

/-- The link goes DOWN from a link just set, whose failures may stand at the limit (R27, R28). -/
theorem enterDown_set (h : Steps P) (p : PortId) (x : LinkEngine) (f : LinkFault)
    (hx : (s.link p).Ok → LinkEngine.Ok { x with state := .down }) (hs : P none s) :
    P none (Machine.enterDown p f (s.setLink p x)) := by
  unfold Machine.enterDown
  simp only [State.link_setLink_same, State.setLink_setLink]
  have h1 := h.relink (some p) p { x with state := .down } hx (fun _ => .inr rfl) (h.weaken p hs)
  generalize s.setLink p { x with state := .down } = u at h1 ⊢
  have hc := h.closed (some p)
  have h2 := hc.setSched p (u.sched p).leaveRunning (fun ok => ok.leaveRunning) h1
  have h3 := hc.flushPort p .portDown h2
  generalize Machine.flushPort p _ _ = v at h3 ⊢
  have h4 := h.settled p (.inr (suspendPort_quiet p v)) (hc.suspendPort p h3)
  generalize Machine.suspendPort p _ = v at h4 ⊢
  have h5 := (h.closed none).raise v (.port p) (portDownDetail (portCauseOf f)) v.time h4
  generalize raiseNotice _ _ _ _ = w at h5 ⊢
  exact h.setLink p _ (fun ok => ok.keep rfl rfl rfl) rfl h5

theorem enterDisabled (h : Steps P) (p : PortId) (hp : (s.link p).state.polls = false) (hs : P none s) :
    P none (Machine.enterDisabled p s) :=
  h.relink _ _ _ (fun ok => ok.zero rfl rfl) (fun e => by rw [hp] at e; cases e) hs

theorem enterTraining (h : Steps P) (p : PortId) (origin : TrainingOrigin) (hp : (s.link p).state.polls = false)
    (hs : P none s) : P none (Machine.enterTraining p origin s) :=
  h.relink _ _ _ (fun ok => ok.zero rfl rfl) (fun e => by rw [hp] at e; cases e) hs

/-- What a training end does to one sensor, in the event of its port (R23, R67, R70). -/
theorem trainingEndSensor (h : Steps P) (running : Bool) (n : SensorId) (he : running = true → e = some (portOf n))
    (hs : P e s) : P e (Machine.trainingEndSensor running n s) := by
  unfold Machine.trainingEndSensor
  dsimp only
  split
  · exact hs
  split
  · split
    · rename_i hw
      simp only [Bool.and_eq_true, decide_eq_true_eq] at hw
      exact h.acquire e n _ (fun ok => ok.resumed hw.1) rfl rfl rfl (.inr (he hw.2)) hs
    · exact hs
  split
  · rename_i hst
    refine (h.closed e).faultSensor _ _ _ ?_ (by decide) hs
    rcases hst with e | e <;> rw [e] <;> decide
  · exact hs

theorem trainingEndSensor_states (running : Bool) (n : SensorId) (s : State) (q : PortId) :
    ((Machine.trainingEndSensor running n s).link q) = s.link q := by
  unfold Machine.trainingEndSensor
  dsimp only
  split
  · rfl
  split
  · split <;> rfl
  split
  · rename_i hst
    have := (Within.linksAre s.links).faultSensor (s := s) n .identityChanged s.time
      (by rcases hst with e | e <;> rw [e] <;> decide) (by decide) rfl
    unfold State.link
    rw [this]
  · rfl

theorem trainingEndSensors_link (p q : PortId) (running : Bool) (s : State) :
    ((sensorsOf p).foldl (fun s n => Machine.trainingEndSensor running n s) s).link q = s.link q :=
  Within.foldl (P := fun u => u.link q = s.link q) _
    (fun _ n hs => (trainingEndSensor_states running n _ q).trans hs) _ s rfl

theorem trainingEndSensors (h : Steps P) (running : Bool) (p : PortId) (he : running = true → e = some p) (hs : P e s) :
    P e ((sensorsOf p).foldl (fun s n => Machine.trainingEndSensor running n s) s) := by
  have : ∀ (l : List SensorId) (s : State), (∀ n ∈ l, portOf n = p) → P e s →
      P e (l.foldl (fun s n => Machine.trainingEndSensor running n s) s) := by
    intro l
    induction l with
    | nil => intro s _ hs; exact hs
    | cons n l ih =>
      intro s hl hs
      exact ih _ (fun m hm => hl m (List.mem_cons_of_mem _ hm))
        (h.trainingEndSensor running n (fun hr => by rw [hl n List.mem_cons_self]; exact he hr) hs)
  exact this _ _ (fun n hn => portOf_of_mem hn) hs

theorem endTraining (h : Steps P) (p : PortId) (origin : TrainingOrigin) (entries : List IdentityEntry)
    (ht : (s.link p).state = .training) (hs : P none s) : P none (Machine.endTraining p origin entries s) := by
  unfold Machine.endTraining
  dsimp only
  generalize newIdentity entries = table
  have h0 : P none (s.setLink p { s.link p with identity := table, training := none, attempt := none }) :=
    h.setLink _ _ (fun ok => ok.keep rfl rfl rfl) rfl hs
  have hl := fun b q => trainingEndSensors_link p q b
    (s.setLink p { s.link p with identity := table, training := none, attempt := none })
  have h1 : ((s.setLink p { s.link p with identity := table, training := none, attempt := none }).link p).state
      = .training := by rw [State.link_setLink_same]; exact ht
  generalize s.setLink p { s.link p with identity := table, training := none, attempt := none } = u at h0 hl h1 ⊢
  split
  · rename_i hm
    simp only [hm, decide_true, not_false_eq_true, ne_eq] at hl ⊢
    have h2 := h.trainingEndSensors true p (fun _ => rfl) (h.weaken p h0)
    replace hl := hl true p
    generalize (sensorsOf p).foldl _ u = v at h2 hl ⊢
    have h3 : P none (Machine.enterRunning p v) := by
      refine h.settled p (.inl ?_) ((h.closed _).setSched _ _ (fun ok => ok.keep rfl rfl rfl rfl rfl rfl)
        (h.relink (some p) p _ (fun ok => ok.moved (by rw [hl, h1]; decide) (by simp) rfl rfl) (fun _ => .inl rfl) h2))
      change ((v.setLink p { v.link p with state := .running }).link p).state.polls = true
      rw [State.link_setLink_same]
      rfl
    refine (h.closed none).makeDecision _ ?_
    split
    · exact (h.closed none).completeInFlight _ _ h3
    · exact (h.closed none).raise _ _ _ _ h3
  · rename_i hm
    simp only [hm, decide_false] at hl ⊢
    have h2 := h.trainingEndSensors false p (fun e => by cases e) h0
    replace hl := hl false p
    generalize (sensorsOf p).foldl _ u = v at h2 hl ⊢
    have hp : (v.link p).state.polls = false := by rw [hl, h1]; rfl
    split
    · exact (h.closed none).completeInFlight _ _ ((h.closed none).flushQueue _ _ (h.enterDisabled p hp h2))
    · refine (h.closed none).raise _ _ _ _ ((h.closed none).flushPort _ _ (h.relink _ _ _ (fun ok => ?_) (fun e => ?_) h2))
      · exact ok.down rfl ok.range rfl
      · rw [hp] at e; cases e

theorem trainingExchangeEnd (h : Steps P) (p : PortId) (t : Training) (a : AttemptEnd)
    (ht : (s.link p).state = .training) (hs : P none s) : P none (Machine.trainingExchangeEnd p t a s) := by
  unfold Machine.trainingExchangeEnd
  dsimp only
  split
  · exact h.setLink _ _ (fun ok => ok.keep rfl rfl rfl) rfl hs
  · exact h.endTraining _ _ _ ht hs

theorem finishStopping (h : Steps P) (p : PortId) (o : ExchangeOutcome) (hp : (s.link p).state = .stopping)
    (hs : P none s) : P none (Machine.finishStopping p o s) := by
  refine (h.closed none).completeInFlight _ _ (h.enterDisabled _ ?_ ((h.closed none).settle
    ((h.closed none).deliverOutcome _ _ _ hs)))
  have := (Closed.statesAre fun q => (s.link q).state).settle
    ((Closed.statesAre fun q => (s.link q).state).deliverOutcome p true o (s := s) (fun _ => rfl)) p
  rw [this, hp]
  rfl

theorem startRetryGap (h : Steps P) (p : PortId) (st : LinkState) (a : Attempt)
    (hx : (s.link p).state = st ∨ ((s.link p).state = .running ∧ st = .retryWait)) (hs : P none s) :
    P none (Machine.startRetryGap p st a s) := by
  rcases hx with e | ⟨hr, rfl⟩
  · exact h.setLink _ _ (fun ok => ok.keep e.symm rfl rfl) e.symm hs
  · exact h.relink _ _ _ (fun ok => ok.moved (by rw [hr]; decide) (by simp) rfl rfl) (fun _ => .inl rfl) hs

theorem failedExchange (h : Steps P) (p : PortId) (a : Attempt) (f : LinkFault) (hr : (s.link p).state = .running)
    (hs : P none s) : P none (Machine.failedExchange p a f s) := by
  unfold Machine.failedExchange
  dsimp only
  generalize outcomeOf (s.link p) a (.fault f) = o
  have h1 : P none (Machine.deliverOutcome p false o (s.setLink p { s.link p with attempt := none })) :=
    (h.closed none).deliverOutcome _ _ _ (h.setLink _ _ (fun ok => ok.keep rfl rfl rfl) rfl hs)
  have h2 : ((Machine.deliverOutcome p false o (s.setLink p { s.link p with attempt := none })).link p).state = .running := by
    rw [deliverOutcome_link, State.link_setLink_same]
    exact hr
  generalize Machine.deliverOutcome p false o (s.setLink p { s.link p with attempt := none }) = u at h1 h2 ⊢
  have hd : (u.link p).state ≠ .down := by rw [h2]; decide
  simp only [State.link_setLink_same]
  split
  · exact h.enterDown_set _ _ _ (fun ok => ok.down rfl (ok.oneMore hd) rfl) h1
  · rename_i hlt
    refine (h.closed none).makeDecision _ (h.setLink _ _ (fun ok => ?_) rfl h1)
    exact ⟨ok.parameters, fun e => by simp [h2] at e, fun _ => by simpa using hlt, ok.oneMore hd⟩

theorem endAttempt (h : Steps P) (p : PortId) (a : AttemptEnd) (hs : P none s) : P none (Machine.endAttempt p a s) := by
  unfold Machine.endAttempt
  dsimp only
  split
  · exact hs
  rename_i a0 _
  have h1 : P none (s.setLink p { s.link p with attempt := some (a0.finished a), lastEnd := some s.time }) :=
    h.setLink _ _ (fun ok => ok.keep rfl rfl rfl) rfl hs
  have h2 : ((s.setLink p { s.link p with attempt := some (a0.finished a), lastEnd := some s.time }).link p).state
      = (s.link p).state := by rw [State.link_setLink_same]
  generalize s.setLink p { s.link p with attempt := some (a0.finished a), lastEnd := some s.time } = u at h1 h2 ⊢
  split
  · rename_i hst
    rw [hst] at h2
    split
    · exact h.startRetryGap _ _ _ (.inl h2) h1
    · split
      · exact h.trainingExchangeEnd _ _ _ h2 h1
      · exact h1
  · rename_i hst
    rw [hst] at h2
    split
    · exact h.trainingExchangeEnd _ _ _ h2 h1
    · exact h1
  · rename_i hst
    rw [hst] at h2
    split
    · exact h.startRetryGap _ _ _ (.inr ⟨h2, rfl⟩) h1
    · exact h.failedExchange _ _ _ h2 h1
  · exact (h.closed none).okExchange _ _ _ h1
  · rename_i hst
    rw [hst] at h2
    refine h.finishStopping _ _ ?_ (h.setLink _ _ (fun ok => ok.keep rfl rfl rfl) rfl h1)
    rw [State.link_setLink_same]
    exact h2
  · exact h1

/-! ### Device.lean -/

theorem beginHalt (h : Steps P) (hs : P none s) : P none (Machine.beginHalt s) :=
  h.window _ ⟨rfl, rfl, rfl, rfl⟩ (.inr (.inr ⟨fun r => by simp [haltBlocks, State.rq, RequestRing.initial],
    fun c => by simp [haltBlocks, State.cr, CompletionRing.initial]⟩)) (h.halt hs)

theorem fatalError (h : Steps P) (hs : P none s) : P none (Machine.fatalError s) := by
  unfold Machine.fatalError
  split
  · exact h.beginHalt (h.window _ ⟨rfl, rfl, rfl, rfl⟩ (.inl rfl) hs)
  · exact hs

theorem writeEnableOne (h : Steps P) (hs : P none s) : P none (Machine.writeEnableOne s) := by
  unfold Machine.writeEnableOne
  dsimp only
  have h1 : P none { s with window := { s.window with enable := true } } := h.window _ ⟨rfl, rfl, rfl, rfl⟩ (.inl rfl) hs
  split
  · exact hs
  split
  · rename_i ho
    exact h.enable ho h1
  · exact h1

theorem writeEnableZero (h : Steps P) (hs : P none s) : P none (Machine.writeEnableZero s) := by
  unfold Machine.writeEnableZero
  dsimp only
  have h1 : P none { s with window := { s.window with enable := false } } := h.window _ ⟨rfl, rfl, rfl, rfl⟩ (.inl rfl) hs
  split
  · exact hs
  split
  · exact h.beginHalt h1
  · exact h1

theorem badNotify (h : Steps P) (hs : P none s) : P none (Machine.badNotify s) :=
  h.window _ ⟨rfl, rfl, rfl, rfl⟩ (.inl rfl) hs

theorem writeStatus (h : Steps P) (v : BitVec 32) (hs : P none s) : P none (Machine.writeStatus v s) := by
  unfold Machine.writeStatus
  split
  · exact h.window _ ⟨rfl, rfl, rfl, rfl⟩ (.inl rfl) hs
  · exact hs

theorem notifyRqTail (h : Steps P) (id index : Nat) (hs : P none s) : P none (Machine.notifyRqTail id index s) := by
  unfold Machine.notifyRqTail
  split
  · exact h.badNotify hs
  dsimp only
  split
  · exact h.badNotify hs
  · rename_i hn
    simp only [not_or, not_le] at hn
    exact (h.closed none).setRq _ _ (fun ok => ok.notified index hn.2) ⟨rfl, rfl, .rfl⟩ hs

theorem notifyCrHead (h : Steps P) (id index : Nat) (hs : P none s) : P none (Machine.notifyCrHead id index s) := by
  unfold Machine.notifyCrHead
  split
  · exact h.badNotify hs
  dsimp only
  split
  · exact h.badNotify hs
  · rename_i hn
    simp only [not_or, not_le, Bool.not_eq_false] at hn
    exact h.crConsumed _ _ hn.1 hn.2.1 hn.2.2 hs

theorem notifySrHead (h : Steps P) (id index : Nat) (hs : P none s) : P none (Machine.notifySrHead id index s) := by
  unfold Machine.notifySrHead
  split
  · exact h.badNotify hs
  dsimp only
  split
  · exact h.badNotify hs
  · rename_i hn
    simp only [not_or, not_le, Bool.not_eq_false] at hn
    exact h.headUpdate _ _ hn.1 hn.2.1 hn.2.2 hs

theorem writeRingNotify (h : Steps P) (v : BitVec 32) (hs : P none s) : P none (Machine.writeRingNotify v s) := by
  unfold Machine.writeRingNotify
  dsimp only
  split
  · exact h.notifyRqTail _ _ hs
  · exact h.notifyCrHead _ _ hs
  · exact h.notifySrHead _ _ hs
  · exact h.badNotify hs

end Steps

end Sys2Proof.Machine
end

