-- ==== Sys2Proof/Laws/ClosureExec.lean ====
section
/-! SUPPORT. Every command but the four that write the host's own words (REGISTER_WRITE, TIME_LOW_READ and the two resets)
keeps every property that survives the moves of a step (`Steps.exec`). -/

namespace Sys2Proof.Machine.Steps

variable {P : Option PortId → State → Prop} {s : State}

/-! ### FetchCommands.lean -/

/-- Between events every move of `Closed` is open. -/
theorem on (h : Steps P) : Closed (P none) := h.closed none

theorem issueFetch (h : Steps P) (r : RqId) (c : CrId) (k : SlotId) (hf : s.fetch = none) (hr : eligible r s = true)
    (hc : (s.rq r).boundCr = some c) (hk : (s.slot k).state = .free) (hs : P none s) :
    P none (Machine.issueFetch r c k s) := by
  have hn : ∀ u : State, u.nextIoRing ≠ 0 → (if r = 0 then u.nextIoRing else ringAfter r) ≠ 0 := by
    intro u hu
    split
    · exact hu
    · clear hr hc; revert r; decide
  exact h.on.takeRead _ (h.on.nextIoRing _ _ (hn _) (h.fetchIssued
    { rq := r, cr := c, slot := k, entry := (s.rq r).fetchHead, address := (s.rq r).base + 64 * (s.rq r).fetchHead,
      read := .waiting, live := true } rfl hf hr hc hk hs))

theorem fetchError (h : Steps P) (f : Fetch) (hl : f.live = true) (hf : s.fetch = some f) (hs : P none s) :
    P none (Machine.fetchError f { s with fetch := none }) := by
  have h1 := h.fetchReturned f hl hf hs
  have h2 : (({ s with fetch := none }.setCr f.cr { s.cr f.cr with reserved := (s.cr f.cr).reserved - 1 }).setRq f.rq
      { s.rq f.rq with slotsHeld := (s.rq f.rq).slotsHeld - 1 }).rq f.rq
        = { s.rq f.rq with slotsHeld := (s.rq f.rq).slotsHeld - 1 } := State.rq_setRq_same _ _ _
  obtain ⟨u, hu⟩ : ∃ u, u = ({ s with fetch := none }.setCr f.cr
    { s.cr f.cr with reserved := (s.cr f.cr).reserved - 1 }).setRq f.rq
      { s.rq f.rq with slotsHeld := (s.rq f.rq).slotsHeld - 1 } := ⟨_, rfl⟩
  rw [← hu] at h1 h2
  have h0 : Machine.fetchError f { s with fetch := none } =
      if f.rq = 0 then Machine.fatalError u
      else if (s.rq f.rq).state = .active then
        raiseNotice (.rq f.rq) (failedEntryDetail f.entry)
          (u.setRq f.rq { u.rq f.rq with state := .faulted, failedEntry := some f.entry }).time
          (u.setRq f.rq { u.rq f.rq with state := .faulted, failedEntry := some f.entry })
      else if (s.rq f.rq).state = .draining ∧ (s.rq f.rq).slotsHeld - 1 = 0 then
        Machine.completeInFlight (.rq f.rq) (.plain .success) (u.setRq f.rq .initial)
      else u := by
    rw [hu]
    rfl
  rw [h0]
  split
  · exact h.fatalError h1
  split
  · rename_i ha
    refine h.on.raise _ _ _ _ (h.on.setRq _ _ (fun ok => ok.faulted ?_ _) ⟨rfl, rfl, ?_⟩ h1)
    · rw [h2]
      change (s.rq f.rq).state ≠ _
      rw [ha]
      decide
    · rw [h2]
      simp [ha]
  split
  · rename_i hd
    exact h.on.completeInFlight _ _ (h.on.dropRq _ _ (by rw [h2]; exact hd.2) h1)
  · exact h1

theorem refuseArrival (h : Steps P) (f : Fetch) (link : Bool) (st : Status) (hs : P none s) :
    P none (Machine.refuseArrival f link st s) :=
  h.on.completeSlot _ _ (h.on.setRq _ _ (fun ok => ok.keep rfl rfl rfl rfl rfl) ⟨rfl, rfl, .rfl⟩ hs)

theorem placeByChain (h : Steps P) (f : Fetch) (sl : Slot) (ho : (s.slot f.slot).isOpen = true)
    (hr : sl.rq = (s.slot f.slot).rq) (hc : sl.cr = (s.slot f.slot).cr) (hs : P none s) :
    P none (Machine.placeByChain f sl s) := by
  unfold Machine.placeByChain
  have h1 : ∀ c, P none (s.setRq f.rq { s.rq f.rq with chain := c }) := fun c =>
    h.on.setRq _ _ (fun ok => ok.keep rfl rfl rfl rfl rfl) ⟨rfl, rfl, .rfl⟩ hs
  dsimp only
  split
  · exact h.on.arrive _ (h.on.setSlot _ _ ⟨hr, hc, .inr ⟨ho, rfl⟩⟩ (h1 _))
  · exact h.on.setSlot _ _ ⟨hr, hc, .inr ⟨ho, rfl⟩⟩ (h1 _)
  · exact h.on.completeSlot _ _ (h1 _)

theorem fetchArrival (h : Steps P) (f : Fetch) (e : BitVec 512) (hl : f.live = true) (hf : s.fetch = some f)
    (hs : P none s) : P none (Machine.fetchArrival f e { s with fetch := none }) := by
  unfold Machine.fetchArrival
  dsimp only
  have h0 := h.on.setRq f.rq { s.rq f.rq with fetchHead := ((s.rq f.rq).fetchHead + 1) % (s.rq f.rq).size }
    (fun ok => ok.fetched) ⟨rfl, rfl, .rfl⟩ hs
  have h1 : P none (({ s with fetch := none }.setRq f.rq
      { s.rq f.rq with fetchHead := ((s.rq f.rq).fetchHead + 1) % (s.rq f.rq).size }).setSlot f.slot
      { fetchedSlot f e with state := .active }) :=
    h.fetchArrived (s := s.setRq f.rq _) f _ hl hf rfl rfl rfl h0
  have h2 := h.on.slotOrder _ ((({ s with fetch := none }.setRq f.rq
      { s.rq f.rq with fetchHead := ((s.rq f.rq).fetchHead + 1) % (s.rq f.rq).size }).setSlot f.slot
      { fetchedSlot f e with state := .active }).slotOrder ++ [f.slot]) h1
  have h3 := h.on.axInbox _ (s.axInbox ++ [f.slot]) h2
  split
  · exact h.refuseArrival _ _ _ h2
  by_cases hrq : f.rq = 0
  · rw [if_pos hrq, if_pos hrq, if_pos hrq]
    split
    · exact h.on.completeSlot _ _ h2
    · exact h3
  · rw [if_neg hrq, if_neg hrq, if_neg hrq]
    split
    · exact h.refuseArrival _ _ _ h2
    · have hk : ∀ u : State, (u.setSlot f.slot { fetchedSlot f e with state := .active }).slot f.slot
          = { fetchedSlot f e with state := .active } := fun u => State.slot_setSlot_same _ _ _
      refine h.placeByChain _ _ ?_ ?_ ?_ h2
      · exact congrArg Slot.isOpen (hk _)
      · exact (congrArg Slot.rq (hk _)).symm
      · exact (congrArg Slot.cr (hk _)).symm

theorem endFetch (h : Steps P) (f : Fetch) (r : FetchReturn) (hf : s.fetch = some f) (hs : P none s) :
    P none (Machine.endFetch f r s) := by
  unfold Machine.endFetch
  dsimp only
  split
  · rename_i hl
    exact h.fetchDropped f (by simpa using hl) hf hs
  rename_i hl
  have hlive : f.live = true := by simpa using hl
  split
  · exact h.on.settle (h.fetchArrival _ _ hlive hf hs)
  · exact h.on.settle (h.fetchError _ hlive hf hs)

/-! ### AdminCommands.lean -/

theorem axTake (h : Steps P) (k : SlotId) (hs : P none s) {t : State} (ht : Machine.axTake k s = some t) : P none t := by
  unfold Machine.axTake at ht
  split at ht
  · cases ht; exact h.on.axInbox _ _ hs
  · cases ht

theorem axTake_slot {k : SlotId} {t : State} (ht : Machine.axTake k s = some t) : (t.slot k).state = .active := by
  unfold Machine.axTake at ht
  split at ht
  · rename_i hk
    cases ht
    exact hk.2
  · cases ht

theorem notInFlight_of {o : AdminObject} (ho : ¬ isInFlight o s = true) : ∀ e ∈ s.axInFlight, e.object ≠ o := by
  intro e he hc
  apply ho
  unfold isInFlight
  exact List.any_eq_true.2 ⟨e, he, by simp [hc]⟩

theorem answer (h : Steps P) (k : SlotId) (r : Result) (hs : P none s) : P none (Machine.answer k r s) :=
  h.on.settle (h.on.completeSlot _ _ (h.on.settle hs))

theorem createRequestRing (h : Steps P) (k : SlotId) (b : CreateRingBody) (hk : (s.slot k).state = .active) (hs : P none s) :
    P none (Machine.createRequestRing k b s) := by
  unfold Machine.createRequestRing
  split
  · exact h.answer _ _ hs
  split
  · exact h.answer _ _ hs
  split
  · exact h.answer _ _ hs
  split
  · exact h.answer _ _ hs
  split
  · exact h.answer _ _ hs
  split
  · rename_i ha _ _ _ hc
    exact h.answer _ _ (h.createRq k _ _ _ _ hk (not_not.1 ha) hc.2.2.2.2 ⟨hc.2.1, hc.2.2.1⟩ hs)
  · exact h.answer _ _ hs

theorem createCompletionRing (h : Steps P) (k : SlotId) (b : CreateRingBody) (hk : (s.slot k).state = .active) (hs : P none s) :
    P none (Machine.createCompletionRing k b s) := by
  unfold Machine.createCompletionRing
  split
  · exact h.answer _ _ hs
  split
  · exact h.answer _ _ hs
  split
  · exact h.answer _ _ hs
  split
  · exact h.answer _ _ hs
  split
  · rename_i ha _ _ _ hc
    exact h.answer _ _ (h.createCr k _ _ _ _ _ _ hk (not_not.1 ha) ⟨hc.2.1, hc.2.2.1⟩ hc.2.2.2.2.1 hs)
  · exact h.answer _ _ hs

theorem createSampleRing (h : Steps P) (k : SlotId) (b : CreateRingBody) (hs : P none s) :
    P none (Machine.createSampleRing k b s) := by
  unfold Machine.createSampleRing
  split
  · exact h.answer _ _ hs
  split
  · exact h.answer _ _ hs
  split
  · exact h.answer _ _ hs
  split
  · rename_i ha _ _ _ hc
    exact h.answer _ _ (h.createSr _ _ _ _ _ _ _ _ (not_not.1 ha) ⟨hc.2.1, hc.2.2.1⟩ hc.2.2.2.2.1 hc.2.2.2.2.2.2 hs)
  · exact h.answer _ _ hs

theorem deleteRequestRing (h : Steps P) (k : SlotId) (id : Nat) (hs : P none s) : P none (Machine.deleteRequestRing k id s) := by
  unfold Machine.deleteRequestRing
  split
  · exact h.answer _ _ hs
  split
  · exact h.answer _ _ hs
  split
  · exact h.answer _ _ hs
  split
  · exact h.answer _ _ hs
  split
  · rename_i hz
    exact h.answer _ _ (h.on.dropRq _ _ hz hs)
  · rename_i hi ha _
    exact h.on.settle (h.on.startDraining _ ha (h.inFlightMore _ _ _ (notInFlight_of hi) hs))

theorem deleteCompletionRing (h : Steps P) (k : SlotId) (id : Nat) (hs : P none s) :
    P none (Machine.deleteCompletionRing k id s) := by
  unfold Machine.deleteCompletionRing
  split
  · exact h.answer _ _ hs
  split
  · exact h.answer _ _ hs
  split
  · exact h.answer _ _ hs
  split
  · exact h.answer _ _ hs
  · rename_i hu
    exact h.answer _ _ (h.on.outbox _ _ (h.deleteCr _ (by simpa using hu) hs))

theorem deleteSampleRing (h : Steps P) (k : SlotId) (id : Nat) (hs : P none s) : P none (Machine.deleteSampleRing k id s) := by
  unfold Machine.deleteSampleRing
  split
  · exact h.answer _ _ hs
  split
  · exact h.answer _ _ hs
  split
  · exact h.answer _ _ hs
  · rename_i hu
    exact h.answer _ _ (h.on.outbox _ _ (h.deleteSr _ (by simpa using hu) hs))

theorem onPort (h : Steps P) (k : SlotId) (port : Nat) (effect : PortId → State → State)
    (he : ∀ p s, (∀ e ∈ s.axInFlight, e.object ≠ .port p) → P none s → P none (effect p s)) (hs : P none s) :
    P none (Machine.onPort k port effect s) := by
  unfold Machine.onPort
  split
  · exact h.answer _ _ hs
  split
  · exact h.answer _ _ hs
  · rename_i hi
    exact he _ _ (notInFlight_of hi) hs

theorem takePortConfig (h : Steps P) (k : SlotId) (b : PortConfigBody) (p : PortId) (hs : P none s) :
    P none (Machine.takePortConfig k b p s) := by
  unfold Machine.takePortConfig
  dsimp only
  split
  · exact h.answer _ _ hs
  rename_i hst
  split
  · exact h.answer _ _ hs
  · rename_i q hq
    refine h.answer _ _ (h.setLink _ _ (fun ok => ok.configured ?_ (PortConfigBody.parameters_inRange hq) _) rfl hs)
    by_contra hc
    simp only [not_or] at hc
    exact hst hc

theorem takePortStart (h : Steps P) (k : SlotId) (p : PortId) (hi : ∀ e ∈ s.axInFlight, e.object ≠ .port p)
    (hs : P none s) : P none (Machine.takePortStart k p s) := by
  unfold Machine.takePortStart
  dsimp only
  split
  · rename_i e; exact h.inFlightMore _ _ _ hi (h.enterTraining _ _ (by rw [e]; rfl) hs)
  · rename_i e; exact h.inFlightMore _ _ _ hi (h.enterTraining _ _ (by rw [e]; rfl) hs)
  · exact h.inFlightMore _ _ _ hi (h.setLink _ _ (fun ok => ok.keep rfl rfl rfl) rfl hs)
  · exact h.answer _ _ hs
  · exact h.answer _ _ hs
  · exact h.answer _ _ hs

/-- The exchange that a PORT_STOP finds between attempts ends, in the event of its port or outside it (R31). -/
theorem endStoppedExchange {P : State → Prop} (h : Closed P) (p : PortId) (a : Attempt) (hs : P s) :
    P (Machine.endStoppedExchange p a s) := by
  unfold Machine.endStoppedExchange
  dsimp only
  have h1 : P (s.setLink p { s.link p with attempt := none }) := h.setLink _ _ (fun ok => ok.keep rfl rfl rfl) rfl hs
  generalize s.setLink p _ = u at h1 ⊢
  split
  · split
    · exact h.cutActive _ _ _ (h.setSched _ _ (fun ok => ok.keep rfl rfl rfl rfl rfl rfl) h1)
    · exact h.setSched _ _ (fun ok => ok.keep rfl rfl rfl rfl rfl rfl) h1
  · exact h.deliverOutcome _ _ _ h1

theorem stopPort (h : Steps P) (k : SlotId) (p : PortId) (hd : (s.link p).state ≠ .down)
    (hi : ∀ e ∈ s.axInFlight, e.object ≠ .port p) (hs : P none s) : P none (Machine.stopPort k p s) := by
  unfold Machine.stopPort
  dsimp only
  have h1 : P (some p) (s.setLink p { s.link p with state := .stopping, training := none, retryGapTimer := none }) :=
    h.relink _ _ _ (fun ok => ok.moved hd (by simp) rfl rfl) (fun _ => .inr rfl) (h.weaken p hs)
  have hl : ∀ q, ((s.setLink p { s.link p with state := .stopping, training := none, retryGapTimer := none }).link q).state
      = if p = q then .stopping else (s.link q).state := by
    intro q
    rw [State.link_setLink]
    split <;> rfl
  have hi1 : ∀ e ∈ (s.setLink p { s.link p with state := .stopping, training := none, retryGapTimer := none }).axInFlight,
      e.object ≠ .port p := hi
  generalize s.setLink p _ = u at h1 hl hi1 ⊢
  have key : ∀ {Q : State → Prop}, Closed Q → Q u →
      Q (Machine.suspendPort p (Machine.flushPort p .portStopped (u.setSched p (u.sched p).leaveRunning))) :=
    fun hQ hu => hQ.suspendPort p (hQ.flushPort p .portStopped (hQ.setSched p (u.sched p).leaveRunning
      (fun ok => ok.leaveRunning) hu))
  have h2 := h.settled p (.inr (suspendPort_quiet p _)) (key (h.closed _) h1)
  have hl2 := key (Closed.statesAre _) hl
  have hi2 := key (Closed.notInFlight _) hi1
  generalize Machine.suspendPort p _ = v at h2 hl2 hi2 ⊢
  have hp : (v.link p).state.polls = false := by rw [hl2 p, if_pos rfl]; rfl
  split
  · exact h.answer _ _ (h.enterDisabled _ hp h2)
  split
  · refine h.answer _ _ (h.enterDisabled _ ?_ (endStoppedExchange h.on _ _ h2))
    rw [endStoppedExchange (Closed.statesAre fun q => (v.link q).state) p _ (fun _ => rfl) p]
    exact hp
  · exact h.on.settle (h.inFlightMore _ _ _ hi2 h2)

theorem takePortStop (h : Steps P) (k : SlotId) (p : PortId) (hi : ∀ e ∈ s.axInFlight, e.object ≠ .port p)
    (hs : P none s) : P none (Machine.takePortStop k p s) := by
  unfold Machine.takePortStop
  split
  · exact h.answer _ _ hs
  · rename_i e; exact h.answer _ _ (h.enterDisabled _ (by rw [e]; rfl) hs)
  · rename_i e; exact h.stopPort _ _ (by rw [e]; decide) hi hs
  · rename_i e; exact h.stopPort _ _ (by rw [e]; decide) hi hs
  · rename_i e; exact h.stopPort _ _ (by rw [e]; decide) hi hs
  · exact h.answer _ _ hs

theorem onSensor (h : Steps P) (k : SlotId) (id : Nat) (effect : SensorId → State → State)
    (he : ∀ n s, P none s → P none (effect n s)) (hs : P none s) : P none (Machine.onSensor k id effect s) := by
  unfold Machine.onSensor
  split
  · exact h.answer _ _ hs
  · exact he _ _ hs

/-- A newly bound context holds no record and rests in BOUND (R61). -/
theorem boundContext_tame {b : BindBody} {word : BitVec 32} {s : State} {c x : Sensor}
    (h : boundContext b word s = some x) : c.Tame x := by
  unfold boundContext at h
  split at h
  · split at h
    · cases h
      exact ⟨.inl rfl, fun e => by cases e⟩
    · cases h
  · cases h

theorem takeBind (h : Steps P) (k : SlotId) (b : BindBody) (n : SensorId) (hs : P none s) :
    P none (Machine.takeBind k b n s) := by
  unfold Machine.takeBind
  dsimp only
  split
  · exact h.answer _ _ hs
  split
  · exact h.answer _ _ hs
  split
  · exact h.answer _ _ hs
  · rename_i c' hc
    exact h.answer _ _ (h.on.setSensor _ _ (fun _ => boundContext_ok hc) (boundContext_tame hc) hs)

theorem takeUnbind (h : Steps P) (k : SlotId) (n : SensorId) (hs : P none s) : P none (Machine.takeUnbind k n s) := by
  unfold Machine.takeUnbind
  split
  · exact h.answer _ _ (h.on.setSensor _ _ (fun _ => Sensor.initial_ok) ⟨.inl rfl, fun e => by cases e⟩ hs)
  · exact h.answer _ _ (h.on.setSensor _ _ (fun _ => Sensor.initial_ok) ⟨.inl rfl, fun e => by cases e⟩ hs)
  · exact h.answer _ _ hs
  · exact h.answer _ _ hs
  · exact h.answer _ _ hs

theorem takeStart (h : Steps P) (k : SlotId) (n : SensorId) (hs : P none s) : P none (Machine.takeStart k n s) := by
  unfold Machine.takeStart
  dsimp only
  split
  · exact h.answer _ _ hs
  rename_i hst
  split
  · exact h.answer _ _ hs
  split
  · exact h.answer _ _ hs
  · have hx : (s.sensor n).Ok → ((s.sensor n).started
        (startState (s.link (portOf n)).state (s.identityOf n).present)).Ok := by
      refine fun ok => ok.started (fun e => ?_) _ (startState_cases _ _)
      rw [e] at hst
      exact hst ⟨by decide, by decide⟩
    have hne : startState (s.link (portOf n)).state (s.identityOf n).present ≠ .unbound := by
      rcases startState_cases (s.link (portOf n)).state (s.identityOf n).present with e | e <;> rw [e] <;> decide
    refine h.answer _ _ (h.on.postRecord _ (by simpa [markRecord, Sensor.started] using hne) ?_)
    by_cases ha : startState (s.link (portOf n)).state (s.identityOf n).present = .acquiring
    · refine h.acquire none n _ hx ha rfl rfl (.inl ?_) hs
      revert ha
      unfold startState
      split <;> rename_i e _ <;> simp [e, LinkState.polls]
    · exact h.on.setSensor _ _ hx (.rest hne ha rfl rfl) hs

theorem stopSensor (h : Steps P) (n : SensorId) (hb : (s.sensor n).state ≠ .unbound) (hs : P none s) :
    P none (Machine.stopSensor n s) :=
  h.on.postRecord _ (by simp [markRecord]) (h.on.leaveInto_self n (fun x => { x with state := .bound, cause := .none })
    (fun ok => ok.leftToRest hb _ _ (.inl ⟨rfl, rfl⟩)) (.rest (by simp) (by simp) (by simp) (by simp)) hs)

theorem takeStop (h : Steps P) (k : SlotId) (n : SensorId) (hs : P none s) : P none (Machine.takeStop k n s) := by
  unfold Machine.takeStop
  split
  · rename_i e; exact h.answer _ _ (h.stopSensor _ (by rw [e]; decide) hs)
  · rename_i e; exact h.answer _ _ (h.stopSensor _ (by rw [e]; decide) hs)
  · rename_i e; exact h.answer _ _ (h.stopSensor _ (by rw [e]; decide) hs)
  · exact h.answer _ _ hs
  · exact h.answer _ _ hs

theorem onLine (h : Steps P) (k : SlotId) (id : Nat) (effect : LineId → State → State)
    (he : ∀ l s, P none s → P none (effect l s)) (hs : P none s) : P none (Machine.onLine k id effect s) := by
  unfold Machine.onLine
  split
  · exact h.answer _ _ hs
  · exact he _ _ hs

theorem takeCaptureConfig (h : Steps P) (k : SlotId) (e f : Nat) (l : LineId) (hs : P none s) :
    P none (Machine.takeCaptureConfig k e f l s) := by
  unfold Machine.takeCaptureConfig
  split
  · exact h.answer _ _ hs
  split
  · exact h.answer _ _ hs
  split
  · exact h.answer _ _ hs
  · rename_i hf _
    exact h.answer _ _ (h.on.setLine _ _ (fun ok => ok.configured _ _ _ (not_lt.mp hf)) hs)

theorem takeCaptureArm (h : Steps P) (k : SlotId) (b : ArmBody) (l : LineId) (hs : P none s) :
    P none (Machine.takeCaptureArm k b l s) := by
  unfold Machine.takeCaptureArm
  split
  · exact h.answer _ _ hs
  rename_i mode hm
  have hne : mode ≠ .disarmed := by rcases armModeOfCode_cases hm with e | e <;> rw [e] <;> decide
  split
  · exact h.answer _ _ (h.on.setLine _ _ (fun ok => ok.armed _ _ _ hne (by simp)) hs)
  split
  · exact h.answer _ _ hs
  split
  · exact h.answer _ _ hs
  split
  · exact h.answer _ _ hs
  split
  · exact h.answer _ _ hs
  rename_i hnc
  split
  · exact h.answer _ _ hs
  split
  · exact h.answer _ _ hs
  · refine h.answer _ _ (h.on.setLine _ _ (fun ok => ok.armed _ _ _ hne (fun _ => ?_)) hs)
    rcases armModeOfCode_cases hm with e | e
    · exact e
    · exact absurd e hnc

theorem takeCaptureDisarm (h : Steps P) (k : SlotId) (l : LineId) (hs : P none s) :
    P none (Machine.takeCaptureDisarm k l s) := h.answer _ _ (h.on.setLine _ _ (fun ok => ok.disarmed) hs)

theorem abortNow (h : Steps P) (k target : SlotId) (tag : BitVec 16) (hs : P none s) :
    P none (Machine.abortNow k target tag s) := by
  unfold Machine.abortNow
  dsimp only
  have h1 := h.on.abortWaiting target hs
  split
  · exact h.answer _ _ (h.on.setRq _ _ (fun ok => ok.keep rfl rfl rfl rfl rfl) ⟨rfl, rfl, .rfl⟩ h1)
  · exact h.answer _ _ h1

theorem takeAbort (h : Steps P) (k : SlotId) (r : RqId) (tag : BitVec 16) (hs : P none s) :
    P none (Machine.takeAbort k r tag s) := by
  unfold Machine.takeAbort
  split
  · exact h.answer _ _ hs
  split
  · exact h.answer _ _ hs
  split
  · split
    · exact h.answer _ _ hs
    · exact h.on.settle (h.on.markAbort _ _ hs)
  · exact h.abortNow _ _ _ hs

/-! ### LinkCommands.lean and the events of delivery -/

theorem discardLate (h : Steps P) (p : PortId) (a : Attempt) (hs : P none s) : P none (Machine.discardLate p a s) := by
  unfold Machine.discardLate
  split
  · exact h.endAttempt _ _ hs
  · exact h.setLink _ _ (fun ok => ok.keep rfl rfl rfl) rfl hs

theorem cycleExpiry (h : Steps P) (p : PortId) (hs : P none s) : P none (Machine.cycleExpiry p s) := by
  have hmiss : P none (Machine.missAll p s) := Within.foldl _ (fun _ n hs => h.on.missReading n hs) _ _ hs
  unfold Machine.cycleExpiry
  dsimp only
  split
  · exact hmiss
  rename_i hr
  split
  · exact hmiss
  split
  · exact h.on.setSched _ _ (fun ok => ok.fallDue (not_not.mp hr)) hs
  · exact h.on.makeDecision _ (h.on.startRound _ _ hs)

theorem transactionAttempt (h : Steps P) (k : SlotId) (e : AttemptEnd) (hs : P none s) :
    P none (Machine.transactionAttempt k e s) := by
  unfold Machine.transactionAttempt
  dsimp only
  split
  · exact hs
  split
  · exact h.on.settle (h.endAttempt _ _ hs)
  · exact hs

/-- An edge leaves the lines to the CU. -/
theorem edgeEvent_line (l m : LineId) (edge : Time) (ref : Option CaptureReference) (s : State) :
    (Machine.edgeEvent l edge ref s).line m = s.line m := by
  have : (Machine.edgeEvent l edge ref s).lines = s.lines := by
    unfold Machine.edgeEvent
    generalize allSensors = ns
    exact Within.foldl (P := fun u => u.lines = s.lines)
      (fun s n => s.setSensor n (edgeAtSensor l edge ref n (s.sensor n))) (fun _ _ hs => hs) ns s rfl
  unfold State.line
  rw [this]

theorem recognise (h : Steps P) (l : LineId) (q : Qualification) (hs : P none s) : P none (Machine.recognise l q s) := by
  unfold Machine.recognise
  dsimp only
  generalize hc : ({ s.line l with recognised := q.level, qualification := none } : CaptureLine) = c
  have hok : (s.line l).Ok → c.Ok := fun ok => hc ▸ ok.recognised _
  have h1 : P none (s.setLine l c) := h.on.setLine _ _ hok hs
  split
  · have h2 := fun ref => h.on.edgeEvent l q.since ref h1
    split
    · refine h.on.setLine _ _ (fun ok => ?_) (h2 _)
      rw [edgeEvent_line, State.line_setLine_same] at ok
      exact ok.disarmed
    · exact h2 _
  · exact h1

theorem sampleWriteReport (h : Steps P) (i : SrId) (w : RecordWrite) (failed : Bool) (hs : P none s) :
    P none (Machine.sampleWriteReport i w failed s) := by
  unfold Machine.sampleWriteReport
  split
  · exact h.srFault _ _ hs
  · exact hs

theorem completionRingFault (h : Steps P) (r : CrId) (entry : Nat) (hs : P none s) :
    P none (Machine.completionRingFault r entry s) := by
  unfold Machine.completionRingFault
  split
  · rename_i ha
    exact h.on.raise _ _ _ _ (h.on.setCr _ _ (fun ok => ok.faulted (by rw [ha]; decide) _)
      ⟨rfl, rfl, rfl, rfl, by simp [ha]⟩ hs)
  · exact hs

theorem completionWriteReport (h : Steps P) (r : CrId) (k : SlotId) (w : RecordWrite) (failed : Bool) (hs : P none s) :
    P none (Machine.completionWriteReport r k w failed s) := by
  unfold Machine.completionWriteReport
  split
  · exact hs
  split
  · exact h.fatalError hs
  · refine h.on.settle (h.on.endCompletion _ ?_)
    split
    · exact h.completionRingFault _ _ hs
    · exact hs

theorem noticeWriteReport (h : Steps P) (w : RecordWrite) (failed : Bool) (hs : P none s) :
    P none (Machine.noticeWriteReport w failed s) := by
  unfold Machine.noticeWriteReport
  split
  · exact h.fatalError hs
  · exact hs

theorem writeNotice (h : Steps P) (n : Notice) (rest : List Notice) (hn : rest <:+ s.notices)
    (ha : (s.cr 0).state = .active) (hu : 0 < (s.cr 0).unreserved) (hs : P none s) :
    P none (Machine.writeNotice n rest s) := by
  unfold Machine.writeNotice
  dsimp only
  refine h.on.signalCr _ _ (h.crNotice (s := { (issueWrite _ _ _ _ s) with notices := rest }) ha hu ?_)
  exact h.on.dropNotices _ _ hn (h.on.issueWrite _ _ _ _ hs)

/-! ### The commands -/

theorem out_inj {a b : State} (h : (.next a : Out) = .next b) : a = b := by cases h; rfl

theorem createRing (h : Steps P) (k : SlotId) (hs : P none s) {t : State} (ht : Machine.execCreateRing k s = .next t) :
    P none t := by
  unfold Machine.execCreateRing at ht
  split at ht
  · rename_i u b hu hb
    have h1 := h.axTake k hs hu
    split at ht
    · exact out_inj ht ▸ h.createRequestRing _ _ (axTake_slot hu) h1
    · exact out_inj ht ▸ h.createCompletionRing _ _ (axTake_slot hu) h1
    · exact out_inj ht ▸ h.createSampleRing _ _ h1
    · exact out_inj ht ▸ h.answer _ _ h1
  · exact out_inj ht ▸ hs

theorem deleteRing (h : Steps P) (k : SlotId) (hs : P none s) {t : State} (ht : Machine.execDeleteRing k s = .next t) :
    P none t := by
  unfold Machine.execDeleteRing at ht
  split at ht
  · rename_i hu hb
    have h1 := h.axTake k hs hu
    split at ht
    · exact out_inj ht ▸ h.deleteRequestRing _ _ h1
    · exact out_inj ht ▸ h.deleteCompletionRing _ _ h1
    · exact out_inj ht ▸ h.deleteSampleRing _ _ h1
    · exact out_inj ht ▸ h.answer _ _ h1
  · exact out_inj ht ▸ hs

/-- The ring that the arbiter takes is eligible (R119). -/
theorem chooseRing_eligible {r : RqId} (h : chooseRing s = some r) : eligible r s = true := by
  unfold chooseRing at h
  split at h
  · cases h; assumption
  · have := List.find?_some h
    exact this

/-- Every command but those of `writesHostWords` keeps every property that survives the moves of a step. -/
theorem exec (h : Steps P) (c : Instr) (hc : writesHostWords c = false) (hs : P none s) {t : State}
    (ht : Machine.exec c s = .next t) : P none t := by
  cases c with
  | enable => exact out_inj ht ▸ h.writeEnableOne hs
  | halt => exact out_inj ht ▸ h.writeEnableZero hs
  | reset => cases hc
  | deviceReset => cases hc
  | badNotifyClear => exact out_inj ht ▸ h.writeStatus _ hs
  | rqTail => exact out_inj ht ▸ h.notifyRqTail _ _ hs
  | crHead => exact out_inj ht ▸ h.notifyCrHead _ _ hs
  | srHead => exact out_inj ht ▸ h.notifySrHead _ _ hs
  | timeLowRead => cases hc
  | registerWrite => cases hc
  | vectorUnblock => exact out_inj ht ▸ h.on.writeMsix _ hs
  | fetchIssue =>
    change execFetchIssue s = _ at ht
    unfold execFetchIssue at ht
    split at ht
    · rename_i hf hr hk
      split at ht
      · rename_i hc
        refine out_inj ht ▸ h.issueFetch _ _ _ hf (chooseRing_eligible hr) hc ?_ hs
        have := List.find?_some hk
        simpa using this
      · exact out_inj ht ▸ hs
    · exact out_inj ht ▸ hs
  | fetchEnd r =>
    change execFetchEnd r s = _ at ht
    unfold execFetchEnd at ht
    split at ht
    · exact out_inj ht ▸ hs
    · rename_i hf
      split at ht
      · exact out_inj ht ▸ hs
      · exact out_inj ht ▸ h.endFetch _ _ hf hs
      · exact out_inj ht ▸ h.endFetch _ _ hf hs
  | fetchTimeout =>
    change execFetchTimeout s = _ at ht
    unfold execFetchTimeout at ht
    split at ht
    · exact out_inj ht ▸ hs
    · rename_i hf
      split at ht
      · split at ht
        · exact out_inj ht ▸ h.endFetch _ _ hf hs
        · exact out_inj ht ▸ hs
      · exact out_inj ht ▸ hs
      · exact out_inj ht ▸ hs
  | createRing => exact h.createRing _ hs ht
  | deleteRing => exact h.deleteRing _ hs ht
  | portConfig k =>
    change execPortConfig k s = _ at ht
    unfold execPortConfig at ht
    split at ht
    · rename_i hu _
      exact out_inj ht ▸ h.onPort _ _ _ (fun _ _ _ hs => h.takePortConfig _ _ _ hs) (h.axTake k hs hu)
    · exact out_inj ht ▸ hs
  | portStart k =>
    change execPortStart k s = _ at ht
    unfold execPortStart at ht
    split at ht
    · rename_i hu _
      exact out_inj ht ▸ h.onPort _ _ _ (fun _ _ hi hs => h.takePortStart _ _ hi hs) (h.axTake k hs hu)
    · exact out_inj ht ▸ hs
  | portStop k =>
    change execPortStop k s = _ at ht
    unfold execPortStop at ht
    split at ht
    · rename_i hu _
      exact out_inj ht ▸ h.onPort _ _ _ (fun _ _ hi hs => h.takePortStop _ _ hi hs) (h.axTake k hs hu)
    · exact out_inj ht ▸ hs
  | sensorBind k =>
    change execSensorBind k s = _ at ht
    unfold execSensorBind at ht
    split at ht
    · rename_i hu _
      exact out_inj ht ▸ h.onSensor _ _ _ (fun _ _ hs => h.takeBind _ _ _ hs) (h.axTake k hs hu)
    · exact out_inj ht ▸ hs
  | sensorUnbind k =>
    change execSensorUnbind k s = _ at ht
    unfold execSensorUnbind at ht
    split at ht
    · rename_i hu _
      exact out_inj ht ▸ h.onSensor _ _ _ (fun _ _ hs => h.takeUnbind _ _ hs) (h.axTake k hs hu)
    · exact out_inj ht ▸ hs
  | sensorStart k =>
    change execSensorStart k s = _ at ht
    unfold execSensorStart at ht
    split at ht
    · rename_i hu _
      exact out_inj ht ▸ h.onSensor _ _ _ (fun _ _ hs => h.takeStart _ _ hs) (h.axTake k hs hu)
    · exact out_inj ht ▸ hs
  | sensorStop k =>
    change execSensorStop k s = _ at ht
    unfold execSensorStop at ht
    split at ht
    · rename_i hu _
      exact out_inj ht ▸ h.onSensor _ _ _ (fun _ _ hs => h.takeStop _ _ hs) (h.axTake k hs hu)
    · exact out_inj ht ▸ hs
  | captureConfig k =>
    change execCaptureConfig k s = _ at ht
    unfold execCaptureConfig at ht
    split at ht
    · rename_i hu _
      exact out_inj ht ▸ h.onLine _ _ _ (fun _ _ hs => h.takeCaptureConfig _ _ _ _ hs) (h.axTake k hs hu)
    · exact out_inj ht ▸ hs
  | captureArm k =>
    change execCaptureArm k s = _ at ht
    unfold execCaptureArm at ht
    split at ht
    · rename_i hu _
      exact out_inj ht ▸ h.onLine _ _ _ (fun _ _ hs => h.takeCaptureArm _ _ _ hs) (h.axTake k hs hu)
    · exact out_inj ht ▸ hs
  | captureDisarm k =>
    change execCaptureDisarm k s = _ at ht
    unfold execCaptureDisarm at ht
    split at ht
    · rename_i hu _
      exact out_inj ht ▸ h.onLine _ _ _ (fun _ _ hs => h.takeCaptureDisarm _ _ hs) (h.axTake k hs hu)
    · exact out_inj ht ▸ hs
  | queryPort k =>
    change execQueryPort k s = _ at ht
    unfold execQueryPort at ht
    split at ht
    · rename_i hu _
      exact out_inj ht ▸ h.onPort _ _ _ (fun _ _ _ hs => h.answer _ _ hs) (h.axTake k hs hu)
    · exact out_inj ht ▸ hs
  | querySensor k =>
    change execQuerySensor k s = _ at ht
    unfold execQuerySensor at ht
    split at ht
    · rename_i hu _
      exact out_inj ht ▸ h.onSensor _ _ _ (fun _ _ hs => h.answer _ _ hs) (h.axTake k hs hu)
    · exact out_inj ht ▸ hs
  | queryDevice k =>
    change execQueryDevice k s = _ at ht
    unfold execQueryDevice at ht
    split at ht
    · rename_i hu _
      exact out_inj ht ▸ h.answer _ _ (h.axTake k hs hu)
    · exact out_inj ht ▸ hs
  | abort k =>
    change execAbort k s = _ at ht
    unfold execAbort at ht
    split at ht
    · rename_i hu _
      have h1 := h.axTake k hs hu
      split at ht
      · exact out_inj ht ▸ h.answer _ _ h1
      · refine out_inj ht ▸ ?_
        split
        · exact h.answer _ _ h1
        · exact h.takeAbort _ _ _ h1
    · exact out_inj ht ▸ hs
  | regRead k e =>
    change execRegRead k e s = _ at ht
    unfold execRegRead at ht
    split at ht
    · exact out_inj ht ▸ h.transactionAttempt _ _ hs
    · exact out_inj ht ▸ hs
  | regWrite k e =>
    change execRegWrite k e s = _ at ht
    unfold execRegWrite at ht
    split at ht
    · exact out_inj ht ▸ h.transactionAttempt _ _ hs
    · exact out_inj ht ▸ hs
  | readPosition k e =>
    change execReadPosition k e s = _ at ht
    unfold execReadPosition at ht
    split at ht
    · exact out_inj ht ▸ h.transactionAttempt _ _ hs
    · exact out_inj ht ▸ hs
  | setPosition k e =>
    change execSetPosition k e s = _ at ht
    unfold execSetPosition at ht
    split at ht
    · exact out_inj ht ▸ h.transactionAttempt _ _ hs
    · exact out_inj ht ▸ hs
  | slaveReset k e =>
    change execSlaveReset k e s = _ at ht
    unfold execSlaveReset at ht
    split at ht
    · exact out_inj ht ▸ h.transactionAttempt _ _ hs
    · exact out_inj ht ▸ hs
  | attemptBegin p =>
    change execAttemptBegin p s = _ at ht
    unfold execAttemptBegin at ht
    dsimp only at ht
    split at ht
    · exact out_inj ht ▸ hs
    · split at ht
      · exact out_inj ht ▸ h.setLink _ _ (fun ok => ok.keep rfl rfl rfl) rfl hs
      · exact out_inj ht ▸ hs
  | requestFrameSent p =>
    change execRequestFrameSent p s = _ at ht
    unfold execRequestFrameSent at ht
    dsimp only at ht
    split at ht
    · exact out_inj ht ▸ hs
    · split at ht
      · exact out_inj ht ▸ h.setLink _ _ (fun ok => ok.keep rfl rfl rfl) rfl hs
      · exact out_inj ht ▸ hs
  | responseFrame p bits =>
    change execResponseFrame p bits s = _ at ht
    unfold execResponseFrame at ht
    dsimp only at ht
    split at ht
    · exact out_inj ht ▸ hs
    · split at ht
      · split at ht
        · exact out_inj ht ▸ h.on.settle (h.endAttempt _ _ hs)
        · exact out_inj ht ▸ h.on.settle (h.discardLate _ _ hs)
      · exact out_inj ht ▸ hs
  | responseWindowExpiry p =>
    change execResponseWindowExpiry p s = _ at ht
    unfold execResponseWindowExpiry at ht
    split at ht
    · exact out_inj ht ▸ hs
    · split at ht
      · exact out_inj ht ▸ h.on.settle (h.endAttempt _ _ hs)
      · exact out_inj ht ▸ hs
  | retryGapExpiry p =>
    change execRetryGapExpiry p s = _ at ht
    unfold execRetryGapExpiry at ht
    dsimp only at ht
    split at ht
    · refine out_inj ht ▸ h.relink _ _ _ (fun ok => ok.gapOver _) (fun hp => .inl ?_) hs
      dsimp only
      split
      · rfl
      · exact hp
    · exact out_inj ht ▸ hs
  | retrainTimerExpiry p =>
    change execRetrainTimerExpiry p s = _ at ht
    unfold execRetrainTimerExpiry at ht
    dsimp only at ht
    split at ht
    · rename_i hd
      exact out_inj ht ▸ h.enterTraining _ _ (by rw [hd.1]; rfl) hs
    · exact out_inj ht ▸ hs
  | cycleTimerExpiry p =>
    change execCycleTimerExpiry p s = _ at ht
    unfold execCycleTimerExpiry at ht
    dsimp only at ht
    split at ht
    · exact out_inj ht ▸ hs
    · split at ht
      · exact out_inj ht ▸ h.on.settle (h.cycleExpiry _ (h.on.setSched _ _ (fun ok => ok.keep rfl rfl rfl rfl rfl rfl) hs))
      · exact out_inj ht ▸ hs
  | captureInputTransition => exact out_inj ht ▸ h.on.setLine _ _ (fun ok => ok.sampled _ _) hs
  | transitionRecognised l =>
    change execTransitionRecognised l s = _ at ht
    unfold execTransitionRecognised at ht
    split at ht
    · exact out_inj ht ▸ hs
    · split at ht
      · exact out_inj ht ▸ h.recognise _ _ hs
      · exact out_inj ht ▸ hs
  | sampleWriteEnd =>
    change execSampleWriteEnd s = _ at ht
    unfold execSampleWriteEnd at ht
    split at ht
    · split at ht
      · exact out_inj ht ▸ h.sampleWriteReport _ _ _ (h.on.endWrite _ _ hs)
      · exact out_inj ht ▸ hs
    · exact out_inj ht ▸ hs
  | completionWriteEnd =>
    change execCompletionWriteEnd s = _ at ht
    unfold execCompletionWriteEnd at ht
    split at ht
    · split at ht
      · exact out_inj ht ▸ h.completionWriteReport _ _ _ _ (h.on.endWrite _ _ hs)
      · exact out_inj ht ▸ h.noticeWriteReport _ _ (h.on.endWrite _ _ hs)
      · exact out_inj ht ▸ hs
    · exact out_inj ht ▸ hs
  | noticeWrite =>
    change execNoticeWrite s = _ at ht
    unfold execNoticeWrite at ht
    split at ht
    · exact out_inj ht ▸ hs
    · rename_i n rest hn
      split at ht
      · rename_i hc
        exact out_inj ht ▸ h.writeNotice _ _ (hn ▸ List.suffix_cons _ _) hc.1 hc.2 hs
      · exact out_inj ht ▸ hs
  | coalescingTimerExpiry ring =>
    change execCoalescingTimerExpiry ring s = _ at ht
    unfold execCoalescingTimerExpiry at ht
    split at ht
    · dsimp only at ht
      split at ht
      · exact out_inj ht ▸ h.on.messageDue _ (h.on.setCr _ _ (fun ok => ok.cleared) ⟨rfl, rfl, rfl, rfl, .rfl⟩ hs)
      · exact out_inj ht ▸ hs
    · dsimp only at ht
      split at ht
      · exact out_inj ht ▸ h.on.messageDue _ (h.on.setSr _ _ (fun ok => ok.cleared) ⟨rfl, rfl, rfl, rfl, rfl, rfl⟩ hs)
      · exact out_inj ht ▸ hs
  | haltComplete =>
    change execHaltComplete s = _ at ht
    unfold execHaltComplete at ht
    dsimp only at ht
    split at ht
    · rename_i hh
      have h1 : P none { s with window := { s.window with control := .off } } :=
        h.window _ ⟨rfl, rfl, rfl, rfl⟩ (.inr (.inl (by rw [hh.1]; decide))) hs
      split at ht
      · exact out_inj ht ▸ h.enable rfl h1
      · exact out_inj ht ▸ h1
    · exact out_inj ht ▸ hs
  | startPatternSeen p =>
    change execStartPatternSeen p s = _ at ht
    unfold execStartPatternSeen at ht
    dsimp only at ht
    split at ht
    · exact out_inj ht ▸ hs
    · split at ht
      · exact out_inj ht ▸ h.setLink _ _ (fun ok => ok.keep rfl rfl rfl) rfl hs
      · exact out_inj ht ▸ hs

end Sys2Proof.Machine.Steps
end

