-- ==== Sys2Proof/Laws/Delivery.lean ====
section
/-! SUPPORT. What the delivery operations do, said once each: ring indices, messages and the outbox, completions,
    sample records,
notices. A proof about a command cites these and never unfolds the operation. -/

namespace Sys2Proof.Machine

open Sys2Proof.Claims

/-! ### Updates of one table entry -/

/-- The later of two writes stands. -/
theorem State.setSched_setSched (s : State) (i : PortId) (x y : Scheduler) : (s.setSched i x).setSched i y =
    s.setSched i y := by
  simp [State.setSched]

/-- Writing back what was read changes nothing. -/
theorem State.setSched_self (s : State) (i : PortId) : s.setSched i (s.sched i) = s := by
  simp [State.setSched, State.sched]

/-- The later of two writes stands. -/
theorem State.setSlot_setSlot (s : State) (i : SlotId) (x y : Slot) : (s.setSlot i x).setSlot i y = s.setSlot i y := by
  simp [State.setSlot]

/-- Writing back what was read changes nothing. -/
theorem State.setSlot_self (s : State) (i : SlotId) : s.setSlot i (s.slot i) = s := by
  simp [State.setSlot, State.slot]

/-- The later of two writes stands. -/
theorem State.setSensor_setSensor (s : State) (i : SensorId) (x y : Sensor) : (s.setSensor i x).setSensor i y =
    s.setSensor i y := by
  simp [State.setSensor]

/-- The later of two writes stands. -/
theorem State.setRq_setRq (s : State) (i : RqId) (x y : RequestRing) : (s.setRq i x).setRq i y = s.setRq i y := by
  simp [State.setRq]

/-- Writing back what was read changes nothing. -/
theorem State.setRq_self (s : State) (i : RqId) : s.setRq i (s.rq i) = s := by
  simp [State.setRq, State.rq]

/-- The later of two writes stands. -/
theorem State.setCr_setCr (s : State) (i : CrId) (x y : CompletionRing) : (s.setCr i x).setCr i y = s.setCr i y := by
  simp [State.setCr]

/-- Writing back what was read changes nothing. -/
theorem State.setCr_self (s : State) (i : CrId) : s.setCr i (s.cr i) = s := by
  simp [State.setCr, State.cr]

/-- The later of two writes stands. -/
theorem State.setSr_setSr (s : State) (i : SrId) (x y : SampleRing) : (s.setSr i x).setSr i y = s.setSr i y := by
  simp [State.setSr]

/-- Writing back what was read changes nothing. -/
theorem State.setSr_self (s : State) (i : SrId) : s.setSr i (s.sr i) = s := by
  simp [State.setSr, State.sr]

/-- Writing back what was read changes nothing. -/
theorem State.setLink_self (s : State) (i : PortId) : s.setLink i (s.link i) = s := by
  simp [State.setLink, State.link]

/-! ### Ring indices -/

/-- The entries between a consumer and a producer index, modulo the size (R102, R117). -/
theorem unconsumed_eq_emod (p c n : Nat) (_hp : p < n) (hc : c < n) :
    (unconsumed p c n : Int) = ((p : Int) - c) % n := by
  unfold unconsumed
  rw [Int.natCast_mod, Nat.cast_sub (by omega), Nat.cast_add]
  rw [show (p : Int) + n - c = (p - c) + n by ring, Int.add_emod_right]

/-- A head update passes where its index lies at or before the producer, counted from the consumer (R104). -/
theorem headPasses_iff (i c p n : Nat) (hi : i < n) (hc : c < n) (hp : p < n) : headPasses i c p n = true ↔
    ((i : Int) - c) % n ≤ ((p : Int) - c) % n := by
  rw [headPasses, decide_eq_true_iff, ← Int.ofNat_le, unconsumed_eq_emod _ _ _ hi hc, unconsumed_eq_emod _ _ _ hp hc]

/-- Posting advances a completion ring's producer index and inverts the phase on the wrap (R117). -/
theorem CompletionRing.advance_fields (d : CompletionRing) : d.advance = { d with
    producer := (if d.producer + 1 = d.size then 0 else d.producer + 1)
    phase := (if d.producer + 1 = d.size then !d.phase else d.phase) } := by
  unfold CompletionRing.advance; split <;> rfl

/-- Posting advances a sample ring's producer index and inverts the phase on the wrap (R103). -/
theorem SampleRing.advance_fields (d : SampleRing) : d.advance = { d with
    producer := (if d.producer + 1 = d.size then 0 else d.producer + 1)
    phase := (if d.producer + 1 = d.size then !d.phase else d.phase) } := by
  unfold SampleRing.advance; split <;> rfl

/-- The congestion check of a write: ACTIVE with fewer free entries than L becomes CONGESTED (R111). -/
theorem SampleRing.congest_fields (d : SampleRing) : d.congest = { d with
    state := if d.state = .active ∧ d.free < d.lowWater then .congested else d.state } := by
  unfold SampleRing.congest; split <;> rfl

/-- A ring is full where size minus 1 entries are unconsumed (R102). -/
theorem SampleRing.full_iff (d : SampleRing) (h : d.Ok) (ha : d.state ≠ .absent) : d.full = true ↔ Full d := by
  have h1 := h.producer ha
  have h2 := h.consumer ha
  have h3 := h.size ha
  unfold SampleRing.full SampleRing.free SampleRing.used Full
  have := unconsumed_eq_emod d.producer d.consumer d.size h1 h2
  have hlt : unconsumed d.producer d.consumer d.size < d.size := Nat.mod_lt _ (by omega)
  rw [← this]
  simp only [beq_iff_eq]
  omega

/-- CR0 has a free unreserved entry for a notice (R153). -/
theorem CompletionRing.unreserved_pos_iff (d : CompletionRing) (hp : d.producer < d.size) (hc : d.consumer < d.size) :
    0 < d.unreserved ↔
   (d.producer - d.consumer : Int) % d.size + d.reserved + 1 < d.size := by
  rw [← unconsumed_eq_emod _ _ _ hp hc]
  unfold CompletionRing.unreserved CompletionRing.posted
  omega

/-- A request ring has entries pending where tail and fetch head differ (R116). -/
theorem RequestRing.pendingEntries_ne_zero_iff (d : RequestRing) (hp : d.tail < d.size) (hc : d.fetchHead < d.size) :
    d.pendingEntries ≠ 0 ↔ d.tail ≠ d.fetchHead := by
  unfold RequestRing.pendingEntries unconsumed
  constructor
  · intro h he
    apply h
    rw [he, Nat.add_sub_cancel_left]; simp
  · intro h h0
    apply h
    by_cases hlt : d.fetchHead ≤ d.tail
    · rw [show d.tail + d.size - d.fetchHead = (d.tail - d.fetchHead) + d.size by omega, Nat.add_mod_right,
        Nat.mod_eq_of_lt (by omega)] at h0
      omega
    · rw [Nat.mod_eq_of_lt (by omega)] at h0
      omega

/-! ### Messages and the outbox -/

/-- When a vector is blocked (R167). -/
theorem MsixUnit.blocked_iff (m : MsixUnit) (v : VectorId) : m.blocked v = true ↔
    (m.table[v]).masked = true ∨ m.functionMask = true ∨ m.enabled = false ∨ m.busMaster = false := by
  simp [MsixUnit.blocked, or_assoc]

/-- A halt makes every write in flight one from before it (R171). -/
theorem orphanWrites_all (l : List OutItem) : orphanWrites (fun _ => true) l = l.map fun i => match i with
      | .record w => .record { w with live := false }
      | .message v => .message v
      | .read => .read := by
  unfold orphanWrites
  apply List.map_congr_left
  intro a _
  cases a <;> rfl

/-- A record write is in flight. -/
theorem hasRecord_iff (l : List OutItem) : hasRecord l = true ↔ ∃ w, OutItem.record w ∈ l := by
  simp only [hasRecord, List.any_eq_true]
  constructor
  · rintro ⟨x, hx, h⟩
    cases x with
    | record w => exact ⟨w, hx⟩
    | message v => cases h
    | read => cases h
  · rintro ⟨w, h⟩; exact ⟨_, h, rfl⟩

/-- Cutting writes off from their effects leaves them in flight. -/
theorem hasRecord_orphanWrites (p) (l : List OutItem) : hasRecord (orphanWrites p l) = hasRecord l := by
  simp only [hasRecord, orphanWrites, List.any_map]
  congr 1
  funext x
  cases x with
  | record w => by_cases h : p w = true <;> simp [Function.comp, h]
  | message v => rfl
  | read => rfl

/-- Everything a record handed to a ring's interrupt state can do, while a write is in flight (R166, R167). -/
theorem signalled_record (s : State) (v : VectorId) (count time : Nat) (notify : Bool) (it : Interrupt)
    (hne : s.outbox ≠ []) (upd : Interrupt → State) (hupd : ∀ x, (upd x).msix = s.msix ∧ (upd x).outbox = s.outbox) :
    ∃ it' ms m, (if (it.record count time notify s.time).2 then messageDue v (upd (it.record count time notify s.time).1)
       else upd (it.record count time notify s.time).1) = { upd it' with outbox := s.outbox ++ ms, msix := m } ∧
      ∀ t : State, t.msix = m → Signalled s t v count time notify it it' ms := by
  unfold Interrupt.record
  by_cases h : (notify || decide (count ≤ it.count + 1)) = true
  · simp only [h, if_true]
    have h' : notify = true ∨ it.count + 1 ≥ count := by simpa using h
    by_cases hb : s.msix.blocked v = true
    · refine ⟨Interrupt.clear, [], { s.msix with pending := s.msix.pending.set v true }, ?_, ?_⟩
      · rw [messageDue, if_pos (by rw [(hupd _).1, hb]; rfl), sendMessage, if_pos (by rw [(hupd _).1]; exact hb), (hupd _).1]
        rw [List.append_nil, ← (hupd Interrupt.clear).2]
      · intro t ht
        rw [Signalled, if_pos h', if_pos ((MsixUnit.blocked_iff _ _).1 hb)]
        exact ⟨rfl, rfl, ht⟩
    · refine ⟨Interrupt.clear, [.message v], s.msix, ?_, ?_⟩
      · rw [messageDue, if_neg (by rw [(hupd _).1, (hupd _).2]; simpa using ⟨by simpa using hb, hne⟩), (hupd _).2]
        rw [← (hupd Interrupt.clear).1]
      · intro t ht
        rw [Signalled, if_pos h', if_neg (fun x => hb ((MsixUnit.blocked_iff _ _).2 x))]
        exact ⟨rfl, rfl, ht⟩
  · simp only [h]
    have h' : ¬ (notify = true ∨ it.count + 1 ≥ count) := by simpa using h
    refine ⟨{ count := it.count + 1, timer := if it.timer.isNone && time != 0 then
           some (after s.time (time * Config.ticksPerMicrosecond)) else it.timer }, [], s.msix, ?_, ?_⟩
    · simp only [Bool.false_eq_true, if_false]
      generalize (Interrupt.mk _ _) = x
      rw [List.append_nil, ← (hupd x).2, ← (hupd x).1]
    · intro t ht
      rw [Signalled, if_neg h']
      refine ⟨rfl, ?_, rfl, ht⟩
      cases it.timer <;> simp [Config.ticksPerMicrosecond, Nat.mul_comm]

/-- Everything `signalCr` can do. -/
theorem signalCr_effect (r : CrId) (notify : Bool) (s : State) (hne : s.outbox ≠ []) :
    ∃ it' ms m, signalCr r notify s = { s with
        crs := s.crs.set r { s.cr r with interrupt := it' }, outbox := s.outbox ++ ms, msix := m } ∧
      ∀ t : State, t.msix = m → Signalled s t (s.cr r).vector (s.cr r).coalescingCount (s.cr r).coalescingTime notify
        (s.cr r).interrupt it' ms := by
  obtain ⟨it', ms, m, h, h2⟩ := signalled_record s (s.cr r).vector (s.cr r).coalescingCount (s.cr r).coalescingTime notify
    (s.cr r).interrupt hne (fun x => s.setCr r { s.cr r with interrupt := x }) (fun x => ⟨rfl, rfl⟩)
  exact ⟨it', ms, m, h, h2⟩

/-- Everything `signalSr` can do. -/
theorem signalSr_effect (r : SrId) (s : State) (hne : s.outbox ≠ []) :
    ∃ it' ms m, signalSr r s = { s with
        srs := s.srs.set r { s.sr r with interrupt := it' }, outbox := s.outbox ++ ms, msix := m } ∧
      ∀ t : State, t.msix = m → Signalled s t (s.sr r).vector (s.sr r).coalescingCount (s.sr r).coalescingTime false
        (s.sr r).interrupt it' ms := by
  obtain ⟨it', ms, m, h, h2⟩ := signalled_record s (s.sr r).vector (s.sr r).coalescingCount (s.sr r).coalescingTime false
    (s.sr r).interrupt hne (fun x => s.setSr r { s.sr r with interrupt := x }) (fun x => ⟨rfl, rfl⟩)
  exact ⟨it', ms, m, h, h2⟩

/-! ### The end of a record write -/

/-- A read that has come to its issue is issued, or is in error and is not (R165). -/
theorem issueRead_effect (s : State) : issueRead s = { s with fetch := s.fetch.map fun f => { f with
    read := if s.msix.busMaster = true ∧ f.address + 64 ≤ 2 ^ 64 then .issued s.time else .notIssued } } := by
  unfold issueRead Fetch.due
  congr 2
  funext f
  congr 1
  by_cases h : s.msix.busMaster = true ∧ f.address + 64 ≤ 2 ^ 64
  · rw [if_pos h, if_pos (by simpa using h)]
  · rw [if_neg h, if_neg (by simpa using h)]

/-- Everything `releaseOutbox` does with what waits ahead of the next record write (R165, R167). -/
theorem releaseOutbox_effect {rest : List OutItem} (hr : rest = [] ∨ ∃ w' rest', rest = .record w' :: rest') :
    ∀ (behind : List OutItem) (s : State), (∀ w', .record w' ∉ behind) →
      releaseOutbox (behind ++ rest) s = followed behind rest s := by
  intro behind
  induction behind with
  | nil =>
    intro s _
    have h1 : releaseOutbox rest s = { s with outbox := rest } := by
      rcases hr with rfl | ⟨w, r, rfl⟩ <;> rfl
    have h2 : (Vector.ofFn fun v : VectorId => s.msix.pending[v] ||
        decide (OutItem.message v ∈ ([] : List OutItem) ∧ Blocked s.msix v)) = s.msix.pending := by
      apply Vector.ext; intro i hi; simp
    rw [List.nil_append, h1]
    unfold followed
    rw [h2]
    simp
  | cons i l ih =>
    intro s hn
    have hl : ∀ w', OutItem.record w' ∉ l := fun w' h => hn w' (by simp [h])
    cases i with
    | record w => exact absurd (by simp) (hn w)
    | message v =>
      show releaseOutbox (l ++ rest) (sendMessage v s) = _
      have hmem : (OutItem.read ∈ OutItem.message v :: l) ↔ OutItem.read ∈ l := by simp
      rw [ih _ hl]
      by_cases hb : Blocked s.msix v
      · rw [sendMessage, if_pos ((MsixUnit.blocked_iff _ _).2 hb)]
        have hp : (Vector.ofFn fun w : VectorId => (s.msix.pending.set v true)[w] ||
              decide (OutItem.message w ∈ l ∧ Blocked { s.msix with pending := s.msix.pending.set v true } w)) =
            Vector.ofFn fun w : VectorId => s.msix.pending[w] ||
              decide (OutItem.message w ∈ OutItem.message v :: l ∧ Blocked s.msix w) := by
          congr 1
          funext w
          by_cases hw : w = v
          · subst hw; simp [hb]
          · have : (v : Nat) ≠ w := fun h => hw (Fin.ext h.symm)
            simp [this, hw]
        unfold followed
        dsimp only
        rw [hp, List.filterMap_cons]
        simp only [hmem, hb, if_true]
      · rw [sendMessage, if_neg (fun h => hb ((MsixUnit.blocked_iff _ _).1 h))]
        have hp : (Vector.ofFn fun w : VectorId => s.msix.pending[w] || decide (OutItem.message w ∈ l ∧ Blocked s.msix w)) =
            Vector.ofFn fun w : VectorId => s.msix.pending[w] ||
              decide (OutItem.message w ∈ OutItem.message v :: l ∧ Blocked s.msix w) := by
          congr 1
          funext w
          by_cases hw : w = v
          · subst hw; simp [hb]
          · simp [hw]
        unfold followed
        dsimp only
        rw [hp, List.filterMap_cons]
        simp only [hmem, hb, if_false, List.append_assoc, List.singleton_append]
        rfl
    | read =>
      show releaseOutbox (l ++ rest) (issueRead s) = _
      have hp : ∀ w : VectorId, (OutItem.message w ∈ OutItem.read :: l) ↔ OutItem.message w ∈ l := by intro w; simp
      rw [ih _ hl, issueRead_effect]
      unfold followed
      simp only [hp]
      rw [List.filterMap_cons, if_pos List.mem_cons_self]
      dsimp only
      split
      · rw [Option.map_map]; rfl
      · rfl

/-- A record write fails as R165 says. -/
theorem writeFails_iff (w : RecordWrite) (s : State) : writeFails s.msix.busMaster w = true ↔ Errs w s := by
  simp [writeFails, Errs]

/-- Everything the end of the oldest record write does (R165). -/
theorem endWrite_effect {w behind rest s} (h : Oldest w behind rest s) :
    endWrite w (behind ++ rest) s = writeEnded w behind rest (!writeFails s.msix.busMaster w) s := by
  unfold endWrite writeEnded
  rw [releaseOutbox_effect h.2.2 behind _ h.2.1]
  cases writeFails s.msix.busMaster w <;> rfl

/-! ### Completions -/

/-- With nothing discarded there is nothing to settle. -/
theorem settle_of_none_discarded {s : State} (h : s.discarded = []) : settle s = s := by
  simp [settle, settleDiscarded, h]

/-- A slot that has no result yet can become DONE. -/
theorem Slot.isOpen_iff (sl : Slot) : sl.isOpen = true ↔ sl.state = .linkWait ∨ sl.state = .queued ∨ sl.state = .active := by
  simp [Slot.isOpen, or_assoc]

/-- Everything `postResult` does for a slot without a result on an ACTIVE completion ring (R124). -/
theorem postResult_effect (k : SlotId) (r : Result) (s : State) (ho : (s.slot k).isOpen = true)
    (hc : (s.cr (s.slot k).cr).state = .active) :
    Answered k r s (postResult k r s) ∧ (postResult k r s).discarded = s.discarded := by
  unfold postResult
  simp only [State.cr_setSlot, hc, ho, Bool.not_true, Bool.false_eq_true, if_false]
  unfold writeCompletion
  simp only [State.slot_setSlot_same, State.cr_setSlot, State.rq_setSlot]
  generalize hu : (State.setCr _ _ _ : State) = u
  have hne : u.outbox ≠ [] := by rw [← hu]; simp [issueWrite]
  have hucr : u.cr (s.slot k).cr = { (s.cr (s.slot k).cr).advance with reserved := (s.cr (s.slot k).cr).reserved - 1 } := by
    rw [← hu]; simp
  obtain ⟨it', ms, m, he, hs⟩ := signalCr_effect (s.slot k).cr (s.slot k).notify u hne
  rw [he]
  rw [hucr] at hs ⊢
  rw [← hu] at hs ⊢
  refine ⟨⟨?_, ?_, ?_, ?_, it', ms, ?_, ?_, ?_⟩, ?_⟩
  · rfl
  · simp [State.slot, State.setCr, State.setSlot, issueWrite]
  · intro j hj
    have : (k : Nat) ≠ j := fun h => hj (Fin.ext h.symm)
    simp [State.slot, State.setCr, State.setSlot, issueWrite, this]
  · intro j hj
    have : ((s.slot k).cr : Nat) ≠ j := fun h => hj (Fin.ext h.symm)
    simp [State.cr, State.slot, State.setCr, State.setSlot, issueWrite]
    rw [Vector.getElem_set_ne (h:=by simpa [State.slot] using this)]
  · simp [State.setCr, issueWrite, completionOf]
  · simp [State.cr, State.setCr, CompletionRing.advance_fields]
    exact ⟨rfl, rfl⟩
  · have := hs { s with msix := m } rfl
    simp only [CompletionRing.advance_fields] at this
    exact this
  · rfl

end Sys2Proof.Machine

namespace Sys2Proof.Claims

open Sys2Proof.Machine

/-- An answered request leaves every completion ring in its state, ACTIVE or not. -/
theorem Answered.cr_state {k r u t} (h : Answered k r u t) (c : CrId) : (t.cr c).state = (u.cr c).state := by
  by_cases e : c = (u.slot k).cr
  · obtain ⟨it, ms, _, h6, _⟩ := h.ring
    rw [e, h6]
  · rw [h.otherRings c e]

/-- An answered request leaves another one as it can be concluded. -/
theorem Concludable.answered {j k r u t} (h : Concludable j u) (A : Answered k r u t) (hj : j ≠ k)
    (hr : ∀ a, (u.slot j).abortRequester = some a → a ≠ k) : Concludable j t := by
  have e : t.slot j = u.slot j := A.otherSlots j hj
  refine ⟨by rw [e]; exact h.isOpen, by rw [e, A.cr_state]; exact h.ring, fun a ha => ?_⟩
  rw [e] at ha
  rw [A.otherSlots a (hr a ha), A.cr_state]
  exact h.requester a ha

/-- Where no ABORT waits on the request, it is answered and nothing more. -/
theorem concluded_iff_answered {k r u t} (h : (u.slot k).abortRequester = none) : Concluded k r u t ↔ Answered k r u t := by
  unfold Concluded; rw [h]

end Sys2Proof.Claims

namespace Sys2Proof.Machine

open Sys2Proof.Claims

/-- The answer to an ABORT in its bytes (Table 43). -/
theorem abortResult_eq (st : Status) (tag : BitVec 16) (k : SlotId) : abortResult st tag k =
    { status := st, detail := 0, data := BitVec.ofNat 128 (tag.toNat + 65536 * k.val) } := by
  have h1 : placed 0 2 tag.toNat = tag.toNat := by
    have := tag.isLt
    simp only [placed]; omega
  have h2 : placed 2 1 k.val = 65536 * k.val := by
    have := k.isLt
    simp only [placed]; omega
  simp [abortResult, assemble, h1, h2]

/-- Everything `completeSlot` does for a request that can be concluded (R124, R130). -/
theorem completeSlot_effect {k : SlotId} (r : Result) {s : State} (h : Concludable k s) :
    Concluded k r s (completeSlot k r s) ∧ (completeSlot k r s).discarded = s.discarded := by
  unfold completeSlot Concluded
  obtain ⟨h1, h2⟩ := postResult_effect k r s ((Slot.isOpen_iff _).2 h.isOpen) h.ring
  dsimp only
  cases ha : (s.slot k).abortRequester with
  | none => exact ⟨h1, h2⟩
  | some a =>
    obtain ⟨ne, act, cr, _, ring⟩ := h.requester a ha
    have e : (postResult k r s).slot a = s.slot a := h1.otherSlots a ne
    obtain ⟨g1, g2⟩ := postResult_effect a (abortOutcome (postResult k r s) a k r.status) (postResult k r s)
      ((Slot.isOpen_iff _).2 (by rw [e]; exact .inr (.inr act))) (by rw [e, cr, h1.cr_state]; exact ring)
    refine ⟨⟨_, h1, ?_⟩, g2.trans h2⟩
    have : abortOutcome (postResult k r s) a k r.status = abortAnswer a k r.status s := by
      unfold abortOutcome abortAnswer
      rw [e, abortResult_eq]
    rw [← this]
    exact g1

/-- What a state must offer for slot `k` to be concluded as the command's last work. -/
structure Ready (k : SlotId) (u : State) : Prop where
  request : Concludable k u
  settled : u.discarded = []

/-- Readiness reads the slots, the completion rings and the discarded completions alone. -/
theorem Ready.of {k u u'} (h : Ready k u) (h1 : u'.slots = u.slots) (h2 : u'.crs = u.crs)
    (h3 : u'.discarded = u.discarded) : Ready k u' := by
  have e1 : ∀ j, u'.slot j = u.slot j := fun j => by unfold State.slot; rw [h1]
  have e2 : ∀ c, u'.cr c = u.cr c := fun c => by unfold State.cr; rw [h2]
  refine ⟨⟨?_, ?_, fun a ha => ?_⟩, by rw [h3]; exact h.settled⟩
  · rw [e1]; exact h.request.isOpen
  · rw [e1, e2]; exact h.request.ring
  · rw [e1] at ha
    rw [e1, e2]
    exact h.request.requester a ha

/-- A slot that no ABORT waits on is ready where it is open and its completion ring ACTIVE. -/
theorem Ready.alone {k : SlotId} {u : State} (ha : (u.slot k).abortRequester = none) (ho : (u.slot k).isOpen = true)
    (hc : (u.cr (u.slot k).cr).state = .active) (hd : u.discarded = []) : Ready k u :=
  ⟨⟨(Slot.isOpen_iff _).1 ho, hc, fun a h => by rw [ha] at h; cases h⟩, hd⟩

/-- Everything `answer` does for a slot that is ready. -/
theorem Ready.answer {k u} (h : Ready k u) (r : Result) : Concluded k r u (answer k r u) := by
  unfold Machine.answer
  rw [settle_of_none_discarded h.settled]
  obtain ⟨h1, h2⟩ := completeSlot_effect r h.request
  rw [settle_of_none_discarded (by rw [h2, h.settled])]
  exact h1

/-- A command that completes a ready slot and settles replies to it. -/
theorem Ready.complete {c s k r u} (h : Ready k u) (he : exec c s = .next (settle (completeSlot k r u))) :
    Replies c s k r u := by
  obtain ⟨h1, h2⟩ := completeSlot_effect r h.request
  refine ⟨_, he, ?_⟩
  rw [settle_of_none_discarded (by rw [h2, h.settled])]
  exact h1

/-- A command that answers a ready slot replies to it. -/
theorem replies {c s k r u t} (h : exec c s = .next (answer k r t)) (ht : t = u) (hr : Ready k u) : Replies c s k r u := by
  subst ht; exact ⟨_, h, hr.answer r⟩

/-! ### Sample records -/

/-- What the write of a record fills into it (R105). -/
def writeFieldsOf (n : SensorId) (r : SampleRecord) (s : State) : WriteFields :=
        { sequence := if r.isMarkStart then 0 else (s.sensor n).sequence
          missed := (s.sensor n).missed, rejected := (s.sensor n).rejected, withheld := (s.sensor n).withheld
          congested := decide ((s.sr (s.sensor n).ring).advance.congest.state = .congested),
              phase := (s.sr (s.sensor n).ring).phase }

/-- Everything `writeRecord` does. -/
theorem writeRecord_effect (n : SensorId) (r : SampleRecord) (s : State) :
    ∃ it ms m, writeRecord n r s = { s with
      sensors := s.sensors.set n { s.sensor n with
        sequence := (if r.isMarkStart then 0 else (s.sensor n).sequence) + 1, missed := 0, rejected := 0, withheld := 0 }
      srs := s.srs.set (s.sensor n).ring { (s.sr (s.sensor n).ring).advance.congest with interrupt := it }
      outbox := s.outbox ++ .record { kind := .sample (s.sensor n).ring, entry := (s.sr (s.sensor n).ring).producer
                                      address := (s.sr (s.sensor n).ring).base + 32 * (s.sr (s.sensor n).ring).producer
                                      data := encodeSample r (writeFieldsOf n r s)
                                      live := true } :: ms
      msix := m } ∧
      ∀ t : State, t.msix = m →
          Signalled s t (s.sr (s.sensor n).ring).vector (s.sr (s.sensor n).ring).coalescingCount (s.sr (s.sensor n).ring).coalescingTime false
        (s.sr (s.sensor n).ring).interrupt it ms := by
  unfold writeRecord
  dsimp only
  generalize hu : (issueWrite _ _ _ _ _ : State) = u
  have hne : u.outbox ≠ [] := by rw [← hu]; simp [issueWrite]
  obtain ⟨it, ms, m, he, hs⟩ := signalSr_effect (s.sensor n).ring u hne
  have hd : u.sr (s.sensor n).ring = (s.sr (s.sensor n).ring).advance.congest := by
    rw [← hu]; change State.sr (State.setSr _ _ _) _ = _; simp
  rw [hd] at he hs
  refine ⟨it, ms, m, ?_, ?_⟩
  · rw [he, ← hu]
    simp [issueWrite, State.setSr, State.setSensor, writeFieldsOf]
  · intro t ht
    have := hs t ht
    simp only [SampleRing.congest_fields, SampleRing.advance_fields] at this
    rw [← hu] at this
    exact this

/-- `writeRecord` writes the record as R105 says, on a ring that is not ABSENT. -/
theorem writeRecord_written (r : SampleRecord) (s : State) (hok : (s.sr (s.sensor r.sensor).ring).Ok) (ha : (s.sr
    (s.sensor r.sensor).ring).state ≠ .absent) :
    Written r s (writeRecord r.sensor r s) := by
  have h1 := hok.producer ha
  have h2 := hok.consumer ha
  obtain ⟨it, ms, m, he, hs⟩ := writeRecord_effect r.sensor r s
  generalize hd : s.sr (s.sensor r.sensor).ring = d at *
  have hms : r.isMarkStart = true ↔ r.kind = .mark ∧ r.reason = some .start := by simp [SampleRecord.isMarkStart]
  have hcong : d.advance.congest.state = if d.state = .active ∧ ((d.size : Int) - 1 - (((if d.producer + 1 =
      d.size then 0 else d.producer + 1 : Nat) : Int) - d.consumer) % d.size < d.lowWater)
      then .congested else d.state := by
    rw [SampleRing.congest_fields]
    have hst : d.advance.state = d.state ∧ d.advance.lowWater = d.lowWater := by rw [SampleRing.advance_fields]; exact ⟨rfl,
        rfl⟩
    have hfree : d.advance.free = d.size - 1 - unconsumed (if d.producer + 1 =
        d.size then 0 else d.producer + 1) d.consumer d.size := by
      unfold SampleRing.free SampleRing.used
      rw [SampleRing.advance_fields]
    rw [hst.1, hst.2, hfree]
    have hp : (if d.producer + 1 = d.size then 0 else d.producer + 1) < d.size := by split <;> omega
    have hu := unconsumed_eq_emod _ d.consumer d.size hp h2
    have hlt : unconsumed (if d.producer + 1 =
        d.size then 0 else d.producer + 1) d.consumer d.size < d.size := Nat.mod_lt _ (by omega)
    rw [← hu]
    generalize unconsumed _ _ _ = x at *
    dsimp only
    have e : (d.state = SampleRingState.active ∧ d.size - 1 - x < d.lowWater) ↔ (d.state = SampleRingState.active ∧
        (d.size : Int) - 1 - x < d.lowWater) := by
      constructor
      · rintro ⟨a, b⟩; exact ⟨a, by omega⟩
      · rintro ⟨a, b⟩; exact ⟨a, by omega⟩
    simp only [e]
  unfold Written
  simp only
  rw [hd]
  have hsr : (writeRecord r.sensor r s).sr (s.sensor r.sensor).ring = { d.advance.congest with interrupt := it } := by
    rw [he]; simp [State.sr]
  refine ⟨it, ms, _, hcong, ?_, ?_, ?_, ?_, ?_, ?_, ?_⟩
  · rw [he]
  · rw [he]
    simp only [State.sensor, Fin.getElem_fin, Vector.getElem_set_self]
    congr 2
    by_cases hk : r.kind = .mark ∧ r.reason = some .start
    · rw [if_pos hk, if_pos (hms.2 hk)]
    · rw [if_neg hk, if_neg (fun x => hk (hms.1 x))]
  · intro n hn
    have : (r.sensor : Nat) ≠ n := fun h => hn (Fin.ext h.symm)
    rw [he]; simp [State.sensor, this]
  · rw [hsr]
    rw [SampleRing.congest_fields, SampleRing.advance_fields]
  · intro i hi
    have : ((s.sensor r.sensor).ring : Nat) ≠ i := fun h => hi (Fin.ext h.symm)
    rw [he]; simp only [State.sr, Fin.getElem_fin]
    rw [Vector.getElem_set_ne (h := this)]
  · have e : writeFieldsOf r.sensor r s =
      { sequence := (if r.kind = .mark ∧ r.reason = some .start then 0 else (s.sensor r.sensor).sequence), missed := (s.sensor r.sensor).missed, rejected := (s.sensor r.sensor).rejected, withheld := (s.sensor r.sensor).withheld, congested := decide (d.advance.congest.state = .congested), phase := d.phase } := by
      unfold writeFieldsOf
      rw [hd]
      congr 1
      by_cases hk : r.kind = .mark ∧ r.reason = some .start
      · rw [if_pos hk, if_pos (hms.2 hk)]
      · rw [if_neg hk, if_neg (fun x => hk (hms.1 x))]
    rw [e] at he
    rw [hsr]
    rw [he]
    rfl
  · exact hs _ (by rw [he])

/-- HELD_OVERFLOW is set in the newest held record (R108). -/
theorem overflowTail_append (l : List SampleRecord) (x) : overflowTail (l ++ [x]) =
    l ++ [{ x with flags := { x.flags with heldOverflow := true } }] := by
  induction l with
  | nil => rfl
  | cons a l ih =>
    cases l with
    | nil => rfl
    | cons b l => exact congrArg (List.cons a) ih

/-- Everything `postRecord` can do (R107, R108). -/
theorem postRecord_effect (r : SampleRecord) (s : State) (hok : (s.sr (s.sensor r.sensor).ring).Ok) :
  let c := s.sensor r.sensor
  let d := s.sr c.ring
  ((d.state = .active ∨ d.state = .congested → c.held = [] → ¬ Full d → Written r s (postRecord r s)) ∧
   (d.state = .active ∨ d.state = .congested → (c.held ≠ [] ∨ Full d) → postRecord r s =
       if r.kind = .sample then s.setSensor r.sensor { c with withheld := saturating 65535 c.withheld }
       else if c.held.length < Config.heldPerSensor then s.setSensor r.sensor { c with held := c.held ++ [r] }
       else s.setSensor r.sensor { c with held := overflowTail c.held }) ∧
   (d.state = .faulted ∨ d.state = .absent → postRecord r s = s)) := by
  intro c d
  refine ⟨fun h1 h2 h3 => ?_, fun h1 h2 => ?_, fun h => ?_⟩
  · have ha : d.state ≠ .absent := by rcases h1 with h | h <;> simp [h]
    have hw : d.writable = true := by rcases h1 with h | h <;> simp [SampleRing.writable, h]
    have hf : d.full = false := by rw [← Bool.not_eq_true, SampleRing.full_iff d hok ha]; exact h3
    have : postRecord r s = writeRecord r.sensor r s := by
      unfold postRecord
      simp only
      rw [if_neg (by rw [show (s.sr (s.sensor r.sensor).ring).writable = true from hw]; simp)]
      rw [if_pos (by rw [show (s.sr (s.sensor r.sensor).ring).full = false from hf, show (s.sensor r.sensor).held = [] from h2]; rfl)]
    rw [this]
    exact writeRecord_written r s hok ha
  · have ha : d.state ≠ .absent := by rcases h1 with h | h <;> simp [h]
    have hw : d.writable = true := by rcases h1 with h | h <;> simp [SampleRing.writable, h]
    unfold postRecord
    simp only
    rw [if_neg (by rw [show (s.sr (s.sensor r.sensor).ring).writable = true from hw]; simp)]
    rw [if_neg]
    rcases h2 with h2 | h2
    · simp [show (s.sensor r.sensor).held ≠ [] from h2]
    · simp [show (s.sr (s.sensor r.sensor).ring).full = true from (SampleRing.full_iff d hok ha).2 h2]
  · have hw : d.writable = false := by rcases h with h | h <;> simp [SampleRing.writable, h]
    unfold postRecord
    simp only
    rw [if_pos (by rw [show (s.sr (s.sensor r.sensor).ring).writable = false from hw]; rfl)]

/-- `postRecord` writes contexts, sample rings, the outbox and MSI-X alone. -/
theorem postRecord_frame (r : SampleRecord) (s : State) : postRecord r s =
    { s with sensors := (postRecord r s).sensors, srs := (postRecord r s).srs, outbox := (postRecord r s).outbox, msix := (postRecord r s).msix } := by
  generalize hh : postRecord r s = t
  unfold postRecord at hh
  simp only at hh
  split at hh
  · subst hh; rfl
  split at hh
  · obtain ⟨it, ms, m, he, -⟩ := writeRecord_effect r.sensor r s
    rw [he] at hh
    subst hh; rfl
  split at hh
  · subst hh; rfl
  split at hh
  · subst hh; rfl
  · subst hh; rfl

/-- `postRecord` leaves the ports alone. -/
theorem postRecord_keeps (r s) : (postRecord r s).links = s.links ∧ (postRecord r s).discarded = s.discarded ∧
    (postRecord r s).scheds = s.scheds := by
  have := postRecord_frame r s
  rw [this]
  exact ⟨rfl, rfl, rfl⟩

/-- `postRecords` leaves the ports alone. -/
theorem postRecords_keep (l : List SampleRecord) : ∀ s, (postRecords l s).links = s.links ∧ (postRecords l s).discarded =
    s.discarded ∧ (postRecords l s).scheds = s.scheds := by
  induction l with
  | nil => intro s; exact ⟨rfl, rfl, rfl⟩
  | cons r l ih =>
    intro s
    obtain ⟨h1, h2, h3⟩ := ih (postRecord r s)
    obtain ⟨g1, g2, g3⟩ := postRecord_keeps r s
    exact ⟨h1.trans g1, h2.trans g2, h3.trans g3⟩

/-! ### Notices -/

/-- `raiseNotice` writes the notice list alone. -/
theorem raiseNotice_frame (src det tm) (s : State) : raiseNotice src det tm s =
    { s with notices := (raiseNotice src det tm s).notices } := by
  unfold raiseNotice; split <;> rfl

/-- `raiseNotice` leaves the ports alone. -/
theorem raiseNotice_keeps (a b c) (s : State) : (raiseNotice a b c s).links = s.links ∧ (raiseNotice a b c s).discarded =
    s.discarded ∧ (raiseNotice a b c s).scheds = s.scheds := by
  unfold raiseNotice; split <;> exact ⟨rfl, rfl, rfl⟩

end Sys2Proof.Machine
end

