-- ==== Sys2Proof/Laws/Answers.lean ====
section
/-! SUPPORT. How an answered request stands beside changes of the state that it neither reads nor writes, and what a
concluded request leaves as it was. -/

namespace Sys2Proof.Claims

open Sys2Proof.Machine

/-! ### Answers survive what follows them on other state -/

/-- The two states agree in all that an answer reads and writes: slots, completion rings, outbox, MSI-X, device time and the
fetch heads that completions report. -/
structure SameDelivery (s s' : State) : Prop where
  slots : s'.slots = s.slots
  crs : s'.crs = s.crs
  outbox : s'.outbox = s.outbox
  msix : s'.msix = s.msix
  time : s'.time = s.time
  heads : ∀ r, (s'.rq r).fetchHead = (s.rq r).fetchHead

/-- An answer stands beside any change of the state that it neither reads nor writes. -/
theorem Answered.frame {k r s t s' t'} (h : Answered k r s t) (e : SameDelivery s s')
    (ht : t' = { s' with slots := t.slots, crs := t.crs, outbox := t.outbox, msix := t.msix }) : Answered k r s' t' := by
  have e1 : ∀ j, s'.slot j = s.slot j := fun j => by unfold State.slot; rw [e.slots]
  have e2 : ∀ c, s'.cr c = s.cr c := fun c => by unfold State.cr; rw [e.crs]
  obtain ⟨h1, h2, h3, h4, it, ms, h5, h6, h7⟩ := h
  subst ht
  refine ⟨rfl, by rw [e1]; exact h2, fun j hj => (h3 j hj).trans (e1 j).symm, ?_, it, ms, ?_, ?_, ?_⟩
  · intro c hc
    rw [e1] at hc
    exact (h4 c hc).trans (e2 c).symm
  · change t.outbox = _
    rw [h5, e.outbox]
    unfold completionOf
    simp only [e1, e2, e.heads]
  · simp only [e1, e2]; exact h6
  · simp only [e1, e2]
    unfold Signalled at h7 ⊢
    rw [e.msix, e.time]
    exact h7

/-- So does a concluded request. -/
theorem Concluded.frame {k r s t s' t'} (h : Concluded k r s t) (e : SameDelivery s s')
    (ht : t' = { s' with slots := t.slots, crs := t.crs, outbox := t.outbox, msix := t.msix }) : Concluded k r s' t' := by
  have e1 : ∀ j, s'.slot j = s.slot j := fun j => by unfold State.slot; rw [e.slots]
  unfold Concluded at h ⊢
  rw [e1]
  cases ha : (s.slot k).abortRequester with
  | none => rw [ha] at h; exact Answered.frame h e ht
  | some a =>
    rw [ha] at h
    obtain ⟨v, g1, g2⟩ := h
    refine ⟨{ s' with slots := v.slots, crs := v.crs, outbox := v.outbox, msix := v.msix }, g1.frame e rfl, ?_⟩
    have : abortAnswer a k r.status s' = abortAnswer a k r.status s := by unfold abortAnswer; rw [e1]
    rw [this]
    refine g2.frame ⟨rfl, rfl, rfl, rfl, ?_, fun q => ?_⟩ ht
    · rw [g1.others]; exact e.time
    · rw [g1.others]; exact e.heads q

/-- A concluded request changes the slots, the completion rings, the outbox and MSI-X alone. -/
theorem Concluded.others {k r s t} (h : Concluded k r s t) :
    t = { s with slots := t.slots, crs := t.crs, outbox := t.outbox, msix := t.msix } := by
  unfold Concluded at h
  cases ha : (s.slot k).abortRequester with
  | none => rw [ha] at h; exact h.others
  | some a =>
    rw [ha] at h
    obtain ⟨v, g1, g2⟩ := h
    have e1 := g1.others
    have e2 := g2.others
    rw [e1] at e2
    exact e2

/-- A concluded request leaves every completion ring in its state. -/
theorem Concluded.cr_state {k r s t} (h : Concluded k r s t) (c : CrId) : (t.cr c).state = (s.cr c).state := by
  unfold Concluded at h
  cases ha : (s.slot k).abortRequester with
  | none => rw [ha] at h; exact h.cr_state c
  | some a =>
    rw [ha] at h
    obtain ⟨v, g1, g2⟩ := h
    rw [g2.cr_state, g1.cr_state]

/-- A concluded request touches its own slot and that of the ABORT that waits on it alone. -/
theorem Concluded.otherSlots {k r s t} (h : Concluded k r s t) (j : SlotId) (hj : j ≠ k)
    (hr : (s.slot k).abortRequester ≠ some j) : t.slot j = s.slot j := by
  unfold Concluded at h
  cases ha : (s.slot k).abortRequester with
  | none => rw [ha] at h; exact h.otherSlots j hj
  | some a =>
    rw [ha] at h hr
    obtain ⟨v, g1, g2⟩ := h
    rw [g2.otherSlots j (fun e => hr (by rw [e])), g1.otherSlots j hj]

/-- A scheduler changed on both sides. -/
theorem Concluded.sched {k r s t} (h : Concluded k r s t) (p x) : Concluded k r (s.setSched p x) (t.setSched p x) := by
  refine h.frame ⟨rfl, rfl, rfl, rfl, rfl, fun _ => rfl⟩ ?_
  conv_lhs => rw [h.others]
  rfl

/-- A link changed on both sides. -/
theorem Concluded.link {k r s t} (h : Concluded k r s t) (p x) : Concluded k r (s.setLink p x) (t.setLink p x) := by
  refine h.frame ⟨rfl, rfl, rfl, rfl, rfl, fun _ => rfl⟩ ?_
  conv_lhs => rw [h.others]
  rfl

/-- A sensor context changed on both sides. -/
theorem Concluded.sensor {k r s t} (h : Concluded k r s t) (n x) : Concluded k r (s.setSensor n x) (t.setSensor n x) := by
  refine h.frame ⟨rfl, rfl, rfl, rfl, rfl, fun _ => rfl⟩ ?_
  conv_lhs => rw [h.others]
  rfl

/-- A notice raised on both sides. -/
theorem Concluded.raise {k r s t} (h : Concluded k r s t) (src det tm) : Concluded k r (raiseNotice src det tm s)
    (raiseNotice src det tm t) := by
  have hn : (raiseNotice src det tm t).notices = (raiseNotice src det tm s).notices := by
    have : t.notices = s.notices := by rw [h.others]
    unfold raiseNotice; rw [this]; split <;> rfl
  rw [raiseNotice_frame src det tm s, raiseNotice_frame src det tm t, hn]
  refine h.frame ⟨rfl, rfl, rfl, rfl, rfl, fun _ => rfl⟩ ?_
  conv_lhs => rw [h.others]

end Sys2Proof.Claims
end

