-- ==== Sys2Proof/Laws/Blocks.lean ====
section
/-! SUPPORT. What the operations of the blocks do, said once each: the bits of a frame, a port's sensors, the scheduler.
A proof about a command cites these and never unfolds the operation. -/

namespace Sys2Proof.Machine

open Sys2Proof.Claims

/-! ### Bits of a frame -/

/-- Most significant bit first. -/
theorem bitsOf_succ (n v : Nat) : bitsOf (n + 1) v = bitsOf n (v / 2) ++ [v.testBit 0] := by
  unfold bitsOf
  rw [List.range_succ, List.map_append]
  congr 1
  · apply List.map_congr_left
    intro i hi
    have := List.mem_range.1 hi
    rw [Nat.testBit_div_two]
    congr 1; omega
  · simp

/-- A field is as long as its width. -/
theorem bitsOf_length (n v : Nat) : (bitsOf n v).length = n := by simp [bitsOf]

/-- The last bit is the least significant. -/
theorem natOf_snoc (l : List Bool) (b : Bool) : natOf (l ++ [b]) = 2 * natOf l + b.toNat := by simp [natOf]

/-- A field reads back as the value it was written from. -/
theorem natOf_bitsOf (n v : Nat) : natOf (bitsOf n v) = v % 2 ^ n := by
  induction n generalizing v with
  | zero => simp [bitsOf, natOf, Nat.mod_one]
  | succ n ih =>
    rw [bitsOf_succ, natOf_snoc, ih, Nat.pow_succ, Nat.mul_comm (2 ^ n) 2, Nat.mod_mul]
    rw [Nat.testBit_zero]
    have := Nat.mod_two_eq_zero_or_one v
    rcases this with h | h
    · simp [h]
    · simp [h]
      omega

/-- A tag is free where it is in no attempt's place in the list of tags used (R9). -/
theorem Attempt.hasFreeTag_iff (a : Attempt) : a.hasFreeTag = true ↔ ∃ tag : BitVec 3, tag ∉ a.tags := by
  constructor
  · intro h
    obtain ⟨t, -, ht⟩ := List.any_eq_true.1 h
    exact ⟨BitVec.ofNat 3 t, by simpa using ht⟩
  · rintro ⟨tag, h⟩
    exact List.any_eq_true.2 ⟨tag.toNat, List.mem_range.2 tag.isLt, by simpa using h⟩

/-- A field is read where it stands. -/
theorem bitField_append (pre mid post : List Bool) (i n : Nat) (hi : pre.length = i) (hn : mid.length = n) :
    bitField (pre ++ mid ++ post) i n = natOf mid := by
  subst hi; subst hn
  simp [bitField]

/-! ### Sensors of a port -/

/-- The sensors of a port are those that lie on it. -/
theorem mem_sensorsOf (p : PortId) (n : SensorId) : n ∈ sensorsOf p ↔ portOf n = p := by
  have ha : ∀ a b : Nat, b < 8 → (a = 4 * b ∨ a = 4 * b + 1 ∨ a = 4 * b + 2 ∨ a = 4 * b + 3 ↔ a / 4 = b) := by omega
  simp [sensorsOf, sensorAt, portOf, Fin.ext_iff]
  exact ha _ _ p.isLt

/-- No sensor of a port comes twice. -/
theorem sensorsOf_nodup (p : PortId) : (sensorsOf p).Nodup := by
  simp [sensorsOf, sensorAt, Fin.ext_iff]

/-- Everything that a missed cycle does to a list of sensors (R38). -/
theorem missReading_fold (l : List SensorId) (hnd : l.Nodup) : ∀ s : State,
    l.foldl (fun s n => missReading n s) s = { s with sensors := (l.foldl (fun s n => missReading n s) s).sensors } ∧
    ∀ n, (l.foldl (fun s n => missReading n s) s).sensor n =
        if n ∈ l then { s.sensor n with missed := min 255 ((s.sensor n).missed + 1) } else s.sensor n := by
  induction l with
  | nil => intro s; simp
  | cons m l ih =>
    intro s
    rw [List.nodup_cons] at hnd
    simp only [List.foldl_cons]
    obtain ⟨h1, h2⟩ := ih hnd.2 (missReading m s)
    refine ⟨?_, fun n => ?_⟩
    · conv_lhs => rw [h1]
      simp [missReading, State.setSensor]
    · rw [h2]
      by_cases hnm : n = m
      · subst hnm
        simp [hnd.1, missReading, saturating]
      · have : (missReading m s).sensor n = s.sensor n := State.sensor_setSensor_ne _ _ _ _ (Ne.symm hnm)
        simp [this, hnm]

/-- Everything that an edge does to a list of sensors (R96). -/
theorem edgeAtSensor_fold (l : LineId) (e : Time) (ref) (L : List SensorId) (hnd : L.Nodup) : ∀ s : State,
    L.foldl (fun s n => s.setSensor n (edgeAtSensor l e ref n (s.sensor n))) s =
        { s with sensors := (L.foldl (fun s n => s.setSensor n (edgeAtSensor l e ref n (s.sensor n))) s).sensors } ∧
    ∀ n, (L.foldl (fun s n => s.setSensor n (edgeAtSensor l e ref n (s.sensor n))) s).sensor n =
        if n ∈ L then edgeAtSensor l e ref n (s.sensor n) else s.sensor n := by
  induction L with
  | nil => intro s; simp
  | cons m L ih =>
    intro s
    rw [List.nodup_cons] at hnd
    simp only [List.foldl_cons]
    obtain ⟨h1, h2⟩ := ih hnd.2 (s.setSensor m (edgeAtSensor l e ref m (s.sensor m)))
    refine ⟨?_, fun n => ?_⟩
    · conv_lhs => rw [h1]
      simp [State.setSensor]
    · rw [h2]
      by_cases hnm : n = m
      · subst hnm
        simp [hnd.1]
      · have : (s.setSensor m (edgeAtSensor l e ref m (s.sensor m))).sensor n =
          s.sensor n := State.sensor_setSensor_ne _ _ _ _ (Ne.symm hnm)
        simp [this, hnm]

/-- Everything `recognise` does with an edge that is acted on (R95, R96). -/
theorem recognise_effect (l : LineId) (q : Qualification) (s : State) (ha : (s.line l).actsOn q = true) : ∃ v,
    recognise l q s = { s with
      lines := s.lines.set l (if (s.line l).arm =
          .once then CaptureLine.disarmed { s.line l with recognised := q.level, qualification := none } else { s.line l with recognised := q.level, qualification := none }),
      sensors := v } ∧ ∀ n : SensorId, v[n] = edgeAtSensor l q.since (if (s.line l).arm = .once then (s.line l).reference else none) n (s.sensor n) := by
  unfold recognise
  simp only
  rw [if_pos ha]
  have key : ∃ v, edgeEvent l q.since (if (s.line l).arm =
      .once then (s.line l).reference else none) (s.setLine l { s.line l with recognised := q.level, qualification := none }) =
      { s.setLine l { s.line l with recognised := q.level, qualification := none } with sensors := v } ∧
      ∀ n : SensorId, v[n] = edgeAtSensor l q.since (if (s.line l).arm =
          .once then (s.line l).reference else none) n (s.sensor n) := by
    obtain ⟨f1, f2⟩ := edgeAtSensor_fold l q.since (if (s.line l).arm =
        .once then (s.line l).reference else none) allSensors (List.nodup_finRange 32) (s.setLine l { s.line l with recognised := q.level, qualification := none })
    have hm : ∀ n : SensorId, n ∈ allSensors := List.mem_finRange
    unfold edgeEvent
    generalize allSensors = L at f1 f2 hm ⊢
    generalize List.foldl _ _ _ = F at f1 f2 ⊢
    exact ⟨F.sensors, f1, fun n => (f2 n).trans (if_pos (hm n))⟩
  obtain ⟨v, h1, h2⟩ := key
  refine ⟨v, ?_, h2⟩
  rw [h1]
  split
  · simp only [State.setLine, Vector.set_set]
  · rfl

/-- With no capture pending, a reading completes none (R97). -/
theorem completeCaptures_of_none (n : SensorId) (v : Interval) (c : Sensor) (h : ∀ l : LineId, c.captures[l] = none) :
    completeCaptures n v c = (c, []) := by
  unfold completeCaptures
  generalize List.finRange 4 = L
  induction L with
  | nil => rfl
  | cons l L ih =>
    simp only [List.foldl_cons, h]
    exact ih

/-- With no ACQUIRING sensor on the port there is none to suspend (R66). -/
theorem suspendPort_of_none_acquiring {p : PortId} {s : State} (h : ∀ n, portOf n = p → (s.sensor n).state ≠ .acquiring) :
    suspendPort p s = s := by
  unfold suspendPort
  have : ∀ L : List SensorId, (∀ n ∈ L, portOf n = p) → L.foldl (fun s n => suspendSensor n s) s = s := by
    intro L
    induction L with
    | nil => intro _; rfl
    | cons n L ih =>
      intro hL
      simp only [List.foldl_cons]
      have : suspendSensor n s = s := by
        unfold suspendSensor; simp only; rw [if_neg (h n (hL n (by simp)))]
      rw [this]
      exact ih (fun m hm => hL m (by simp [hm]))
  exact this _ (fun n hn => (mem_sensorsOf p n).1 hn)

/-- The ports after a treatment of sensor `n`: links and discarded completions unchanged, schedulers but for a dropped round
entry. -/
def Quiet (n : SensorId) (s t : State) : Prop :=
  t.links = s.links ∧ t.discarded = s.discarded ∧ (t.scheds = s.scheds ∨ t.scheds =
      s.scheds.set (portOf n) ((s.sched (portOf n)).dropEntry n))

/-- `faultSensor` touches no more of the ports. -/
theorem faultSensor_quiet (n cause time) (s : State) : Quiet n s (faultSensor n cause time s) := by
  unfold faultSensor
  simp only
  obtain ⟨h1, h2, h3⟩ := raiseNotice_keeps (.sensor n) (BitVec.ofNat 32 cause.code) time (if (s.sensor n).state =
      .bound then (leaveAcquisition n s).setSensor n { (leaveAcquisition n s).sensor n with state := .faulted, cause := cause } else postRecord (markRecord n (s.sensor n) .fault cause time (dropsCaptures (s.sensor n))) ((leaveAcquisition n s).setSensor n { (leaveAcquisition n s).sensor n with state := .faulted, cause := cause }))
  have hl : Quiet n s (leaveAcquisition n s) := by
    unfold leaveAcquisition
    simp only
    split
    · exact ⟨rfl, rfl, .inr rfl⟩
    · exact ⟨rfl, rfl, .inl rfl⟩
  unfold Quiet
  rw [h1, h2, h3]
  split
  · exact hl
  · obtain ⟨g1, g2, g3⟩ := postRecord_keeps (markRecord n (s.sensor n) .fault cause time (dropsCaptures (s.sensor n))) ((leaveAcquisition n s).setSensor n { (leaveAcquisition n s).sensor n with state := .faulted, cause := cause })
    rw [g1, g2, g3]
    exact hl

/-- `rejectReading` touches no more of the ports. -/
theorem rejectReading_quiet (n time) (s : State) : Quiet n s (rejectReading n time s) := by
  unfold rejectReading
  simp only
  split
  · exact faultSensor_quiet _ _ _ _
  · exact ⟨rfl, rfl, .inl rfl⟩

/-- `takeReading` touches no more of the ports. -/
theorem takeReading_quiet (r : Reading) (s : State) : Quiet r.sensor s (takeReading r s) := by
  unfold takeReading
  simp only
  split
  · exact ⟨rfl, rfl, .inl rfl⟩
  split
  · exact ⟨rfl, rfl, .inl rfl⟩
  · exact rejectReading_quiet _ _ _
  · split
    · exact rejectReading_quiet _ _ _
    · unfold admitReading
      simp only
      split
      · exact faultSensor_quiet _ _ _ _
      split
      · exact faultSensor_quiet _ _ _ _
      · obtain ⟨h1, h2, h3⟩ := postRecords_keep _ _
        exact ⟨h1, h2, .inl h3⟩

/-! ### Ports -/

/-- There is no round entry to drop outside a round. -/
theorem Scheduler.dropEntry_of_empty {ps : Scheduler} (n) (h : ps.roundList = []) : ps.dropEntry n = ps := by
  have : ps.roundList.head? ≠ some n := by simp [h]
  unfold Scheduler.dropEntry
  rw [if_neg this]
  cases ps; simp_all

/-- A decision with nothing due, active or queued does nothing (R37, R46). -/
theorem makeDecision_of_idle (p : PortId) (s : State) (h1 : (s.sched p).round = .none) (h2 : (s.sched p).active = none) (h3 :
    (s.sched p).queue = []) : makeDecision p s = s := by
  unfold makeDecision
  split
  · rfl
  · have e : (if (s.sched p).round = .due then startRound p true s else s) = s := by rw [if_neg]; rw [h1]; simp
    rw [e]
    simp only
    rw [if_neg (by rw [h1]; simp), h2, h3]
    rfl

/-- A decision inside a round offers the round's exchange (R46). -/
theorem makeDecision_of_round {p : PortId} {s : State} (h1 : (s.sched p).round = .inProgress) (hm : mayDecide p s = true) :
    makeDecision p s = offerRound p s := by
  unfold makeDecision
  rw [hm]
  have e : (if (s.sched p).round = .due then startRound p true s else s) = s := by rw [if_neg]; rw [h1]; simp
  simp only [Bool.not_true, Bool.false_eq_true, if_false]
  rw [e, if_pos h1]

/-- Everything `completeActive` does for the active transaction (R50, R52). -/
theorem completeActive_effect {p k r s t} (h : (s.sched p).active = some k) (A : Concluded k r s t) (ht : t =
    completeSlot k r s) : completeActive p r s =
    t.setSched p { s.sched p with active := none, exchangesDone := 0, hold := false, progress := .empty } := by
  unfold completeActive
  simp only [h]
  rw [← ht]
  have : t.sched p = s.sched p := by rw [A.others]; rfl
  rw [this]

/-- A cut transaction completes with the exchanges done and the values so far (R50, R156). -/
theorem cutActive_effect {p k st done s} (h : (State.sched s p).active = some k) : cutActive p st done s =
    completeActive p { status := st, detail := BitVec.ofNat 32 done, data := progressData (s.slot k).body (s.sched p).progress } s := by
  unfold cutActive; simp only; rw [h]

/-- Flushing an empty queue with no transaction to cut does nothing (R33). -/
theorem flushPort_of_quiet (p : PortId) (st) (s : State) (hq : (s.sched p).queue = [])
    (h : (s.sched p).active = none ∨ (s.sched p).owner = some .transaction) (hd : s.discarded = []) : flushPort p st s =
        s := by
  have h2 : flushQueue p st s = s := by
    unfold flushQueue
    simp only [hq, List.foldl_nil]
    conv_rhs => rw [← State.setSched_self s p]
    rw [← hq]
  unfold flushPort
  simp only
  split
  · exact h2
  · rename_i hn
    rcases h with h | h
    · rw [show cutActive p st (s.sched p).exchangesDone s = s by simp [cutActive, h], settle_of_none_discarded hd]; exact h2
    · exact absurd h hn

/-- The end of an attempt with a response accepted, in RUNNING (R24). -/
theorem endAttempt_ok {p a w al pl s} (ha : (State.link s p).attempt = some a) (hr : (s.link p).state = .running) :
    endAttempt p (.ok w al pl) s =
        okExchange p (a.finished (.ok w al pl)) (.ok w al pl) (s.setLink p { s.link p with attempt := some (a.finished (.ok w al pl)), lastEnd := some s.time }) := by
  unfold endAttempt
  simp only [ha, hr]

end Sys2Proof.Machine
end

