-- ==== Sys2Proof/Laws/Scheduling.lean ====
section
/-! SUPPORT. What decisions, arrivals, flushes, suspensions and faults do, said once each in the terms of
Safety/Scheduling.lean. A proof about a command cites these and never unfolds the operation. -/

namespace Sys2Proof.Machine

open Sys2Proof.Claims

/-! ### Activation (R48, R155) -/

/-- The exchange that a transaction offers is that of Table 33. -/
theorem transactionExchange_is {sl : Slot} {i : Nat} {a : Attempt} (h : IsExchange sl i a) :
    transactionExchange sl.body (addrOf sl.sensor) i = some a := by
  unfold IsExchange at h
  unfold transactionExchange
  split at h <;> simp_all [newAttempt, freshAttempt]

/-- A transaction has an exchange for every number. -/
theorem isExchange_exists {sl : Slot} (h : IsTransaction sl.body) (i : Nat) : ∃ a, IsExchange sl i a := by
  unfold IsTransaction at h
  unfold IsExchange
  split at h <;> simp_all

/-- The number of exchanges is that of R154. -/
theorem plannedExchanges_eq (b : Body) (c : Confirm) : plannedExchanges b c = exchangesOf b c := rfl

/-- The checks of a register transaction's activation are those of R155. -/
theorem unfitRegisters_iff (first count : Nat) (e : IdentityEntry) (st : Status) : UnfitRegisters first count e st ↔
    (if count < 1 ∨ 8 < count then some Status.invalidField else if !e.present then some .noSlave
      else if wordRegisters e.word < first + count then some .invalidField else none) = some st := by
  unfold UnfitRegisters
  by_cases h1 : count < 1 ∨ 8 < count
  · have : ¬ (1 ≤ count ∧ count ≤ 8) := by omega
    simp only [if_pos h1, this, not_false_eq_true, true_and, Option.some.injEq]
    constructor
    · rintro (h | ⟨a, b, _⟩ | ⟨a, b, _⟩)
      · exact h.symm
      · exact absurd ⟨a, b⟩ this
      · exact absurd ⟨a, b⟩ this
    · intro h; exact .inl h.symm
  · have h2 : 1 ≤ count ∧ count ≤ 8 := by omega
    rw [if_neg h1]
    cases he : e.present with
    | false => simp [h2.1, h2.2, eq_comm]
    | true =>
      by_cases h3 : wordRegisters e.word < first + count
      · simp [h2.1, h2.2, h3, eq_comm]
      · simp [h2.1, h2.2, h3]

/-- The checks at a transaction's activation are those of R155. -/
theorem unfit_iff {b : Body} (hb : IsTransaction b) (e : IdentityEntry) (state : SensorState) (st : Status) :
    Unfit b e state st ↔ activationCheck b e state = some st := by
  unfold Unfit activationCheck
  cases b <;> simp only [IsTransaction] at hb
  · exact unfitRegisters_iff _ _ _ _
  · exact unfitRegisters_iff _ _ _ _
  · cases e.present <;> simp [eq_comm]
  · rename_i target
    have hr : inSigned48 target = true ↔ -140737488355328 ≤ target ∧ target ≤ 140737488355327 := by
      unfold inSigned48
      rw [Bool.and_eq_true, decide_eq_true_eq, decide_eq_true_eq]
    dsimp only
    rw [← hr]
    cases h1 : inSigned48 target with
    | true => cases he : e.present <;> simp [eq_comm]
    | false =>
      simp only [Bool.false_eq_true, not_false_eq_true, true_and, false_and, or_false, Bool.not_false, if_true]
      exact ⟨fun h => h ▸ rfl, fun h => (Option.some.inj h).symm⟩
  · cases e.present <;> simp [eq_comm]

/-- What `activateFrom` needs of the references before it. -/
structure Waiting (l : List SlotId) (u : State) : Prop where
  distinct : l.Nodup
  waiting : ∀ k ∈ l, (u.slot k).state = .queued ∧ (u.slot k).abortRequester = none ∧
    (u.cr (u.slot k).cr).state = .active ∧ IsTransaction (u.slot k).body

/-- The state in which a reference has been activated. -/
theorem activate_eq (p : PortId) (k : SlotId) (rest : List SlotId) (s : State) : activate p k rest s = activated p k rest s :=
  rfl

/-- Offering an exchange. -/
theorem offerExchange_eq (p : PortId) (o : ExchangeOwner) (a : Attempt) (s : State) : offerExchange p o a s = offered p o a s :=
  rfl

/-- The oldest reference of a queue passes the checks and is given the link (R48, R155). -/
theorem activateFrom_given {p : PortId} {k : SlotId} {rest : List SlotId} {s : State} {a : Attempt}
    (hq : (s.slot k).state = .queued) (ht : IsTransaction (s.slot k).body)
    (fit : ∀ st, ¬ Unfit (s.slot k).body (entryOf (s.slot k).sensor s) (s.sensor (s.slot k).sensor).state st)
    (hx : IsExchange (s.slot k) 0 a) :
    activateFrom p (k :: rest) s = offered p .transaction a (activated p k rest s) := by
  unfold activateFrom
  rw [if_pos hq]
  dsimp only
  rw [activate_eq]
  have e1 : (activated p k rest s).slot k = { s.slot k with state := .active } := by
    simp [activated, State.slot_setSlot_same]
  rw [e1]
  have hck : activationCheck (s.slot k).body ((activated p k rest s).identityOf (s.slot k).sensor)
      ((activated p k rest s).sensor (s.slot k).sensor).state = none := by
    cases h : activationCheck (s.slot k).body (entryOf (s.slot k).sensor s) (s.sensor (s.slot k).sensor).state with
    | none => exact h
    | some st => exact absurd ((unfit_iff ht _ _ _).2 h) (fit st)
  dsimp only
  rw [hck]
  dsimp only
  unfold offerTransaction
  dsimp only
  rw [e1]
  dsimp only
  have : ((activated p k rest s).sched p).exchangesDone = 0 := by simp [activated]
  rw [this, transactionExchange_is hx]
  rfl

/-- Everything `activateFrom` does (R47, R48, R155). -/
theorem activateFrom_effect (p : PortId) : ∀ (l : List SlotId) (s : State), Waiting l s →
    Activates p l s (activateFrom p l s) ∧ (activateFrom p l s).discarded = s.discarded
  | [], s, _ => ⟨.nothing s, rfl⟩
  | k :: rest, s, h => by
    obtain ⟨hq, ha, hc, ht⟩ := h.waiting k List.mem_cons_self
    have hn := List.nodup_cons.1 h.distinct
    unfold activateFrom
    rw [if_pos hq]
    dsimp only
    rw [activate_eq]
    have e1 : (activated p k rest s).slot k = { s.slot k with state := .active } := by
      simp [activated, State.slot_setSlot_same]
    have e2 : (activated p k rest s).identityOf (s.slot k).sensor = entryOf (s.slot k).sensor s := rfl
    have e3 : (activated p k rest s).sensor (s.slot k).sensor = s.sensor (s.slot k).sensor := rfl
    rw [e1]
    dsimp only
    rw [e2, e3]
    cases hck : activationCheck (s.slot k).body (entryOf (s.slot k).sensor s) (s.sensor (s.slot k).sensor).state with
    | none =>
      dsimp only
      obtain ⟨a, hx⟩ := isExchange_exists ht 0
      have fit : ∀ st, ¬ Unfit (s.slot k).body (entryOf (s.slot k).sensor s) (s.sensor (s.slot k).sensor).state st :=
        fun st hu => by rw [unfit_iff ht, hck] at hu; cases hu
      have e4 : offerTransaction p k (activated p k rest s) = offered p .transaction a (activated p k rest s) := by
        have := activateFrom_given (p := p) (rest := rest) hq ht fit hx
        unfold activateFrom at this
        rw [if_pos hq] at this
        dsimp only at this
        rw [activate_eq, e1] at this
        dsimp only at this
        rwa [e2, e3, hck] at this
      rw [e4]
      exact ⟨.given fit hx, rfl⟩
    | some st =>
      dsimp only
      have hcl : Concludable k (activated p k rest s) := by
        refine ⟨.inr (.inr (by rw [e1])), ?_, fun b hb => ?_⟩
        · rw [e1]; exact hc
        · rw [e1] at hb
          exact absurd (ha.symm.trans hb) (by simp)
      obtain ⟨g1, g2⟩ := completeSlot_effect (Result.plain st) hcl
      have e5 := completeActive_effect (p := p) (by simp [activated]) g1 rfl
      rw [e5]
      have e6 : (activated p k rest s).setSched p
          { (activated p k rest s).sched p with active := none, exchangesDone := 0, hold := false, progress := .empty }
          = (s.setSlot k { s.slot k with state := .active }).setSched p (withoutActive { s.sched p with queue := rest }) := by
        simp [activated, State.setSched_setSched, withoutActive]
      have g3 := g1.sched p { (activated p k rest s).sched p with
        active := none, exchangesDone := 0, hold := false, progress := .empty }
      rw [e6] at g3
      have hw : Waiting rest ((completeSlot k (Result.plain st) (activated p k rest s)).setSched p
          { (activated p k rest s).sched p with active := none, exchangesDone := 0, hold := false, progress := .empty }) := by
        refine ⟨hn.2, fun j hj => ?_⟩
        have hjk : j ≠ k := fun e => hn.1 (e ▸ hj)
        have e7 : (completeSlot k (Result.plain st) (activated p k rest s)).slot j = s.slot j := by
          rw [g1.otherSlots j hjk (by rw [e1]; dsimp only; rw [ha]; simp)]
          simp only [activated, State.slot_setSched]
          exact State.slot_setSlot_ne _ _ _ _ (Ne.symm hjk)
        rw [State.slot_setSched, State.cr_setSched, e7, g1.cr_state]
        exact h.waiting j (List.mem_cons_of_mem _ hj)
      obtain ⟨f1, f2⟩ := activateFrom_effect p rest _ hw
      refine ⟨.refused ((unfit_iff ht _ _ _).2 hck) g3 f1, f2.trans g2⟩

/-! ### Decisions and arrivals (R45, R47) -/

/-- When the scheduler may decide. -/
theorem mayDecide_iff (p : PortId) (s : State) : mayDecide p s = true ↔ MayDecide p s := by
  simp [mayDecide, MayDecide, and_assoc]

/-- The references of a queue that is ready wait. -/
theorem Waiting.of_queue {p : PortId} {s u : State} (h : QueueReady p s) (h1 : u.slots = s.slots) (h2 : u.crs = s.crs) :
    Waiting (s.sched p).queue u := by
  refine ⟨h.distinct, fun k hk => ?_⟩
  have e1 : ∀ j, u.slot j = s.slot j := fun j => by unfold State.slot; rw [h1]
  have e2 : ∀ c, u.cr c = s.cr c := fun c => by unfold State.cr; rw [h2]
  rw [e1, e2]
  exact h.waiting k hk

/-- The exchange that a round IN_PROGRESS offers (R41, R47). -/
theorem offerRound_eq {p : PortId} {s : State} {n : SensorId} {rest : List SensorId}
    (h : (s.sched p).roundList = n :: rest) : offerRound p s =
    offered p .round (freshAttempt (addrOf n) (if (s.sched p).heldPosition = none then .position else .repeat))
      (s.setSched p { s.sched p with roundStep := some (if (s.sched p).heldPosition = none then .position else .repeat) }) := by
  unfold offerRound
  simp only [h]
  cases hh : (s.sched p).heldPosition <;> rfl

/-- Everything `makeDecision` does (R40, R47). -/
theorem makeDecision_effect (p : PortId) (s : State) (h : (s.sched p).active = none → QueueReady p s) :
    Decides p s (makeDecision p s) ∧ (makeDecision p s).discarded = s.discarded := by
  unfold Decides makeDecision
  by_cases hm : MayDecide p s
  swap
  · have : mayDecide p s = false := by
      cases e : mayDecide p s with
      | false => rfl
      | true => exact absurd ((mayDecide_iff p s).1 e) hm
    rw [this]
    exact ⟨⟨fun _ => rfl, fun h => absurd h hm⟩, rfl⟩
  rw [(mayDecide_iff p s).2 hm]
  simp only [Bool.not_true, Bool.false_eq_true, if_false]
  cases hr : (s.sched p).round with
  | inProgress =>
    simp only [reduceCtorEq, if_false, hr, if_true]
    refine ⟨⟨fun h => absurd hm h, fun _ => ⟨fun n rest _ hl => (by rw [offerRound_eq hl]; simp only [hr]), fun _ _ e => (by cases e), ?_⟩⟩, ?_⟩
    · rintro (e | ⟨e, _⟩) <;> cases e
    · unfold offerRound; dsimp only; split <;> rfl
  | none =>
    simp only [reduceCtorEq, if_false, hr]
    cases ha : (s.sched p).active with
    | some k =>
      refine ⟨⟨fun h => absurd hm h, fun _ => ⟨fun _ _ e => (by cases e), fun _ _ e => (by cases e), fun _ => ⟨?_, ?_⟩⟩⟩, ?_⟩
      · intro j hj a hx
        cases hj
        unfold offerTransaction
        dsimp only
        rw [transactionExchange_is hx]
        rfl
      · intro e; cases e
      · dsimp only; unfold offerTransaction; dsimp only; split <;> rfl
    | none =>
      obtain ⟨h1, h2⟩ := activateFrom_effect p _ s (Waiting.of_queue (h ha) rfl rfl)
      exact ⟨⟨fun h => absurd hm h, fun _ => ⟨fun _ _ e => (by cases e), fun _ _ e => (by cases e),
        fun _ => ⟨fun _ e => (by cases e), fun _ => h1⟩⟩⟩, h2⟩
  | due =>
    simp only [if_true]
    have e0 : acquiringOf p s = acquirers p s := rfl
    cases hl : acquirers p s with
    | nil =>
      have e1 : startRound p true s = s.setSched p { s.sched p with round := .none, lateMark := none, roundList := [] } := by
        unfold startRound; dsimp only; rw [e0, hl]; rfl
      rw [e1]
      simp only [State.sched_setSched_same, reduceCtorEq, if_false]
      cases ha : (s.sched p).active with
      | some k =>
        refine ⟨⟨fun h => absurd hm h, fun _ => ⟨fun _ _ e => (by cases e), fun _ _ _ e => (by cases e), fun _ => ⟨?_, ?_⟩⟩⟩, ?_⟩
        · intro j hj a hx
          cases hj
          unfold offerTransaction
          simp only [State.slot_setSched, State.sched_setSched_same]
          rw [transactionExchange_is hx]
          rfl
        · intro e; cases e
        · dsimp only; unfold offerTransaction; dsimp only; split <;> rfl
      | none =>
        obtain ⟨h1, h2⟩ := activateFrom_effect p (s.sched p).queue
          (s.setSched p { s.sched p with round := .none, lateMark := none, roundList := [] }) (Waiting.of_queue (h ha) rfl rfl)
        simp only [ha] at h1 h2 ⊢
        exact ⟨⟨fun h => absurd hm h, fun _ => ⟨fun _ _ e => (by cases e), fun _ _ _ e => (by cases e),
          fun _ => ⟨fun _ e => (by cases e), fun _ => h1⟩⟩⟩, h2⟩
    | cons n rest =>
      have e1 : startRound p true s = s.setSched p { s.sched p with
          round := .inProgress, lateMark := some true, roundList := n :: rest } := by
        unfold startRound; dsimp only; rw [e0, hl]; rfl
      rw [e1]
      simp only [State.sched_setSched_same, if_true]
      refine ⟨⟨fun h => absurd hm h, fun _ => ⟨fun _ _ e => (by cases e), ?_, ?_⟩⟩, ?_⟩
      · intro m r _ e
        cases e
        rw [offerRound_eq (n := n) (rest := rest) (by rw [State.sched_setSched_same])]
        simp only [State.sched_setSched_same, State.setSched_setSched]
      · rintro (e | ⟨_, e⟩) <;> cases e
      · unfold offerRound; dsimp only; split <;> rfl

/-- A request that waits with no ABORT on it can be concluded. -/
theorem Waiting.concludable {l : List SlotId} {u : State} (h : Waiting l u) {k : SlotId} (hk : k ∈ l) : Concludable k u := by
  obtain ⟨hq, ha, hc, _⟩ := h.waiting k hk
  exact ⟨.inr (.inl hq), hc, fun a e => absurd (ha.symm.trans e) (by simp)⟩

/-- Answering a request that is not among them leaves references waiting. -/
theorem Waiting.concluded {l : List SlotId} {k : SlotId} {r : Result} {u v t : State} (h : Waiting l u)
    (A : Concluded k r v t) (hv : v.slots = u.slots) (hc : v.crs = u.crs) (hk : k ∉ l)
    (hr : ∀ a, (u.slot k).abortRequester = some a → a ∉ l) : Waiting l t := by
  have e1 : ∀ j, v.slot j = u.slot j := fun j => by unfold State.slot; rw [hv]
  have e2 : ∀ c, v.cr c = u.cr c := fun c => by unfold State.cr; rw [hc]
  refine ⟨h.distinct, fun j hj => ?_⟩
  have hjk : j ≠ k := fun e => hk (e ▸ hj)
  rw [A.otherSlots j hjk (by rw [e1]; exact fun e => hr j e hj), A.cr_state, e1, e2]
  exact h.waiting j hj

/-- Everything `arrive` does with a request that waits (R45). -/
theorem arrive_effect (k : SlotId) (s : State)
    (hk : (s.slot k).state = .queued ∧ (s.slot k).abortRequester = none ∧ (s.cr (s.slot k).cr).state = .active ∧
      IsTransaction (s.slot k).body)
    (hq : QueueReady (portOf (s.slot k).sensor) s) (hn : k ∉ (s.sched (portOf (s.slot k).sensor)).queue) :
    Arrives k s (arrive k s) ∧ (arrive k s).discarded = s.discarded := by
  have hcl : Concludable k s := ⟨.inr (.inl hk.1), hk.2.2.1, fun a e => absurd (hk.2.1.symm.trans e) (by simp)⟩
  unfold arrive Arrives
  generalize portOf (s.slot k).sensor = p at hq hn ⊢
  dsimp only
  have hj : QueueReady p (s.setSched p { s.sched p with queue := (s.sched p).queue ++ [k] }) := by
    refine ⟨?_, fun j hj => ?_⟩
    · simp only [State.sched_setSched_same]
      rw [List.nodup_append]
      exact ⟨hq.distinct, by simp, fun a ha b hb => by
        rw [List.mem_singleton.1 hb]; exact fun e => hn (e ▸ ha)⟩
    · simp only [State.sched_setSched_same, List.mem_append, List.mem_singleton] at hj
      rcases hj with hj | hj
      · exact hq.waiting j hj
      · subst hj; exact hk
  obtain ⟨h1, h2⟩ := makeDecision_effect p _ (fun _ => hj)
  cases hl : (s.link p).state with
  | running => exact ⟨h1, h2⟩
  | retryWait =>
    refine ⟨h1.1 (fun hm => ?_), h2⟩
    have := hm.1
    simp only [State.link_setSched] at this
    rw [hl] at this
    cases this
  | training => exact ⟨rfl, rfl⟩
  | down => exact completeSlot_effect _ hcl
  | disabled => exact completeSlot_effect _ hcl
  | stopping => exact completeSlot_effect _ hcl

/-! ### Flushes (R29, R31, R53, R54) -/

/-- Requests that wait are answered one after another, and nothing is discarded. -/
theorem flush_effect (st : Status) : ∀ (l : List SlotId) (s : State), Waiting l s → s.discarded = [] →
    Through (fun k => Concluded k (plain st)) l s (l.foldl (fun s k => settle (completeSlot k (.plain st) s)) s) ∧
      (l.foldl (fun s k => settle (completeSlot k (.plain st) s)) s).discarded = []
  | [], s, _, hd => ⟨.nil s, hd⟩
  | k :: l, s, h, hd => by
    obtain ⟨g1, g2⟩ := completeSlot_effect (plain st) (h.concludable List.mem_cons_self)
    have e : settle (completeSlot k (.plain st) s) = completeSlot k (plain st) s :=
      settle_of_none_discarded (g2.trans hd)
    simp only [List.foldl_cons]
    rw [e]
    have hn := List.nodup_cons.1 h.distinct
    have hw : Waiting l s := ⟨hn.2, fun j hj => h.waiting j (List.mem_cons_of_mem _ hj)⟩
    have ha := (h.waiting k List.mem_cons_self).2.1
    obtain ⟨f1, f2⟩ := flush_effect st l _ (hw.concluded g1 rfl rfl hn.1 (fun a e => absurd (ha.symm.trans e) (by simp)))
      (g2.trans hd)
    exact ⟨.cons g1 f1, f2⟩

/-- Everything `flushQueue` does (R53). -/
theorem flushQueue_effect (p : PortId) (st : Status) (s : State) (h : QueueReady p s) (hd : s.discarded = []) :
    QueueFlushed p st s (flushQueue p st s) ∧ (flushQueue p st s).discarded = [] :=
  flush_effect st _ (s.setSched p { s.sched p with queue := [] }) (Waiting.of_queue h rfl rfl) hd

/-- Everything `flushPort` does (R54). -/
theorem flushPort_effect (p : PortId) (st : Status) (s : State) (h : FlushReady p s) (hd : s.discarded = []) :
    Flushed p st s (flushPort p st s) ∧ (flushPort p st s).discarded = [] := by
  unfold flushPort Flushed
  dsimp only
  by_cases ho : (s.sched p).owner = some .transaction
  · rw [if_pos ho]
    obtain ⟨g1, g2⟩ := flushQueue_effect p st s h.queue hd
    refine ⟨⟨s, ?_, g1⟩, g2⟩
    cases (s.sched p).active with
    | none => rfl
    | some k => dsimp only; rw [if_pos ho]
  · rw [if_neg ho]
    cases ha : (s.sched p).active with
    | none =>
      have : cutActive p st (s.sched p).exchangesDone s = s := by simp [cutActive, ha]
      rw [this, settle_of_none_discarded hd]
      obtain ⟨g1, g2⟩ := flushQueue_effect p st s h.queue hd
      exact ⟨⟨s, rfl, g1⟩, g2⟩
    | some k =>
      obtain ⟨hact, hcl, hreq⟩ := h.active k ha ho
      rw [cutActive_effect ha]
      obtain ⟨g1, g2⟩ := completeSlot_effect (cutShort st (s.sched p).exchangesDone (s.slot k).body
        (s.sched p).progress.values) hcl
      have e0 : ({ status := st, detail := BitVec.ofNat 32 (s.sched p).exchangesDone,
                   data := progressData (s.slot k).body (s.sched p).progress } : Result)
          = cutShort st (s.sched p).exchangesDone (s.slot k).body (s.sched p).progress.values := by
        unfold cutShort progressData
        rfl
      rw [e0, completeActive_effect ha g1 rfl]
      have g3 := g1.sched p (withoutActive (s.sched p))
      change Concluded k _ _ ((completeSlot k _ s).setSched p
        { s.sched p with active := none, exchangesDone := 0, hold := false, progress := .empty }) at g3
      generalize hv : (completeSlot k _ s).setSched p
        { s.sched p with active := none, exchangesDone := 0, hold := false, progress := .empty } = v at g3 ⊢
      have hd2 : v.discarded = [] := by rw [← hv]; exact g2.trans hd
      rw [settle_of_none_discarded hd2]
      have hk : k ∉ (s.sched p).queue := fun hk => by
        have := (h.queue.waiting k hk).1
        rw [hact] at this
        cases this
      have hw : Waiting (s.sched p).queue v :=
        Waiting.concluded (u := s) (Waiting.of_queue h.queue rfl rfl) g3 rfl rfl hk hreq
      have eq : (v.sched p).queue = (s.sched p).queue := by rw [← hv]; simp
      have hr : QueueReady p v := ⟨by rw [eq]; exact hw.distinct, by rw [eq]; exact hw.waiting⟩
      obtain ⟨f1, f2⟩ := flushQueue_effect p st v hr hd2
      refine ⟨⟨v, ?_, f1⟩, f2⟩
      dsimp only
      rw [if_neg ho]
      exact g3

/-! ### Suspensions and faults (R66, R69) -/

/-- Posting a record touches the context of its sensor alone. -/
theorem postRecord_sensor_ne (r : SampleRecord) (s : State) {n : SensorId} (h : n ≠ r.sensor) :
    (postRecord r s).sensor n = s.sensor n := by
  unfold postRecord
  dsimp only
  have hne : ∀ x, (s.setSensor r.sensor x).sensor n = s.sensor n := fun x => State.sensor_setSensor_ne _ _ _ _ h.symm
  split
  · rfl
  split
  · obtain ⟨it, ms, m, he, -⟩ := writeRecord_effect r.sensor r s
    rw [he]
    exact hne _
  split
  · exact hne _
  split
  · exact hne _
  · exact hne _

/-- A sensor without a round entry is suspended in place. -/
theorem suspendSensor_eq {n : SensorId} {s : State} (ha : (s.sensor n).state = .acquiring)
    (hl : (s.sched (portOf n)).roundList = []) : suspendSensor n s = suspended n s := by
  unfold suspendSensor suspended
  dsimp only
  rw [if_pos ha]
  unfold leaveAcquisition
  dsimp only
  rw [if_pos ha, Scheduler.dropEntry_of_empty n hl, State.setSched_self, State.sensor_setSensor_same,
    State.setSensor_setSensor]
  rfl

/-- A suspension leaves the schedulers and the other sensors as they are. -/
theorem suspended_keeps (n : SensorId) (s : State) : (suspended n s).scheds = s.scheds ∧ (suspended n s).links = s.links ∧
    (suspended n s).discarded = s.discarded ∧ ∀ m, m ≠ n → (suspended n s).sensor m = s.sensor m := by
  unfold suspended
  obtain ⟨h1, h2, h3⟩ := postRecord_keeps (markRecord n (s.sensor n) .suspend .none s.time (droppedCaptures (s.sensor n)))
    (s.setSensor n { s.sensor n with state := .waiting, captures := Vector.replicate 4 none })
  refine ⟨h3, h1, h2, fun m hm => ?_⟩
  have e := postRecord_sensor_ne (markRecord n (s.sensor n) .suspend .none s.time (droppedCaptures (s.sensor n)))
    (s.setSensor n { s.sensor n with state := .waiting, captures := Vector.replicate 4 none }) (n := m) hm
  exact e.trans (State.sensor_setSensor_ne _ _ _ _ hm.symm)

/-- Everything `suspendPort` does on a port without a round (R66). -/
theorem suspendPort_effect (p : PortId) (s : State) (hl : (s.sched p).roundList = []) :
    suspendPort p s = allSuspended p s := by
  have key : ∀ (l : List SensorId) (s : State), l.Nodup → (∀ n ∈ l, portOf n = p) → (s.sched p).roundList = [] →
      l.foldl (fun s n => suspendSensor n s) s =
        (l.filter fun n => (s.sensor n).state = .acquiring).foldl (fun s n => suspended n s) s := by
    intro l
    induction l with
    | nil => intro s _ _ _; rfl
    | cons n l ih =>
      intro s hnd hp hl
      have hn := List.nodup_cons.1 hnd
      have hpl : ∀ m ∈ l, portOf m = p := fun m hm => hp m (List.mem_cons_of_mem _ hm)
      simp only [List.foldl_cons, List.filter_cons]
      by_cases ha : (s.sensor n).state = .acquiring
      · rw [suspendSensor_eq ha (by rw [hp n List.mem_cons_self]; exact hl)]
        simp only [ha, decide_true, if_true, List.foldl_cons]
        obtain ⟨k1, _, _, k2⟩ := suspended_keeps n s
        rw [ih _ hn.2 hpl (by unfold State.sched at hl ⊢; rw [k1]; exact hl)]
        congr 1
        apply List.filter_congr
        intro m hm
        rw [k2 m (fun e => hn.1 (e ▸ hm))]
      · have e : suspendSensor n s = s := by unfold suspendSensor; dsimp only; rw [if_neg ha]
        rw [e]
        simp only [ha, decide_false, Bool.false_eq_true, if_false]
        exact ih _ hn.2 hpl hl
  exact key _ s (sensorsOf_nodup p) (fun n hn => (mem_sensorsOf p n).1 hn) hl

/-- Suspensions leave links, schedulers and discarded completions as they are. -/
theorem allSuspended_keeps (p : PortId) (s : State) : (allSuspended p s).scheds = s.scheds ∧
    (allSuspended p s).links = s.links ∧ (allSuspended p s).discarded = s.discarded := by
  unfold allSuspended
  generalize acquirers p s = l
  induction l generalizing s with
  | nil => exact ⟨rfl, rfl, rfl⟩
  | cons n l ih =>
    obtain ⟨h1, h2, h3⟩ := ih (suspended n s)
    obtain ⟨g1, g2, g3, _⟩ := suspended_keeps n s
    exact ⟨h1.trans g1, h2.trans g2, h3.trans g3⟩

/-- Everything `faultSensor` does (R58, R69, R70). -/
theorem faultSensor_effect (n : SensorId) (cause : FaultCause) (time : Time) (s : State) :
    faultSensor n cause time s = faulted n cause time s := by
  unfold faultSensor faulted leaveAcquisition
  dsimp only
  by_cases ha : (s.sensor n).state = .acquiring
  · simp only [ha, if_true, State.sensor_setSensor_same, State.setSensor_setSensor]
    rfl
  · simp only [ha, if_false]
    rfl

end Sys2Proof.Machine
end

