-- ==== Sys2Proof/Laws/Commute.lean ====
section
/-! SUPPORT. The Sensor Processor reads and writes nothing of a port but the round entries of its scheduler: what it does
stands beside any other change of links and schedulers. -/

namespace Sys2Proof.Machine

open Sys2Proof.Claims

/-! ### Records and notices beside the ports -/

/-- The state with other links and schedulers. -/
def State.withPorts (s : State) (links : Vector LinkEngine 8) (scheds : Vector Scheduler 8) : State :=
  { s with links := links, scheds := scheds }

/-- A message that is due touches MSI-X, what was sent and the outbox alone. -/
theorem messageDue_withPorts (v : VectorId) (s : State) (l x) :
    messageDue v (s.withPorts l x) = (messageDue v s).withPorts l x := by
  have e1 : (s.withPorts l x).msix = s.msix := rfl
  have e2 : (s.withPorts l x).outbox = s.outbox := rfl
  unfold messageDue sendMessage
  rw [e1, e2]
  by_cases h : (s.msix.blocked v || s.outbox.isEmpty) = true
  · rw [if_pos h, if_pos h]
    by_cases h2 : s.msix.blocked v = true
    · rw [if_pos h2, if_pos h2]; rfl
    · rw [if_neg h2, if_neg h2]; rfl
  · rw [if_neg h, if_neg h]; rfl

/-- Handing a written record to a sample ring's interrupt state touches no port. -/
theorem signalSr_withPorts (i : SrId) (s : State) (l x) : signalSr i (s.withPorts l x) = (signalSr i s).withPorts l x := by
  unfold signalSr
  have e : (s.withPorts l x).sr i = s.sr i := rfl
  have e2 : (s.withPorts l x).time = s.time := rfl
  dsimp only
  rw [e, e2]
  by_cases h : ((s.sr i).interrupt.record (s.sr i).coalescingCount (s.sr i).coalescingTime false s.time).2 = true
  · rw [if_pos h, if_pos h]
    exact messageDue_withPorts _ (s.setSr i _) l x
  · rw [if_neg h, if_neg h]; rfl

/-- Writing a sample record touches no port. -/
theorem writeRecord_withPorts (n : SensorId) (r : SampleRecord) (s : State) (l x) :
    writeRecord n r (s.withPorts l x) = (writeRecord n r s).withPorts l x := by
  let c := s.sensor n
  let d := s.sr c.ring
  let sequence := if r.isMarkStart then 0 else c.sequence
  exact signalSr_withPorts c.ring
    (issueWrite (.sample c.ring) d.producer d.base
      (encodeSample r
        { sequence := sequence, missed := c.missed, rejected := c.rejected, withheld := c.withheld
          congested := decide (d.advance.congest.state = .congested), phase := d.phase })
      ((s.setSensor n { c with sequence := sequence + 1, missed := 0, rejected := 0, withheld := 0 }).setSr c.ring
        d.advance.congest)) l x

/-- Posting a sample record touches no port. -/
theorem postRecord_withPorts (r : SampleRecord) (s : State) (l x) :
    postRecord r (s.withPorts l x) = (postRecord r s).withPorts l x := by
  unfold postRecord
  have e : (s.withPorts l x).sensor r.sensor = s.sensor r.sensor := rfl
  have e2 : ∀ i, (s.withPorts l x).sr i = s.sr i := fun _ => rfl
  dsimp only
  rw [e, e2]
  split
  · rfl
  split
  · exact writeRecord_withPorts _ _ _ _ _
  split
  · rfl
  split <;> rfl

/-- Posting records touches no port. -/
theorem postRecords_withPorts (rs : List SampleRecord) : ∀ (s : State) (l x),
    postRecords rs (s.withPorts l x) = (postRecords rs s).withPorts l x := by
  induction rs with
  | nil => intro s l x; rfl
  | cons r rs ih =>
    intro s l x
    unfold postRecords at ih ⊢
    simp only [List.foldl_cons]
    rw [postRecord_withPorts, ih]

/-- Raising a notice touches no port. -/
theorem raiseNotice_withPorts (src det tm) (s : State) (l x) :
    raiseNotice src det tm (s.withPorts l x) = (raiseNotice src det tm s).withPorts l x := by
  unfold raiseNotice
  have e : (s.withPorts l x).notices = s.notices := rfl
  rw [e]
  split <;> rfl

/-! ### Readings beside a link -/

/-- A state with another link of one port. -/
theorem State.setLink_withPorts (s : State) (p : PortId) (le : LinkEngine) :
    s.setLink p le = s.withPorts (s.links.set p le) s.scheds := rfl

/-- A state with another scheduler of one port. -/
theorem State.setSched_withPorts (s : State) (p : PortId) (ps : Scheduler) :
    s.setSched p ps = s.withPorts s.links (s.scheds.set p ps) := rfl

/-- What an operation of the Sensor Processor does stands beside any change of the links, and any change of one port's
scheduler that commutes with dropping a round entry. -/
structure BesidePorts (n : SensorId) (op : State → State) : Prop where
  link : ∀ s p le, op (s.setLink p le) = (op s).setLink p le
  sched : ∀ s p (g : Scheduler → Scheduler), (∀ ps : Scheduler, g (ps.dropEntry n) = (g ps).dropEntry n) →
    op (s.setSched p (g (s.sched p))) = (op s).setSched p (g ((op s).sched p))

/-- An operation that touches no port stands beside every change of them. -/
theorem BesidePorts.of_withPorts {n : SensorId} {op : State → State}
    (h : ∀ s l x, op (s.withPorts l x) = (op s).withPorts l x) : BesidePorts n op := by
  have keeps : ∀ s, (op s).links = s.links ∧ (op s).scheds = s.scheds := fun s => by
    have e : op (s.withPorts s.links s.scheds) = op s := rfl
    have := h s s.links s.scheds
    rw [e] at this
    rw [this]
    exact ⟨rfl, rfl⟩
  constructor
  · intro s p le
    rw [State.setLink_withPorts, h, State.setLink_withPorts, (keeps s).1, (keeps s).2]
  · intro s p g _
    have e : (op s).sched p = s.sched p := by unfold State.sched; rw [(keeps s).2]
    rw [State.setSched_withPorts, h, State.setSched_withPorts, (keeps s).1, (keeps s).2, e]

/-- One such operation after another is such an operation. -/
theorem BesidePorts.comp {n : SensorId} {f g : State → State} (hf : BesidePorts n f) (hg : BesidePorts n g) :
    BesidePorts n fun s => g (f s) := by
  constructor
  · intro s p le
    rw [hf.link, hg.link]
  · intro s p h hh
    rw [hf.sched s p h hh, hg.sched (f s) p h hh]

/-- Leaving acquisition stands beside the ports. -/
theorem leaveAcquisition_besidePorts (n : SensorId) : BesidePorts n (leaveAcquisition n) := by
  constructor
  · intro s p le
    unfold leaveAcquisition
    dsimp only [State.sensor_setLink, State.sched_setLink]
    split <;> rfl
  · intro s p g hg
    unfold leaveAcquisition
    dsimp only [State.sensor_setSched]
    by_cases h : (s.sensor n).state = .acquiring
    · rw [if_pos h, if_pos h]
      by_cases hp : portOf n = p
      · subst hp
        have : ∀ (v : State) (c), (v.setSensor n c).sched = v.sched := fun _ _ => rfl
        simp only [State.sched_setSched_same, this]
        rw [State.setSched_setSched, hg]
        show (s.setSched _ _).setSensor n _ = ((s.setSched _ _).setSched _ _).setSensor n _
        rw [State.setSched_setSched]
      · have e : ∀ (v : State) (y z : Scheduler), (v.setSched p y).setSched (portOf n) z = (v.setSched (portOf n) z).setSched p y := by
          intro v y z
          unfold State.setSched
          have : (p : Nat) ≠ portOf n := fun e => hp (Fin.ext e.symm)
          simp only [State.mk.injEq, true_and, and_true]
          exact Vector.set_comm _ _ this
        simp only [State.sched_setSched_ne _ _ _ _ (Ne.symm hp)]
        rw [e]
        show ((s.setSched _ _).setSched p _).setSensor n _ = ((s.setSched _ _).setSched p _).setSensor n _
        rw [show (State.setSensor (s.setSched (portOf n) ((s.sched (portOf n)).dropEntry n)) n
          { s.sensor n with captures := Vector.replicate 4 none }).sched p = s.sched p from
          State.sched_setSched_ne _ _ _ _ hp]
    · rw [if_neg h, if_neg h]

/-- A sensor's fault stands beside the ports. -/
theorem faultSensor_besidePorts (n : SensorId) (cause : FaultCause) (time : Time) :
    BesidePorts n (faultSensor n cause time) := by
  have key : ∀ c : Sensor, BesidePorts n fun s =>
      raiseNotice (.sensor n) (BitVec.ofNat 32 cause.code) time
        (if c.state = .bound then (leaveAcquisition n s).setSensor n { (leaveAcquisition n s).sensor n with state := .faulted, cause := cause }
          else postRecord (markRecord n c .fault cause time (dropsCaptures c))
            ((leaveAcquisition n s).setSensor n { (leaveAcquisition n s).sensor n with state := .faulted, cause := cause })) := by
    intro c
    refine BesidePorts.comp (f := leaveAcquisition n) (g := fun v => raiseNotice (.sensor n) (BitVec.ofNat 32 cause.code) time
        (if c.state = .bound then v.setSensor n { v.sensor n with state := .faulted, cause := cause }
          else postRecord (markRecord n c .fault cause time (dropsCaptures c))
            (v.setSensor n { v.sensor n with state := .faulted, cause := cause })))
      (leaveAcquisition_besidePorts n) (BesidePorts.of_withPorts fun s l x => ?_)
    dsimp only
    have e : (s.withPorts l x).setSensor n { (s.withPorts l x).sensor n with state := .faulted, cause := cause } =
        (s.setSensor n { s.sensor n with state := .faulted, cause := cause }).withPorts l x := rfl
    rw [e]
    split
    · exact raiseNotice_withPorts _ _ _ _ _ _
    · rw [postRecord_withPorts, raiseNotice_withPorts]
  constructor
  · intro s p le
    exact (key (s.sensor n)).link s p le
  · intro s p g hg
    exact (key (s.sensor n)).sched s p g hg

/-- A rejection stands beside the ports. -/
theorem rejectReading_besidePorts (n : SensorId) (time : Time) : BesidePorts n (rejectReading n time) := by
  let rejected (s : State) : Sensor :=
    { s.sensor n with rejected := saturating 255 (s.sensor n).rejected, rejects := (s.sensor n).rejectsAfter n time }
  constructor
  · intro s p le
    unfold rejectReading
    dsimp only [State.sensor_setLink]
    split
    · exact (faultSensor_besidePorts n .rejectLimit time).link (s.setSensor n (rejected s)) p le
    · rfl
  · intro s p g hg
    unfold rejectReading
    dsimp only [State.sensor_setSched]
    split
    · exact (faultSensor_besidePorts n .rejectLimit time).sched (s.setSensor n (rejected s)) p g hg
    · rfl

/-- The treatment of a poll reading stands beside the ports. -/
theorem takeReading_besidePorts (r : Reading) : BesidePorts r.sensor (takeReading r) := by
  have admitted : ∀ angle turn warning, BesidePorts r.sensor (admitReading r angle turn warning) := by
    intro angle turn warning
    constructor
    · intro s p le
      unfold admitReading
      dsimp only [State.sensor_setLink, State.sr_setLink]
      split
      · exact (faultSensor_besidePorts _ _ _).link s p le
      split
      · exact (faultSensor_besidePorts _ _ _).link s p le
      · exact postRecords_withPorts _ (s.setSensor r.sensor _) (s.links.set p le) s.scheds |>.trans (by
          rw [State.setLink_withPorts, (postRecords_keep _ _).1, (postRecords_keep _ _).2.2]; rfl)
    · intro s p g hg
      unfold admitReading
      dsimp only [State.sensor_setSched, State.sr_setSched]
      split
      · exact (faultSensor_besidePorts _ _ _).sched s p g hg
      split
      · exact (faultSensor_besidePorts _ _ _).sched s p g hg
      · refine (postRecords_withPorts _ (s.setSensor r.sensor _) s.links (s.scheds.set p (g (s.sched p)))).trans ?_
        rw [State.setSched_withPorts]
        unfold State.sched
        rw [(postRecords_keep _ _).1, (postRecords_keep _ _).2.2]
        rfl
  constructor
  · intro s p le
    unfold takeReading
    dsimp only [State.sensor_setLink]
    split
    · rfl
    split
    · rfl
    · exact (rejectReading_besidePorts _ _).link s p le
    · split
      · exact (rejectReading_besidePorts _ _).link s p le
      · exact (admitted _ _ _).link s p le
  · intro s p g hg
    unfold takeReading
    dsimp only [State.sensor_setSched]
    split
    · rfl
    split
    · rfl
    · exact (rejectReading_besidePorts _ _).sched s p g hg
    · split
      · exact (rejectReading_besidePorts _ _).sched s p g hg
      · exact (admitted _ _ _).sched s p g hg

end Sys2Proof.Machine
end

