-- ==== Sys2Proof/WellFormed.lean ====
section
/-! DEFINITION. Which commands are well formed: the forms that the host, the link and the line inputs can give them. Every
other operand is well formed at every value of its type. -/

namespace Sys2Proof

/-- An access of `bytes` bytes at an offset of BAR0 is aligned to its own width (R163: 32-bit and 64-bit accesses). -/
def alignedAccess (offset bytes : Nat) : Bool := decide (offset % bytes = 0)

/-- A read of TIME low names bytes of the one word (R163). -/
def ReadAccess.wellFormed : ReadAccess → Bool
  | .word => true
  | .bytes first count => decide (1 ≤ count) && decide (count ≤ 3) && decide (first + count ≤ 4)
  | .quad => true

/-- The data of a 32-bit write fit the word; offsets are aligned (R163). -/
def writeWellFormed (offset : Nat) (width : WriteWidth) (value : BitVec 64) : Bool :=
  match width with
  | .narrow => true
  | .word => alignedAccess offset 4 && decide (value.toNat < 2 ^ 32)
  | .quad => alignedAccess offset 8

/-- A link fault, or a payload of the form that `fits` accepts (Table 7). -/
def AttemptEnd.carries (fits : WirePayload → Bool) : AttemptEnd → Bool
  | .ok _ _ payload => fits payload
  | .fault _ => true

/-- The payload of a response to REG_READ and REG_WRITE (Table 7). -/
def WirePayload.isRegister : WirePayload → Bool
  | .register _ => true
  | _ => false

/-- The payload of a response to POSITION and REPEAT (Table 7). -/
def WirePayload.isPosition : WirePayload → Bool
  | .position _ _ => true
  | _ => false

/-- A response to SLAVE_RESET has no payload (Table 7). -/
def WirePayload.isEmpty : WirePayload → Bool
  | .empty => true
  | _ => false

/-- The longest response has 58 bits after the start pattern (Table 7). -/
def longestResponse : Nat := 58

/-- The checks of every command. -/
def Instr.wellFormed : Instr → Bool
  | .enable => true
  | .halt => true
  | .reset _ => true
  | .deviceReset _ => true
  | .badNotifyClear => true
  | .rqTail _ _ => true
  | .crHead _ _ => true
  | .srHead _ _ => true
  | .timeLowRead access => access.wellFormed
  | .registerWrite offset width value => writeWellFormed offset width value
  | .vectorUnblock _ => true
  | .fetchIssue => true
  | .fetchEnd _ => true
  | .fetchTimeout => true
  | .createRing _ => true
  | .deleteRing _ => true
  | .portConfig _ => true
  | .portStart _ => true
  | .portStop _ => true
  | .sensorBind _ => true
  | .sensorUnbind _ => true
  | .sensorStart _ => true
  | .sensorStop _ => true
  | .captureConfig _ => true
  | .captureArm _ => true
  | .captureDisarm _ => true
  | .queryPort _ => true
  | .querySensor _ => true
  | .queryDevice _ => true
  | .abort _ => true
  | .regRead _ e => e.carries WirePayload.isRegister
  | .regWrite _ e => e.carries WirePayload.isRegister
  | .readPosition _ e => e.carries WirePayload.isPosition
  | .setPosition _ e => e.carries WirePayload.isPosition
  | .slaveReset _ e => e.carries WirePayload.isEmpty
  | .attemptBegin _ => true
  | .requestFrameSent _ => true
  | .responseFrame _ bits => decide (bits.length ≤ longestResponse)
  | .responseWindowExpiry _ => true
  | .retryGapExpiry _ => true
  | .retrainTimerExpiry _ => true
  | .cycleTimerExpiry _ => true
  | .captureInputTransition _ _ => true
  | .transitionRecognised _ => true
  | .sampleWriteEnd => true
  | .completionWriteEnd => true
  | .noticeWrite => true
  | .coalescingTimerExpiry _ => true
  | .haltComplete => true
  | .startPatternSeen _ => true

end Sys2Proof
end

