-- ==== Sys2Proof/Tests/Slice0.lean ====
section
/-! SUPPORT. Tests of the model: the checks of WellFormed, the spec's worked examples, what single commands do on small
states, and for each statement with hypotheses a state and operands that meet them. Expected values are the spec's. -/

namespace Sys2Proof.Tests

open Sys2Proof.Machine Sys2Proof.Claims

/- One theorem at a time: the evaluations of many at once would ask for more memory than the check allows. -/
set_option Elab.async false

/-! ### WellFormed: a term that each check refuses -/

theorem test_illformed_time_no_bytes : Instr.wellFormed (.timeLowRead (.bytes 0 0)) = false := by decide
theorem test_illformed_time_whole_word : Instr.wellFormed (.timeLowRead (.bytes 0 4)) = false := by decide
theorem test_illformed_time_past_word : Instr.wellFormed (.timeLowRead (.bytes 2 3)) = false := by decide
theorem test_wellformed_time_bytes : Instr.wellFormed (.timeLowRead (.bytes 1 3)) = true := by decide
theorem test_illformed_write_word_offset : Instr.wellFormed (.registerWrite 2 .word 0) = false := by decide
theorem test_illformed_write_quad_offset : Instr.wellFormed (.registerWrite 4 .quad 0) = false := by decide
theorem test_illformed_write_word_value :
    Instr.wellFormed (.registerWrite 4 .word 0x100000000#64) = false := by decide
theorem test_wellformed_write : Instr.wellFormed (.registerWrite 4 .word 0xFFFFFFFF#64) = true := by decide
theorem test_illformed_reg_read : Instr.wellFormed (.regRead 0 (.ok false false .empty)) = false := by decide
theorem test_illformed_reg_write : Instr.wellFormed (.regWrite 0 (.ok false false (.position 0 0))) = false := by decide
theorem test_illformed_read_position : Instr.wellFormed (.readPosition 0 (.ok false false (.register 0))) = false := by decide
theorem test_illformed_set_position : Instr.wellFormed (.setPosition 0 (.ok false false (.identity 0))) = false := by decide
theorem test_illformed_slave_reset : Instr.wellFormed (.slaveReset 0 (.ok false false (.register 0))) = false := by decide
theorem test_wellformed_fault : Instr.wellFormed (.slaveReset 0 (.fault .crcError)) = true := by decide
theorem test_illformed_response : Instr.wellFormed (.responseFrame 0 (List.replicate 59 false)) = false := by decide
theorem test_wellformed_response : Instr.wellFormed (.responseFrame 0 (List.replicate 58 false)) = true := by decide

/-! ### Small states -/

/-- The state a command leads to. -/
def run (c : Instr) (s : State) : State :=
  match exec c s with
  | .next t => t
  | _ => s

/-- A completion ring of 4 entries, ACTIVE and empty. -/
def smallCr : CompletionRing :=
  { CompletionRing.initial with state := .active, base := 0x1000, size := 4, coalescingCount := 1 }

/-- A request ring of 4 entries, ACTIVE and empty, bound to a completion ring. -/
def smallRq (c : CrId) : RequestRing :=
  { RequestRing.initial with state := .active, base := 0x2000, size := 4, boundCr := some c }

/-- A sample ring of 16 entries, ACTIVE and empty, with L = 4 and H = 10 (7.9). -/
def smallSr : SampleRing :=
  { SampleRing.initial with
    state := .active, base := 0x3000, size := 16, coalescingCount := 2, lowWater := 4, resume := 10 }

/-- READY, with CR0, RQ0, RQ1 (bound to CR1), CR1 and SR0, and vector 0 unblocked. -/
def ready : State :=
  { State.reset with
    window := { Window.initial with control := .ready, enable := true }
    crs := (State.reset.crs.set 0 smallCr).set 1 smallCr
    rqs := (State.reset.rqs.set 0 (smallRq 0)).set 1 (smallRq 1)
    srs := State.reset.srs.set 0 smallSr
    msix := { MsixUnit.initial with
      table := MsixUnit.initial.table.set 0 { address := 0xFEE00000, data := 7, masked := false }
      enabled := true, busMaster := true } }

/-- `s` with an admin request of body `b` in slot 0, next for the AX. -/
def admin (b : Body) (s : State) : State :=
  { s.setSlot 0 { Slot.initial with state := .active, body := b } with slotOrder := s.slotOrder ++ [0], axInbox := [0] }

/-- `s` with device time `t`. -/
def at_ (t : Time) (s : State) : State := { s with time := t }

/-- An identity word with ST 12, MT 4, REPEAT supported and 12 registers (Table 48). -/
def word12 : BitVec 32 := 0x00612180#32

/-- RUNNING at the default parameters, four slaves PRESENT. -/
def runningLink : LinkEngine :=
  { LinkEngine.initial with
    state := .running, identity := Vector.replicate 4 { present := true, word := word12, cause := .none } }

/-- An exchange of slave 2 on the line, its response begun at time 0. -/
def heard (kind : FrameKind) : Attempt :=
  { address := 2, kind := kind, register := if kind = .regRead ∨ kind = .regWrite then some 5 else none
    data := if kind = .regWrite then some 9 else none
    tags := [3], requestTime := 0, phase := .receiving, windowEnd := some 4000, listeningSince := none
    frameStart := some 0, lastFault := none }

/-- Slot 1 holds I/O request `b` of sensor 18 (slave 2 on P4) from RQ1, ACTIVE with its exchange heard. -/
def onLine (b : Body) (kind : FrameKind) (g : TransactionProgress) (done : Nat) : State :=
  { ((ready.setLink 4 { runningLink with attempt := some (heard kind) }).setSched 4
      { Scheduler.initial with
        active := some 1, owner := some .transaction, exchangesDone := done, progress := g }).setSlot 1
      { Slot.initial with state := .active, rq := 1, cr := 1, tag := 77, kind := 0x20, sensor := 18, body := b } with
    time := 10000, slotOrder := [1]
    rqs := ready.rqs.set 1 { smallRq 1 with fetchHead := 1, tail := 1, slotsHeld := 1 }
    crs := ready.crs.set 1 { smallCr with reserved := 1 } }

/-- A sensor in EXTEND bound as in 5.9: ST 12, jump limit 300, reject limit 3, scale 0.5, offset 1000, decimation 1. -/
def turning : Sensor :=
  { Sensor.initial with
    state := .acquiring, identity := 0x00600000#32, turnMode := .extend, jumpLimit := 300, rejectLimit := 3, scale := 32768
    offset := 1000, decimation := 1 }

/-- A reading of sensor 9 that ended OK. -/
def reading (angle turn : Nat) (time : Time) : Reading :=
  { sensor := 9, sampleTime := time, repeated := none, late := false
    position :=
      { result := .ok false false (.reading angle turn), attempts := 1, address := 1, kind := .position, requestTime := time } }

/-! ### The spec's worked examples -/

/-- 1.5: the CRC of a POSITION request to address 1 with tag 0. -/
theorem test_crc_example : crc8 (bitsOf 8 0x48) = 0x0C#8 := by decide

/-- 1.5: the frame of that request on the line. -/
theorem test_request_frame_example : requestFrame 1 .position 0 none none =
    [true, false, false, true, false, false, true, false, false, false,
      false, false, false, false, true, true, false, false] := by decide

/-- 5.9, reading 1: NOT_VALID reference, RESYNC. -/
theorem test_turn_1 : (turning.turned 120 0).extRaw = 120 ∧ turning.positionOf 120 = 1060 := by decide

/-- 5.9 after reading 1. -/
def turning1 : Sensor := { turning with last := { extRaw := 120, angle := 120, turn := 0, sampleTime := 10, validity := .valid } }

/-- 5.9, reading 2: the turn falls to −1. -/
theorem test_turn_2 : turning1.turned 3989 0 = { delta := some (-227), extRaw := -107, candidate := -1, wrapped := false } ∧
    turning1.positionOf (-107) = 947 := by decide

/-- 5.9 after reading 2. -/
def turning2 : Sensor :=
  { turning with
    last := { extRaw := -107, angle := 3989, turn := 0, sampleTime := 20, validity := .valid }, extendedTurn := -1 }

/-- 5.9, reading 3: rejected by the jump gate. -/
theorem test_turn_3 : (turning2.turned 1700 0).delta = some 1807 ∧ turning2.jumps (turning2.turned 1700 0) = true := by decide

/-- 5.9, reading 5: accepted against the same reference. -/
theorem test_turn_5 : turning2.turned 3900 0 = { delta := some (-89), extRaw := -196, candidate := -1, wrapped := false } ∧
    turning2.positionOf (-196) = 902 ∧ turning2.jumps (turning2.turned 3900 0) = false := by decide

/-- 5.9, reading 6: STALE, the gate bypassed, the turn back to 0. -/
theorem test_turn_6 :
    let c := { turning2 with last := { extRaw := -196, angle := 3900, turn := 0, sampleTime := 30, validity := .stale } }
    c.turned 900 0 = { delta := some 1096, extRaw := 900, candidate := 0, wrapped := false } ∧
      c.jumps (c.turned 900 0) = false ∧ c.resyncs = true ∧ c.positionOf 900 = 1450 := by decide

/-- 6.8, sensor 8: the interpolated extended raw. -/
theorem test_capture_8 :
    interpolate { turning with identity := 0x00800000#32, scale := 65536, offset := 0 }
      { previous := { extRaw := 196072, angle := 65000, turn := 0, sampleTime := 1000000, validity := .valid }
        current := { extRaw := 197408, angle := 800, turn := 0, sampleTime := 1031250, validity := .valid }
        delta := 1336, late := false, warning := false, mtWrap := false } 1020000 = 196927 := by decide

/-- 6.8, sensor 21: the interpolated value reduced modulo one turn, and its position. -/
theorem test_capture_21 :
    let c := { turning with turnMode := .none, scale := 131072, offset := 100 }
    interpolate c
      { previous := { extRaw := 4000, angle := 4000, turn := 0, sampleTime := 995000, validity := .valid }
        current := { extRaw := 100, angle := 100, turn := 0, sampleTime := 1026250, validity := .valid }
        delta := 196, late := false, warning := false, mtWrap := false } 1020000 = 60 ∧ c.positionOf 60 = 220 := by decide

/-- 2.10: a POSITION or IDENTIFY request lasts 7.2 µs and the turnaround gap 1.6 µs at 2.5 Mbit/s. -/
theorem test_line_times : bitTicks .mbit2_5 18 = 900 ∧ bitTicks .mbit2_5 4 = 200 := by decide

/-- 3.8: a REG_WRITE attempt is 16.8 µs of request and 14.4 µs of response. -/
theorem test_reg_write_times :
    bitTicks .mbit2_5 FrameKind.regWrite.requestBits = 2100 ∧ bitTicks .mbit2_5 FrameKind.regWrite.responseBits = 1800 := by
  decide

/-- R2: a bit time that is no whole number of ticks still gives whole even lengths (10 Mbit/s, 0.1 µs). -/
theorem test_fast_line_times : bitTicks .mbit10 18 = 225 ∧ bitTicks .mbit10 60 = 750 := by decide

/-- Table 44: the highest code of each status and state. -/
theorem test_codes : Status.tooLate.code = 16 ∧ LinkState.stopping.code = 5 ∧ SensorState.faulted.code = 4 ∧
    FaultCause.identityChanged.code = 4 ∧ Validity.stale.code = 2 ∧ (AbsenceCause.linkFault .tagMismatch).code = 7 ∧
    RequestRingState.faulted.code = 3 ∧ CompletionRingState.faulted.code = 3 ∧ SampleRingState.faulted.code = 3 ∧
    RecordKind.mark.code = 3 ∧ MarkReason.suspend.code = 4 := by decide

/-- Table 48: the fields of an identity word. -/
theorem test_identity_word : wordSt word12 = 12 ∧ wordMt word12 = 4 ∧ wordRepeat word12 = true ∧
    wordRegisters word12 = 12 ∧ wordValid word12 = true := by decide

/-- R14: reserved bits are disregarded in a comparison of identities, and ST 25 is no valid word. -/
theorem test_identity_compare : sameIdentity 0x0061218F#32 word12 = true ∧ wordValid 0x00C80000#32 = false := by decide

/-- Table 36, IDENT. -/
theorem test_ident : Window.initial.read 0 0x00 = 0xA8320001#32 := by decide

/-- Table 38: READY in bit 0, HALTED in bit 1, BAD_NOTIFY in bit 4 of STATUS. -/
theorem test_status_word : ready.window.statusWord = 1#32 ∧ Window.initial.statusWord = 2#32 ∧
    ({ Window.initial with badNotify := true }).statusWord = 0x12#32 := by decide

/-- Table 31: SR L and H are checked; R111: congestion is entered below L. -/
theorem test_congestion : ({ smallSr with producer := 12 }).congest.state = .congested ∧
    ({ smallSr with producer := 11 }).congest.state = .active := by decide

/-- 7.9: four times the decimation while CONGESTED; R85 caps it at 1024. -/
theorem test_decimation : effectiveDecimation 1 .congested = 4 ∧ effectiveDecimation 256 .congested = 1024 ∧
    effectiveDecimation 257 .congested = 1024 ∧ effectiveDecimation 1 .active = 1 := by decide

/-- R77: the edges of the shortest movement. -/
theorem test_wrap_delta : wrapDelta 2048 4096 = -2048 ∧ wrapDelta (-2048) 4096 = -2048 ∧ wrapDelta 2047 4096 = 2047 ∧
    wrapDelta (-2049) 4096 = 2047 := by decide

/-- R82: truncation toward zero (5.9, reading 2). -/
theorem test_scaled : scaledValue (-107) 32768 = -53 ∧ scaledValue 1010 32768 = 505 := by decide

/-! ### Device control and the register window -/

/-- ADMIN_SIZES with RQ0 of 2 entries and CR0 of 4096. -/
def configured : State := { State.reset with window := { Window.initial with adminSizes := 0x10000002#32 } }

theorem test_enable_creates : ((run .enable configured).rq 0).size = 2 ∧ ((run .enable configured).cr 0).size = 4096 ∧
    (run .enable configured).window.statusWord = 1#32 := by decide
theorem test_enable_bad_sizes : (run .enable State.reset).window.statusWord = 0xA#32 ∧
    (run .enable State.reset).window.ctrlWord = 1#32 := by decide
theorem test_halt : (run .halt ready).window.statusWord = 2#32 ∧ ((run .halt ready).cr 0).state = .absent := by decide
theorem test_reset_then_enable : (run (.reset true) configured).window.ctrlWord = 0#32 := by decide
theorem test_device_reset : (run (.deviceReset .hotReset) ready).msix.enabled = false := by decide
theorem test_bad_notify_clear :
    (run .badNotifyClear { ready with window := { ready.window with badNotify := true } }).window.badNotify = false := by decide
theorem test_rq_tail : ((run (.rqTail 1 3) ready).rq 1).tail = 3 := by decide
theorem test_rq_tail_bad : (run (.rqTail 1 4) ready).window.badNotify = true ∧ ((run (.rqTail 1 4) ready).rq 1).tail = 0 := by
  decide
theorem test_cr_head_passes : (run (.crHead 1 1) ready).window.badNotify = true := by decide
theorem test_cr_head : ((run (.crHead 1 0) (ready.setCr 1 { smallCr with producer := 0, consumer := 3 })).cr 1).consumer = 0 := by
  decide
/-- 7.9: the host consumes all 11 entries, the ring leaves CONGESTED. -/
theorem test_sr_head_resumes : ((run (.srHead 0 11) (ready.setSr 0 { smallSr with state := .congested, producer := 11 })).sr 0).state
    = .active := by decide +kernel
/-- 7.9: after 6 of 15 are consumed, 6 free entries are fewer than H. -/
theorem test_sr_head_stays : ((run (.srHead 0 6) (ready.setSr 0 { smallSr with state := .congested, producer := 15 })).sr 0).state
    = .congested := by decide +kernel
theorem test_time_low : (run (.timeLowRead .word) (at_ 0x100000002#64 ready)).readData = 2 ∧
    (run (.timeLowRead .word) (at_ 0x100000002#64 ready)).window.timeLatch = 1 := by decide
theorem test_time_bytes : (run (.timeLowRead (.bytes 1 2)) (at_ 0xAABBCCDD#64 ready)).readData = 0xBBCC := by decide
theorem test_write_admin_base : (run (.registerWrite 0x14 .word 0x12#64) State.reset).window.adminRqBase = 0x1200000000#64 := by decide +kernel
theorem test_write_quad : (run (.registerWrite 0x18 .quad 0x500000040#64) State.reset).window.adminCrBase = 0x500000040#64 := by decide +kernel
/-- 11.8: one message for two due ones when the mask is cleared. -/
theorem test_unblock : (run (.vectorUnblock (.vectorMask 0 false))
    { ready with msix := { ready.msix with
      table := ready.msix.table.set 0 { address := 0xFEE00000, data := 7, masked := true }
      pending := ready.msix.pending.set 0 true } }).sent =
    [.message { vector := 0, address := 0xFEE00000, data := 7 }] := by decide

/-! ### Fetching -/

theorem test_fetch_rq0_first : (run .fetchIssue ((ready.setRq 0 { smallRq 0 with tail := 1 }).setRq 1
    { smallRq 1 with tail := 1 })).fetch.map Fetch.rq = some 0 := by decide
theorem test_fetch_reserves : ((run .fetchIssue (ready.setRq 1 { smallRq 1 with tail := 1 })).cr 1).reserved = 1 ∧
    (run .fetchIssue (ready.setRq 1 { smallRq 1 with tail := 1 })).nextIoRing = 2 := by decide

/-- A fetch of RQ1's entry 0 into slot 0, issued at time 0. -/
def fetching (r : RqId) (c : CrId) : State :=
  { (ready.setRq r { smallRq c with tail := 1, slotsHeld := 1 }).setCr c { smallCr with reserved := 1 } with
    fetch := some { rq := r, cr := c, slot := 0, entry := 0, address := 0x2000, read := .issued 0, live := true } }

theorem test_fetch_end_admin : (run (.fetchEnd (.data 0x0F#512)) (fetching 0 0)).axInbox = [0] ∧
    ((run (.fetchEnd (.data 0x0F#512)) (fetching 0 0)).rq 0).fetchHead = 1 := by decide +kernel
theorem test_fetch_end_kind : ((run (.fetchEnd (.data 0x0F#512)) (fetching 1 1)).slot 0).result.map Result.status
    = some .invalidKind := by decide +kernel
theorem test_fetch_timeout_early : (run .fetchTimeout (at_ 1249999 (fetching 1 1))).fetch.isSome = true := by decide
theorem test_fetch_timeout : ((run .fetchTimeout (at_ 1250000 (fetching 1 1))).rq 1).state = .faulted ∧
    ((run .fetchTimeout (at_ 1250000 (fetching 1 1))).rq 1).slotsHeld = 0 := by decide

/-! ### Admin requests -/

/-- The status that the request in slot 0 was answered with. -/
def answered (c : Instr) (s : State) : Option Status := ((run c s).slot 0).result.map Result.status

/-- A CREATE_RING body for CR2, good at every field. -/
def newCr : CreateRingBody :=
  { ringClass := 1, ringId := 2, base := 0x40, size := 4096, selector := 15, coalescingCount := 255, coalescingTime := 65535
    lowWater := 0, resume := 0 }

theorem test_create_cr : answered (.createRing 0) (admin (.createRing newCr) ready) = some .success ∧
    ((run (.createRing 0) (admin (.createRing newCr) ready)).cr 2).phase = true := by decide
theorem test_create_cr_size : answered (.createRing 0) (admin (.createRing { newCr with size := 4097 }) ready)
    = some .invalidField := by decide
theorem test_delete_in_use : answered (.deleteRing 0) (admin (.deleteRing 1 1) ready) = some .inUse := by decide
theorem test_delete_rq : answered (.deleteRing 0) (admin (.deleteRing 0 1) ready) = some .success ∧
    ((run (.deleteRing 0) (admin (.deleteRing 0 1) ready)).rq 1).state = .absent := by decide

/-- A PORT_CONFIG body for P4, each value at a limit of Table 11. -/
def newPort : PortConfigBody :=
  { port := 4, bitRate := 3, cyclePeriod := 50, responseWindow := 255, retryLimit := 7, retryGap := 1, failLimit := 15
    retrainInterval := 255 }

theorem test_port_config : ((run (.portConfig 0) (admin (.portConfig newPort) ready)).link 4).parameters.cyclePeriod = 50 := by
  decide
theorem test_port_config_period : answered (.portConfig 0) (admin (.portConfig { newPort with cyclePeriod := 49 }) ready)
    = some .invalidField := by decide
theorem test_port_start : ((run (.portStart 0) (admin (.portStart 4) ready)).link 4).state = .training ∧
    (run (.portStart 0) (admin (.portStart 4) ready)).axInFlight.length = 1 := by decide
theorem test_port_stop_idle : answered (.portStop 0) (admin (.portStop 4) (ready.setLink 4 runningLink)) = some .success ∧
    ((run (.portStop 0) (admin (.portStop 4) (ready.setLink 4 runningLink))).link 4).state = .disabled := by decide
theorem test_port_stop_busy : answered (.portStop 0) (admin (.portStop 4) { ready with
    axInFlight := [{ slot := 5, kind := .portStart, object := .port 4 }] }) = some .busy := by decide

/-- A SENSOR_BIND body for sensor 18, good at every field. -/
def newSensor : BindBody :=
  { sensor := 18, ring := 0, turnMode := 1, confirm := 1, rejectLimit := 15, captureMask := 15, decimation := 256
    jumpLimit := 16777215, scale := 1, offset := -140737488355328 }

/-- P4 RUNNING with sensor 18 in context `c`. -/
def withSensor (c : Sensor) : State := (ready.setLink 4 runningLink).setSensor 18 c

theorem test_bind : answered (.sensorBind 0) (admin (.sensorBind newSensor) (withSensor .initial)) = some .success ∧
    ((run (.sensorBind 0) (admin (.sensorBind newSensor) (withSensor .initial))).sensor 18).identity = word12 := by decide
theorem test_bind_decimation : answered (.sensorBind 0) (admin (.sensorBind { newSensor with decimation := 257 })
    (withSensor .initial)) = some .invalidField := by decide
theorem test_unbind_acquiring : answered (.sensorUnbind 0) (admin (.sensorUnbind 18) (withSensor turning))
    = some .wrongState := by decide

/-- Sensor 18's context for slave 2 of `runningLink`. -/
def bound18 (st : SensorState) : Sensor := { turning with state := st, identity := word12 }

theorem test_unbind : ((run (.sensorUnbind 0) (admin (.sensorUnbind 18) (withSensor (bound18 .faulted)))).sensor 18)
    = Sensor.initial := by decide
theorem test_start : ((run (.sensorStart 0) (admin (.sensorStart 18) (withSensor (bound18 .bound)))).sensor 18).state
    = .acquiring := by decide
theorem test_start_identity : answered (.sensorStart 0) (admin (.sensorStart 18) (withSensor { turning with state := .bound }))
    = some .wrongState := by decide
theorem test_stop : ((run (.sensorStop 0) (admin (.sensorStop 18) (withSensor (bound18 .acquiring)))).sensor 18).state = .bound ∧
    ((run (.sensorStop 0) (admin (.sensorStop 18) (withSensor (bound18 .acquiring)))).sr 0).producer = 1 := by decide
theorem test_stop_unbound : answered (.sensorStop 0) (admin (.sensorStop 18) ready) = some .wrongState := by decide
theorem test_capture_config : ((run (.captureConfig 0) (admin (.captureConfig 3 2 255) ready)).line 3).edgeSelect = .both := by
  decide
theorem test_capture_config_edge : answered (.captureConfig 0) (admin (.captureConfig 3 3 0) ready) = some .invalidField := by
  decide

/-- A CAPTURE_ARM body for line 1, ONCE with a reference of sensor 18. -/
def newArm : ArmBody := { line := 1, mode := 1, referencePresent := 1, referenceSensor := 18, referencePosition := 0 }

theorem test_arm_unbound : answered (.captureArm 0) (admin (.captureArm newArm) ready) = some .wrongState := by decide
theorem test_arm : ((run (.captureArm 0) (admin (.captureArm newArm) (at_ 9 (withSensor { turning with captureMask := 2 })))).line 1).armTime
    = some 9 := by decide
theorem test_disarm : ((run (.captureDisarm 0) (admin (.captureDisarm 1) (ready.setLine 1
    { CaptureLine.initial true with arm := .once, armTime := some 3 }))).line 1).arm = .disarmed := by decide
theorem test_query_port : ((run (.queryPort 0) (admin (.queryPort 4) (ready.setLink 4 { runningLink with failures := 2 }))).slot 0).result.map
    Result.detail = some 0x000F0202#32 := by decide
theorem test_query_sensor_unbound : ((run (.querySensor 0) (admin (.querySensor 18) ready)).slot 0).result.map Result.data
    = some 0 := by decide
theorem test_query_device : ((run (.queryDevice 0) (admin .queryDevice (at_ 5 ready))).slot 0).result.map
    (fun r => r.data.extractLsb' 0 72) = some (0x010000000000000005#72) := by decide
theorem test_abort_not_found : answered (.abort 0) (admin (.abort 1 77) ready) = some .notFound := by decide
theorem test_abort_marks : ((run (.abort 0) (admin (.abort 1 77) (onLine .slaveReset .slaveReset .empty 0))).slot 1).abortRequester
    = some 0 := by decide

/-! ### I/O transactions -/

/-- What a transaction of `n` exchanges has gathered. -/
def gathered (n : Nat) (values : List (BitVec 16)) : TransactionProgress :=
  { planned := n, values := values, warning := false, position := none }

/-- The result of slot 1. -/
def result1 (c : Instr) (s : State) : Option Result := ((run c s).slot 1).result

/-- 10.7: register 7 of 5 to 8 is refused with ALARM. -/
theorem test_reg_read_refused : result1 (.regRead 1 (.ok false true (.register 0)))
    (onLine (.regRead 5 4) .regRead (gathered 4 [0x0100, 0x0020]) 2) =
    some { status := .slaveRefused, detail := 7, data := 0x00200100 } := by decide
theorem test_reg_read_next : ((run (.regRead 1 (.ok false false (.register 1)))
    (onLine (.regRead 5 4) .regRead (gathered 4 []) 0)).link 4).attempt.map Attempt.register = some (some 6) := by decide
theorem test_reg_write_done : result1 (.regWrite 1 (.ok true false (.register 8)))
    (onLine (.regWrite 5 1 [9]) .regWrite (gathered 1 []) 0) = some { status := .success, detail := 0x101, data := 8 } := by decide
/-- R6: the fields are reduced with ST 12 and MT 4; the sensor is UNBOUND, so the reading is not evaluated. -/
theorem test_read_position : result1 (.readPosition 1 (.ok true false (.position 0xFFF123 0xFFF7)))
    (onLine .readPosition .position (gathered 1 []) 0) =
    some { status := .success, detail := 1, data := (0x00070001230000 : BitVec 128) <<< 32 } := by decide
/-- 5.9: SET_POSITION with target 0 at angle 1010 gives offset −505. -/
theorem test_set_position : ((run (.setPosition 1 (.ok false false (.position 1010 0)))
    ((onLine (.setPosition 0) .position (gathered 1 []) 0).setSensor 18 { turning with
      last := { extRaw := 1000, angle := 1000, turn := 0, sampleTime := 40, validity := .valid } })).sensor 18).offset = -505 := by
  decide
theorem test_set_position_unbound : (result1 (.setPosition 1 (.ok false false (.position 1010 0)))
    (onLine (.setPosition 0) .position (gathered 1 []) 0)).map Result.status = some .wrongState := by decide
theorem test_slave_reset_stale : ((run (.slaveReset 1 (.ok false false .empty))
    ((onLine .slaveReset .slaveReset (gathered 1 []) 0).setSensor 18 turning2)).sensor 18).last.validity = .stale := by decide
theorem test_slave_reset_refused : (result1 (.slaveReset 1 (.ok false true .empty))
    (onLine .slaveReset .slaveReset (gathered 1 []) 0)).map Result.status = some .slaveRefused := by decide

/-! ### Link events -/

/-- P4 RUNNING with an attempt that a round has to make. -/
def polling (a : Attempt) (t : Time) : State :=
  { (ready.setLink 4 { runningLink with attempt := some a }).setSched 4 { Scheduler.initial with
      owner := some .round, round := .inProgress, lateMark := some false, roundList := [18], roundStep := some .position } with
    time := t }

theorem test_attempt_begin : ((run (.attemptBegin 4) (polling { heard .position with phase := .between, tags := [] } 0)).link 4).tagCounter
    = 1 := by decide
theorem test_attempt_gap : ((run (.attemptBegin 4) ((polling { heard .position with phase := .between } 199).setLink 4
    { runningLink with attempt := some { heard .position with phase := .between }, lastEnd := some 0 })).link 4).driverEnable
    = false := by decide
/-- 2.10: a POSITION request lasts 7.2 µs; the window of 20 µs opens at its last bit. -/
theorem test_request_sent : ((run (.requestFrameSent 4) (polling { heard .position with phase := .sending } 900)).link 4).attempt.bind
    Attempt.windowEnd = some 3400 := by decide
/-- `heard` in LISTENING, the line watched since 1500. -/
def awaiting : Attempt := { heard .position with phase := .listening, listeningSince := some 1500, frameStart := none }

theorem test_request_not_sent : ((run (.requestFrameSent 4) (polling { heard .position with phase := .sending } 899)).link 4).attempt.map
    Attempt.phase = some .sending := by decide
theorem test_start_pattern_late : ((run (.startPatternSeen 4) (polling awaiting 4101)).link 4).attempt.map
    Attempt.phase = some .listening := by decide
theorem test_start_pattern : ((run (.startPatternSeen 4) (polling awaiting 4000)).link 4).attempt.map
    Attempt.phase = some .receiving := by decide
/-- R3: at 2.5 Mbit/s the two bits of a pattern last 100 ticks, so one seen 99 ticks after LISTENING began before it. -/
theorem test_start_pattern_early : ((run (.startPatternSeen 4) (polling awaiting 1599)).link 4).attempt.map
    Attempt.phase = some .listening := by decide
/-- A frame whose CRC fails: a link fault with retries left. -/
theorem test_response_crc : ((run (.responseFrame 4 []) (polling (heard .position) 10000)).link 4).state = .retryWait := by decide +kernel
/-- 2.10: no response on the last allowed attempt, the third: a failed exchange. -/
theorem test_window_expiry : ((run (.responseWindowExpiry 4) (polling { heard .position with
    phase := .listening, tags := [1, 2, 3] } 4000)).link 4).failures = 1 := by decide
theorem test_window_not_expired : ((run (.responseWindowExpiry 4) (polling { heard .position with
    phase := .listening, tags := [1, 2, 3] } 3999)).link 4).failures = 0 := by decide
theorem test_retry_gap : ((run (.retryGapExpiry 4) (at_ 7 (ready.setLink 4 { runningLink with
    state := .retryWait, retryGapTimer := some 7 }))).link 4).state = .running := by decide
theorem test_retrain : ((run (.retrainTimerExpiry 4) (at_ 7 (ready.setLink 4 { runningLink with
    state := .down, failures := 3, retrainTimer := some 7 }))).link 4).training.map Training.origin = some .retrain := by decide
theorem test_cycle_round : ((run (.cycleTimerExpiry 4) (at_ 7 ((withSensor (bound18 .acquiring)).setSched 4
    { Scheduler.initial with cycleTimer := some 7 }))).sched 4).roundList = [18] := by decide
/-- R39: a period whose round is still IN_PROGRESS is skipped. -/
theorem test_cycle_skipped : ((run (.cycleTimerExpiry 4) (((polling (heard .position) 7).setSensor 18 (bound18 .acquiring)).setSched 4
    { Scheduler.initial with cycleTimer := some 7, round := .inProgress })).sensor 18).missed = 1 := by decide

/-! ### Capture lines and delivery -/

/-- Line 1 armed ONCE, its input risen at tick 1020000, filter 25 (6.8). -/
def rising : State :=
  at_ 1020025 (ready.setLine 1 { CaptureLine.initial false with
    input := true, filter := 25, arm := .once, armTime := some 1000000
    qualification := some { level := true, since := 1020000, configured := none } })

theorem test_input : ((run (.captureInputTransition 1 true) (at_ 5 ready)).line 1).qualification
    = some { level := true, since := 5, configured := none } := by decide
theorem test_input_back : ((run (.captureInputTransition 1 false) rising).line 1).qualification = none := by decide
theorem test_recognised : ((run (.transitionRecognised 1) (rising.setSensor 18 { turning with captureMask := 2 })).sensor 18).captures[1]
    = some { edgeTime := 1020000, overrun := false, reference := none } := by decide
/-- `rising` with a shorter filter taken at 1020025 (R93). -/
def reconfigured : State :=
  rising.setLine 1 { rising.line 1 with
    filter := 5, qualification := some { level := true, since := 1020000, configured := some 1020025 } }

theorem test_reconfigured : ((run (.transitionRecognised 1) reconfigured).line 1).recognised = false ∧
    ((run (.transitionRecognised 1) (at_ 1020026 reconfigured)).line 1).recognised = true := by decide
theorem test_not_recognised : ((run (.transitionRecognised 1) (at_ 1020024 rising)).line 1).recognised = false := by decide

/-- A record write in flight, with error-free addressing. -/
def writing (k : WriteKind) : RecordWrite := { kind := k, entry := 2, address := 0x3040, data := 1, live := true }

theorem test_sample_write_end : (run .sampleWriteEnd ({ ready with outbox := [.record (writing (.sample 0))] } : State)).sent
    = [.record 0x3040 1] := by decide +kernel
theorem test_sample_write_error : ((run .sampleWriteEnd { ready with
    outbox := [.record (writing (.sample 0))], msix := MsixUnit.initial }).sr 0).failedEntry = some 2 := by decide

/-- R165: a fetch read waits for the writes taken before it. -/
theorem test_fetch_read_waits : (run .fetchIssue { ready.setRq 1 { smallRq 1 with tail := 1 } with
    outbox := [.record (writing .notice)] }).fetch.map Fetch.read = some .waiting := by decide
/-- R167: a vector masked while its message waits behind a record has its pending flag set. -/
theorem test_message_blocked_at_sending : (run .sampleWriteEnd { ready with
    outbox := [.record (writing (.sample 0)), .message 0], msix := { ready.msix with functionMask := true } }).sent.length = 1 ∧
    (run .sampleWriteEnd { ready with outbox := [.record (writing (.sample 0)), .message 0]
                                      msix := { ready.msix with functionMask := true } }).msix.pending[0] = true := by decide
/-- Table 36, R163: byte 0 of STATUS, and a 64-bit read of ID and CTRL. -/
theorem test_narrow_and_wide_read : ready.hostRead 0x08 (.bytes 0 1) = 1 ∧
    ready.hostRead 0x00 .quad = 0x00000001A8320001 := by decide

/-- Slot 1 DONE, its completion being written to CR1. -/
def completing (st : Status) : State :=
  { ready.setSlot 1 { Slot.initial with state := .done, rq := 1, cr := 1, result := some { status := st, detail := 0, data := 0 } } with
    slotOrder := [1], rqs := ready.rqs.set 1 { smallRq 1 with slotsHeld := 1, chain := .openAt 1 }
    outbox := [.record (writing (.completion 1 1))] }

theorem test_completion_frees : ((run .completionWriteEnd (completing .success)).slot 1).state = .free ∧
    ((run .completionWriteEnd (completing .success)).rq 1).chain = .noChain := by decide
theorem test_completion_breaks_chain : ((run .completionWriteEnd (completing .aborted)).rq 1).chain = .broken := by decide

/-- A notice of sensor 3 waiting. -/
def noticed : State :=
  { ready with notices := [{ source := .sensor 3, detail := 1, firstTime := 6, occurrences := 1 }] }

theorem test_notice_write : ((run .noticeWrite noticed).cr 0).producer = 1 ∧ (run .noticeWrite noticed).notices = [] := by decide
/-- 9.9: two posted entries and one credit leave no room on CR0 of size 4. -/
theorem test_notice_waits : (run .noticeWrite (noticed.setCr 0 { smallCr with producer := 2, reserved := 1 })).notices.length = 1 := by
  decide
/-- 11.8: the timer of SR0 expires: a message is due and the count is 0. -/
theorem test_coalescing : (run (.coalescingTimerExpiry (.sr 0)) (at_ 100 (ready.setSr 0 { smallSr with
    interrupt := { count := 7, timer := some 100 } }))).sent.length = 1 ∧
    ((run (.coalescingTimerExpiry (.sr 0)) (at_ 100 (ready.setSr 0 { smallSr with
      interrupt := { count := 7, timer := some 100 } }))).sr 0).interrupt.count = 0 := by decide
theorem test_halt_complete : (run .haltComplete { State.reset with
    window := { Window.initial with control := .halting } }).window.statusWord = 2#32 := by decide
theorem test_halt_waits : (run .haltComplete { State.reset with
    window := { Window.initial with control := .halting }, outbox := [.record (writing .notice)] }).window.control = .halting := by
  decide

/-- 7.9: the SAMPLE that leaves fewer than L entries free carries CONGESTED, as the first record does. -/
theorem test_congested_flag : ((postRecord
      { kind := .sample, sensor := 18, time := 0, position := 0, angle := 0, turn := 0,
        line := none, reason := none, cause := .none, flags := RecordFlags.clear }
      ((withSensor { turning with sequence := 20 }).setSr 0 { smallSr with producer := 11 })).sr 0).state = .congested := by decide

/-- Table 45: a MARK FAULT record's first and last bytes. -/
theorem test_sample_bytes : encodeSample
      { kind := .mark, sensor := 18, time := 0, position := -1, angle := 0, turn := -1,
        line := none, reason := some .fault, cause := .positionRange, flags := RecordFlags.clear }
      { sequence := 0x1234, missed := 5, rejected := 6, withheld := 0x0708, congested := true, phase := true } =
    (0x0703020007080605FFFFFF000000FFFFFFFFFFFF000000000000000012341203 : BitVec 256) := by decide +kernel

/-! ### States and operands that meet the hypotheses of the statements

One theorem `witness_<statement>` for each statement with hypotheses, with a case for each of its clauses. -/

/-- The request of body `b` in slot 0 is next for the AX, and can be answered. -/
def Asks (b : Body) (s : State) : Prop :=
  AxNext 0 (admin b s) { admin b s with axInbox := [] } ∧ ((admin b s).slot 0).body = b

theorem asks (b : Body) (s : State) (h1 : (s.cr 0).state = .active) (h2 : s.discarded = []) : Asks b s := by
  have h : (admin b s).slot 0 = { Slot.initial with state := .active, body := b } := State.slot_setSlot_same s 0 _
  exact ⟨⟨rfl, rfl, by rw [h], by rw [h]; rfl, by rw [h]; rfl, h1, h2⟩, by rw [h]⟩

/-- `s` with a request in flight that names object `o`. -/
def flying (o : AdminObject) (s : State) : State := { s with axInFlight := [{ slot := 5, kind := .portStart, object := o }] }

theorem inFlight_flying (o : AdminObject) (b : Body) (s : State) : InFlight o (admin b (flying o s)) :=
  ⟨_, List.mem_singleton.2 rfl, rfl⟩

theorem none_inFlight (o : AdminObject) (s : State) (h : s.axInFlight = []) : ¬ InFlight o s := by
  rintro ⟨e, he, -⟩
  rw [h] at he
  cases he

theorem smallCr_ok : smallCr.Ok := ⟨by decide, by decide, by decide, by decide, by decide, by decide⟩
theorem initialCr_ok : CompletionRing.initial.Ok := ⟨by decide, by decide, by decide, by decide, by decide, by decide⟩
theorem smallSr_ok : smallSr.Ok := ⟨by decide, by decide, by decide, by decide, by decide, by decide, by decide⟩
theorem smallRq_ok (c : CrId) : (smallRq c).Ok :=
  ⟨fun _ => by revert c; decide, fun _ => by revert c; decide, fun _ => by revert c; decide, by revert c; decide⟩
theorem initialRq_ok : RequestRing.initial.Ok := ⟨by decide, by decide, by decide, by decide⟩
theorem turning_ok : turning.Ok :=
  ⟨by decide, by decide, by decide, by decide, by decide, by decide, by decide, by decide, by decide, by decide, by decide,
    by decide, by decide⟩

/-! The machine as a whole -/

theorem witness_StepRunsFrontCommand : State.reset.pending = [] := rfl

theorem ready_rqs (r : RqId) : (ready.rq r).Ok := by
  have h : ready.rq r = RequestRing.initial ∨ ready.rq r = smallRq 0 ∨ ready.rq r = smallRq 1 := by revert r; decide
  rcases h with h | h | h <;> rw [h]
  · exact initialRq_ok
  · exact smallRq_ok 0
  · exact smallRq_ok 1

theorem ready_crs (r : CrId) : (ready.cr r).Ok := by
  have h : ready.cr r = CompletionRing.initial ∨ ready.cr r = smallCr := by revert r; decide
  rcases h with h | h <;> rw [h]
  · exact initialCr_ok
  · exact smallCr_ok

theorem ready_srs (r : SrId) : (ready.sr r).Ok := by
  have h : ready.sr r = SampleRing.initial ∨ ready.sr r = smallSr := by revert r; decide
  rcases h with h | h <;> rw [h]
  · exact ⟨by decide, by decide, by decide, by decide, by decide, by decide, by decide⟩
  · exact smallSr_ok

theorem initial_link_ok : LinkEngine.initial.Ok :=
  ⟨⟨by decide, by decide, by decide, by decide, by decide, by decide⟩, by decide, by decide, by decide⟩

theorem initial_sched_ok (p : PortId) : Scheduler.initial.Ok p :=
  ⟨List.nil_sublist _, fun _ => rfl, by decide, by decide⟩

theorem initial_sensor_ok : Sensor.initial.Ok :=
  ⟨by decide, by decide, by decide, by decide, by decide, by decide, by decide, by decide, by decide, by decide, by decide,
    by decide, by decide⟩

theorem initial_line_ok : (CaptureLine.initial false).Ok := ⟨by decide, by decide, by decide, by decide⟩

theorem ready_account : Account ready where
  held := fun r => by revert r; decide
  perRing := fun r => by revert r; decide
  ofIoRings := by decide
  reserved := fun c => by revert c; decide
  room := fun c => by revert c; decide
  ofAbsent := fun r => by revert r; decide
  bound := fun r => by revert r; decide
  ofSlot := fun k => by revert k; decide
  ofFetch := fun f h => by cases h
  off := fun h => absurd rfl h

theorem witness_EveryStepKeepsTheTables : Safe ready ∧ step ready = .next { ready with time := 1 } :=
  ⟨{ links := fun p => by rw [show ready.link p = .initial by revert p; decide]; exact initial_link_ok
     scheds := fun p => by rw [show ready.sched p = .initial by revert p; decide]; exact initial_sched_ok p
     sensors := fun n => by rw [show ready.sensor n = .initial by revert n; decide]; exact initial_sensor_ok
     lines := fun l => by rw [show ready.line l = .initial false by revert l; decide]; exact initial_line_ok
     rqs := ready_rqs, crs := ready_crs, srs := ready_srs, notices := ⟨by decide, fun n h => by cases h⟩, turn := by decide
     account := ready_account
     acquiring := fun n => by revert n; decide
     holding := fun n => by revert n; decide
     levels := fun r => ⟨by revert r; decide, by revert r; decide⟩
     inFlight := by decide }, rfl⟩

theorem witness_HostWordsKept : exec .noticeWrite ready = .next ready ∧ writesHostWords .noticeWrite = false := ⟨rfl, rfl⟩

/-! The line -/

theorem witness_ResponseFrameReadsBack :
    ((heard .position).tags.getLast? = some 3 ∧ payloadFits .position (.position 0xFFFFFF 0) = true) ∧
    ((heard .identify).tags.getLast? = some 3 ∧ payloadFits .identify (.identity word12) = true) ∧
    ((heard .regWrite).tags.getLast? = some 3 ∧ payloadFits .regWrite (.register 0xFFFF) = true) ∧
    ((heard .slaveReset).tags.getLast? = some 3 ∧ payloadFits .slaveReset .empty = true) := by decide

/-- Slot 1's REG_READ, its response window open until 4000. -/
def listening : State := (onLine (.regRead 5 1) .regRead (gathered 1 []) 0).setLink 4
  { runningLink with attempt := some { heard .regRead with phase := .listening, frameStart := none } }

/-- The response to `heard .regRead`, value 7. -/
def answer7 : List Bool := responseFrame 2 .regRead 3 false false (.register 7)

theorem witness_LineEventsAreTransactionEnds :
    let s := onLine (.regRead 5 1) .regRead (gathered 1 []) 0
    (portOf (s.slot 1).sensor = 4 ∧ (s.slot 1).state = .active ∧ (s.sched 4).active = some 1 ∧
      (s.sched 4).owner = some .transaction ∧ (s.link 4).attempt = some (heard .regRead) ∧
      frameCounted (s.link 4) (heard .regRead) s.time = true ∧
      classify (heard .regRead) (receivedBits .regRead answer7) = .ended (.ok false false (.register 7)) ∧
      transactionCommand 1 (.ok false false (.register 7)) (s.slot 1).body = some (.regRead 1 (.ok false false (.register 7)))) ∧
    (portOf (listening.slot 1).sensor = 4 ∧ (listening.slot 1).state = .active ∧ (listening.sched 4).active = some 1 ∧
      (listening.sched 4).owner = some .transaction ∧
      windowOver { heard .regRead with phase := .listening, frameStart := none } listening.time = true ∧
      (listening.link 4).attempt = some { heard .regRead with phase := .listening, frameStart := none } ∧
      transactionCommand 1 (.fault .noResponse) (listening.slot 1).body = some (.regRead 1 (.fault .noResponse))) := by decide +kernel

/-! Device control -/

theorem witness_EnableCreatesTheAdminRings :
    ready.window.enable = true ∧
    (let s := { State.reset with window := { Window.initial with control := .halting } };
      s.window.enable = false ∧ s.window.control ≠ .off) ∧
    (configured.window.enable = false ∧ configured.window.control = .off ∧ configured.window.adminRqBase.toNat % 64 = 0 ∧
      configured.window.adminCrBase.toNat % 32 = 0 ∧ configured.window.rqSize = 2 ∧ configured.window.crSize = 4096) ∧
    (State.reset.window.enable = false ∧ State.reset.window.control = .off ∧ ¬ (2 ≤ State.reset.window.rqSize)) := by decide

theorem witness_HaltBringsTheHaltValues :
    State.reset.window.enable = false ∧
    (let s := { State.reset with window := { Window.initial with control := .halting, enable := true } };
      s.window.enable = true ∧ s.window.control ≠ .ready) ∧
    (ready.window.enable = true ∧ ready.window.control = .ready) := by decide

theorem witness_HaltCompletes :
    State.reset.window.control ≠ .halting ∧
    (let s := { State.reset with window := { Window.initial with control := .halting } };
      s.window.control = .halting ∧ (∀ w, OutItem.record w ∉ s.outbox) ∧ s.fetch = none ∧ s.window.enable = false) ∧
    (let s := { State.reset with window := { Window.initial with control := .halting, enable := true } };
      s.window.control = .halting ∧ (∀ w, OutItem.record w ∉ s.outbox) ∧ s.fetch = none ∧ s.window.enable = true) :=
  ⟨by decide, ⟨rfl, (fun _ h => by cases h), rfl, rfl⟩, ⟨rfl, (fun _ h => by cases h), rfl, rfl⟩⟩

theorem witness_FlagClearAndTimeRead : (3 : Nat) ≤ 3 ∧ 1 + 3 ≤ 4 ∧ (0x2C : Nat) ≠ 0x28 ∧ (0x1100 : Nat) ≤ 0x17FC ∧ (0x17FC : Nat) ≠ 0x1800 := by decide

theorem witness_RqTailStoresTheTail :
    ((1 : BitVec 3).toNat = (1 : RqId).val ∧ (ready.rq 1).state ≠ .absent ∧ (3 : BitVec 16).toNat < (ready.rq 1).size) ∧
    ((ready.rq 1).size ≤ (4 : BitVec 16).toNat) ∧ ((7 : BitVec 3).toNat = (7 : RqId).val ∧ (ready.rq 7).state = .absent) := by
  decide

/-- A CR1 with one entry posted. -/
def posted : State := ready.setCr 1 { smallCr with producer := 1 }

theorem witness_CrHeadStoresTheHead :
    (posted.cr 1).Ok ∧
    ((1 : BitVec 3).toNat = (1 : CrId).val ∧ (posted.cr 1).state ≠ .absent ∧ (1 : BitVec 16).toNat < (posted.cr 1).size ∧
      (((1 : BitVec 16).toNat : Int) - (posted.cr 1).consumer) % (posted.cr 1).size ≤
        (((posted.cr 1).producer : Int) - (posted.cr 1).consumer) % (posted.cr 1).size) ∧
    ¬ ((((2 : BitVec 16).toNat : Int) - (posted.cr 1).consumer) % (posted.cr 1).size ≤
        (((posted.cr 1).producer : Int) - (posted.cr 1).consumer) % (posted.cr 1).size) ∧
    ¬ ((4 : BitVec 16).toNat < (posted.cr 1).size) :=
  ⟨⟨by decide, by decide, by decide, by decide, by decide, by decide⟩, by decide, by decide, by decide⟩

/-- SR0 CONGESTED with 11 entries unconsumed (7.9). -/
def congested : State := ready.setSr 0 { smallSr with state := .congested, producer := 11 }

theorem congested_ok : (congested.sr 0).Ok := ⟨by decide, by decide, by decide, by decide, by decide, by decide, by decide⟩

theorem witness_SrHeadStoresTheHead :
    (congested.sr 0).Ok ∧
    ((0 : BitVec 3).toNat = (0 : SrId).val ∧ (congested.sr 0).state ≠ .absent ∧ (11 : BitVec 16).toNat < (congested.sr 0).size ∧
      (((11 : BitVec 16).toNat : Int) - (congested.sr 0).consumer) % (congested.sr 0).size ≤
        (((congested.sr 0).producer : Int) - (congested.sr 0).consumer) % (congested.sr 0).size ∧
      (∀ n, (congested.sensor n).ring = 0 → (congested.sensor n).held = [])) ∧
    ¬ ((((12 : BitVec 16).toNat : Int) - (congested.sr 0).consumer) % (congested.sr 0).size ≤
        (((congested.sr 0).producer : Int) - (congested.sr 0).consumer) % (congested.sr 0).size) ∧
    4 ≤ (4 : BitVec 3).toNat :=
  ⟨congested_ok, ⟨by decide, by decide, by decide, by decide, by decide⟩, by decide, by decide⟩

/-- SR0 full and CONGESTED, sensors 9 and 18 with a held record each. -/
def holdingTwo : State := ((ready.setSr 0 { smallSr with state := .congested, producer := 15 }).setSensor 9
    { turning with held := [startMark 9 5] }).setSensor 18 { turning with held := [startMark 18 6] }

theorem witness_SrHeadDrainsTheHeldQueues :
    ((holdingTwo.sr 0).Ok ∧ (0 : BitVec 3).toNat = (0 : SrId).val ∧ (15 : BitVec 16).toNat < (holdingTwo.sr 0).size ∧
      (((15 : BitVec 16).toNat : Int) - (holdingTwo.sr 0).consumer) % (holdingTwo.sr 0).size ≤
        (((holdingTwo.sr 0).producer : Int) - (holdingTwo.sr 0).consumer) % (holdingTwo.sr 0).size ∧
      (∀ n, ∀ x ∈ (holdingTwo.sensor n).held, x.sensor = n) ∧ (holdingTwo.sr 0).state = .congested) ∧
    (let s := holdingTwo.setSr 0 { smallSr with state := .faulted, producer := 15, failedEntry := some 3 };
      (s.sr 0).Ok ∧ (1 : BitVec 16).toNat < (s.sr 0).size ∧
      (((1 : BitVec 16).toNat : Int) - (s.sr 0).consumer) % (s.sr 0).size ≤
        (((s.sr 0).producer : Int) - (s.sr 0).consumer) % (s.sr 0).size ∧
      (∀ n, ∀ x ∈ (s.sensor n).held, x.sensor = n) ∧ (s.sr 0).state = .faulted) :=
  ⟨⟨⟨by decide, by decide, by decide, by decide, by decide, by decide, by decide⟩, by decide, by decide, by decide, by decide,
      by decide⟩,
    ⟨by decide, by decide, by decide, by decide, by decide, by decide, by decide⟩, by decide, by decide, by decide, by decide⟩

/-- 7.8: one free entry: the lower sensor's record is written, the other stays held. -/
theorem test_sr_head_drains : ((run (.srHead 0 1) holdingTwo).sensor 9).held = [] ∧
    ((run (.srHead 0 1) holdingTwo).sensor 18).held.length = 1 := by decide +kernel

theorem witness_RegisterWriteActsAsItsWord :
    (3 : BitVec 64).getLsbD 1 = true ∧ ((1 : BitVec 64).getLsbD 1 = false ∧ (1 : BitVec 64).getLsbD 0 = true) ∧
    ((0 : BitVec 64).getLsbD 1 = false ∧ (0 : BitVec 64).getLsbD 0 = false) ∧
    (0 : BitVec 64).extractLsb' 20 2 = 0 ∧ (0x100000 : BitVec 64).extractLsb' 20 2 = 1 ∧
    (0x200000 : BitVec 64).extractLsb' 20 2 = 2 ∧ (0x300000 : BitVec 64).extractLsb' 20 2 = 3 ∧
    (ready.window.enable = true ∧ 0x20 ∈ [0x10, 0x14, 0x18, 0x1C, 0x20]) ∧ State.reset.window.enable = false ∧
    ((0x2C ∈ [0x00, 0x24, 0x28, 0x2C]) ∧ (0x30 ≤ 0x30 ∧ 0x30 < 0x1000) ∧ (0x30 ≤ 0xFFC ∧ 0xFFC < 0x1000) ∧ 0x1100 ≤ 0x1100) := by
  decide

/-- Vector 0 pending, masked in its entry. -/
def maskedPending : State :=
  { ready with msix := { ready.msix with
      table := ready.msix.table.set 0 { address := 8, data := 7, masked := true }, pending := ready.msix.pending.set 0 true } }

theorem witness_UnblockedVectorSendsOnce :
    (maskedPending.outbox = [] ∧ ({ maskedPending with outbox := [.read] } : State).outbox ≠ [] ∧
      maskedPending.msix.pending[(0 : VectorId)] = true ∧
      ∀ j : VectorId, j ≠ 0 → maskedPending.msix.pending[j] = false) ∧
    (let m := { maskedPending.msix with functionMask := true }; (m.table[(0 : VectorId)]).masked = true) ∧
    (let m : MsixUnit := { maskedPending.msix with
        table := maskedPending.msix.table.set 0 { maskedPending.msix.table[0] with masked := false } };
      (m.table[(0 : VectorId)]).masked = false ∧ m.functionMask = false ∧ m.enabled = true ∧ m.busMaster = true) := by decide

theorem witness_WriteReleasesThePendingVectors :
    (∀ v : VectorId, ready.msix.pending[v] = false) ∧ ready.outbox = [] ∧
    (let s := { maskedPending with msix := { maskedPending.msix with pending := maskedPending.msix.pending.set 5 true } };
      s.msix.pending[(0 : VectorId)] = true ∧ s.msix.pending[(5 : VectorId)] = true ∧ s.outbox = [] ∧
      ({ s with outbox := [.read] } : State).outbox ≠ []) := by decide

/-! Fetching -/

/-- RQ7 has an entry, and is first in turn. -/
def tail7 : State := { ready.setRq 7 { smallRq 1 with tail := 1 } with nextIoRing := 7 }

/-- RQ0 has an entry. -/
def tail0 : State := ready.setRq 0 { smallRq 0 with tail := 1 }

theorem takes7 : Takes tail7 7 :=
  ⟨⟨by decide, ⟨0, by decide⟩, by decide, fun _ => by decide, ⟨1, by decide⟩⟩,
    fun _ => ⟨fun h => absurd h.ring.2 (by decide), fun q _ hq => absurd hq (by revert q; decide)⟩⟩

theorem takes0 : Takes tail0 0 :=
  ⟨⟨by decide, ⟨0, by decide⟩, by decide, fun h => absurd rfl h, ⟨0, by decide⟩⟩, fun h => absurd rfl h⟩

theorem witness_FetchTakesTheRingInTurn :
    (∀ r, (ready.rq r).Ok) ∧ (∀ c, (ready.cr c).Ok) ∧ ready.nextIoRing ≠ 0 ∧ (fetching 1 1).fetch ≠ none ∧
    (∀ r, ¬ Eligible ready r) ∧
    (tail7.fetch = none ∧ Takes tail7 7 ∧ (tail7.rq 7).boundCr = some 1 ∧ (tail7.slot 0).state = .free ∧
      ∀ j, j < 0 → (tail7.slot j).state ≠ .free) ∧
    (tail0.fetch = none ∧ Takes tail0 0 ∧ (tail0.rq 0).boundCr = some 0 ∧ (tail0.slot 0).state = .free) :=
  ⟨ready_rqs, ready_crs, by decide, by decide, fun r h => absurd h.ring
      ((by decide : ∀ r, ¬ ((ready.rq r).state = .active ∧ (ready.rq r).tail ≠ (ready.rq r).fetchHead)) r),
    ⟨rfl, takes7, by decide, by decide, fun _ h => absurd h (by simp)⟩, rfl, takes0, by decide, by decide⟩

theorem witness_RequestBodiesAreRead : ∀ code ∈ [0x01, 0x02, 0x03, 0x04, 0x05, 0x06, 0x07, 0x08, 0x09, 0x0A, 0x0B, 0x0C, 0x0D,
    0x0E, 0x0F, 0x10, 0x20, 0x21, 0x22, 0x23, 0x24], bytesAt (BitVec.ofNat 512 code) 0 1 = code := by decide +kernel

/-- A fetch of RQ1 in flight, RQ1 with the state and chain given. -/
def fetchingIn (st : RequestRingState) (chain : ChainState) : State :=
  (fetching 1 1).setRq 1 { smallRq 1 with tail := 1, slotsHeld := 1, state := st, chain := chain }

/-- The fetch of `fetching`. -/
def theFetch (r : RqId) (c : CrId) : Fetch :=
  { rq := r, cr := c, slot := 0, entry := 0, address := 0x2000, read := .issued 0, live := true }

theorem witness_FetchedRequestIsPlaced :
    ((fetchingIn .draining .noChain).fetch = some (theFetch 1 1) ∧ (fetchingIn .draining .noChain).discarded = [] ∧
      ((fetchingIn .draining .noChain).rq 1).state = .draining ∧ ((fetchingIn .draining .noChain).cr 1).state = .active) ∧
    ((fetching 0 0).fetch = some (theFetch 0 0) ∧ ((fetching 0 0).rq 0).state ≠ .draining ∧ ((fetching 0 0).cr 0).state = .active) ∧
    (∀ code ∈ [0x00, 0x11, 0xFF], ¬ (1 ≤ bytesAt (BitVec.ofNat 512 code) 0 1 ∧ bytesAt (BitVec.ofNat 512 code) 0 1 ≤ 0x10)) ∧
    (∀ code ∈ [0x01, 0x10], 1 ≤ bytesAt (BitVec.ofNat 512 code) 0 1 ∧ bytesAt (BitVec.ofNat 512 code) 0 1 ≤ 0x10) ∧
    ((fetching 1 1).fetch = some (theFetch 1 1) ∧ ((fetching 1 1).rq 1).state ≠ .draining) ∧
    (∀ code ∈ [0x1F, 0x25], ¬ (0x20 ≤ bytesAt (BitVec.ofNat 512 code) 0 1 ∧ bytesAt (BitVec.ofNat 512 code) 0 1 ≤ 0x24)) ∧
    (∀ code ∈ [0x20, 0x24], 0x20 ≤ bytesAt (BitVec.ofNat 512 code) 0 1 ∧ bytesAt (BitVec.ofNat 512 code) 0 1 ≤ 0x24) ∧
    ((fetchingIn .active .broken).rq 1).chain = .broken ∧ ((fetchingIn .active (.openAt 3)).rq 1).chain = .openAt 3 ∧
    (let s := (fetching 1 1).setLink 0 { LinkEngine.initial with state := .training };
      (s.rq 1).chain = .noChain ∧
      (s.link (portOf (requestSlot (theFetch 1 1) (BitVec.ofNat 512 0x20) .queued).sensor)).state = .training) := by
  decide +kernel

/-- `fetching` with P0's link in state `st` and slot 3's READ_POSITION in its port queue. -/
def arriving (st : LinkState) : State :=
  (((fetching 1 1).setLink 0 { runningLink with state := st }).setSched 0 { Scheduler.initial with queue := [3] }).setSlot 3
    { Slot.initial with state := .queued, rq := 1, cr := 1, body := .readPosition }

theorem witness_FetchedRequestArrives : ∀ st, (arriving st).fetch = some (theFetch 1 1) ∧ (theFetch 1 1).live = true ∧
    (theFetch 1 1).read = .issued 0 ∧ (arriving st).discarded = [] ∧ ((arriving st).rq 1).state ≠ .draining ∧
    ((arriving st).rq 1).chain = .noChain ∧ ((arriving st).cr 1).state = .active ∧ ((arriving st).link 0).state = st ∧
    portOf (requestSlot (theFetch 1 1) (BitVec.ofNat 512 0x22) .queued).sensor = 0 ∧ QueueReady 0 (arriving st) ∧
    (theFetch 1 1).slot ∉ ((arriving st).sched 0).queue := fun st =>
  ⟨rfl, rfl, rfl, rfl, by cases st <;> decide, by cases st <;> decide, by cases st <;> decide, rfl, by decide +kernel,
    ⟨by cases st <;> decide, fun k h => by
      obtain rfl : k = 3 := List.mem_singleton.1 h
      exact ⟨by cases st <;> decide, by cases st <;> decide, by cases st <;> decide, trivial⟩⟩, by cases st <;> decide⟩

/-- `fetching` with its read in state `r`. -/
def fetchRead (r : ReadState) : State := { fetching 1 1 with fetch := some { theFetch 1 1 with read := r } }

/-- RQ1 DRAINING with the slot of its fetch alone, the DELETE_RING in slot 5 waiting for it. -/
def drainingFetch : State :=
  { ((fetching 1 1).setRq 1 { smallRq 1 with state := .draining, slotsHeld := 1 }).setSlot 5
      { Slot.initial with state := .active, body := .deleteRing 0 1 } with
    axInFlight := [{ slot := 5, kind := .deleteRing, object := .rq 1 }] }

theorem witness_FetchErrorReturnsSlotAndCredit :
    ((fetchRead .waiting).fetch = some { theFetch 1 1 with read := .waiting } ∧ (fetchRead .waiting).discarded = []) ∧
    ((fetching 1 1).fetch = some (theFetch 1 1) ∧ (fetching 1 1).discarded = [] ∧ (theFetch 1 1).read = .issued 0 ∧
      reached (at_ 1250000 (fetching 1 1)).time (after 0 1250000) = true ∧ ((fetching 1 1).rq 1).state = .active) ∧
    ((fetchRead .notIssued).fetch = some { theFetch 1 1 with read := .notIssued } ∧
      ((fetchRead .notIssued).rq 1).state = .active) ∧
    (let f := { theFetch 1 1 with live := false };
      ({ fetching 1 1 with fetch := some f } : State).fetch = some f ∧ f.live = false) ∧
    (let s := (fetching 1 1).setRq 1 { smallRq 1 with state := .draining, slotsHeld := 2 };
      s.fetch = some (theFetch 1 1) ∧ (s.rq 1).state = .draining ∧ 1 < (s.rq 1).slotsHeld) ∧
    ((fetching 0 0).fetch = some (theFetch 0 0) ∧ (theFetch 0 0).rq = 0 ∧ (fetching 0 0).window.control = .ready) := by decide

theorem witness_FetchErrorEndsTheDraining :
    drainingFetch.fetch = some (theFetch 1 1) ∧ (drainingFetch.rq 1).state = .draining ∧ (drainingFetch.rq 1).slotsHeld = 1 ∧
      ∃ u, AnswersFor (.rq 1) 5 ((fetchReturned (theFetch 1 1) drainingFetch).setRq 1 .initial) u :=
  ⟨rfl, by decide, by decide, _, ⟨⟨_, List.mem_singleton.2 rfl, rfl, rfl, fun e h _ => List.mem_singleton.1 h⟩, rfl, by decide,
    by decide, by decide⟩⟩


/-! Admin requests -/

theorem alone {k : SlotId} {u : State}
    (h : ((u.slot k).state = .linkWait ∨ (u.slot k).state = .queued ∨ (u.slot k).state = .active) ∧
      (u.cr (u.slot k).cr).state = .active ∧ (u.slot k).abortRequester = none) : Concludable k u :=
  ⟨h.1, h.2.1, fun a ha => by rw [h.2.2] at ha; cases ha⟩

/-- A CREATE_RING body for RQ2 bound to CR1, good at every field. -/
def newRq : CreateRingBody :=
  { ringClass := 0, ringId := 2, base := 0x40, size := 2, selector := 1, coalescingCount := 0, coalescingTime := 0
    lowWater := 0, resume := 0 }

/-- A CREATE_RING body for SR3, good at every field. -/
def newSr : CreateRingBody :=
  { ringClass := 2, ringId := 3, base := 0x20, size := 16, selector := 15, coalescingCount := 1, coalescingTime := 0
    lowWater := 1, resume := 15 }

theorem witness_CreateRequestRing :
    (Asks (.createRing { newRq with ringId := 0 }) ready ∧ Asks (.createRing { newRq with ringId := 8 }) ready ∧
      ¬ (1 ≤ 0 ∧ 0 ≤ 7) ∧ ¬ (1 ≤ 8 ∧ 8 ≤ 7)) ∧
    (Asks (.createRing newRq) (flying (.rq 2) ready) ∧ InFlight (.rq 2) (admin (.createRing newRq) (flying (.rq 2) ready))) ∧
    (Asks (.createRing { newRq with ringId := 1 }) ready ∧ ¬ InFlight (.rq 1) (admin (.createRing newRq) ready) ∧
      (ready.rq 1).state ≠ .absent) ∧
    (Asks (.createRing newRq) ready ∧ ¬ InFlight (.rq 2) (admin (.createRing newRq) ready) ∧ (ready.rq 2).state = .absent ∧
      newRq.base % 64 = 0 ∧ newRq.size = 2 ∧ (1 : CrId) ≠ 0 ∧ newRq.selector = (1 : CrId).val ∧ (ready.cr 1).state = .active) ∧
    (Asks (.createRing { newRq with size := 1 }) ready ∧ Asks (.createRing { newRq with size := 4097 }) ready ∧ ¬ (2 ≤ 1)) :=
  ⟨⟨asks _ _ rfl rfl, asks _ _ rfl rfl, by decide, by decide⟩, ⟨asks _ _ rfl rfl, inFlight_flying _ _ _⟩,
    ⟨asks _ _ rfl rfl, none_inFlight _ _ rfl, by decide⟩,
    ⟨asks _ _ rfl rfl, none_inFlight _ _ rfl, by decide⟩, ⟨asks _ _ rfl rfl, asks _ _ rfl rfl, by decide⟩⟩

theorem witness_CreateOutputRing :
    (Asks (.createRing { newCr with ringClass := 3 }) ready ∧ 2 < 3) ∧
    (Asks (.createRing { newCr with ringId := 0 }) ready ∧ ¬ (1 ≤ 0 ∧ 0 ≤ 7)) ∧
    (Asks (.createRing { newCr with ringId := 1 }) ready ∧ (ready.cr 1).state ≠ .absent) ∧
    (Asks (.createRing newCr) ready ∧ (ready.cr 2).state = .absent ∧ newCr.base % 32 = 0 ∧ newCr.size = 4096 ∧
      newCr.selector < 16 ∧ newCr.coalescingCount = 255 ∧ newCr.coalescingTime = 65535) ∧
    (Asks (.createRing { newCr with coalescingCount := 0 }) ready ∧ ¬ (1 ≤ 0)) ∧
    (Asks (.createRing { newSr with ringId := 4 }) ready ∧ 3 < 4) ∧
    (Asks (.createRing { newSr with ringId := 0 }) ready ∧ (ready.sr 0).state ≠ .absent) ∧
    (Asks (.createRing newSr) ready ∧ (ready.sr 3).state = .absent ∧ newSr.base % 32 = 0 ∧ newSr.size = 16 ∧
      1 ≤ newSr.lowWater ∧ newSr.lowWater < newSr.resume ∧ newSr.resume ≤ newSr.size - 1) ∧
    (Asks (.createRing { newSr with resume := 16 }) ready ∧ ¬ (16 ≤ newSr.size - 1)) :=
  ⟨⟨asks _ _ rfl rfl, by decide⟩, ⟨asks _ _ rfl rfl, by decide⟩, ⟨asks _ _ rfl rfl, by decide⟩,
    ⟨asks _ _ rfl rfl, by decide⟩, ⟨asks _ _ rfl rfl, by decide⟩, ⟨asks _ _ rfl rfl, by decide⟩,
    ⟨asks _ _ rfl rfl, by decide⟩, ⟨asks _ _ rfl rfl, by decide⟩, ⟨asks _ _ rfl rfl, by decide⟩⟩

/-- CR2 and SR3 exist and nothing uses them. -/
def spare : State := (ready.setCr 2 smallCr).setSr 3 smallSr

theorem witness_DeleteOutputRing :
    (Asks (.deleteRing 3 1) ready ∧ 2 < 3) ∧ (Asks (.deleteRing 1 8) ready ∧ ¬ (1 ≤ 8 ∧ 8 ≤ 7)) ∧
    (Asks (.deleteRing 2 4) ready ∧ 3 < 4) ∧
    (Asks (.deleteRing 1 7) ready ∧ (ready.cr 7).state = .absent) ∧
    (Asks (.deleteRing 1 1) ready ∧ (ready.cr 1).state ≠ .absent ∧ ∃ q, (ready.rq q).state ≠ .absent ∧ (ready.rq q).boundCr = some 1) ∧
    (Asks (.deleteRing 1 2) spare ∧ (spare.cr 2).state ≠ .absent ∧
      ∀ q, (spare.rq q).boundCr = some 2 → (spare.rq q).state = .absent) ∧
    (Asks (.deleteRing 2 3) ready ∧ (ready.sr 3).state = .absent) ∧
    (Asks (.deleteRing 2 0) (withSensor turning) ∧ ((withSensor turning).sr 0).state ≠ .absent ∧
      ((withSensor turning).sensor 18).state ≠ .unbound ∧ ((withSensor turning).sensor 18).ring = 0) ∧
    (Asks (.deleteRing 2 3) spare ∧ (spare.sr 3).state ≠ .absent ∧
      ∀ n, (spare.sensor n).ring = 3 → (spare.sensor n).state = .unbound) :=
  ⟨⟨asks _ _ rfl rfl, by decide⟩, ⟨asks _ _ rfl rfl, by decide⟩, ⟨asks _ _ rfl rfl, by decide⟩,
    ⟨asks _ _ rfl rfl, by decide⟩, ⟨asks _ _ rfl rfl, by decide⟩, ⟨asks _ _ rfl rfl, by decide⟩,
    ⟨asks _ _ rfl rfl, by decide⟩, ⟨asks _ _ rfl rfl, by decide⟩, ⟨asks _ _ rfl rfl, by decide⟩⟩

theorem witness_DeleteRequestRing :
    (Asks (.deleteRing 0 0) ready ∧ ¬ (1 ≤ 0 ∧ 0 ≤ 7)) ∧
    (Asks (.deleteRing 0 1) (flying (.rq 1) ready) ∧ InFlight (.rq 1) (admin (.deleteRing 0 1) (flying (.rq 1) ready))) ∧
    (Asks (.deleteRing 0 7) ready ∧ ¬ InFlight (.rq 7) (admin (.deleteRing 0 7) ready) ∧ (ready.rq 7).state = .absent) ∧
    (Asks (.deleteRing 0 1) ready ∧ (ready.rq 1).state ≠ .absent ∧ (ready.rq 1).slotsHeld = 0) ∧
    (let s := admin (.deleteRing 0 1) (onLine .readPosition .position (gathered 1 []) 0);
      Asks (.deleteRing 0 1) (onLine .readPosition .position (gathered 1 []) 0) ∧ ¬ InFlight (.rq 1) s ∧
      (s.rq 1).state ≠ .absent ∧ (s.rq 1).slotsHeld ≠ 0 ∧
      (∀ j, (s.slot j).rq = 1 → (s.slot j).state ≠ .queued ∧ (s.slot j).state ≠ .linkWait) ∧
      ∀ j, (s.slot j).rq = 1 → (s.slot j).state = .active → j ∈ s.slotOrder ∧
        (s.sched (portOf (s.slot j).sensor)).active = some j ∧
        (s.sched (portOf (s.slot j).sensor)).owner = some .transaction) :=
  ⟨⟨asks _ _ rfl rfl, by decide⟩, ⟨asks _ _ rfl rfl, inFlight_flying _ _ _⟩,
    ⟨asks _ _ rfl rfl, none_inFlight _ _ rfl, by decide⟩, ⟨asks _ _ rfl rfl, by decide⟩,
    ⟨asks _ _ rfl rfl, none_inFlight _ _ rfl, by decide, by decide, by decide, by decide⟩⟩

theorem newPort_good : GoodParameters newPort .mbit10 :=
  ⟨.inr (.inr (.inr ⟨rfl, rfl⟩)), by decide, by decide, by decide, by decide, by decide, by decide, by decide, by decide,
    by decide, by decide⟩

theorem witness_PortConfigReplacesParameters :
    (Asks (.portConfig { newPort with port := 8 }) ready ∧ 8 ≤ 8) ∧
    (Asks (.portConfig newPort) (flying (.port 4) ready) ∧ newPort.port = (4 : PortId).val ∧
      InFlight (.port 4) (admin (.portConfig newPort) (flying (.port 4) ready))) ∧
    (Asks (.portConfig newPort) (ready.setLink 4 runningLink) ∧ ((ready.setLink 4 runningLink).link 4).state ≠ .disabled ∧
      ((ready.setLink 4 runningLink).link 4).state ≠ .down) ∧
    (Asks (.portConfig newPort) ready ∧ ¬ InFlight (.port 4) (admin (.portConfig newPort) ready) ∧
      (ready.link 4).state = .disabled ∧ GoodParameters newPort .mbit10) ∧
    (Asks (.portConfig { newPort with failLimit := 16 }) ready ∧
      ∀ rate, ¬ GoodParameters { newPort with failLimit := 16 } rate) :=
  ⟨⟨asks _ _ rfl rfl, by decide⟩, ⟨asks _ _ rfl rfl, rfl, inFlight_flying _ _ _⟩, ⟨asks _ _ rfl rfl, by decide⟩,
    ⟨asks _ _ rfl rfl, none_inFlight _ _ rfl, by decide, newPort_good⟩,
    asks _ _ rfl rfl, fun _ h => absurd h.2.2.2.2.2.2.2.2.2.1 (by decide)⟩

/-- P4 in a state, with no attempt. -/
def linkIn (st : LinkState) : State := ready.setLink 4 { runningLink with state := st }

/-- P4 in TRAINING for a retrain. -/
def retraining : State :=
  ready.setLink 4 { runningLink with state := .training, training := some { origin := .retrain, address := 1, provisional := [] } }

theorem witness_PortStartBeginsTraining :
    (Asks (.portStart 8) ready ∧ 8 ≤ 8) ∧
    (Asks (.portStart 4) (flying (.port 4) ready) ∧ InFlight (.port 4) (admin (.portStart 4) (flying (.port 4) ready))) ∧
    (Asks (.portStart 4) (linkIn .down) ∧ ¬ InFlight (.port 4) (admin (.portStart 4) (linkIn .down)) ∧
      ((linkIn .down).link 4).state = .down) ∧
    (Asks (.portStart 4) retraining ∧ (retraining.link 4).state = .training ∧
      (retraining.link 4).training = some { origin := .retrain, address := 1, provisional := [] }) ∧
    (Asks (.portStart 4) (linkIn .retryWait) ∧ ((linkIn .retryWait).link 4).state = .retryWait) :=
  ⟨⟨asks _ _ rfl rfl, by decide⟩, ⟨asks _ _ rfl rfl, inFlight_flying _ _ _⟩,
    ⟨asks _ _ rfl rfl, none_inFlight _ _ rfl, by decide⟩, ⟨asks _ _ rfl rfl, by decide⟩, ⟨asks _ _ rfl rfl, by decide⟩⟩

/-- P4 RUNNING with an attempt on the line that no transaction owns. -/
def busyLine : State := ready.setLink 4 { runningLink with attempt := some (heard .position) }

theorem witness_PortStopStopsTheLink :
    (Asks (.portStop 8) ready ∧ 8 ≤ 8) ∧
    (Asks (.portStop 4) (flying (.port 4) ready) ∧ InFlight (.port 4) (admin (.portStop 4) (flying (.port 4) ready))) ∧
    (Asks (.portStop 4) ready ∧ ¬ InFlight (.port 4) (admin (.portStop 4) ready) ∧ (ready.link 4).state = .disabled) ∧
    (Asks (.portStop 4) (linkIn .down) ∧ ((linkIn .down).link 4).state = .down) ∧
    (Asks (.portStop 4) (linkIn .running) ∧ ((linkIn .running).link 4).state = .running ∧
      ((linkIn .running).link 4).attempt = none ∧ ((linkIn .running).sched 4).queue = [] ∧
      ((linkIn .running).sched 4).active = none ∧
      ∀ n, portOf n = 4 → ((linkIn .running).sensor n).state ≠ .acquiring) ∧
    (Asks (.portStop 4) busyLine ∧ (busyLine.link 4).state = .running ∧ (busyLine.link 4).attempt = some (heard .position) ∧
      (heard .position).phase ≠ .between ∧ (busyLine.sched 4).queue = [] ∧ (busyLine.sched 4).active = none ∧
      ∀ n, portOf n = 4 → (busyLine.sensor n).state ≠ .acquiring) :=
  ⟨⟨asks _ _ rfl rfl, by decide⟩, ⟨asks _ _ rfl rfl, inFlight_flying _ _ _⟩,
    ⟨asks _ _ rfl rfl, none_inFlight _ _ rfl, by decide⟩, ⟨asks _ _ rfl rfl, by decide⟩, ⟨asks _ _ rfl rfl, by decide⟩,
    ⟨asks _ _ rfl rfl, by decide⟩⟩

theorem newSensor_good : GoodBind newSensor word12 0 .sensor .repeat (withSensor .initial) :=
  ⟨by decide, by decide, by decide, by decide, by decide, by decide, by decide, by decide, by decide⟩

theorem witness_SensorBindBindsTheContext :
    (Asks (.sensorBind { newSensor with sensor := 32 }) ready ∧ 32 ≤ 32) ∧
    (Asks (.sensorBind newSensor) (withSensor turning) ∧ newSensor.sensor = (18 : SensorId).val ∧
      ((withSensor turning).sensor 18).state ≠ .unbound ∧ ((withSensor turning).sensor 18).state ≠ .bound) ∧
    (Asks (.sensorBind newSensor) ready ∧ (ready.sensor 18).state = .unbound ∧ (entryOf 18 ready).present = false) ∧
    (Asks (.sensorBind newSensor) (withSensor .initial) ∧ ((withSensor .initial).sensor 18).state = .unbound ∧
      (entryOf 18 (withSensor .initial)).present = true ∧ (entryOf 18 (withSensor .initial)).word = word12 ∧
      GoodBind newSensor word12 0 .sensor .repeat (withSensor .initial)) ∧
    (Asks (.sensorBind { newSensor with scale := 0 }) (withSensor .initial) ∧
      ∀ ring mode confirm, ¬ GoodBind { newSensor with scale := 0 } word12 ring mode confirm (withSensor .initial)) :=
  ⟨⟨asks _ _ rfl rfl, by decide⟩, ⟨asks _ _ rfl rfl, by decide⟩, ⟨asks _ _ rfl rfl, by decide⟩,
    ⟨asks _ _ rfl rfl, by decide, by decide, by decide, newSensor_good⟩,
    asks _ _ rfl rfl, fun _ _ _ h => absurd h.scale (by decide)⟩

theorem witness_SensorUnbindClearsTheContext :
    (Asks (.sensorUnbind 32) ready ∧ 32 ≤ 32) ∧
    (Asks (.sensorUnbind 18) (withSensor (bound18 .faulted)) ∧ ((withSensor (bound18 .faulted)).sensor 18).state = .faulted) ∧
    (Asks (.sensorUnbind 18) (withSensor (bound18 .waiting)) ∧ ((withSensor (bound18 .waiting)).sensor 18).state = .waiting) ∧
    (Asks (.sensorUnbind 31) ready ∧ (ready.sensor 31).state = .unbound) :=
  ⟨⟨asks _ _ rfl rfl, by decide⟩, ⟨asks _ _ rfl rfl, by decide⟩, ⟨asks _ _ rfl rfl, by decide⟩, ⟨asks _ _ rfl rfl, by decide⟩⟩

/-- A MARK held by sensor 18. -/
def heldMark : SampleRecord :=
  { kind := .mark, sensor := 18, time := 0, position := 0, angle := 0, turn := 0, line := none, reason := some .stop
    cause := .none, flags := RecordFlags.clear }

theorem witness_SensorStartBeginsAcquisition :
    (Asks (.sensorStart 32) ready ∧ 32 ≤ 32) ∧
    (Asks (.sensorStart 18) (withSensor (bound18 .waiting)) ∧ ((withSensor (bound18 .waiting)).sensor 18).state ≠ .bound ∧
      ((withSensor (bound18 .waiting)).sensor 18).state ≠ .faulted) ∧
    (let s := withSensor { bound18 .bound with identity := 0 };
      Asks (.sensorStart 18) s ∧ (s.sensor 18).state = .bound ∧ (entryOf 18 s).present = true ∧
      sameIdentity (entryOf 18 s).word (s.sensor 18).identity = false) ∧
    (let s := withSensor { bound18 .faulted with held := [heldMark, heldMark, heldMark, heldMark] };
      Asks (.sensorStart 18) s ∧ (s.sensor 18).state = .faulted ∧ sameIdentity (entryOf 18 s).word (s.sensor 18).identity = true ∧
      (s.sensor 18).held.length = 4) ∧
    (let s := withSensor { bound18 .bound with held := [heldMark, heldMark, heldMark] };
      Asks (.sensorStart 18) s ∧ (s.sensor 18).state = .bound ∧ sameIdentity (entryOf 18 s).word (s.sensor 18).identity = true ∧
      (s.sensor 18).held.length ≠ 4 ∧ (entryOf 18 s).present = true ∧ (s.link (portOf 18)).state = .running) ∧
    (let s := ready.setSensor 18 (bound18 .bound);
      Asks (.sensorStart 18) s ∧ (s.sensor 18).state = .bound ∧ (entryOf 18 s).present = false ∧ (s.sensor 18).held.length ≠ 4) :=
  ⟨⟨asks _ _ rfl rfl, by decide⟩, ⟨asks _ _ rfl rfl, by decide⟩, ⟨asks _ _ rfl rfl, by decide⟩,
    ⟨asks _ _ rfl rfl, by decide⟩, ⟨asks _ _ rfl rfl, by decide⟩, ⟨asks _ _ rfl rfl, by decide⟩⟩

theorem witness_SensorStopReturnsToBound :
    (Asks (.sensorStop 32) ready ∧ 32 ≤ 32) ∧
    (Asks (.sensorStop 18) (withSensor (bound18 .faulted)) ∧ ((withSensor (bound18 .faulted)).sensor 18).state = .faulted) ∧
    (Asks (.sensorStop 18) (withSensor (bound18 .acquiring)) ∧ ((withSensor (bound18 .acquiring)).sensor 18).state = .acquiring ∧
      ((withSensor (bound18 .acquiring)).sched (portOf 18)).roundList.head? ≠ some 18) ∧
    (let s := (polling (heard .position) 0).setSensor 18 (bound18 .acquiring);
      Asks (.sensorStop 18) s ∧ (s.sensor 18).state = .acquiring ∧ (s.sched (portOf 18)).roundList.head? = some 18) ∧
    (Asks (.sensorStop 18) (withSensor (bound18 .bound)) ∧ ((withSensor (bound18 .bound)).sensor 18).state = .bound) ∧
    (Asks (.sensorStop 31) ready ∧ (ready.sensor 31).state = .unbound) :=
  ⟨⟨asks _ _ rfl rfl, by decide⟩, ⟨asks _ _ rfl rfl, by decide⟩, ⟨asks _ _ rfl rfl, by decide⟩,
    ⟨asks _ _ rfl rfl, by decide⟩, ⟨asks _ _ rfl rfl, by decide⟩, ⟨asks _ _ rfl rfl, by decide⟩⟩

/-- Line 3 armed. -/
def armed3 : State := ready.setLine 3 { CaptureLine.initial false with arm := .continuous, armTime := some 0 }

theorem witness_CaptureConfigSetsEdgeAndFilter :
    (Asks (.captureConfig 4 0 0) ready ∧ ¬ (4 ≤ 3 ∧ 0 ≤ 2 ∧ 0 ≤ 255)) ∧
    (Asks (.captureConfig 3 3 0) ready ∧ ¬ (3 ≤ 3 ∧ 3 ≤ 2 ∧ 0 ≤ 255)) ∧
    (Asks (.captureConfig 3 2 256) ready ∧ ¬ (3 ≤ 3 ∧ 2 ≤ 2 ∧ 256 ≤ 255)) ∧
    (Asks (.captureConfig 3 2 255) armed3 ∧ (armed3.line 3).arm ≠ .disarmed) ∧
    (Asks (.captureConfig 3 2 255) ready ∧ (ready.line 3).arm = .disarmed) :=
  ⟨⟨asks _ _ rfl rfl, by decide⟩, ⟨asks _ _ rfl rfl, by decide⟩, ⟨asks _ _ rfl rfl, by decide⟩,
    ⟨asks _ _ rfl rfl, by decide⟩, ⟨asks _ _ rfl rfl, by decide⟩⟩

theorem witness_CaptureArmArmsTheLine :
    (Asks (.captureArm { newArm with line := 4 }) ready ∧ 4 ≤ 4) ∧
    (Asks (.captureArm { newArm with mode := 3 }) ready ∧ ¬ (3 = 1 ∨ 3 = 2)) ∧
    Asks (.captureArm { newArm with referencePresent := 0 }) ready ∧
    Asks (.captureArm { newArm with mode := 2, referencePresent := 0 }) ready ∧
    (Asks (.captureArm { newArm with referencePresent := 2 }) ready ∧ 1 < 2) ∧
    Asks (.captureArm { newArm with mode := 2 }) ready ∧
    (Asks (.captureArm { newArm with referencePosition := 140737488355328 }) ready ∧
      ¬ ((140737488355328 : Int) ≤ 140737488355327)) ∧
    (Asks (.captureArm newArm) ready ∧ newArm.referenceSensor = (18 : SensorId).val ∧ (ready.sensor 18).state = .unbound) ∧
    (Asks (.captureArm newArm) (withSensor turning) ∧ ((withSensor turning).sensor 18).state ≠ .unbound ∧
      ((withSensor turning).sensor 18).captureMask.getLsbD 1 = false) ∧
    (let s := withSensor { turning with captureMask := 2 };
      Asks (.captureArm { newArm with referencePosition := -140737488355328 }) s ∧ (s.sensor 18).state ≠ .unbound ∧
      (s.sensor 18).captureMask.getLsbD 1 = true) :=
  ⟨⟨asks _ _ rfl rfl, by decide⟩, ⟨asks _ _ rfl rfl, by decide⟩, asks _ _ rfl rfl, asks _ _ rfl rfl,
    ⟨asks _ _ rfl rfl, by decide⟩, asks _ _ rfl rfl, ⟨asks _ _ rfl rfl, by decide⟩, ⟨asks _ _ rfl rfl, by decide⟩,
    ⟨asks _ _ rfl rfl, by decide⟩, ⟨asks _ _ rfl rfl, by decide⟩⟩

theorem witness_CaptureDisarmDisarmsTheLine :
    (Asks (.captureDisarm 4) ready ∧ 4 ≤ 4) ∧ (Asks (.captureDisarm 3) armed3 ∧ 3 = (3 : LineId).val) :=
  ⟨⟨asks _ _ rfl rfl, by decide⟩, asks _ _ rfl rfl, rfl⟩

theorem witness_QueriesReport :
    (Asks (.queryPort 8) ready ∧ 8 ≤ 8) ∧
    (Asks (.queryPort 7) (flying (.port 7) ready) ∧ InFlight (.port 7) (admin (.queryPort 7) (flying (.port 7) ready))) ∧
    (Asks (.queryPort 7) ready ∧ ¬ InFlight (.port 7) (admin (.queryPort 7) ready)) ∧
    (Asks (.querySensor 32) ready ∧ 32 ≤ 32) ∧ (Asks (.querySensor 31) ready ∧ 31 = (31 : SensorId).val) ∧
    (ready.sensor 31).state = .unbound ∧ Asks .queryDevice ready :=
  ⟨⟨asks _ _ rfl rfl, by decide⟩, ⟨asks _ _ rfl rfl, inFlight_flying _ _ _⟩, ⟨asks _ _ rfl rfl, none_inFlight _ _ rfl⟩,
    ⟨asks _ _ rfl rfl, by decide⟩, ⟨asks _ _ rfl rfl, rfl⟩, rfl, asks _ _ rfl rfl⟩

/-- Slot 1's transaction on the line, marked already. -/
def markedOnLine : State :=
  (onLine .slaveReset .slaveReset .empty 0).setSlot 1
    { (onLine .slaveReset .slaveReset .empty 0).slot 1 with abortPending := true }

theorem target_onLine : Target 1 77 (admin (.abort 1 77) (onLine .slaveReset .slaveReset .empty 0)) 1 :=
  ⟨by decide, by decide, [], [0], rfl, fun i hi => by cases hi⟩

theorem target_marked : Target 1 77 (admin (.abort 1 77) markedOnLine) 1 :=
  ⟨by decide, by decide, [], [0], rfl, fun i hi => by cases hi⟩

theorem witness_AbortMarksAnActiveTarget :
    (Asks (.abort 8 77) ready ∧ 8 ≤ 8) ∧ (Asks (.abort 0 77) ready ∧ ¬ InFlight (.rq 0) (admin (.abort 0 77) ready)) ∧
    (Asks (.abort 1 77) (flying (.rq 1) ready) ∧ InFlight (.rq 1) (admin (.abort 1 77) (flying (.rq 1) ready))) ∧
    (Asks (.abort 7 77) ready ∧ ¬ InFlight (.rq 7) (admin (.abort 7 77) ready) ∧
      ∀ j, ¬ Target 7 77 (admin (.abort 7 77) ready) j) ∧
    (Asks (.abort 1 77) markedOnLine ∧ Target 1 77 (admin (.abort 1 77) markedOnLine) 1 ∧
      (markedOnLine.slot 1).state = .active ∧ (markedOnLine.slot 1).abortPending = true) ∧
    (let s := onLine .slaveReset .slaveReset .empty 0;
      Asks (.abort 1 77) s ∧ Target 1 77 (admin (.abort 1 77) s) 1 ∧ (s.slot 1).state = .active ∧
      (s.slot 1).abortPending = false ∧ (s.sched (portOf (s.slot 1).sensor)).owner = some .transaction) :=
  ⟨⟨asks _ _ rfl rfl, by decide⟩, ⟨asks _ _ rfl rfl, none_inFlight _ _ rfl⟩, ⟨asks _ _ rfl rfl, inFlight_flying _ _ _⟩,
    ⟨asks _ _ rfl rfl, none_inFlight _ _ rfl, fun j h => absurd h.names
      ((by decide : ∀ j, ¬ (((admin (.abort 7 77) ready).slot j).rq = 7 ∧ ((admin (.abort 7 77) ready).slot j).tag = 77)) j)⟩,
    ⟨asks _ _ rfl rfl, target_marked, by decide⟩, ⟨asks _ _ rfl rfl, target_onLine, by decide⟩⟩

/-- Slot 1 QUEUED on P4, waiting. -/
def waiting1 : State :=
  { ((linkIn .retryWait).setSlot 1 { Slot.initial with state := .queued, rq := 1, cr := 1, tag := 77, sensor := 18 }).setSched 4
      { Scheduler.initial with queue := [1] } with slotOrder := [1] }

theorem witness_AbortEndsAWaitingTarget :
    Asks (.abort 1 77) waiting1 ∧ ¬ InFlight (.rq 1) (admin (.abort 1 77) waiting1) ∧
    Target 1 77 (admin (.abort 1 77) waiting1) 1 ∧ (waiting1.slot 1).state ≠ .active ∧
    (waiting1.slot 1).abortRequester = none ∧ (waiting1.slot 1).cr ≠ 0 ∧ (waiting1.cr (waiting1.slot 1).cr).state = .active :=
  ⟨asks _ _ rfl rfl, none_inFlight _ _ rfl, ⟨by decide, by decide, [], [0], rfl, fun i hi => by cases hi⟩, by decide⟩

/-- Slot 1's transaction of P4 has yielded to a round; slot 2 waits for it and slot 3 is queued on P4. -/
def yielded : State :=
  { (((onLine (.regRead 5 4) .regRead (gathered 4 [1]) 1).setSched 4
        { Scheduler.initial with
          active := some 1, owner := some .round, round := .inProgress, lateMark := some true, roundList := [18]
          roundStep := some .position, exchangesDone := 1, progress := gathered 4 [1], queue := [3] }).setSlot 2
      { Slot.initial with state := .linkWait, rq := 1, cr := 1, tag := 78, sensor := 18, predecessor := some 1 }).setSlot 3
      { Slot.initial with state := .queued, rq := 1, cr := 1, tag := 79, sensor := 18, body := .readPosition } with
    slotOrder := [1, 2, 3] }

theorem witness_AbortEndsAYieldedTarget :
    Asks (.abort 1 77) yielded ∧ ¬ InFlight (.rq 1) (admin (.abort 1 77) yielded) ∧
    Target 1 77 (admin (.abort 1 77) yielded) 1 ∧ (1 : SlotId) ≠ 0 ∧ (yielded.slot 1).state = .active ∧
    (yielded.slot 1).abortPending = false ∧ (yielded.cr (yielded.slot 1).cr).state = .active ∧
    (schedOf 1 (admin (.abort 1 77) yielded)).active = some 1 ∧
    (schedOf 1 (admin (.abort 1 77) yielded)).owner = some .round :=
  ⟨asks _ _ rfl rfl, none_inFlight _ _ rfl, ⟨by decide, by decide, [], [2, 3, 0], rfl, fun i hi => by cases hi⟩, by decide⟩

theorem drainReady {r : RqId} {s : State} (distinct : s.slotOrder.Nodup) (alone_ : ∀ j, (s.slot j).abortRequester = none)
    (rings : ∀ j ∈ s.slotOrder, (s.slot j).rq = r → (s.cr (s.slot j).cr).state = .active)
    (running : ∀ j ∈ s.slotOrder, (s.slot j).rq = r → (s.slot j).state = .active →
      (s.sched (portOf (s.slot j).sensor)).active = some j ∧
      ((s.sched (portOf (s.slot j).sensor)).owner = some .transaction ∨
        (s.sched (portOf (s.slot j).sensor)).owner = some .round)) : DrainReady r s where
  distinct := distinct
  waiting := fun j hj hr _ => ⟨alone_ j, rings j hj hr⟩
  running := fun j hj hr ha => ⟨(running j hj hr ha).1, (running j hj hr ha).2.imp_right fun h =>
    ⟨h, alone ⟨.inr (.inr ha), rings j hj hr, alone_ j⟩, fun a h' => by rw [alone_ j] at h'; cases h'⟩⟩
  requesters := fun i _ _ _ a h => by rw [alone_ i] at h; cases h

theorem witness_DeleteRequestRingEndsItsSlots :
    let s := admin (.deleteRing 0 1) (yielded.setRq 1 { smallRq 1 with tail := 3, fetchHead := 3, slotsHeld := 3 })
    AxNext 0 s { s with axInbox := [] } ∧ (s.slot 0).body = .deleteRing 0 1 ∧ ¬ InFlight (.rq 1) s ∧
    (s.rq 1).state ≠ .absent ∧ (s.rq 1).slotsHeld ≠ 0 ∧ DrainReady 1 s ∧
    (∃ j, (s.slot j).rq = 1 ∧ (s.slot j).state = .queued) ∧ (∃ j, (s.slot j).rq = 1 ∧ (s.slot j).state = .active) :=
  ⟨(asks _ _ rfl rfl).1, (asks _ _ rfl rfl).2, none_inFlight _ _ rfl, by decide, by decide,
    drainReady (by decide) (by decide) (by decide) (by decide), by decide, by decide⟩

/-- P4 in link state `st` with an attempt in phase `ph`, owned by slot 1's transaction or by a round, slot 3 queued and sensor
18 ACQUIRING. -/
def busyPort (st : LinkState) (ph : AttemptPhase) (owner : ExchangeOwner) : State :=
  ((yielded.setSched 4 { yielded.sched 4 with owner := some owner }).setLink 4
    { runningLink with state := st, attempt := some { heard .regRead with phase := ph } }).setSensor 18 turning

theorem queueReady {p : PortId} {s : State} (k : SlotId) (h : (s.sched p).queue = [k] ∧ (s.slot k).state = .queued ∧
      (s.slot k).abortRequester = none ∧ (s.cr (s.slot k).cr).state = .active ∧ (s.slot k).body = .readPosition) :
    QueueReady p s :=
  ⟨by rw [h.1]; exact List.nodup_singleton k, fun j hj => by
    rw [h.1] at hj
    obtain rfl := List.mem_singleton.1 hj
    exact ⟨h.2.1, h.2.2.1, h.2.2.2.1, by rw [h.2.2.2.2]; exact trivial⟩⟩

theorem queueReady_nil {p : PortId} {s : State} (h : (s.sched p).queue = []) : QueueReady p s :=
  ⟨by rw [h]; exact List.nodup_nil, fun j hj => by rw [h] at hj; cases hj⟩

/-- What PORT_STOP asks of the host work on P4. -/
theorem stop_ready (st : LinkState) (ph : AttemptPhase) (owner : ExchangeOwner) :
    let s := admin (.portStop 4) (busyPort st ph owner)
    AxNext 0 s { s with axInbox := [] } ∧ (s.slot 0).body = .portStop (4 : PortId).val ∧ ¬ InFlight (.port 4) s ∧
    (s.link 4).state = st ∧ (s.link 4).attempt = some { heard .regRead with phase := ph } ∧
    (s.sched 4).owner = some owner ∧ QueueReady 4 s ∧
    ∀ j, (s.sched 4).active = some j → (s.slot j).abortRequester ≠ some 0 ∧ (s.slot j).state = .active ∧ j ≠ 0 ∧
      Concludable j s ∧ ∀ a, (s.slot j).abortRequester = some a → a ∉ (s.sched 4).queue :=
  ⟨(asks _ _ rfl rfl).1, (asks _ _ rfl rfl).2, none_inFlight _ _ rfl, rfl, rfl, rfl,
    queueReady 3 ⟨rfl, rfl, rfl, rfl, rfl⟩, fun j hj => by
      obtain rfl : 1 = j := Option.some.inj hj
      exact ⟨fun h => (by cases h), rfl, by decide, alone ⟨.inr (.inr rfl), rfl, rfl⟩, fun a h => (by cases h)⟩⟩

theorem witness_PortStopFlushesAndSuspends :
    (let s := busyPort .running .receiving .transaction; ¬ ((s.link 4).attempt = none ∨
      ∃ a, (s.link 4).attempt = some a ∧ a.phase = .between) ∧ acquirers 4 s = [18]) ∧
    (let s := busyPort .retryWait .between .round; (s.link 4).state = .retryWait ∧
      (s.sched 4).owner ≠ some .transaction ∧ ∃ a, (s.link 4).attempt = some a ∧ a.phase = .between) ∧
    (let s := busyPort .retryWait .between .transaction; (s.sched 4).owner = some .transaction ∧
      (s.sched 4).active = some 1 ∧ ∃ a, (s.link 4).attempt = some a ∧ a.phase = .between) ∧
    (let s := admin (.portStop 4) (linkIn .running); AxNext 0 s { s with axInbox := [] } ∧
      (s.link 4).attempt = none ∧ (s.sched 4).owner = none ∧ (s.sched 4).active = none ∧ QueueReady 4 s) :=
  ⟨⟨fun h => by
      rcases h with h | ⟨a, h, h'⟩
      · cases h
      · obtain rfl := Option.some.inj h
        revert h'
        decide, by decide⟩,
    ⟨rfl, by decide, _, rfl, rfl⟩, ⟨rfl, rfl, _, rfl, rfl⟩,
    (asks _ _ rfl rfl).1, rfl, rfl, rfl, queueReady_nil rfl⟩

/-! I/O transactions -/

theorem ends_window {p : PortId} {a : Attempt} {s : State} (w : Time)
    (h : (s.link p).attempt = some a ∧ a.phase = .listening ∧ a.windowEnd = some w ∧ reached s.time w = true) :
    EndsAttempt p a (.fault .noResponse) (.responseWindowExpiry p) s :=
  ⟨h.1, .inr ⟨rfl, rfl, h.2.1, w, h.2.2⟩⟩

theorem ends_frame {p : PortId} {a : Attempt} {e : AttemptEnd} {s : State} (bits : List Bool)
    (h : (s.link p).attempt = some a ∧ frameCounted (s.link p) a s.time = true ∧
      classify a (receivedBits a.kind bits) = .ended e) : EndsAttempt p a e (.responseFrame p bits) s :=
  ⟨h.1, .inl ⟨bits, rfl, h.2⟩⟩

theorem lastExchange {k : SlotId} {a : Attempt} {s : State}
    (h : (s.slot k).state = .active ∧ (s.sched (portOf (s.slot k).sensor)).owner = some .transaction ∧
      (s.sched (portOf (s.slot k).sensor)).active = some k ∧ (s.link (portOf (s.slot k).sensor)).state = .running ∧
      (s.link (portOf (s.slot k).sensor)).attempt = some a ∧
      frameCounted (s.link (portOf (s.slot k).sensor)) a s.time = true ∧
      (s.sched (portOf (s.slot k).sensor)).round = .none ∧ (s.sched (portOf (s.slot k).sensor)).queue = [] ∧
      (s.slot k).abortRequester = none ∧ (s.cr (s.slot k).cr).state = .active ∧ s.discarded = []) : LastExchange k a s :=
  { active := h.1, owner := h.2.1, own := h.2.2.1, running := h.2.2.2.1, attempt := h.2.2.2.2.1, counted := h.2.2.2.2.2.1
    noRound := h.2.2.2.2.2.2.1, empty := h.2.2.2.2.2.2.2.1, settled := h.2.2.2.2.2.2.2.2.2.2
    concludable := alone ⟨.inr (.inr h.1), h.2.2.2.2.2.2.2.2.2.1, h.2.2.2.2.2.2.2.2.1⟩ }

theorem witness_RegisterTransactionAnswers :
    (LastExchange 1 (heard .regRead) (onLine (.regRead 5 4) .regRead (gathered 4 [1, 2, 3]) 3) ∧
      RegisterBody false 5 ((onLine (.regRead 5 4) .regRead (gathered 4 [1, 2, 3]) 3).slot 1).body ∧
      (heard .regRead).kind = registerKind false ∧
      (schedOf 1 (onLine (.regRead 5 4) .regRead (gathered 4 [1, 2, 3]) 3)).progress.planned ≤ 3 + 1) ∧
    (LastExchange 1 (heard .regWrite) (onLine (.regWrite 5 8 []) .regWrite (gathered 8 []) 0) ∧
      RegisterBody true 5 ((onLine (.regWrite 5 8 []) .regWrite (gathered 8 []) 0).slot 1).body ∧
      (heard .regWrite).kind = registerKind true) :=
  ⟨⟨lastExchange (by decide +kernel), ⟨rfl, rfl⟩, rfl, by decide⟩, lastExchange (by decide +kernel), ⟨rfl, rfl⟩, rfl⟩

theorem witness_RegisterTransactionGoesOn :
    LastExchange 1 (heard .regWrite) (onLine (.regWrite 5 2 []) .regWrite (gathered 2 []) 0) ∧
    RegisterBody true 5 ((onLine (.regWrite 5 2 []) .regWrite (gathered 2 []) 0).slot 1).body ∧
    0 + 1 < (schedOf 1 (onLine (.regWrite 5 2 []) .regWrite (gathered 2 []) 0)).progress.planned ∧
    ((onLine (.regWrite 5 2 []) .regWrite (gathered 2 []) 0).slot 1).abortPending = false ∧
    IsExchange ((onLine (.regWrite 5 2 [7, 8]) .regWrite (gathered 2 []) 0).slot 1) (0 + 1)
      { freshAttempt 2 .regWrite with register := some 6, data := some 8 } ∧
    (let s := onLine (.regWrite 5 2 []) .regWrite (gathered 2 []) 0;
      let m := s.setSlot 1 { s.slot 1 with abortPending := true };
      LastExchange 1 (heard .regWrite) m ∧ (m.slot 1).abortPending = true ∧
      0 + 1 < (schedOf 1 m).progress.planned) :=
  ⟨lastExchange (by decide +kernel), ⟨rfl, rfl⟩, by decide, by decide, rfl,
    lastExchange (by decide +kernel), by decide, by decide⟩

/-- `onLine` in company: a round DUE, slot 3 queued, and sensor 18 in context `c`. -/
def inCompany (b : Body) (kind : FrameKind) (g : TransactionProgress) (done : Nat) (c : Sensor) : State :=
  (((onLine b kind g done).setSched 4 { (onLine b kind g done).sched 4 with round := .due, queue := [3] }).setSlot 3
    { Slot.initial with state := .queued, rq := 1, cr := 1, tag := 79, sensor := 18, body := .readPosition }).setSensor 18 c

theorem company_ready {k : SlotId} {a : Attempt} {s : State}
    (h : (s.slot k).state = .active ∧ (s.sched (portOf (s.slot k).sensor)).owner = some .transaction ∧
      (s.sched (portOf (s.slot k).sensor)).active = some k ∧ (s.link (portOf (s.slot k).sensor)).state = .running ∧
      (s.link (portOf (s.slot k).sensor)).attempt = some a ∧ (s.slot k).abortRequester = none ∧
      (s.cr (s.slot k).cr).state = .active ∧ s.discarded = [] ∧ (s.sched 4).queue = [3] ∧ (s.slot 3).state = .queued ∧
      (s.slot 3).abortRequester = none ∧ (s.cr (s.slot 3).cr).state = .active)
    (transaction : (s.slot 3).body = .readPosition) : Carried k a .running s ∧ Concludable k s ∧ QueueReady 4 s :=
  ⟨{ active := h.1, owner := h.2.1, own := h.2.2.1, running := h.2.2.2.1, attempt := h.2.2.2.2.1
     settled := h.2.2.2.2.2.2.2.1 },
    alone ⟨.inr (.inr h.1), h.2.2.2.2.2.2.1, h.2.2.2.2.2.1⟩,
    queueReady 3 ⟨h.2.2.2.2.2.2.2.2.1, h.2.2.2.2.2.2.2.2.2.1, h.2.2.2.2.2.2.2.2.2.2.1, h.2.2.2.2.2.2.2.2.2.2.2, transaction⟩⟩

theorem witness_RegisterExchangeEnds :
    (let s := inCompany (.regRead 5 2) .regRead (gathered 2 []) 0 (bound18 .acquiring);
      (Carried 1 (heard .regRead) .running s ∧ Concludable 1 s ∧ QueueReady 4 s) ∧ (s.sched 4).round = .due ∧
      EndsExchange 1 (heard .regRead) (.ok false false (.register 7)) (.responseFrame 4 answer7) s ∧
      RegisterBody false 5 (s.slot 1).body ∧ acquirers 4 s = [18] ∧
      MoreToCome 1 (s.sched 4) (.ok false false (.register 7)) s [7] ∧ (s.slot 1).abortPending = false ∧
      (let m := s.setSlot 1 { s.slot 1 with abortPending := true };
        (Carried 1 (heard .regRead) .running m ∧ Concludable 1 m ∧ QueueReady 4 m) ∧ (m.slot 1).abortPending = true ∧
        MoreToCome 1 (m.sched 4) (.ok false false (.register 7)) m [7])) ∧
    (let s := inCompany (.regRead 5 2) .regRead (gathered 2 [1]) 1 .initial;
      (Carried 1 (heard .regRead) .running s ∧ Concludable 1 s ∧ QueueReady 4 s) ∧ acquirers 4 s = [] ∧
      EndsExchange 1 (heard .regRead) (.ok false false (.register 7)) (.responseFrame 4 answer7) s ∧
      ∃ r, OwnResult 1 (heard .regRead) word12 (s.sched 4) (.ok false false (.register 7))
        (exchangeOver 1 s) r (exchangeOver 1 s)) :=
  ⟨⟨company_ready (by decide +kernel) rfl, rfl, .inl (ends_frame _ (by decide +kernel)), ⟨rfl, rfl⟩, by decide,
      ⟨by decide, rfl⟩, rfl, company_ready (by decide +kernel) rfl, rfl, by decide, rfl⟩,
    company_ready (by decide +kernel) rfl, by decide, .inl (ends_frame _ (by decide +kernel)), _, .inr ⟨rfl, by decide, rfl⟩, rfl⟩

/-- `onLine` with the attempt the last one allowed, the third. -/
def lastAttempt (b : Body) (kind : FrameKind) (failures : Nat) : State :=
  (onLine b kind (gathered 1 []) 0).setLink 4
    { runningLink with attempt := some { heard kind with tags := [1, 2, 3] }, failures := failures }

/-- The third attempt of slot 1's SLAVE_RESET, whose window expires at 4000. -/
def silentAttempt : Attempt := { heard .slaveReset with tags := [1, 2, 3], phase := .listening }

/-- That attempt on the line at time 4000. -/
def unanswered : State :=
  at_ 4000 ((lastAttempt .slaveReset .slaveReset 1).setLink 4 { runningLink with attempt := some silentAttempt, failures := 1 })

theorem witness_FailedExchangeAnswersLinkFailed :
    LastExchange 1 { heard .slaveReset with tags := [1, 2, 3] } (lastAttempt .slaveReset .slaveReset 1) ∧
    LinkFault.crcError ≠ .noResponse ∧
    EndsExchange 1 { heard .slaveReset with tags := [1, 2, 3] } (.fault .crcError) (.slaveReset 1 (.fault .crcError))
      (lastAttempt .slaveReset .slaveReset 1) ∧
    EndsExchange 1 { heard .slaveReset with tags := [1, 2, 3] } (.fault .crcError) (.responseFrame 4 [])
      (lastAttempt .slaveReset .slaveReset 1) ∧
    EndsExchange 1 silentAttempt (.fault .noResponse) (.responseWindowExpiry 4) unanswered ∧
    EndsExchange 1 silentAttempt (.fault .noResponse) (.slaveReset 1 (.fault .noResponse)) unanswered ∧
    OnTheLine 1 silentAttempt unanswered ∧ Concludable 1 unanswered ∧
    (let s := ((lastAttempt .slaveReset .slaveReset 1).setSlot 0 { Slot.initial with state := .active }).setSlot 1
        { (lastAttempt .slaveReset .slaveReset 1).slot 1 with abortPending := true, abortRequester := some 0 };
      Concludable 1 s ∧ (s.slot 1).abortRequester = some 0) ∧
    ((lastAttempt .slaveReset .slaveReset 1).link 4).parameters.retryLimit < 3 ∧
    ((lastAttempt .slaveReset .slaveReset 1).link 4).failures + 1 <
      ((lastAttempt .slaveReset .slaveReset 1).link 4).parameters.failLimit :=
  ⟨lastExchange (by decide +kernel), by decide, .inr ⟨rfl, rfl, by decide +kernel⟩,
    .inl ⟨rfl, .inl ⟨_, rfl, by decide +kernel, by decide +kernel⟩⟩, .inl (ends_window 4000 (by decide)),
    .inr ⟨rfl, rfl, rfl, 4000, rfl, by decide⟩,
    { active := rfl, owner := rfl, own := rfl, running := rfl, attempt := rfl, settled := rfl, noRound := rfl, empty := rfl },
    alone ⟨.inr (.inr rfl), rfl, rfl⟩,
    ⟨⟨.inr (.inr rfl), rfl, fun a h => by
      obtain rfl : 0 = a := Option.some.inj h
      exact ⟨by decide, rfl, rfl, rfl, rfl⟩⟩, rfl⟩, by decide⟩

theorem witness_ReadPositionAnswers :
    LastExchange 1 (heard .position) (onLine .readPosition .position (gathered 1 []) 0) ∧
    ((onLine .readPosition .position (gathered 1 []) 0).slot 1).body = .readPosition ∧ (heard .position).kind = .position :=
  ⟨lastExchange (by decide +kernel), rfl, rfl⟩

theorem witness_FailedExchangeInCompany :
    let a : Attempt := { heard .slaveReset with tags := [1, 2, 3] }
    let s := (inCompany .slaveReset .slaveReset (gathered 1 []) 0 (bound18 .acquiring)).setLink 4
      { runningLink with attempt := some a, failures := 1 }
    (Carried 1 a .running s ∧ Concludable 1 s ∧ QueueReady 4 s) ∧ (s.sched 4).round = .due ∧ acquirers 4 s = [18] ∧
    EndsExchange 1 a (.fault .crcError) (.responseFrame 4 []) s ∧ (s.link 4).parameters.retryLimit < a.tags.length ∧
    (s.link 4).failures + 1 < (s.link 4).parameters.failLimit :=
  ⟨company_ready (by decide +kernel) rfl, rfl, by decide, .inl (ends_frame _ (by decide +kernel)), by decide, by decide⟩

theorem witness_ReadPositionExchangeEnds :
    let s := inCompany .readPosition .position (gathered 1 []) 0 (bound18 .acquiring)
    (Carried 1 (heard .position) .running s ∧ Concludable 1 s ∧ QueueReady 4 s) ∧ (s.sched 4).round = .due ∧
    (s.slot 1).body = .readPosition ∧ acquirers 4 s = [18] ∧
    EndsExchange 1 (heard .position) (.ok false false (.position 420 0)) (.readPosition 1 (.ok false false (.position 420 0))) s ∧
    ∃ r, OwnResult 1 (heard .position) word12 (s.sched 4) (.ok false false (.position 420 0)) (exchangeOver 1 s) r
      (exchangeOver 1 s) :=
  ⟨company_ready (by decide +kernel) rfl, rfl, rfl, by decide, .inr ⟨rfl, rfl, by decide +kernel, rfl⟩, _, rfl, rfl⟩

/-- SET_POSITION on the line for sensor 18 in context `c`. -/
def setting (c : Sensor) : State := (onLine (.setPosition 0) .position (gathered 1 []) 0).setSensor 18 c

theorem witness_SetPositionSetsTheOffset :
    (LastExchange 1 (heard .position) (setting .initial) ∧ ((setting .initial).slot 1).body = .setPosition 0 ∧
      (schedOf 1 (setting .initial)).progress.position = none ∧
      (schedOf 1 (setting .initial)).progress.planned ≤ (schedOf 1 (setting .initial)).exchangesDone + 1 ∧
      ((setting .initial).sensor 18).state = .unbound) ∧
    (LastExchange 1 (heard .position) (setting turning1) ∧ turning1.state ≠ .unbound ∧ turning1.state ≠ .faulted ∧
      turning1.jumps (turning1.turned 420 0) = false ∧ inSigned24 (turning1.turned 420 0).candidate = true ∧
      inSigned48 (repositioned turning1 420 0 0 0).offset = true) :=
  ⟨⟨lastExchange (by decide +kernel), rfl, rfl, by decide, rfl⟩, lastExchange (by decide +kernel), by decide⟩

/-- The POSITION outcome of `setting`'s first exchange, held for the REPEAT. -/
def heldOutcome : ExchangeOutcome :=
  { result := .ok false false (.reading 420 0), attempts := 1, address := 2, kind := .position, requestTime := 0 }

/-- SET_POSITION with confirm REPEAT, its second exchange on the line. -/
def confirming (c : Sensor) : State :=
  (onLine (.setPosition 0) .repeat { gathered 2 [] with position := some heldOutcome } 1).setSensor 18 c

theorem witness_SetPositionTreatsTheReading :
    (LastExchange 1 (heard .position) (setting .initial) ∧
      EndsExchange 1 (heard .position) (.ok false true (.position 420 0)) (.setPosition 1 (.ok false true (.position 420 0)))
        (setting .initial) ∧
      (schedOf 1 (setting .initial)).progress.planned ≤ (schedOf 1 (setting .initial)).exchangesDone + 1 ∧
      ∃ r u, SetPositionTreated 18 0 1 0 { warn := false, alarm := true, angle := 420, turn := 0 } none
        (exchangeOver 1 (setting .initial)) r u) ∧
    (∃ r u, SetPositionTreated 18 0 1 0 { warn := false, alarm := true, angle := 420, turn := 0 } none
        (exchangeOver 1 (setting turning1)) r u) ∧
    (LastExchange 1 (heard .repeat) (confirming turning1) ∧
      EndsExchange 1 (heard .repeat) (.ok false false (.position 421 0)) (.setPosition 1 (.ok false false (.position 421 0)))
        (confirming turning1) ∧
      (schedOf 1 (confirming turning1)).progress.planned ≤ (schedOf 1 (confirming turning1)).exchangesDone + 1 ∧
      (schedOf 1 (confirming turning1)).progress.position = some heldOutcome ∧
      heldOutcome.result = .ok false false (.reading 420 0) ∧
      ∃ r u, SetPositionTreated 18 0 2 0 { warn := false, alarm := false, angle := 420, turn := 0 }
        (some { warn := false, alarm := false, angle := 421, turn := 0 }) (exchangeOver 1 (confirming turning1)) r u) :=
  ⟨⟨lastExchange (by decide +kernel), .inr ⟨rfl, rfl, by decide +kernel, rfl⟩, by decide, _, _,
      by unfold SetPositionTreated; rw [if_pos (by decide)]; exact ⟨rfl, rfl⟩⟩,
    ⟨_, _, by
      unfold SetPositionTreated
      rw [if_neg (by decide)]
      exact ⟨fun _ => ⟨rfl, rfl⟩, fun h => absurd (.inl rfl) h, fun h => absurd (.inl rfl) h, fun h => absurd (.inl rfl) h⟩⟩,
    lastExchange (by decide +kernel), .inr ⟨rfl, rfl, by decide +kernel, rfl⟩, by decide, rfl, rfl, _, _, by
      unfold SetPositionTreated
      rw [if_neg (by decide)]
      refine ⟨fun h => ?_, fun _ _ => ⟨rfl, rfl⟩, fun _ h => absurd ⟨_, rfl, by decide⟩ h,
        fun _ h => absurd ⟨_, rfl, by decide⟩ h⟩
      rcases h with h | ⟨x, h, h'⟩
      · cases h
      · obtain rfl := Option.some.inj h
        cases h'⟩

theorem witness_SetPositionGoesOnToItsRepeat :
    let s := onLine (.setPosition 0) .position (gathered 2 []) 0
    LastExchange 1 (heard .position) s ∧
    EndsExchange 1 (heard .position) (.ok false true (.position 420 0)) (.setPosition 1 (.ok false true (.position 420 0))) s ∧
    (s.slot 1).body = .setPosition 0 ∧ (schedOf 1 s).exchangesDone + 1 < (schedOf 1 s).progress.planned ∧
    (s.slot 1).abortPending = false ∧ IsExchange (s.slot 1) (0 + 1) (freshAttempt 2 .repeat) ∧
    (let m := s.setSlot 1 { s.slot 1 with abortPending := true };
      LastExchange 1 (heard .position) m ∧ (m.slot 1).abortPending = true) :=
  ⟨lastExchange (by decide +kernel), .inr ⟨rfl, rfl, by decide +kernel, rfl⟩, rfl, by decide, rfl, rfl,
    lastExchange (by decide +kernel), rfl⟩

theorem witness_SetPositionExchangeEnds :
    (let s := inCompany (.setPosition 0) .position (gathered 2 []) 0 (bound18 .acquiring);
      (Carried 1 (heard .position) .running s ∧ Concludable 1 s ∧ QueueReady 4 s) ∧ (s.sched 4).round = .due ∧
      (s.slot 1).body = .setPosition 0 ∧ acquirers 4 s = [18] ∧ (s.slot 1).abortPending = false ∧
      EndsExchange 1 (heard .position) (.ok false false (.position 420 0))
        (.setPosition 1 (.ok false false (.position 420 0))) s ∧
      MoreToCome 1 (s.sched 4) (.ok false false (.position 420 0)) s []) ∧
    (let s := inCompany (.setPosition 0) .position (gathered 1 []) 0 .initial;
      (Carried 1 (heard .position) .running s ∧ Concludable 1 s ∧ QueueReady 4 s) ∧ acquirers 4 s = [] ∧
      EndsExchange 1 (heard .position) (.ok false true (.position 420 0)) (.setPosition 1 (.ok false true (.position 420 0))) s ∧
      ∃ r u, OwnResult 1 (heard .position) word12 (s.sched 4) (.ok false true (.position 420 0))
        (exchangeOver 1 s) r u) :=
  ⟨⟨company_ready (by decide +kernel) rfl, rfl, rfl, by decide, rfl, .inr ⟨rfl, rfl, by decide +kernel, rfl⟩, by decide, rfl⟩,
    company_ready (by decide +kernel) rfl, by decide, .inr ⟨rfl, rfl, by decide +kernel, rfl⟩, _, _, by decide, .inl ⟨rfl, by
    unfold SetPositionTreated; rw [if_pos (by decide)]; exact ⟨rfl, rfl⟩⟩⟩

theorem witness_SlaveResetExchangeEnds :
    let s := inCompany .slaveReset .slaveReset (gathered 1 []) 0 (bound18 .acquiring)
    (Carried 1 (heard .slaveReset) .running s ∧ Concludable 1 s ∧ QueueReady 4 s) ∧ (s.sched 4).round = .due ∧
    (s.slot 1).body = .slaveReset ∧ acquirers 4 s = [18] ∧
    EndsExchange 1 (heard .slaveReset) (.ok false false .empty) (.slaveReset 1 (.ok false false .empty)) s ∧
    ∃ r u, OwnResult 1 (heard .slaveReset) word12 (s.sched 4) (.ok false false .empty) (exchangeOver 1 s) r u :=
  ⟨company_ready (by decide +kernel) rfl, rfl, rfl, by decide, .inr ⟨rfl, rfl, by decide +kernel, rfl⟩, _, _, rfl, rfl⟩

theorem witness_SlaveResetMarksStale :
    LastExchange 1 (heard .slaveReset) (onLine .slaveReset .slaveReset (gathered 1 []) 0) ∧
    ((onLine .slaveReset .slaveReset (gathered 1 []) 0).slot 1).body = .slaveReset ∧ (heard .slaveReset).kind = .slaveReset :=
  ⟨lastExchange (by decide +kernel), rfl, rfl⟩

/-! Link events -/

/-- The line and the window of the attempt `awaiting` at time `t`, at 2.5 Mbit/s. -/
def watched (t : Time) (early late : Bool) : Prop :=
  ((polling awaiting t).link 4).attempt = some awaiting ∧
    reached t (after 1500 (twoBitTicks ((polling awaiting t).link 4).parameters.bitRate)) = early ∧
    reached (after 4000 (twoBitTicks ((polling awaiting t).link 4).parameters.bitRate)) t = late

theorem witness_AttemptRunsOnTheLine :
    (let a := { heard .position with phase := .between, tags := [] };
      ((polling a 0).link 4).attempt = some a ∧ a.phase = .between ∧ ((polling a 0).link 4).state = .running ∧
      ((polling a 0).link 4).retryGapTimer = none ∧ ((polling a 0).link 4).lastEnd = none) ∧
    (let a := { heard .position with phase := .sending };
      ((polling a 900).link 4).attempt = some a ∧ reached (polling a 900).time
        (after a.requestTime (requestLength a.kind / 2 * twoBitTicks ((polling a 900).link 4).parameters.bitRate)) = true) ∧
    awaiting.phase = .listening ∧ awaiting.windowEnd = some 4000 ∧ awaiting.listeningSince = some 1500 ∧
    watched 1600 true true ∧ watched 4100 true true ∧ watched 1599 false true ∧ watched 4101 true false ∧
    ((polling (heard .position) 4000).link 4).attempt = some (heard .position) ∧ (heard .position).phase ≠ .listening :=
  ⟨by decide, by decide, rfl, rfl, rfl, ⟨rfl, by decide, by decide⟩, ⟨rfl, by decide, by decide⟩, ⟨rfl, by decide, by decide⟩,
    ⟨rfl, by decide, by decide⟩, rfl, by decide⟩

/-- The window of an attempt with the tags given expires at 4000. -/
def expiring (st : LinkState) (kind : FrameKind) (tags : List (BitVec 3)) : State :=
  at_ 4000 (ready.setLink 4 { runningLink with
    state := st, attempt := some { heard kind with phase := .listening, tags := tags } })

theorem witness_FaultStartsTheRetryGap :
    (EndsAttempt 4 { heard .position with phase := .listening, tags := [1, 2] } (.fault .noResponse) (.responseWindowExpiry 4)
        (expiring .running .position [1, 2]) ∧
      2 ≤ ((expiring .running .position [1, 2]).link 4).parameters.retryLimit ∧
      (expiring .running .position [1, 2]).discarded = [] ∧ ((expiring .running .position [1, 2]).link 4).state = .running) ∧
    (EndsAttempt 4 (heard .position) (.fault .crcError) (.responseFrame 4 []) (polling (heard .position) 10000) ∧
      (heard .position).tags.length ≤ ((polling (heard .position) 10000).link 4).parameters.retryLimit) ∧
    (EndsAttempt 4 { heard .identify with phase := .listening, tags := [1] } (.fault .noResponse) (.responseWindowExpiry 4)
        (expiring .training .identify [1]) ∧ ((expiring .training .identify [1]).link 4).state = .training) :=
  ⟨⟨ends_window 4000 (by decide +kernel), by decide⟩, ⟨ends_frame _ (by decide +kernel), by decide⟩, ends_window 4000 (by decide +kernel), by decide⟩

/-- An attempt of three tags whose window expires at `w`, the response to its first tag heard. -/
def lateResponse (w : Time) : Attempt := { heard .position with tags := [1, 2, 3], windowEnd := some w }

theorem witness_LateResponseIsDiscarded :
    (((polling (lateResponse 4000) 10000).link 4).attempt = some (lateResponse 4000) ∧
      frameCounted ((polling (lateResponse 4000) 10000).link 4) (lateResponse 4000) (polling (lateResponse 4000) 10000).time = true ∧
      (1 : BitVec 3) ∈ (lateResponse 4000).tags ∧ (lateResponse 4000).tags.getLast? ≠ some 1 ∧
      payloadFits (lateResponse 4000).kind (.position 5 0) = true ∧ (polling (lateResponse 4000) 10000).discarded = [] ∧
      reached (polling (lateResponse 4000) 10000).time 4000 = true) ∧
    (((polling (lateResponse 20000) 10000).link 4).attempt = some (lateResponse 20000) ∧
      frameCounted ((polling (lateResponse 20000) 10000).link 4) (lateResponse 20000) (polling (lateResponse 20000) 10000).time = true ∧
      reached (polling (lateResponse 20000) 10000).time 20000 = false) :=
  ⟨⟨rfl, by decide, by decide, by decide, by decide, rfl, by decide⟩, rfl, by decide, by decide⟩

/-- An eighth attempt of slot 1's SLAVE_RESET, all the tags used. -/
def eighth : Attempt := { heard .slaveReset with tags := [3, 4, 5, 6, 7, 0, 1, 2] }

theorem witness_EighthAttemptHasNoTagMismatch :
    (∀ tag : BitVec 3, tag ∈ eighth.tags) ∧
    (let s := (lastAttempt .slaveReset .slaveReset 1).setLink 4 { runningLink with attempt := some eighth };
      (s.link (portOf (s.slot 1).sensor)).attempt = some eighth ∧
      transactionCommand 1 (.fault .tagMismatch) (s.slot 1).body = some (.slaveReset 1 (.fault .tagMismatch))) := by decide +kernel

/-- R12: with the eight tags used, no frame has an unused tag; the row with that end leaves the attempt as it is. -/
theorem test_eighth_tag_mismatch :
    ((run (.slaveReset 1 (.fault .tagMismatch)) ((lastAttempt .slaveReset .slaveReset 1).setLink 4
      { runningLink with attempt := some eighth })).link 4).attempt = some eighth := by decide +kernel

/-- A response to `heard .position` whose reading is angle 5, turn 0. -/
def answer5 : List Bool := responseFrame 2 .position 3 false false (.position 5 0)

/-- A round of P4 whose one entry is sensor 18, its response on the line. -/
def lastOfRound (confirm : Confirm) : State :=
  (polling (heard .position) 10000).setSensor 18 { bound18 .acquiring with confirm := confirm }

theorem witness_GoodReadingReachesTheSensor :
    (EndsAttempt 4 (heard .position) (.ok false false (.position 5 0)) (.responseFrame 4 answer5) (lastOfRound .repeat) ∧
      ((lastOfRound .repeat).link 4).state = .running ∧ ((lastOfRound .repeat).sched 4).owner = some .round ∧
      ((lastOfRound .repeat).sched 4).round = .inProgress ∧ ((lastOfRound .repeat).sched 4).roundStep = some .position ∧
      ((lastOfRound .repeat).sched 4).heldPosition = none ∧ ((lastOfRound .repeat).sched 4).roundList = 18 :: [] ∧
      ((lastOfRound .repeat).sensor 18).confirm = .repeat) ∧
    (EndsAttempt 4 (heard .position) (.ok false false (.position 5 0)) (.responseFrame 4 answer5) (lastOfRound .off) ∧
      ((lastOfRound .off).sched 4).roundList = [18] ∧ ((lastOfRound .off).sensor 18).confirm = .off ∧
      ((lastOfRound .off).sched 4).queue = [] ∧ ((lastOfRound .off).sched 4).active = none ∧
      (lastOfRound .off).discarded = []) :=
  ⟨⟨ends_frame _ (by decide +kernel), by decide⟩, ends_frame _ (by decide +kernel), by decide⟩

theorem witness_RoundExchangeEnds :
    (RoundOnTheLine 4 (heard .position) (.ok false false (.position 5 0)) (.responseFrame 4 answer5) (lastOfRound .off) ∧
      ReadingOutcome (((lastOfRound .off).link 4).identity[(heard .position).address]).word (heard .position)
        (.ok false false (.position 5 0))
        { result := .ok false false (.reading 5 0), attempts := 1, address := 2, kind := .position, requestTime := 0 } ∧
      ((lastOfRound .off).sched 4).active = none ∧ QueueReady 4 (lastOfRound .off)) ∧
    (let a : Attempt := { heard .position with phase := .listening, tags := [1, 2, 3] };
      let s := (expiring .running .position [1, 2, 3]).setSched 4 { (polling a 0).sched 4 with roundStep := none, roundList := [] };
      RoundOnTheLine 4 a (.fault .noResponse) (.responseWindowExpiry 4) s ∧
      ReadingOutcome ((s.link 4).identity[a.address]).word a (.fault .noResponse)
        { result := .failed .noResponse, attempts := 3, address := 2, kind := .position, requestTime := 0 } ∧
      QueueReady 4 s ∧ (s.link 4).failures + 1 < (s.link 4).parameters.failLimit) :=
  ⟨⟨{ ends := ends_frame _ (by decide +kernel), running := rfl, owner := rfl, round := rfl
      head := .inr (.inl ⟨rfl, rfl, by decide⟩), last := fun _ h => by cases h
      settled := rfl },
      { result := .inr ⟨_, _, _, _, rfl, by decide⟩, attempts := rfl, address := rfl, kind := rfl, time := rfl }, rfl,
      queueReady_nil rfl⟩,
    { ends := ends_window 4000 (by decide), running := rfl, owner := rfl, round := rfl, head := .inl ⟨rfl, rfl⟩
      last := fun _ _ => by decide, settled := rfl },
    { result := .inl ⟨_, rfl, rfl⟩, attempts := rfl, address := rfl, kind := rfl, time := rfl }, queueReady_nil rfl, by decide⟩

/-- P4 in TRAINING at an address, the entries before it given, its last allowed attempt without response. -/
def training (origin : TrainingOrigin) (address : SlaveAddr) (before : List IdentityEntry) : State :=
  (expiring .training .identify [1, 2, 3]).setLink 4
    { ((expiring .training .identify [1, 2, 3]).link 4) with
      training := some { origin := origin, address := address, provisional := before } }

/-- The entry of a slave that did not respond. -/
def silent : IdentityEntry := { present := false, word := 0, cause := .linkFault .noResponse }

/-- The entry of a slave that is PRESENT. -/
def present12 : IdentityEntry := { present := true, word := word12, cause := .none }

theorem training_ends {p : PortId} {t : Training} {a : Attempt} {s : State}
    (h : (s.link p).state = .training ∧ (s.link p).training = some t ∧
      (s.link p).parameters.retryLimit < a.tags.length ∧ s.discarded = [])
    (he : EndsAttempt p a (.fault .noResponse) (.responseWindowExpiry p) s) :
    TrainingEnds p t a (.fault .noResponse) silent (.responseWindowExpiry p) s :=
  { state := h.1, training := h.2.1, ends := he, last := fun _ _ => h.2.2.1, entry := .inr ⟨.noResponse, rfl, rfl⟩
    settled := h.2.2.2 }

theorem witness_TrainingGathersEntries :
    TrainingEnds 4 { origin := .start, address := 2, provisional := [silent, present12] }
      { heard .identify with phase := .listening, tags := [1, 2, 3] } (.fault .noResponse) silent (.responseWindowExpiry 4)
      (training .start 2 [silent, present12]) ∧ (3 : SlaveAddr).val = (2 : SlaveAddr).val + 1 :=
  ⟨training_ends (by decide) (ends_window 4000 (by decide)), rfl⟩

/-- `s` with the PORT_START of P4 in flight from slot 0, answered on CR0. -/
def started (s : State) : State :=
  { s.setSlot 0 { Slot.initial with state := .active } with
    axInFlight := [{ slot := 0, kind := .portStart, object := .port 4 }] }

theorem answersFor {o : AdminObject} {k : SlotId} {kind : InFlightKind} {s u : State}
    (h : s.axInFlight = [{ slot := k, kind := kind, object := o }] ∧ u = { s with axInFlight := [] } ∧
      (s.slot k).state = .active ∧ (s.slot k).abortRequester = none ∧ (s.cr (s.slot k).cr).state = .active) :
    AnswersFor o k s u :=
  { entry := ⟨{ slot := k, kind := kind, object := o }, by rw [h.1]; exact List.mem_singleton.2 rfl, rfl, rfl,
      fun e he _ => by rw [h.1] at he; exact List.mem_singleton.1 he⟩
    taken := by rw [h.2.1, h.1]; simp
    active := h.2.2.1, alone := h.2.2.2.1, ring := h.2.2.2.2 }

theorem witness_TrainingEndPublishesTheTable :
    (TrainingEnds 4 { origin := .retrain, address := 3, provisional := [silent, present12, silent] }
        { heard .identify with phase := .listening, tags := [1, 2, 3] } (.fault .noResponse) silent (.responseWindowExpiry 4)
        (training .retrain 3 [silent, present12, silent]) ∧
      ((training .retrain 3 [silent, present12, silent]).sched 4).round = .none ∧
      ((training .retrain 3 [silent, present12, silent]).sched 4).queue = [] ∧
      ((training .retrain 3 [silent, present12, silent]).sched 4).active = none ∧
      (∀ n, ((training .retrain 3 [silent, present12, silent]).sensor n).state = .unbound) ∧
      silent.present.toNat + 2 * present12.present.toNat + 4 * silent.present.toNat + 8 * silent.present.toNat ≠ 0) ∧
    (TrainingEnds 4 { origin := .start, address := 3, provisional := [silent, silent, silent] }
        { heard .identify with phase := .listening, tags := [1, 2, 3] } (.fault .noResponse) silent (.responseWindowExpiry 4)
        (training .start 3 [silent, silent, silent]) ∧
      silent.present.toNat + 2 * silent.present.toNat + 4 * silent.present.toNat + 8 * silent.present.toNat = 0) ∧
    (let s := started (training .start 3 [silent, present12, silent]);
      AnswersFor (.port 4) 0 (trainedRunning 4 #v[silent, present12, silent, silent] s)
        { trainedRunning 4 #v[silent, present12, silent, silent] s with axInFlight := [] }) ∧
    (let s := started (training .start 3 [silent, silent, silent]);
      AnswersFor (.port 4) 0 s { s with axInFlight := [] }) :=
  ⟨⟨training_ends (by decide) (ends_window 4000 (by decide)), by decide⟩, ⟨training_ends (by decide) (ends_window 4000 (by decide)), by decide⟩,
    answersFor ⟨rfl, rfl, rfl, rfl, rfl⟩, answersFor ⟨rfl, rfl, rfl, rfl, rfl⟩⟩

/-- The end of a training with sensor 18 WAITING under another identity and slot 3 queued on P4. -/
def crowdedTraining (origin : TrainingOrigin) (x1 : IdentityEntry) : State :=
  ((started (training origin 3 [silent, x1, present12])).setSensor 18 { bound18 .waiting with identity := 0 }).setSched 4
    { Scheduler.initial with queue := [3] } |>.setSlot 3
      { Slot.initial with state := .queued, rq := 1, cr := 1, sensor := 18, body := .readPosition }

theorem witness_TrainingEndTreatsThePort :
    (TrainingEnds 4 { origin := .retrain, address := 3, provisional := [silent, silent, present12] }
        { heard .identify with phase := .listening, tags := [1, 2, 3] } (.fault .noResponse) silent (.responseWindowExpiry 4)
        (crowdedTraining .retrain silent) ∧
      ((crowdedTraining .retrain silent).sched 4).active = none ∧ ((crowdedTraining .retrain silent).sched 4).owner = none ∧
      QueueReady 4 (crowdedTraining .retrain silent) ∧ sameIdentity present12.word 0 = false) ∧
    (let s := crowdedTraining .start silent;
      let published := s.setLink 4 { s.link 4 with
        identity := #v[silent, silent, present12, silent], training := none, attempt := none, lastEnd := some s.time }
      let checked := (sensorsOf 4).foldl (fun u n => identityChecked true n u) published
      let running := (checked.setLink 4 { published.link 4 with state := .running }).setSched 4 { checked.sched 4 with
        cycleTimer := some (after s.time (125 * (s.link 4).parameters.cyclePeriod))
        periodInForce := (s.link 4).parameters.cyclePeriod }
      AnswersFor (.port 4) 0 running { running with axInFlight := [] }) :=
  ⟨⟨training_ends (by decide) (ends_window 4000 (by decide)), rfl, rfl, queueReady 3 ⟨rfl, rfl, rfl, rfl, rfl⟩, by decide⟩,
    answersFor (kind := .portStart) ⟨by decide +kernel, rfl, by decide +kernel, by decide +kernel, by decide +kernel⟩⟩

theorem witness_FailLimitOnAQuietPort :
    LastExchange 1 { heard .slaveReset with tags := [1, 2, 3] } (lastAttempt .slaveReset .slaveReset 2) ∧
    EndsExchange 1 { heard .slaveReset with tags := [1, 2, 3] } (.fault .tagMismatch) (.slaveReset 1 (.fault .tagMismatch))
      (lastAttempt .slaveReset .slaveReset 2) ∧
    ((lastAttempt .slaveReset .slaveReset 2).link 4).parameters.retryLimit < 3 ∧
    ((lastAttempt .slaveReset .slaveReset 2).link 4).parameters.failLimit ≤
      ((lastAttempt .slaveReset .slaveReset 2).link 4).failures + 1 ∧
    (∀ n, portOf n = 4 → ((lastAttempt .slaveReset .slaveReset 2).sensor n).state ≠ .acquiring) :=
  ⟨lastExchange (by decide +kernel), .inr ⟨rfl, rfl, by decide +kernel, 0, by decide⟩, by decide⟩

/-- P4 one failure short of its limit, the third attempt's window expiring at 4000, slot 3 queued and sensor 18 ACQUIRING; the
exchange is slot 1's or a round's. -/
def failing (owner : ExchangeOwner) (a : Attempt) : State :=
  at_ 4000 (((yielded.setSched 4 { yielded.sched 4 with owner := some owner }).setLink 4
    { runningLink with attempt := some a, failures := 2 }).setSensor 18 turning)

theorem witness_TransactionFailureTakesTheLinkDown :
    let a : Attempt := { heard .regRead with phase := .listening, tags := [1, 2, 3] }
    Carried 1 a .running (failing .transaction a) ∧ Concludable 1 (failing .transaction a) ∧
    EndsExchange 1 a (.fault .noResponse) (.responseWindowExpiry 4) (failing .transaction a) ∧
    QueueReady 4 (failing .transaction a) ∧ ((failing .transaction a).link 4).parameters.retryLimit < a.tags.length ∧
    ((failing .transaction a).link 4).parameters.failLimit ≤ ((failing .transaction a).link 4).failures + 1 :=
  ⟨{ active := rfl, owner := rfl, own := rfl, running := rfl, attempt := rfl, settled := rfl }, alone ⟨.inr (.inr rfl), rfl, rfl⟩,
    .inl (ends_window 4000 (by decide)), queueReady 3 ⟨rfl, rfl, rfl, rfl, rfl⟩, by decide, by decide⟩

/-- The failed outcome of the round's exchange in `failing`. -/
def missedOutcome : ExchangeOutcome :=
  { result := .failed .noResponse, attempts := 3, address := 2, kind := .position, requestTime := 0 }

theorem witness_RoundFailureTakesTheLinkDown :
    let a : Attempt := { heard .position with phase := .listening, tags := [1, 2, 3] }
    RoundOnTheLine 4 a (.fault .noResponse) (.responseWindowExpiry 4) (failing .round a) ∧
    ReadingOutcome (((failing .round a).link 4).identity[a.address]).word a (.fault .noResponse) missedOutcome ∧
    FlushReady 4 (failing .round a) ∧ ((failing .round a).sched 4).active = some 1 ∧
    ((failing .round a).link 4).parameters.failLimit ≤ ((failing .round a).link 4).failures + 1 :=
  ⟨{ ends := ends_window 4000 (by decide), running := rfl, owner := rfl, round := rfl
     head := .inr (.inl ⟨rfl, rfl, by decide⟩), last := fun _ _ => by decide, settled := rfl },
    { result := .inl ⟨_, rfl, rfl⟩, attempts := rfl, address := rfl, kind := rfl, time := rfl },
    ⟨queueReady 3 ⟨rfl, rfl, rfl, rfl, rfl⟩, fun k hk _ => by
      obtain rfl : 1 = k := Option.some.inj hk
      exact ⟨rfl, alone ⟨.inr (.inr rfl), rfl, rfl⟩, fun a h => (by cases h)⟩⟩, rfl, by decide⟩

/-- P4 STOPPING with slot 1's exchange on the line, its response without a good CRC; the PORT_STOP is in slot 0. -/
def stopping (owner : Option ExchangeOwner) : State :=
  { ((onLine .slaveReset .slaveReset (gathered 1 []) 0).setLink 4
      { runningLink with state := .stopping, attempt := some (heard .slaveReset) }).setSched 4
        { ((onLine .slaveReset .slaveReset (gathered 1 []) 0).sched 4) with
          owner := owner, active := if owner = some .transaction then some 1 else none } with
    slots := (onLine .slaveReset .slaveReset (gathered 1 []) 0).slots.set 0 { Slot.initial with state := .active }
    axInFlight := [{ slot := 0, kind := .portStop, object := .port 4 }] }

theorem witness_StoppingDiscardsOrFails :
    (EndsAttempt 4 (heard .slaveReset) (.fault .crcError) (.responseFrame 4 []) (stopping none) ∧
      ((stopping none).link 4).state = .stopping ∧ ((stopping none).sched 4).round = .none ∧ (stopping none).discarded = [] ∧
      ((stopping none).sched 4).owner ≠ some .transaction ∧
      AnswersFor (.port 4) 0 (((stopping none).setLink 4 .initial).setSched 4 .initial)
        { ((stopping none).setLink 4 .initial).setSched 4 .initial with axInFlight := [] }) ∧
    (EndsAttempt 4 (heard .slaveReset) (.fault .crcError) (.responseFrame 4 []) (stopping (some .transaction)) ∧
      ((stopping (some .transaction)).sched 4).owner = some .transaction ∧
      ((stopping (some .transaction)).sched 4).active = some 1 ∧ (1 : SlotId) ≠ 0 ∧
      ((stopping (some .transaction)).slot 1).abortRequester = none ∧
      ((stopping (some .transaction)).cr ((stopping (some .transaction)).slot 1).cr).state = .active ∧
      AnswersFor (.port 4) 0 (stopping (some .transaction)) { stopping (some .transaction) with axInFlight := [] }) :=
  ⟨⟨ends_frame _ (by decide +kernel), rfl, rfl, rfl, by decide, answersFor ⟨rfl, rfl, rfl, rfl, rfl⟩⟩,
    ends_frame _ (by decide +kernel), rfl, rfl, by decide, rfl, rfl, answersFor ⟨rfl, rfl, rfl, rfl, rfl⟩⟩

/-- P4 STOPPING with slot 1's exchange of a REG_READ of 5 and 6 on the line, the first of two or the second. -/
def stoppingRead (done : Nat) : State :=
  { ((onLine (.regRead 5 2) .regRead (gathered 2 []) done).setLink 4
      { runningLink with state := .stopping, attempt := some (heard .regRead) }).setSlot 0 { Slot.initial with state := .active } with
    axInFlight := [{ slot := 0, kind := .portStop, object := .port 4 }] }

theorem stopping_ready {s : State} (h : (s.slot 1).state = .active ∧
      (s.sched (portOf (s.slot 1).sensor)).owner = some .transaction ∧ (s.sched (portOf (s.slot 1).sensor)).active = some 1 ∧
      (s.link (portOf (s.slot 1).sensor)).state = .stopping ∧
      (s.link (portOf (s.slot 1).sensor)).attempt = some (heard .regRead) ∧ s.discarded = [] ∧
      (s.cr (s.slot 1).cr).state = .active ∧ (s.slot 1).abortRequester = none) :
    Carried 1 (heard .regRead) .stopping s ∧ Concludable 1 s :=
  ⟨{ active := h.1, owner := h.2.1, own := h.2.2.1, running := h.2.2.2.1, attempt := h.2.2.2.2.1, settled := h.2.2.2.2.2.1 },
    alone ⟨.inr (.inr h.1), h.2.2.2.2.2.2⟩⟩

theorem witness_StoppingSettlesTheTransaction :
    (Carried 1 (heard .regRead) .stopping (stoppingRead 0) ∧ Concludable 1 (stoppingRead 0)) ∧
    (Carried 1 (heard .regRead) .stopping (stoppingRead 1) ∧ Concludable 1 (stoppingRead 1)) ∧
    ((stoppingRead 0).sched 4).round = .none ∧ (1 : SlotId) ≠ 0 ∧ ((stoppingRead 0).slot 1).abortRequester ≠ some 0 ∧
    AnswersFor (.port 4) 0 (stoppingRead 0) { stoppingRead 0 with axInFlight := [] } ∧
    EndsExchange 1 (heard .regRead) (.fault .crcError) (.regRead 1 (.fault .crcError)) (stoppingRead 0) ∧
    (EndsExchange 1 (heard .regRead) (.ok false false (.register 7)) (.responseFrame 4 answer7) (stoppingRead 0) ∧
      MoreToCome 1 ((stoppingRead 0).sched 4) (.ok false false (.register 7)) (stoppingRead 0) [7]) ∧
    (EndsExchange 1 (heard .regRead) (.ok false false (.register 7)) (.regRead 1 (.ok false false (.register 7)))
        (stoppingRead 1) ∧
      ∀ u, (u.slot 1).body = .regRead 5 2 →
        ∃ r, OwnResult 1 (heard .regRead) word12 ((stoppingRead 1).sched 4) (.ok false false (.register 7)) u r u) ∧
    (EndsExchange 1 (heard .regRead) (.ok false true (.register 7)) (.regRead 1 (.ok false true (.register 7)))
        (stoppingRead 0) ∧
      ∀ u, (u.slot 1).body = .regRead 5 2 →
        ∃ r, OwnResult 1 (heard .regRead) word12 ((stoppingRead 0).sched 4) (.ok false true (.register 7)) u r u) :=
  ⟨stopping_ready (by decide), stopping_ready (by decide), rfl, by decide, by decide, answersFor ⟨rfl, rfl, rfl, rfl, rfl⟩,
    .inr ⟨rfl, rfl, by decide +kernel⟩,
    ⟨.inl (ends_frame _ (by decide +kernel)), by decide, rfl⟩,
    ⟨.inr ⟨rfl, rfl, by decide +kernel, rfl⟩, fun u h => ⟨_, by unfold OwnResult; rw [h]; exact ⟨.inr ⟨rfl, by decide, rfl⟩, rfl⟩⟩⟩,
    .inr ⟨rfl, rfl, by decide +kernel, rfl⟩, fun u h => ⟨_, by unfold OwnResult; rw [h]; exact ⟨.inl ⟨rfl, rfl⟩, rfl⟩⟩⟩

theorem witness_LinkTimersExpire :
    (let s := at_ 7 (ready.setLink 4 { runningLink with state := .retryWait, retryGapTimer := some 7 });
      (s.link 4).retryGapTimer = some 7 ∧ reached s.time 7 = true ∧ reached (at_ 6 s).time 7 = false) ∧
    (let s := at_ 7 (ready.setLink 4 { runningLink with state := .down, retrainTimer := some 7 });
      (s.link 4).state = .down ∧ (s.link 4).retrainTimer = some 7 ∧ reached s.time 7 = true ∧
      reached (at_ 6 s).time 7 = false) := by decide

/-- P4's cycle timer expires at 7, its scheduler given. -/
def cycling (ps : Scheduler) : State :=
  at_ 7 ((withSensor (bound18 .acquiring)).setSched 4 { ps with cycleTimer := some 7 })

theorem witness_CycleExpiryFollowsTable14 :
    (((cycling .initial).sched 4).cycleTimer = some 7 ∧ reached (cycling .initial).time 7 = true ∧ (cycling .initial).discarded = []) ∧
    ((cycling { Scheduler.initial with round := .due }).sched 4).round ≠ .none ∧
    ((cycling { Scheduler.initial with hold := true }).sched 4).hold = true ∧
    (let s := cycling { Scheduler.initial with owner := some .transaction };
      (s.sched 4).round = .none ∧ (s.sched 4).hold = false ∧ (s.sched 4).owner = some .transaction) ∧
    (((cycling .initial).sched 4).round = .none ∧ ((cycling .initial).sched 4).hold = false ∧
      ((cycling .initial).sched 4).owner = none ∧ ((cycling .initial).sched 4).heldPosition = none ∧
      ((cycling .initial).link 4).state = .running ∧ ((cycling .initial).link 4).attempt = none ∧
      (sensorsOf 4).filter (fun m => ((cycling .initial).sensor m).state = .acquiring) = [18]) := by decide

theorem witness_ImmediateRoundIsDecided :
    ((cycling .initial).sched 4).round = .none ∧ ((cycling .initial).sched 4).hold = false ∧
    ((cycling .initial).sched 4).owner ≠ some .transaction ∧ ((cycling .initial).sched 4).active = none ∧
    QueueReady 4 (cycling .initial) ∧ acquirers 4 (cycling .initial) = [18] ∧
    acquirers 4 ((cycling .initial).setSensor 18 .initial) = [] ∧
    (let s := at_ 7 ((yielded.setSched 4 { Scheduler.initial with cycleTimer := some 7, queue := [3] }));
      (s.sched 4).active = none ∧ QueueReady 4 s ∧ acquirers 4 s = []) :=
  ⟨rfl, rfl, by decide, rfl, queueReady_nil rfl, by decide, by decide, rfl, queueReady 3 ⟨rfl, rfl, rfl, rfl, rfl⟩, by decide⟩

/-! Capture lines -/

theorem witness_InputSampleStartsOrEndsQualification :
    false = (rising.line 1).recognised ∧ (true ≠ (ready.line 1).recognised ∧ (ready.line 1).qualification = none) ∧
    (true ≠ (rising.line 1).recognised ∧
      (rising.line 1).qualification = some { level := true, since := 1020000, configured := none }) := by decide

theorem witness_RecognisedEdgeSetsCaptures :
    ((rising.line 1).qualification = some { level := true, since := 1020000, configured := none } ∧
      reached rising.time (after 1020000 (rising.line 1).filter) = true ∧ (rising.line 1).edgeSelect = .rising ∧
      (rising.line 1).arm = .once ∧ (rising.line 1).armTime = some 1000000 ∧ (1000000 : Time) ≤ 1020000) ∧
    (let s := rising.setLine 1 { rising.line 1 with arm := .disarmed, armTime := none };
      (s.line 1).qualification = some { level := true, since := 1020000, configured := none } ∧ (s.line 1).arm = .disarmed) ∧
    (let s := rising.setSensor 18 { turning with captureMask := 2 };
      (s.sensor 18).state = .acquiring ∧ (s.sensor 18).captureMask.getLsbD 1 = true) ∧
    (reached reconfigured.time (after 1020000 (reconfigured.line 1).filter) = true ∧
      reached reconfigured.time (after 1020025 1) = false ∧ reached (at_ 1020026 reconfigured).time (after 1020025 1) = true) := by
  decide

/-! Delivery -/

theorem oldest (w : RecordWrite) (s : State) (h : s.outbox = [.record w]) : Oldest w [] [] s :=
  ⟨h, fun _ h => (by cases h), .inl rfl⟩

/-- SR0's write in flight, on a ring in a state. -/
def sampling (st : SampleRingState) : State :=
  { ready.setSr 0 { smallSr with state := st } with outbox := [.record (writing (.sample 0))] }

/-- `s` with Bus Master Enable clear. -/
def unmastered (s : State) : State := { s with msix := { s.msix with busMaster := false } }

theorem no_error (k : WriteKind) (s : State) (h : s.msix.busMaster = true) : ¬ Errs (writing k) s := by
  rintro (h' | h')
  · rw [h] at h'; cases h'
  · exact absurd h' (by simp [writing])

theorem witness_SampleWriteEnds :
    (Oldest (writing (.sample 0)) [] [] (sampling .active) ∧ (writing (.sample 0)).kind = .sample 0 ∧
      ¬ Errs (writing (.sample 0)) (sampling .active)) ∧
    (Oldest (writing (.sample 0)) [] [] (unmastered (sampling .faulted)) ∧ Errs (writing (.sample 0)) (unmastered (sampling .faulted)) ∧
      ((unmastered (sampling .faulted)).sr 0).state = .faulted) ∧
    (Oldest (writing (.sample 0)) [] [] (unmastered (sampling .congested)) ∧
      Errs (writing (.sample 0)) (unmastered (sampling .congested)) ∧ (writing (.sample 0)).live = true ∧
      ((unmastered (sampling .congested)).sr 0).state = .congested) ∧
    Errs { writing (.sample 0) with address := 0xFFFFFFFFFFFFFFE1 } (sampling .active) ∧
    Oldest (writing (.sample 0)) [.message 0, .read] [.record (writing .notice), .message 1]
      { sampling .active with
        outbox := [.record (writing (.sample 0)), .message 0, .read, .record (writing .notice), .message 1] } :=
  ⟨⟨oldest _ _ rfl, rfl, no_error _ _ rfl⟩, ⟨oldest _ _ rfl, .inl rfl, rfl⟩, ⟨oldest _ _ rfl, .inl rfl, rfl, rfl⟩,
    .inr (by decide), rfl, fun w h => by simp at h, .inr ⟨_, _, rfl⟩⟩

theorem witness_CompletionEndFreesTheSlot :
    (Oldest (writing (.completion 1 1)) [] [] (completing .success) ∧
      ((completing .success).slot 1).result = some { status := .success, detail := 0, data := 0 } ∧
      (completing .success).discarded = [] ∧ NoFollower 1 (completing .success) ∧ RingStays 1 (completing .success) ∧
      ((completing .success).slot 1).state = .done ∧
      ¬ Errs (writing (.completion 1 1)) (completing .success)) ∧
    (Errs (writing (.completion 1 1)) (unmastered (completing .success)) ∧ (1 : CrId) ≠ 0 ∧
      ((unmastered (completing .success)).cr 1).state = .active) ∧
    (let s := unmastered ((completing .success).setCr 1 { smallCr with state := .faulted, failedEntry := some 0 });
      Errs (writing (.completion 1 1)) s ∧ (s.cr 1).state = .faulted) ∧
    (let s := unmastered { (completing .success).setSlot 1 { (completing .success).slot 1 with cr := 0 } with
        outbox := [.record (writing (.completion 0 1))] };
      Oldest (writing (.completion 0 1)) [] [] s ∧ Errs (writing (.completion 0 1)) s ∧ s.window.control = .ready) ∧
    ({ writing (.completion 1 1) with live := false } : RecordWrite).live = false :=
  ⟨⟨oldest _ _ rfl, rfl, rfl, by unfold NoFollower; decide, by unfold RingStays; decide, by decide, no_error _ _ rfl⟩,
    ⟨.inl rfl, by decide⟩, ⟨.inl rfl, by decide⟩,
    ⟨oldest _ _ rfl, .inl rfl, rfl⟩, rfl⟩

theorem witness_NoticeEndIsHandedOver :
    (let s := { ready with outbox := [.record (writing .notice)] };
      Oldest (writing .notice) [] [] s ∧ ¬ Errs (writing .notice) s) ∧
    (let s := unmastered { ready with outbox := [.record (writing .notice)] };
      Oldest (writing .notice) [] [] s ∧ Errs (writing .notice) s ∧ (writing .notice).live = true ∧ s.window.control = .ready) ∧
    (let w := { writing .notice with live := false }; let s := unmastered { ready with outbox := [.record w] };
      Oldest w [] [] s ∧ Errs w s ∧ w.live = false) :=
  ⟨⟨oldest _ _ rfl, no_error _ _ rfl⟩, ⟨oldest _ _ rfl, .inl rfl, rfl, rfl⟩, oldest _ _ rfl, .inl rfl, rfl⟩

/-- Slot 2 waits on slot 1's completion. -/
def chained (st : Status) : State :=
  { (completing st).setSlot 2 { Slot.initial with
      state := .linkWait, rq := 1, cr := 1, sensor := 18, predecessor := some 1 } with
    slotOrder := [1, 2], links := ready.links.set 4 { runningLink with state := .training } }

theorem chained_one (st : Status) : ∀ i, ((chained st).slot i).state = .linkWait → ((chained st).slot i).predecessor = some 1 →
    i = 2 := by
  have h : ∀ i, ((chained .success).slot i).state = .linkWait → i = 2 := by decide
  intro i hi _
  by_cases h2 : i = 2
  · exact h2
  · refine h i ?_
    have : (chained .success).slot i = if i = 1 then (chained .success).slot 1 else (chained st).slot i := by
      revert i; cases st <;> decide
    rw [this]
    split
    · next h1 => subst h1; revert hi; cases st <;> decide
    · exact hi

theorem follows_one (st : Status) : Follows 2 1 (chained st) := ⟨rfl, rfl, chained_one st⟩

/-- `chained` with P4's link in state `st` and slot 3 queued there. -/
def chainedIn (st : LinkState) : State :=
  (((chained .success).setLink 4 { runningLink with state := st }).setSched 4 { Scheduler.initial with queue := [3] }).setSlot 3
    { Slot.initial with state := .queued, rq := 1, cr := 1, sensor := 18, body := .readPosition }

theorem witness_CompletionEndSettlesTheFollower :
    (Oldest (writing (.completion 1 1)) [] [] (chained .success) ∧ (writing (.completion 1 1)).live = true ∧ (1 : CrId) ≠ 0 ∧
      ¬ Errs (writing (.completion 1 1)) (chained .success) ∧ ((chained .success).slot 1).state = .done ∧
      Follows 2 1 (chained .success) ∧ ((chained .success).slot 2).abortRequester = none ∧ RingStays 1 (chained .success) ∧
      ((chained .success).link (portOf ((chained .success).slot 2).sensor)).state = .training) ∧
    (Oldest (writing (.completion 1 1)) [] [] (chained .linkFailed) ∧ Follows 2 1 (chained .linkFailed) ∧
      ((slotFreed 1 ((chained .linkFailed).rq 1).chain
        (completionEnded 1 (writing (.completion 1 1)) [] [] (chained .linkFailed))).cr 1).state = .active) ∧
    (let s := unmastered ((chained .linkFailed).setCr 1 { smallCr with state := .faulted, failedEntry := some 0 });
      let freed := slotFreed 1 (s.rq 1).chain (completionEnded 1 (writing (.completion 1 1)) [] [] s);
      Errs (writing (.completion 1 1)) s ∧ (freed.cr 1).state = .faulted ∧
      RingStays 2 freed ∧ (s.slot 2).state = .linkWait ∧ NoFollower 2 s) ∧
    (let s := chainedIn .running;
      let freed := slotFreed 1 (s.rq 1).chain (completionEnded 1 (writing (.completion 1 1)) [] [] s);
      QueueReady 4 freed ∧ (freed.cr 1).state = .active ∧ (s.link 4).state = .running ∧
      IsTransaction ({ s.slot 2 with body := .slaveReset } : Slot).body) :=
  ⟨⟨oldest _ _ rfl, rfl, by decide, no_error _ _ rfl, rfl, follows_one _, rfl, by unfold RingStays; decide, rfl⟩,
    ⟨oldest _ _ rfl, follows_one _, by decide +kernel⟩,
    ⟨.inl rfl, by decide +kernel, by unfold RingStays; decide +kernel, by decide +kernel, by unfold NoFollower; decide +kernel⟩,
    queueReady 3 ⟨by decide +kernel, by decide +kernel, by decide +kernel, by decide +kernel, by decide +kernel⟩,
    by decide +kernel, rfl, trivial⟩

/-- RQ1 DRAINING with slot 1 its last, the DELETE_RING in slot 5. -/
def lastDraining : State :=
  { ((completing .aborted).setRq 1 { smallRq 1 with state := .draining, slotsHeld := 1 }).setSlot 5
      { Slot.initial with state := .active, body := .deleteRing 0 1 } with
    axInFlight := [{ slot := 5, kind := .deleteRing, object := .rq 1 }] }

theorem witness_LastSlotEndsTheDraining :
    Oldest (writing (.completion 1 1)) [] [] lastDraining ∧ (lastDraining.slot 1).state = .done ∧
    lastDraining.discarded = [] ∧ NoFollower 1 lastDraining ∧ (lastDraining.rq (lastDraining.slot 1).rq).state = .draining ∧
    (lastDraining.rq (lastDraining.slot 1).rq).slotsHeld ≤ 1 ∧
    ∃ u, AnswersFor (.rq (lastDraining.slot 1).rq) 5 ((slotFreed 1 .noChain (completionEnded 1 (writing (.completion 1 1)) [] []
      lastDraining)).setRq (lastDraining.slot 1).rq RequestRing.initial) u :=
  ⟨oldest _ _ rfl, rfl, rfl, by unfold NoFollower; decide, rfl, by decide, _,
    answersFor (kind := .deleteRing) ⟨by decide +kernel, rfl, by decide +kernel, by decide +kernel, by decide +kernel⟩⟩

/-- `s` with CR1 FAULTED. -/
def faultedCr (s : State) : State := s.setCr 1 { smallCr with state := .faulted, reserved := 1, failedEntry := some 0 }

theorem onTheLine {k : SlotId} {a : Attempt} {s : State}
    (h : (s.slot k).state = .active ∧ (s.sched (portOf (s.slot k).sensor)).owner = some .transaction ∧
      (s.sched (portOf (s.slot k).sensor)).active = some k ∧ (s.link (portOf (s.slot k).sensor)).state = .running ∧
      (s.link (portOf (s.slot k).sensor)).attempt = some a ∧
      (s.sched (portOf (s.slot k).sensor)).round = .none ∧ (s.sched (portOf (s.slot k).sensor)).queue = [] ∧
      s.discarded = []) : OnTheLine k a s :=
  { active := h.1, owner := h.2.1, own := h.2.2.1, running := h.2.2.2.1, attempt := h.2.2.2.2.1
    noRound := h.2.2.2.2.2.1, empty := h.2.2.2.2.2.2.1, settled := h.2.2.2.2.2.2.2 }

/-- Slot 1's failing SLAVE_RESET on CR1 FAULTED, RQ1 DRAINING with it alone, the DELETE_RING in slot 5. -/
def discardDraining : State :=
  { ((faultedCr (lastAttempt .slaveReset .slaveReset 1)).setRq 1 { smallRq 1 with state := .draining, slotsHeld := 1 }).setSlot 5
      { Slot.initial with state := .active, body := .deleteRing 0 1 } with
    axInFlight := [{ slot := 5, kind := .deleteRing, object := .rq 1 }] }

theorem witness_FaultedRingDiscardsTheCompletion :
    (let s := faultedCr (onLine .readPosition .position (gathered 1 []) 0);
      OnTheLine 1 (heard .position) s ∧ (s.cr (s.slot 1).cr).state = .faulted ∧ (s.slot 1).body = .readPosition ∧
      EndsExchange 1 (heard .position) (.ok false false (.position 5 0)) (.readPosition 1 (.ok false false (.position 5 0))) s ∧
      (s.slot 1).abortRequester = none ∧ RingStays 1 s ∧ NoFollower 1 s) ∧
    (let s := faultedCr (lastAttempt .slaveReset .slaveReset 1);
      OnTheLine 1 { heard .slaveReset with tags := [1, 2, 3] } s ∧
      EndsExchange 1 { heard .slaveReset with tags := [1, 2, 3] } (.fault .crcError) (.slaveReset 1 (.fault .crcError)) s ∧
      (s.link 4).parameters.retryLimit < 3 ∧ (s.link 4).failures + 1 < (s.link 4).parameters.failLimit ∧ RingStays 1 s ∧
      (let q := (s.setSlot 0 { Slot.initial with state := .active }).setSlot 1
          { s.slot 1 with abortPending := true, abortRequester := some 0 };
        OnTheLine 1 { heard .slaveReset with tags := [1, 2, 3] } q ∧ (q.slot 1).abortRequester = some 0 ∧
        (q.slot 0).state = .active ∧ (q.slot 0).cr = 0 ∧ (q.cr 0).state = .active ∧ NoFollower 1 q ∧ RingStays 1 q)) ∧
    (OnTheLine 1 { heard .slaveReset with tags := [1, 2, 3] } discardDraining ∧ NoFollower 1 discardDraining ∧
      (discardDraining.rq 1).state = .draining ∧ (discardDraining.rq 1).slotsHeld ≤ 1 ∧
      ∃ v, AnswersFor (.rq 1) 5 ((slotFreed 1 .noChain (completionDiscarded 1 (plain .linkFailed)
        (exchangeOver 1 discardDraining))).setRq 1 RequestRing.initial) v) :=
  ⟨⟨onTheLine (by decide), rfl, rfl, .inr ⟨rfl, rfl, by decide +kernel, rfl⟩, rfl, by unfold RingStays; decide,
      by unfold NoFollower; decide⟩,
    ⟨onTheLine (by decide), .inr ⟨rfl, rfl, by decide +kernel⟩, by decide, by decide, by unfold RingStays; decide,
      onTheLine (by decide), rfl, rfl, rfl, rfl, by unfold NoFollower; decide, by unfold RingStays; decide⟩,
    onTheLine (by decide), by unfold NoFollower; decide, rfl, by decide, _,
    answersFor (kind := .deleteRing) ⟨by decide +kernel, rfl, by decide +kernel, by decide +kernel, by decide +kernel⟩⟩

theorem witness_NoticeWriteDeliversTheOldest :
    (noticed.notices = { source := .sensor 3, detail := 1, firstTime := 6, occurrences := 1 } :: [] ∧ (noticed.cr 0).Ok ∧
      (noticed.cr 0).state = .active ∧
      (((noticed.cr 0).producer : Int) - (noticed.cr 0).consumer) % (noticed.cr 0).size + (noticed.cr 0).reserved + 1 <
        (noticed.cr 0).size) ∧
    (let d := { smallCr with producer := 2, reserved := 1 };
      d.Ok ∧ ¬ (((d.producer : Int) - d.consumer) % d.size + d.reserved + 1 < d.size)) :=
  ⟨⟨rfl, smallCr_ok, rfl, by decide⟩, ⟨by decide, by decide, by decide, by decide, by decide, by decide⟩, by decide⟩

/-- The coalescing timers of CR1 and SR0 expire at 100. -/
def coalescing : State :=
  at_ 100 ((ready.setCr 1 { smallCr with interrupt := { count := 2, timer := some 100 } }).setSr 0
    { smallSr with vector := 1, interrupt := { count := 7, timer := some 100 } })

theorem witness_CoalescingExpirySignals :
    (reached coalescing.time 100 = true ∧ (coalescing.cr 1).interrupt.timer = some 100 ∧ (coalescing.cr 1).vector = 0 ∧
      (coalescing.msix.table[(0 : VectorId)]).masked = false ∧ coalescing.msix.functionMask = false ∧
      coalescing.msix.enabled = true ∧ coalescing.msix.busMaster = true ∧ coalescing.outbox = []) ∧
    ((coalescing.sr 0).interrupt.timer = some 100 ∧ (coalescing.sr 0).vector = 1 ∧
      (coalescing.msix.table[(1 : VectorId)]).masked = true) ∧
    ({ coalescing with outbox := [.record (writing .notice)] } : State).outbox ≠ [] := by decide

/-! Records, readings and notices -/

theorem witness_ResultsAreLaidOut : (15 : Nat) ≤ 15 ∧ turning.state ≠ .unbound ∧ Sensor.initial.state = .unbound := by decide

/-- A SAMPLE of sensor 18. -/
def sample18 : SampleRecord := { heldMark with kind := .sample, reason := none }

/-- Sensor 18 on SR0 in a state, with a producer index. -/
def ringed (st : SampleRingState) (producer : Nat) (held : List SampleRecord) : State :=
  (withSensor { turning with held := held }).setSr 0 { smallSr with state := st, producer := producer }

theorem sampleRing_ok {d : SampleRing}
    (h : (16 ≤ d.size ∧ d.size ≤ 65536) ∧ d.producer < d.size ∧ d.consumer < d.size ∧
      (1 ≤ d.lowWater ∧ d.lowWater < d.resume ∧ d.resume + 1 ≤ d.size) ∧ (d.failedEntry.isSome = true ↔ d.state = .faulted) ∧
      d.coalescingCount ≤ 255 ∧ d.interrupt.count ≤ 254) : d.Ok :=
  ⟨fun _ => h.1, fun _ => h.2.1, fun _ => h.2.2.1, fun _ => h.2.2.2.1, h.2.2.2.2.1, h.2.2.2.2.2.1, h.2.2.2.2.2.2⟩

theorem witness_SamplePostedByRingState :
    sample18.kind = .sample ∧
    (((ringed .congested 14 []).sr (((ringed .congested 14 []).sensor 18).ring)).Ok ∧
      ((ringed .congested 14 []).sr 0).state = .congested ∧ ¬ Full ((ringed .congested 14 []).sr 0)) ∧
    (((ringed .active 15 []).sr (((ringed .active 15 []).sensor 18).ring)).Ok ∧ Full ((ringed .active 15 []).sr 0)) ∧
    ((ringed .active 0 [heldMark]).sensor 18).held ≠ [] ∧
    ((ringed .absent 0 []).sr (((ringed .absent 0 []).sensor 18).ring)).Ok :=
  ⟨rfl, ⟨sampleRing_ok (by decide), rfl, by unfold Full; decide⟩,
    ⟨sampleRing_ok (by decide), by unfold Full; decide⟩, by decide, sampleRing_ok (by decide)⟩

theorem witness_HeldRecordPostedByRingState :
    heldMark.kind ≠ .sample ∧
    (((ringed .active 14 []).sr (((ringed .active 14 []).sensor 18).ring)).Ok ∧ ¬ Full ((ringed .active 14 []).sr 0)) ∧
    (((ringed .congested 15 []).sr (((ringed .congested 15 []).sensor 18).ring)).Ok ∧ Full ((ringed .congested 15 []).sr 0)) ∧
    ((ringed .active 0 [heldMark, heldMark, heldMark]).sensor 18).held.length ≤ 3 ∧
    ((ringed .active 0 [heldMark, heldMark, heldMark, heldMark]).sensor 18).held =
      [heldMark, heldMark, heldMark] ++ [heldMark] :=
  ⟨by decide, ⟨sampleRing_ok (by decide), by unfold Full; decide⟩,
    ⟨sampleRing_ok (by decide), by unfold Full; decide⟩, by decide, rfl⟩

theorem witness_PhaseTellsThePass : smallSr.producer = 0 ∧ smallSr.phase = true ∧ 2 ≤ smallSr.size := by decide

theorem witness_ReadingArithmetic :
    ((0 : Int) < 4096 ∧ (4096 : Int) % 2 = 0 ∧ (-4096 : Int) < -4095 ∧ (-4095 : Int) < 4096) ∧
    (turning2.turnMode = .extend ∧ turning2.last.validity ≠ .notValid ∧
      turning2.last.extRaw = turning2.extendedTurn * 2 ^ wordSt turning2.identity + turning2.last.angle) ∧
    ((0 : Int) ≤ 0 ∧ (-107 : Int) < 0) := by decide

theorem witness_ReadingFormedByTurnMode :
    wordSt turning1.identity = 12 ∧ turning1.turnMode = .extend ∧ turning1.last.validity ≠ .notValid ∧
    turning.last.validity = .notValid ∧
    (∀ m ∈ [TurnMode.none, TurnMode.sensor], ({ turning1 with turnMode := m } : Sensor).turnMode = m) ∧
    (let against (angle : Nat) : Sensor := { turning1 with last := { turning1.last with angle := angle } };
      ((0 : Int) - (against 2049).last.angle < -2048 ∧ (0 : Int) - (against 2048).last.angle = -2048) ∧
      ((2047 : Int) - (against 0).last.angle = 2047 ∧ (2048 : Int) - (against 0).last.angle = 2048)) := by decide

/-- The interval of 6.8 for sensor 8. -/
def interval8 : Interval :=
  { previous := { extRaw := 196072, angle := 65000, turn := 0, sampleTime := 1000000, validity := .valid }
    current := { extRaw := 197408, angle := 800, turn := 0, sampleTime := 1031250, validity := .valid }
    delta := 1336, late := false, warning := false, mtWrap := false }

theorem witness_InterpolationLiesBetween :
    turning.turnMode = .extend ∧ interval8.current.extRaw = interval8.previous.extRaw + interval8.delta ∧
    interval8.previous.sampleTime < interval8.current.sampleTime ∧ (1031250 : Time) ≤ interval8.current.sampleTime ∧
    (1000000 : Time) = interval8.previous.sampleTime ∧ interval8.previous.validity = .valid ∧
    (999999 : Time) < interval8.previous.sampleTime := by decide

theorem witness_InterpolationIsReduced : ∀ m ∈ [TurnMode.none, TurnMode.sensor],
    ({ turning with turnMode := m } : Sensor).turnMode ≠ .extend ∧ interval8.previous.validity = .valid ∧
    interval8.previous.sampleTime ≤ (1000000 : Time) ∧ interval8.previous.sampleTime < interval8.current.sampleTime := by decide

theorem witness_InterpolationIsExact :
    (interval8.previous.validity = .valid ∧ interval8.previous.sampleTime ≤ (1000000 : Time) ∧
      interval8.previous.sampleTime ≤ (1031250 : Time) ∧ interval8.previous.sampleTime < interval8.current.sampleTime) ∧
    (turning.turnMode = .extend ∧ (999999 : Time) < interval8.previous.sampleTime ∧ turning2.last.validity = .valid ∧
      { turning2.last with validity := .stale }.validity ≠ .valid) ∧
    (let c : Sensor := { turning with turnMode := .none };
      let v : Interval := { interval8 with
        previous := { interval8.previous with extRaw := 4000 }, current := { interval8.current with extRaw := 100 }, delta := 196 };
      c.turnMode ≠ .extend ∧ c.turnMode ≠ .sensor ∧ wordSt c.identity = 12 ∧ (4000 : Int) < 2 ^ 12 ∧ (100 : Int) < 2 ^ 12 ∧
        (v.previous.extRaw + v.delta - v.current.extRaw) % 2 ^ 12 = 0) := by decide

/-- A pending capture at the previous reading's time, with a reference. -/
def pendingAt (ref : Option Int) : PendingCapture := { edgeTime := 1000000, overrun := false, reference := ref }

theorem witness_CaptureCompletes :
    let scaled := Int.tdiv (interpolate turning interval8 1000000 * turning.scale) 65536
    (-140737488355328 ≤ scaled + turning.offset ∧ scaled + turning.offset ≤ 140737488355327) ∧
    ((pendingAt (some 0)).reference = some 0 ∧ -140737488355328 ≤ 0 - scaled ∧ 0 - scaled ≤ 140737488355327) ∧
    ((pendingAt (some (-140737488355328))).reference = some (-140737488355328) ∧
      ¬ (-140737488355328 ≤ -140737488355328 - scaled)) ∧
    (pendingAt none).reference = none := by decide +kernel

/-- Sensor 18 with one reject short of its limit. -/
def nearlyFaulted : State := withSensor { turning with rejects := 2 }

theorem witness_RejectionCountsAndFaults :
    (((withSensor turning).sensor 18).Ok ∧ ((withSensor turning).sensor 18).state = .acquiring ∧
      ((withSensor turning).sensor 18).rejects + 1 < ((withSensor turning).sensor 18).rejectLimit) ∧
    ((nearlyFaulted.sensor 18).Ok ∧ (nearlyFaulted.sensor 18).rejects + 1 = (nearlyFaulted.sensor 18).rejectLimit) :=
  ⟨⟨turning_ok, rfl, by decide⟩,
    ⟨by decide, by decide, by decide, by decide, by decide, by decide, by decide, by decide, by decide, by decide, by decide,
      by decide, by decide⟩, by decide⟩

theorem witness_RejectionCountsInEveryState :
    ∀ st ∈ [SensorState.bound, SensorState.waiting, SensorState.acquiring],
      ((withSensor { turning with state := st, rejects := 14 }).sensor 18).state = st ∧
      ((withSensor { turning with state := st, rejects := 14 }).sensor 18).rejects < 15 ∧
      ((withSensor { turning with state := .bound, rejects := 15 }).sensor 18).rejects = 15 := by decide

theorem witness_MarkCarriesTheLastValue :
    turning.last.validity = .notValid ∧ MarkReason.stop ≠ .start ∧ turning1.last.validity ≠ .notValid := by decide

/-- Sensor 9 of 5.9. -/
def sensor9 (c : Sensor) : State := ready.setSensor 9 c

/-- The reading of sensor 9 with outcomes of its POSITION and of its REPEAT. -/
def screened (first : ExchangeResult) (again : Option ExchangeResult) : Reading :=
  let outcome : ExchangeResult → ExchangeOutcome := fun r =>
    { result := r, attempts := 1, address := 1, kind := .position, requestTime := 30 }
  { sensor := 9, sampleTime := 30, late := false, position := outcome first, repeated := again.map outcome }

theorem witness_ReadingIsScreened :
    (ready.sensor 9).state ≠ .acquiring ∧ ((sensor9 turning2).sensor 9).state = .acquiring ∧
    (screened (.failed .noResponse) none).position.result = .failed .noResponse ∧
    (screened (.ok false true (.reading 5 0)) none).position.result = .ok false true (.reading 5 0) ∧
    (screened (.ok false false (.reading 5 0)) none).repeated = none ∧
    (screened (.ok false false (.reading 5 0)) (some (.failed .crcError))).repeated.map ExchangeOutcome.result =
      some (.failed .crcError) ∧
    (screened (.ok false false (.reading 5 0)) (some (.ok true false (.reading 5 0)))).screen = .good 5 0 true ∧
    (screened (.ok false false (.reading 5 0)) (some (.ok true false (.reading 6 0)))).screen ≠ .good 5 0 true := by decide

theorem witness_NothingPendingNothingCaptured :
    (∀ l : LineId, turning.captures[l] = none) ∧ Captured 9 interval8 [0, 1, 2, 3] turning turning [] :=
  ⟨by decide, .keeps (fun _ h => by cases h) (.keeps (fun _ h => by cases h) (.keeps (fun _ h => by cases h)
    (.keeps (fun _ h => by cases h) (.nil _))))⟩

theorem witness_JumpGateByValidity :
    (((sensor9 turning2).sensor 9).state = .acquiring ∧ (reading 1700 0 30).screen = .good 1700 0 false ∧
      turning2.last.validity = .valid ∧ turning2.jumpLimit ≠ 0 ∧ (turning2.turned 1700 0).delta = some 1807 ∧
      (turning2.jumpLimit : Int) < |(1807 : Int)|) ∧
    (turning.last.validity ≠ .valid) ∧ ({ turning2 with jumpLimit := 0 } : Sensor).jumpLimit = 0 ∧
    ((turning2.turned 193 0).delta = some 300 ∧ |(300 : Int)| ≤ turning2.jumpLimit) :=
  ⟨⟨rfl, by decide, rfl, by decide, by decide, by norm_num [turning2, turning]⟩, by decide, rfl, by decide,
    by norm_num [turning2, turning]⟩

theorem witness_AcceptedReadingBecomesTheReference :
    (let c := { turning2 with extendedTurn := -8388608, last := { turning2.last with angle := 10 } };
      c.turnMode = .extend ∧ inSigned24 (c.turned 4000 0).candidate = false) ∧
    (let c := { turning2 with offset := 140737488355327, scale := 65536, extendedTurn := 0 };
      inSigned24 (c.turned 3990 0).candidate = true ∧ inSigned48 (c.positionOf (c.turned 3990 0).extRaw) = false) ∧
    (inSigned24 (turning2.turned 3900 0).candidate = true ∧ inSigned48 (turning2.positionOf (turning2.turned 3900 0).extRaw) = true ∧
      (∀ l : LineId, turning2.captures[l] = none)) := by decide

theorem witness_RaisedEventCoalesces :
    (∀ n ∈ ready.notices, n.source ≠ .port 4) ∧
    (noticed.notices = [] ++ { source := .sensor 3, detail := 1, firstTime := 6, occurrences := 1 } :: [] ∧
      (∀ x ∈ ([] ++ [] : List Notice), x.source ≠ .sensor 3)) := by decide

end Sys2Proof.Tests
end

section
/-! SUPPORT. How a record is posted by its kind where its ring is written but cannot take it (R107, R108), and the statements
on posting that follow. The branches of `postRecord` are taken apart once, in `postRecord_effect`. -/

namespace Sys2Proof.Claims

open Sys2Proof.Machine

section Posting

variable {r : SampleRecord} {s : State}

/-- A SAMPLE record that finds no room, or held records before it, is only counted as withheld (R107). -/
theorem postRecord_withholds (hok : (s.sr (s.sensor r.sensor).ring).Ok) (hkind : r.kind = .sample)
    (hstate : (s.sr (s.sensor r.sensor).ring).state = .active ∨ (s.sr (s.sensor r.sensor).ring).state = .congested)
    (hblocked : (s.sensor r.sensor).held ≠ [] ∨ Full (s.sr (s.sensor r.sensor).ring)) :
    postRecord r s = s.setSensor r.sensor
      { s.sensor r.sensor with withheld := min 65535 ((s.sensor r.sensor).withheld + 1) } := by
  obtain ⟨-, hpost, -⟩ := postRecord_effect r s hok
  rw [hpost hstate hblocked, if_pos hkind, saturating]

/-- A MARK or CAPTURE record that cannot be written joins a held queue that is not at its depth (R108). -/
theorem postRecord_holds (hok : (s.sr (s.sensor r.sensor).ring).Ok) (hkind : r.kind ≠ .sample)
    (hstate : (s.sr (s.sensor r.sensor).ring).state = .active ∨ (s.sr (s.sensor r.sensor).ring).state = .congested)
    (hblocked : (s.sensor r.sensor).held ≠ [] ∨ Full (s.sr (s.sensor r.sensor).ring))
    (hroom : (s.sensor r.sensor).held.length < Config.heldPerSensor) :
    postRecord r s = s.setSensor r.sensor { s.sensor r.sensor with held := (s.sensor r.sensor).held ++ [r] } := by
  obtain ⟨-, hpost, -⟩ := postRecord_effect r s hok
  rw [hpost hstate hblocked, if_neg hkind, if_pos hroom]

/-- A MARK or CAPTURE record behind a held queue at its depth is lost, and the newest held record says so (R108). -/
theorem postRecord_overflows (hok : (s.sr (s.sensor r.sensor).ring).Ok) (hkind : r.kind ≠ .sample)
    (hstate : (s.sr (s.sensor r.sensor).ring).state = .active ∨ (s.sr (s.sensor r.sensor).ring).state = .congested)
    {older : List SampleRecord} {newest : SampleRecord} (hheld : (s.sensor r.sensor).held = older ++ [newest])
    (hdepth : Config.heldPerSensor ≤ older.length + 1) :
    postRecord r s = s.setSensor r.sensor { s.sensor r.sensor with
      held := older ++ [{ newest with flags := { newest.flags with heldOverflow := true } }] } := by
  have hblocked : (s.sensor r.sensor).held ≠ [] := by simp [hheld]
  have hfull : ¬ (s.sensor r.sensor).held.length < Config.heldPerSensor := by simpa [hheld] using hdepth
  obtain ⟨-, hpost, -⟩ := postRecord_effect r s hok
  rw [hpost hstate (.inl hblocked), if_neg hkind, if_neg hfull, hheld, overflowTail_append]

end Posting

/-- Settles O53, by the state of the ring and the room on it. -/
theorem samplePostedByRingState : Obligations.SamplePostedByRingState := by
  intro r s hkind hok c d
  obtain ⟨hwrite, -, hdiscard⟩ := postRecord_effect r s hok
  refine ⟨fun hstate => ⟨?written, ?withheld⟩, hdiscard⟩
  case written => exact hwrite hstate
  case withheld => exact postRecord_withholds hok hkind hstate

/-- Settles O54, by the state of the ring, the room on it and the depth of the held queue. -/
theorem heldRecordPostedByRingState : Obligations.HeldRecordPostedByRingState := by
  intro r s hkind hok c d
  obtain ⟨hwrite, -, hdiscard⟩ := postRecord_effect r s hok
  refine ⟨fun hstate => ⟨?written, ?held, ?overflowed⟩, hdiscard⟩
  case written => exact hwrite hstate
  case held =>
    intro hblocked hlength
    exact postRecord_holds hok hkind hstate hblocked (Nat.lt_succ_of_le hlength)
  case overflowed =>
    intro older newest hheld hlength
    exact postRecord_overflows hok hkind hstate hheld (congrArg Nat.succ hlength).ge

end Sys2Proof.Claims
end

section
set_option Elab.async false
/-! SUPPORT. The account of slots and credits (R117 to R119) under each move of a step: changes that it does not see
(`Account.congr`), and those that spend or return a slot or a credit. -/

namespace Sys2Proof.Machine

variable {s t : State}

/-! ### Changes that the account does not see -/

theorem RequestRing.SameAccount.refl (d : RequestRing) : d.SameAccount d := ⟨rfl, rfl, .rfl⟩

theorem CompletionRing.SameAccount.refl (d : CompletionRing) : d.SameAccount d := ⟨rfl, rfl, rfl, rfl, .rfl⟩

theorem Slot.SameAccount.refl (sl : Slot) : sl.SameAccount sl := ⟨rfl, rfl, .inl rfl⟩

theorem CompletionRing.SameAccount.posted {d x : CompletionRing} (h : d.SameAccount x) : x.posted = d.posted := by
  unfold CompletionRing.posted
  rw [h.producer, h.consumer, h.size]

theorem Slot.SameAccount.free_iff {sl x : Slot} (h : sl.SameAccount x) : x.state = .free ↔ sl.state = .free := by
  rcases h.state with e | ⟨o, o'⟩
  · rw [e]
  · exact iff_of_false (Slot.isOpen_ne o').1 (Slot.isOpen_ne o).1

theorem Slot.SameAccount.isOpen {sl x : Slot} (h : sl.SameAccount x) : x.isOpen = sl.isOpen := by
  rcases h.state with e | ⟨o, o'⟩
  · unfold Slot.isOpen; rw [e]
  · rw [o, o']

theorem Slot.SameAccount.heldBy {sl x : Slot} (h : sl.SameAccount x) (r : RqId) : x.heldBy r = sl.heldBy r := by
  unfold Slot.heldBy
  rw [h.rq]
  simp only [ne_eq, h.free_iff]

theorem Slot.SameAccount.owedTo {sl x : Slot} (h : sl.SameAccount x) (c : CrId) : x.owedTo c = sl.owedTo c := by
  unfold Slot.owedTo
  rw [h.cr, h.isOpen]

theorem slotsOf_congr (hs : ∀ k, (s.slot k).SameAccount (t.slot k))
    (hf : t.fetch.map Fetch.claim = s.fetch.map Fetch.claim) (r : RqId) : slotsOf r t = slotsOf r s := by
  rw [slotsOf_eq, slotsOf_eq, fetchHolds_congr hf]
  simp only [(hs _).heldBy r]

theorem creditsOf_congr (hs : ∀ k, (s.slot k).SameAccount (t.slot k))
    (hf : t.fetch.map Fetch.claim = s.fetch.map Fetch.claim) (c : CrId) : creditsOf c t = creditsOf c s := by
  rw [creditsOf_eq, creditsOf_eq, fetchOwes_congr hf]
  simp only [(hs _).owedTo c]

theorem ioSlotsHeld_congr (h : ∀ r, (t.rq r).slotsHeld = (s.rq r).slotsHeld) : ioSlotsHeld t = ioSlotsHeld s := by
  simp only [ioSlotsHeld_eq, h]

/-- The account stands under changes of rings and slots that leave what it counts. -/
theorem Account.congr (h : Account s) (hr : ∀ r, (s.rq r).SameAccount (t.rq r))
    (hc : ∀ c, (s.cr c).SameAccount (t.cr c)) (hs : ∀ k, (s.slot k).SameAccount (t.slot k))
    (hf : t.fetch.map Fetch.claim = s.fetch.map Fetch.claim) (hw : t.window.control = s.window.control) : Account t where
  held r := by rw [(hr r).slotsHeld, h.held, slotsOf_congr hs hf]
  perRing r := (hr r).slotsHeld ▸ h.perRing r
  ofIoRings := by rw [ioSlotsHeld_congr fun r => (hr r).slotsHeld]; exact h.ofIoRings
  reserved c := by rw [(hc c).reserved, h.reserved, creditsOf_congr hs hf]
  room c ha := by
    rw [(hc c).posted, (hc c).reserved, (hc c).size]
    exact h.room c (mt (hc c).absent.2 ha)
  ofAbsent r ha := (hr r).slotsHeld.trans (h.ofAbsent r ((hr r).absent.1 ha))
  bound r ha := by
    obtain ⟨c, hb, hca⟩ := h.bound r (mt (hr r).absent.2 ha)
    exact ⟨c, (hr r).boundCr.trans hb, mt (hc c).absent.1 hca⟩
  ofSlot k hk := by
    rw [(hs k).rq, (hs k).cr, (hr _).boundCr]
    exact h.ofSlot k (mt (hs k).free_iff.2 hk)
  ofFetch f hf' hl := by
    rw [hf'] at hf
    obtain ⟨g, hg, hc'⟩ := Option.map_eq_some_iff.1 hf.symm
    simp only [Fetch.claim, Prod.mk.injEq] at hc'
    obtain ⟨h1, h2, h3, h4⟩ := hc'
    obtain ⟨hb, hfree⟩ := h.ofFetch g hg (h4.trans hl)
    rw [← h1, ← h2, ← h3, (hr _).boundCr, (hs _).free_iff]
    exact ⟨hb, hfree⟩
  off hw' := by
    obtain ⟨h1, h2⟩ := h.off (hw ▸ hw')
    exact ⟨fun r => (hr r).absent.2 (h1 r), fun c => (hc c).absent.2 (h2 c)⟩

theorem Account.setRq (h : Account s) (r : RqId) (x : RequestRing) (hx : (s.rq r).SameAccount x) :
    Account (s.setRq r x) :=
  h.congr (fun q => by rw [State.rq_setRq]; split <;> [(rename_i e; exact e ▸ hx); exact .refl _]) (fun _ => .refl _)
    (fun _ => .refl _) rfl rfl

theorem Account.setCr (h : Account s) (c : CrId) (x : CompletionRing) (hx : (s.cr c).SameAccount x) :
    Account (s.setCr c x) :=
  h.congr (fun _ => .refl _) (fun d => by rw [State.cr_setCr]; split <;> [(rename_i e; exact e ▸ hx); exact .refl _])
    (fun _ => .refl _) rfl rfl

theorem Account.setSlot (h : Account s) (k : SlotId) (x : Slot) (hx : (s.slot k).SameAccount x) :
    Account (s.setSlot k x) :=
  h.congr (fun _ => .refl _) (fun _ => .refl _)
    (fun j => by rw [State.slot_setSlot]; split <;> [(rename_i e; exact e ▸ hx); exact .refl _]) rfl rfl

/-! ### What stands behind a count -/

/-- The request ring of a slot in use is not ABSENT. -/
theorem Account.rq_of_slot (h : Account s) {k : SlotId} (hk : (s.slot k).state ≠ .free) :
    (s.rq (s.slot k).rq).state ≠ .absent := fun ha => by
  have := slotsOf_pos hk
  rw [← h.held, h.ofAbsent _ ha] at this
  omega

/-- A fetch in flight that counts stands in the counts of its rings. -/
theorem fetch_counts {f : Fetch} (hf : s.fetch = some f) (hl : f.live = true) :
    0 < slotsOf f.rq s ∧ 0 < creditsOf f.cr s := by
  rw [slotsOf_eq, creditsOf_eq, hf, fetchHolds_some, fetchOwes_some]
  simp [hl]

/-- The request ring of a fetch in flight is not ABSENT. -/
theorem Account.rq_of_fetch (h : Account s) {f : Fetch} (hf : s.fetch = some f) (hl : f.live = true) :
    (s.rq f.rq).state ≠ .absent := fun ha => by
  have := (fetch_counts hf hl).1
  rw [← h.held, h.ofAbsent _ ha] at this
  omega

/-- The completion ring of a slot in use is not ABSENT. -/
theorem Account.cr_of_slot (h : Account s) {k : SlotId} (hk : (s.slot k).state ≠ .free) :
    (s.cr (s.slot k).cr).state ≠ .absent := by
  obtain ⟨c, hb, hc⟩ := h.bound _ (h.rq_of_slot hk)
  rw [h.ofSlot k hk, Option.some.injEq] at hb
  exact hb ▸ hc

/-- A request ring that holds no slot stands behind none. -/
theorem Account.no_slot (h : Account s) {r : RqId} (hz : (s.rq r).slotsHeld = 0) :
    (∀ k, (s.slot k).state ≠ .free → (s.slot k).rq ≠ r) ∧ ∀ f, s.fetch = some f → f.live = true → f.rq ≠ r := by
  refine ⟨fun k hk e => ?_, fun f hf hl e => ?_⟩
  · have := slotsOf_pos hk
    rw [← h.held, e, hz] at this
    omega
  · have := (fetch_counts hf hl).1
    rw [← h.held, e, hz] at this
    omega

/-- A completion ring that no request ring names is owed to none. -/
theorem Account.no_credit (h : Account s) {c : CrId}
    (hn : ∀ r, (s.rq r).state ≠ .absent → (s.rq r).boundCr ≠ some c) : creditsOf c s = 0 := by
  have hslot : ∀ k, (s.slot k).owedTo c = false := fun k => by
    by_contra hk
    rw [Bool.not_eq_false, Slot.owedTo, Bool.and_eq_true, decide_eq_true_iff] at hk
    have hf := (Slot.isOpen_ne hk.1).1
    exact hn _ (h.rq_of_slot hf) (hk.2 ▸ h.ofSlot k hf)
  have hfetch : fetchOwes s.fetch c = 0 := by
    cases hf : s.fetch with
    | none => rfl
    | some f =>
      rw [fetchOwes_some]
      by_contra hz
      simp only [Bool.toNat_eq_zero, Bool.and_eq_false_iff, decide_eq_false_iff_not, not_or, Bool.not_eq_false,
        not_not] at hz
      exact hn _ (h.rq_of_fetch hf hz.1) (hz.2 ▸ (h.ofFetch f hf hz.1).1)
  rw [creditsOf_eq, hfetch]
  simp [hslot]

/-- Outside READY no slot is in use and no fetch in flight counts. -/
theorem Account.idle (h : Account s) (hr : ∀ r, (s.rq r).state = .absent) :
    (∀ k, (s.slot k).state = .free) ∧ ∀ f, s.fetch = some f → f.live = false :=
  ⟨fun k => by_contra fun hk => h.rq_of_slot hk (hr _),
    fun f hf => by rw [← Bool.not_eq_true]; exact fun hl => h.rq_of_fetch hf hl (hr _)⟩

/-! ### Slots and credits spent and returned -/

/-- A request has its result: its credit goes, whatever its completion ring makes of the entry (R117, R124, R127). -/
theorem Account.done (h : Account s) {k : SlotId} {x : Slot} {d : CompletionRing} (ho : (s.slot k).isOpen = true)
    (hx : x.state = .done) (hr : x.rq = (s.slot k).rq) (hc : x.cr = (s.slot k).cr)
    (hres : d.reserved = (s.cr (s.slot k).cr).reserved - 1) (hroom : d.posted + d.reserved ≤ d.size - 1)
    (ha : d.state ≠ .absent) : Account ((s.setSlot k x).setCr (s.slot k).cr d) := by
  have hfree : (s.slot k).state ≠ .free := (Slot.isOpen_ne ho).1
  have hca := h.cr_of_slot hfree
  have hheld : ∀ r, x.heldBy r = (s.slot k).heldBy r := fun r => by simp [Slot.heldBy, hx, hr, hfree]
  have howed : ∀ c, x.owedTo c = false := fun c => by simp [Slot.owedTo, Slot.isOpen, hx]
  exact
  { held := fun r => by
      have := slotsOf_setSlot s k x r
      rw [hheld] at this
      have hk := h.held r
      change (s.rq r).slotsHeld = slotsOf r (s.setSlot k x)
      omega
    perRing := h.perRing
    ofIoRings := h.ofIoRings
    reserved := fun c => by
      have := creditsOf_setSlot s k x c
      rw [howed, Bool.toNat_false] at this
      have hk := h.reserved c
      change _ = creditsOf c (s.setSlot k x)
      rw [State.cr_setCr]
      split
      · rename_i e
        subst e
        have h1 : (s.slot k).owedTo (s.slot k).cr = true := by simp [Slot.owedTo, ho]
        rw [h1, Bool.toNat_true] at this
        rw [hres]
        omega
      · rename_i e
        have h1 : (s.slot k).owedTo c = false := by simp [Slot.owedTo, e]
        rw [h1, Bool.toNat_false] at this
        rw [State.cr_setSlot]
        omega
    room := fun c => by
      rw [State.cr_setCr]
      split
      · exact fun _ => hroom
      · exact h.room c
    ofAbsent := h.ofAbsent
    bound := fun r hb => by
      obtain ⟨c, hb, hc'⟩ := h.bound r hb
      refine ⟨c, hb, ?_⟩
      rw [State.cr_setCr]
      split
      · exact ha
      · exact hc'
    ofSlot := fun j => by
      rw [State.slot_setCr, State.slot_setSlot]
      split
      · rename_i e
        subst e
        intro _
        rw [hr, hc]
        exact h.ofSlot k hfree
      · exact h.ofSlot j
    ofFetch := fun f hf hl => by
      obtain ⟨hb, hfr⟩ := h.ofFetch f hf hl
      refine ⟨hb, ?_⟩
      rw [State.slot_setCr, State.slot_setSlot, if_neg (show ¬ k = f.slot from fun e => hfree (e ▸ hfr))]
      exact hfr
    off := fun hw => absurd ((h.off hw).2 _) hca }

/-- A slot whose completion has ended is freed (R125). -/
theorem Account.free (h : Account s) {k : SlotId} (hd : (s.slot k).state = .done) :
    Account ((s.setSlot k .initial).setRq (s.slot k).rq
      { s.rq (s.slot k).rq with slotsHeld := (s.rq (s.slot k).rq).slotsHeld - 1 }) := by
  have hfree : (s.slot k).state ≠ .free := by simp [hd]
  have hheld : ∀ r, Slot.initial.heldBy r = false := fun r => by simp [Slot.heldBy, Slot.initial]
  have howed : ∀ c, Slot.initial.owedTo c = (s.slot k).owedTo c := fun c => by
    have h1 : (s.slot k).isOpen = false := by unfold Slot.isOpen; rw [hd]; rfl
    rw [Slot.owedTo, Slot.owedTo, h1]
    rfl
  have hrq : ∀ q, ((s.setSlot k .initial).setRq (s.slot k).rq
      { s.rq (s.slot k).rq with slotsHeld := (s.rq (s.slot k).rq).slotsHeld - 1 }).rq q =
      { s.rq q with slotsHeld := if (s.slot k).rq = q then (s.rq q).slotsHeld - 1 else (s.rq q).slotsHeld } := fun q => by
    rw [State.rq_setRq]
    split
    · rename_i e; subst e; rfl
    · rfl
  exact
  { held := fun r => by
      have := slotsOf_setSlot s k .initial r
      rw [hheld, Bool.toNat_false] at this
      have hk := h.held r
      rw [hrq]
      change _ = slotsOf r (s.setSlot k .initial)
      dsimp only
      split
      · rename_i e
        have h1 : (s.slot k).heldBy r = true := by simp [Slot.heldBy, hfree, e]
        rw [h1, Bool.toNat_true] at this
        omega
      · rename_i e
        have h1 : (s.slot k).heldBy r = false := by simp [Slot.heldBy, e]
        rw [h1, Bool.toNat_false] at this
        omega
    perRing := fun r => by
      have := h.perRing r
      rw [hrq]; dsimp only
      split <;> omega
    ofIoRings := by
      have := ioSlotsHeld_setRq (s.setSlot k .initial) (s.slot k).rq
        { s.rq (s.slot k).rq with slotsHeld := (s.rq (s.slot k).rq).slotsHeld - 1 }
      have hk := h.ofIoRings
      change ioSlotsHeld (s.setSlot k .initial) ≤ _ at hk
      rw [State.rq_setSlot] at this
      dsimp only at this ⊢
      split at this <;> omega
    reserved := fun c => by
      have := creditsOf_setSlot s k .initial c
      rw [howed] at this
      have hk := h.reserved c
      change (s.cr c).reserved = creditsOf c (s.setSlot k .initial)
      omega
    room := h.room
    ofAbsent := fun r ha => by
      rw [hrq] at ha ⊢
      have := h.ofAbsent r ha
      dsimp only
      split <;> omega
    bound := fun r hb => by rw [hrq] at hb ⊢; exact h.bound r hb
    ofSlot := fun j => by
      rw [State.slot_setRq, State.slot_setSlot]
      split
      · exact fun he => absurd rfl he
      · rw [hrq]; exact h.ofSlot j
    ofFetch := fun f hf hl => by
      obtain ⟨hb, hfr⟩ := h.ofFetch f hf hl
      refine ⟨by rw [hrq]; exact hb, ?_⟩
      rw [State.slot_setRq, State.slot_setSlot]
      split
      · rfl
      · exact hfr
    off := fun hw => ⟨fun r => by rw [hrq]; exact (h.off hw).1 r, (h.off hw).2⟩ }

/-- A fetch of an eligible ring takes a slot and a credit (R119). -/
theorem Account.fetchIssued (h : Account s) {f : Fetch} (hl : f.live = true) (hn : s.fetch = none)
    (hslots : (s.rq f.rq).slotsHeld + 1 ≤ Config.slotsPerRing)
    (hio : f.rq ≠ 0 → ioSlotsHeld s + 1 ≤ Config.slotsOfIoRings) (ha : (s.rq f.rq).state ≠ .absent)
    (hb : (s.rq f.rq).boundCr = some f.cr) (hroom : (s.cr f.cr).posted + (s.cr f.cr).reserved + 1 ≤ (s.cr f.cr).size - 1)
    (hfree : (s.slot f.slot).state = .free) :
    Account { (s.setRq f.rq { s.rq f.rq with slotsHeld := (s.rq f.rq).slotsHeld + 1 }).setCr f.cr
      { s.cr f.cr with reserved := (s.cr f.cr).reserved + 1 } with fetch := some f } := by
  have hrq : ∀ q, State.rq { (s.setRq f.rq { s.rq f.rq with slotsHeld := (s.rq f.rq).slotsHeld + 1 }).setCr f.cr
      { s.cr f.cr with reserved := (s.cr f.cr).reserved + 1 } with fetch := some f } q =
      { s.rq q with slotsHeld := if f.rq = q then (s.rq q).slotsHeld + 1 else (s.rq q).slotsHeld } := fun q => by
    change (s.setRq f.rq _).rq q = _
    rw [State.rq_setRq]
    split
    · rename_i e; subst e; rfl
    · rfl
  have hcr : ∀ c, State.cr { (s.setRq f.rq { s.rq f.rq with slotsHeld := (s.rq f.rq).slotsHeld + 1 }).setCr f.cr
      { s.cr f.cr with reserved := (s.cr f.cr).reserved + 1 } with fetch := some f } c =
      { s.cr c with reserved := if f.cr = c then (s.cr c).reserved + 1 else (s.cr c).reserved } := fun c => by
    change ((s.setRq f.rq _).setCr f.cr _).cr c = _
    rw [State.cr_setCr]
    split
    · rename_i e; subst e; rfl
    · rfl
  exact
  { held := fun r => by
      have hk := h.held r
      rw [slotsOf_eq, hn] at hk
      rw [slotsOf_eq, hrq, fetchHolds_some, hl]
      change _ = allSlots.countP (fun k => (s.slot k).heldBy r) + _
      have hz : fetchHolds none r = 0 := rfl
      dsimp only
      split <;> rename_i e <;> simp [e] <;> omega
    perRing := fun r => by
      have := h.perRing r
      rw [hrq]; dsimp only
      split
      · rename_i e; exact e ▸ hslots
      · exact this
    ofIoRings := by
      have := ioSlotsHeld_setRq s f.rq { s.rq f.rq with slotsHeld := (s.rq f.rq).slotsHeld + 1 }
      have hk := h.ofIoRings
      change ioSlotsHeld (s.setRq f.rq _) ≤ _
      dsimp only at this ⊢
      split at this
      · omega
      · rename_i hne
        have := hio hne
        omega
    reserved := fun c => by
      have hk := h.reserved c
      rw [creditsOf_eq, hn] at hk
      rw [creditsOf_eq, hcr, fetchOwes_some, hl]
      change _ = allSlots.countP (fun k => (s.slot k).owedTo c) + _
      have hz : fetchOwes none c = 0 := rfl
      dsimp only
      split <;> rename_i e <;> simp [e] <;> omega
    room := fun c => by
      rw [hcr]
      dsimp only
      split
      · rename_i e
        subst e
        intro _
        change (s.cr f.cr).posted + _ ≤ _
        omega
      · exact h.room c
    ofAbsent := fun r ha' => by
      rw [hrq] at ha' ⊢
      have := h.ofAbsent r ha'
      dsimp only
      split
      · rename_i e; exact absurd (e ▸ ha') ha
      · exact this
    bound := fun r hb' => by
      rw [hrq] at hb' ⊢
      obtain ⟨c, h1, h2⟩ := h.bound r hb'
      exact ⟨c, h1, by rw [hcr]; exact h2⟩
    ofSlot := fun j hj => by rw [hrq]; exact h.ofSlot j hj
    ofFetch := fun g hg _ => by
      obtain rfl : f = g := Option.some.inj hg
      rw [hrq]
      exact ⟨hb, hfree⟩
    off := fun hw => absurd ((h.off hw).1 _) ha }

/-- A fetch in error returns its slot and its credit (R120). -/
theorem Account.fetchReturned (h : Account s) {f : Fetch} (hl : f.live = true) (hf : s.fetch = some f) :
    Account (({ s with fetch := none }.setCr f.cr { s.cr f.cr with reserved := (s.cr f.cr).reserved - 1 }).setRq f.rq
      { s.rq f.rq with slotsHeld := (s.rq f.rq).slotsHeld - 1 }) := by
  have hrq : ∀ q, (({ s with fetch := none }.setCr f.cr
      { s.cr f.cr with reserved := (s.cr f.cr).reserved - 1 }).setRq f.rq
      { s.rq f.rq with slotsHeld := (s.rq f.rq).slotsHeld - 1 }).rq q =
      { s.rq q with slotsHeld := if f.rq = q then (s.rq q).slotsHeld - 1 else (s.rq q).slotsHeld } := fun q => by
    rw [State.rq_setRq]
    split
    · rename_i e; subst e; rfl
    · rfl
  have hcr : ∀ c, (({ s with fetch := none }.setCr f.cr
      { s.cr f.cr with reserved := (s.cr f.cr).reserved - 1 }).setRq f.rq
      { s.rq f.rq with slotsHeld := (s.rq f.rq).slotsHeld - 1 }).cr c =
      { s.cr c with reserved := if f.cr = c then (s.cr c).reserved - 1 else (s.cr c).reserved } := fun c => by
    rw [State.cr_setRq, State.cr_setCr]
    split
    · rename_i e; subst e; rfl
    · rfl
  exact
  { held := fun r => by
      have hk := h.held r
      rw [slotsOf_eq, hf, fetchHolds_some, hl] at hk
      rw [slotsOf_eq, hrq]
      change _ = allSlots.countP (fun k => (s.slot k).heldBy r) + 0
      dsimp only
      split <;> rename_i e <;> simp [e] at hk <;> omega
    perRing := fun r => by
      have := h.perRing r
      rw [hrq]; dsimp only
      split <;> omega
    ofIoRings := by
      have := ioSlotsHeld_setRq ({ s with fetch := none }.setCr f.cr
        { s.cr f.cr with reserved := (s.cr f.cr).reserved - 1 }) f.rq
        { s.rq f.rq with slotsHeld := (s.rq f.rq).slotsHeld - 1 }
      have hk := h.ofIoRings
      change ioSlotsHeld _ + (if f.rq = 0 then 0 else (s.rq f.rq).slotsHeld) = ioSlotsHeld s + _ at this
      dsimp only at this ⊢
      split at this <;> omega
    reserved := fun c => by
      have hk := h.reserved c
      rw [creditsOf_eq, hf, fetchOwes_some, hl] at hk
      rw [creditsOf_eq, hcr]
      change _ = allSlots.countP (fun k => (s.slot k).owedTo c) + 0
      dsimp only
      split <;> rename_i e <;> simp [e] at hk <;> omega
    room := fun c => by
      rw [hcr]
      intro ha
      have := h.room c ha
      change (s.cr c).posted + _ ≤ (s.cr c).size - 1
      dsimp only
      split <;> omega
    ofAbsent := fun r ha' => by
      rw [hrq] at ha' ⊢
      have := h.ofAbsent r ha'
      dsimp only
      split <;> omega
    bound := fun r hb' => by
      rw [hrq] at hb' ⊢
      obtain ⟨c, h1, h2⟩ := h.bound r hb'
      exact ⟨c, h1, by rw [hcr]; exact h2⟩
    ofSlot := fun j hj => by rw [hrq]; exact h.ofSlot j hj
    ofFetch := fun g hg _ => by cases hg
    off := fun hw => absurd ((h.off hw).1 _) (h.rq_of_fetch hf hl) }

/-- A request arrives in the slot of its fetch (R121). -/
theorem Account.fetchArrived (h : Account s) {f : Fetch} {x : Slot} (hl : f.live = true) (hf : s.fetch = some f)
    (ho : x.isOpen = true) (hr : x.rq = f.rq) (hc : x.cr = f.cr) :
    Account ({ s with fetch := none }.setSlot f.slot x) := by
  obtain ⟨hb, hfree⟩ := h.ofFetch f hf hl
  exact
  { held := fun r => by
      have hk := h.held r
      have hc' := slotsOf_setSlot { s with fetch := none } f.slot x r
      change slotsOf r _ + ((s.slot f.slot).heldBy r).toNat = _ at hc'
      have h1 : (s.slot f.slot).heldBy r = false := by simp [Slot.heldBy, hfree]
      have h2 : x.heldBy r = decide (f.rq = r) := by simp [Slot.heldBy, (Slot.isOpen_ne ho).1, hr]
      rw [h1, h2, Bool.toNat_false] at hc'
      rw [slotsOf_eq, hf, fetchHolds_some, hl, Bool.true_and] at hk
      have h3 : slotsOf r { s with fetch := none } = allSlots.countP (fun k => (s.slot k).heldBy r) := rfl
      change (s.rq r).slotsHeld = _
      omega
    perRing := h.perRing
    ofIoRings := h.ofIoRings
    reserved := fun c => by
      have hk := h.reserved c
      have hc' := creditsOf_setSlot { s with fetch := none } f.slot x c
      change creditsOf c _ + ((s.slot f.slot).owedTo c).toNat = _ at hc'
      have h1 : (s.slot f.slot).owedTo c = false := by simp [Slot.owedTo, Slot.isOpen, hfree]
      have h2 : x.owedTo c = decide (f.cr = c) := by simp [Slot.owedTo, ho, hc]
      rw [h1, h2, Bool.toNat_false] at hc'
      rw [creditsOf_eq, hf, fetchOwes_some, hl, Bool.true_and] at hk
      have h3 : creditsOf c { s with fetch := none } = allSlots.countP (fun k => (s.slot k).owedTo c) := rfl
      change (s.cr c).reserved = _
      omega
    room := h.room
    ofAbsent := h.ofAbsent
    bound := h.bound
    ofSlot := fun j => by
      rw [State.slot_setSlot]
      split
      · intro _
        rw [hr, hc]
        exact hb
      · exact h.ofSlot j
    ofFetch := fun g hg _ => by cases hg
    off := h.off }

/-- A fetch from before a halt ends and nothing counts it (R133). -/
theorem Account.fetchDropped (h : Account s) {f : Fetch} (hl : f.live = false) (hf : s.fetch = some f) :
    Account { s with fetch := none } where
  held r := by
    rw [slotsOf_eq]
    have := h.held r
    rw [slotsOf_eq, hf, fetchHolds_some, hl] at this
    exact this
  perRing := h.perRing
  ofIoRings := h.ofIoRings
  reserved c := by
    rw [creditsOf_eq]
    have := h.reserved c
    rw [creditsOf_eq, hf, fetchOwes_some, hl] at this
    exact this
  room := h.room
  ofAbsent := h.ofAbsent
  bound := h.bound
  ofSlot := h.ofSlot
  ofFetch g hg _ := by cases hg
  off := h.off

/-! ### Rings created, deleted and consumed -/

/-- A request ring that holds no slot takes another descriptor that holds none (R116, R131). -/
theorem Account.emptyRq (h : Account s) {r : RqId} {x : RequestRing} (hz : (s.rq r).slotsHeld = 0) (hx : x.slotsHeld = 0)
    (hb : x.state ≠ .absent → (∃ c, x.boundCr = some c ∧ (s.cr c).state ≠ .absent) ∧ s.window.control = .ready) :
    Account (s.setRq r x) := by
  obtain ⟨hk, hf⟩ := h.no_slot hz
  have hheld : ∀ q, ((s.setRq r x).rq q).slotsHeld = (s.rq q).slotsHeld := fun q => by
    rw [State.rq_setRq]
    split
    · rename_i e; subst e; rw [hx, hz]
    · rfl
  exact
  { held := fun q => by rw [hheld]; exact h.held q
    perRing := fun q => by rw [hheld]; exact h.perRing q
    ofIoRings := by rw [ioSlotsHeld_congr hheld]; exact h.ofIoRings
    reserved := h.reserved
    room := h.room
    ofAbsent := fun q => by
      rw [State.rq_setRq]
      split
      · exact fun _ => hx
      · exact h.ofAbsent q
    bound := fun q => by
      rw [State.rq_setRq]
      split
      · exact fun ha => (hb ha).1
      · exact h.bound q
    ofSlot := fun k hk' => by
      rw [State.slot_setRq, State.rq_setRq, if_neg (hk k hk').symm]
      exact h.ofSlot k hk'
    ofFetch := fun f hf' hl => by
      rw [State.rq_setRq, if_neg (hf f hf' hl).symm]
      exact h.ofFetch f hf' hl
    off := fun hw => by
      refine ⟨fun q => ?_, (h.off hw).2⟩
      rw [State.rq_setRq]
      split
      · exact by_contra fun ha => hw (hb ha).2
      · exact (h.off hw).1 q }

/-- A completion ring that no request ring names takes another descriptor without entries or credits (R117, R132). -/
theorem Account.emptyCr (h : Account s) {c : CrId} {x : CompletionRing}
    (hn : ∀ r, (s.rq r).state ≠ .absent → (s.rq r).boundCr ≠ some c) (hp : x.posted = 0) (hx : x.reserved = 0)
    (hw : x.state ≠ .absent → s.window.control = .ready) : Account (s.setCr c x) where
  held := h.held
  perRing := h.perRing
  ofIoRings := h.ofIoRings
  reserved d := by
    rw [State.cr_setCr]
    split
    · rename_i e
      subst e
      exact hx.trans (h.no_credit hn).symm
    · exact h.reserved d
  room d := by
    rw [State.cr_setCr]
    split
    · intro _; omega
    · exact h.room d
  ofAbsent := h.ofAbsent
  bound r ha := by
    obtain ⟨d, hb, hd⟩ := h.bound r ha
    refine ⟨d, hb, ?_⟩
    rw [State.cr_setCr, if_neg (show ¬ c = d from fun e => hn r ha (e ▸ hb))]
    exact hd
  ofSlot := h.ofSlot
  ofFetch := h.ofFetch
  off hw' := by
    refine ⟨(h.off hw').1, fun d => ?_⟩
    rw [State.cr_setCr]
    split
    · exact by_contra fun ha => hw' (hw ha)
    · exact (h.off hw').2 d

/-- The entries of a completion ring change within its room (R117, R153). -/
theorem Account.entries (h : Account s) {c : CrId} {x : CompletionRing} (hr : x.reserved = (s.cr c).reserved)
    (ha : x.state = .absent ↔ (s.cr c).state = .absent) (hroom : x.posted + x.reserved ≤ x.size - 1) :
    Account (s.setCr c x) where
  held := h.held
  perRing := h.perRing
  ofIoRings := h.ofIoRings
  reserved d := by
    rw [State.cr_setCr]
    split
    · rename_i e; subst e; rw [hr]; exact h.reserved c
    · exact h.reserved d
  room d := by
    rw [State.cr_setCr]
    split
    · exact fun _ => hroom
    · exact h.room d
  ofAbsent := h.ofAbsent
  bound r ha' := by
    obtain ⟨d, hb, hd⟩ := h.bound r ha'
    refine ⟨d, hb, ?_⟩
    rw [State.cr_setCr]
    split
    · rename_i e; subst e; exact mt ha.1 hd
    · exact hd
  ofSlot := h.ofSlot
  ofFetch := h.ofFetch
  off hw := by
    refine ⟨(h.off hw).1, fun d => ?_⟩
    rw [State.cr_setCr]
    split
    · exact ha.2 ((h.off hw).2 c)
    · exact (h.off hw).2 d

/-- The account of a part without rings: nothing held, nothing owed. -/
theorem Account.ofNothing (hr : ∀ r, s.rq r = .initial) (hc : ∀ c, s.cr c = .initial) (hk : ∀ k, s.slot k = .initial)
    (hf : ∀ f, s.fetch = some f → f.live = false) : Account s := by
  have hheld : ∀ r, fetchHolds s.fetch r = 0 ∧ ∀ c, fetchOwes s.fetch c = 0 := fun r => by
    cases h : s.fetch with
    | none => exact ⟨rfl, fun _ => rfl⟩
    | some f => rw [fetchHolds_some, hf f h]; exact ⟨rfl, fun c => by rw [fetchOwes_some, hf f h]; rfl⟩
  exact
  { held := fun r => by
      rw [slotsOf_eq, (hheld r).1, hr]
      simp [hk, Slot.heldBy, Slot.initial, RequestRing.initial]
    perRing := fun r => by rw [hr]; decide
    ofIoRings := by rw [ioSlotsHeld_eq]; simp [hr, RequestRing.initial]
    reserved := fun c => by
      rw [creditsOf_eq, (hheld 0).2, hc]
      simp [hk, show ∀ c, Slot.initial.owedTo c = false from fun _ => rfl, CompletionRing.initial]
    room := fun c ha => absurd (by rw [hc]; rfl) ha
    ofAbsent := fun r _ => by rw [hr]; rfl
    bound := fun r ha => absurd (by rw [hr]; rfl) ha
    ofSlot := fun k h => absurd (by rw [hk]; rfl) h
    ofFetch := fun f h hl => absurd hl (by rw [hf f h]; decide)
    off := fun _ => ⟨fun r => by rw [hr]; rfl, fun c => by rw [hc]; rfl⟩ }

end Sys2Proof.Machine
end

section
set_option Elab.async false
/-! SUPPORT. Every step keeps `Safe`. `Kept` is `Safe` with an event possibly under way at a port, whose link and sensors may
disagree until it ends (R57); it survives every move of `Steps`. A head update of a sample ring is followed record by record
(`Draining`). -/

namespace Sys2Proof.Machine

open Sys2Proof.Claims

variable {s t : State} {e : Option PortId}

/-- What every step keeps, with an event possibly under way at port `e`. -/
structure Kept (e : Option PortId) (s : State) : Prop where
  links : ∀ p, (s.link p).Ok
  scheds : ∀ p, (s.sched p).Ok p
  sensors : ∀ n, (s.sensor n).Ok
  lines : ∀ l, (s.line l).Ok
  rqs : ∀ r, (s.rq r).Ok
  crs : ∀ r, (s.cr r).Ok
  srs : ∀ r, (s.sr r).Ok
  notices : NoticesOk s.notices
  turn : s.nextIoRing ≠ 0
  account : Account s
  acquiring : ∀ n, (s.sensor n).state = .acquiring →
    (s.link (portOf n)).state.polls = true ∨ e = some (portOf n)
  holding : ∀ n, (s.sensor n).held ≠ [] →
    (s.sensor n).state ≠ .unbound ∧ (s.sr (s.sensor n).ring).writable = true ∧ (s.sr (s.sensor n).ring).full = true
  levels : ∀ r, (s.sr r).Levelled
  inFlight : (s.axInFlight.map AdminEntry.object).Nodup

/-- Between events `Kept` is `Safe`. -/
theorem kept_none_iff : Kept none s ↔ Safe s :=
  ⟨fun h => { h with acquiring := fun n ha => (h.acquiring n ha).resolve_right (by simp) },
    fun h => { h with acquiring := fun n ha => .inl (h.acquiring n ha) }⟩

/-! ### The account beside other tables, and in READY -/

theorem Account.same (h : Account s) (h1 : t.rqs = s.rqs) (h2 : t.crs = s.crs) (h3 : t.slots = s.slots)
    (h4 : t.fetch = s.fetch) (h5 : t.window.control = s.window.control) : Account t :=
  h.congr (fun r => by unfold State.rq; rw [h1]; exact .refl _) (fun r => by unfold State.cr; rw [h2]; exact .refl _)
    (fun r => by unfold State.slot; rw [h3]; exact .refl _) (by rw [h4]) h5

/-- A slot in use stands in READY alone. -/
theorem Account.ready (h : Account s) {k : SlotId} (hk : (s.slot k).state ≠ .free) : s.window.control = .ready :=
  by_contra fun hw => h.rq_of_slot hk ((h.off hw).1 _)

/-! ### Notices (R152) -/

theorem NoticesOk.raise (h : NoticesOk s.notices) (src : NoticeSource) (detail : BitVec 32) (time : Time) :
    NoticesOk (raiseNotice src detail time s).notices := by
  unfold raiseNotice
  split
  · refine ⟨?_, ?_⟩
    · have hmap : (s.notices.map fun n => if n.source = src then n.again detail else n).map Notice.source =
          s.notices.map Notice.source := by
        rw [List.map_map]
        refine List.map_congr_left fun n _ => ?_
        dsimp only [Function.comp]
        split <;> rfl
      exact hmap ▸ h.distinct
    · intro n hn
      obtain ⟨m, hm, rfl⟩ := List.mem_map.1 hn
      obtain ⟨h1, h2⟩ := h.counted m hm
      split
      · exact ⟨le_saturating (by decide), saturating_le _ _⟩
      · exact ⟨h1, h2⟩
  · rename_i hnone
    refine ⟨?_, ?_⟩
    · dsimp only
      rw [List.map_append, List.nodup_append]
      refine ⟨h.distinct, by simp, ?_⟩
      intro a ha b hb
      obtain rfl : b = src := by simpa using hb
      obtain ⟨n, hn, rfl⟩ := List.mem_map.1 ha
      intro hab
      exact hnone (List.any_eq_true.2 ⟨n, hn, by simp [hab]⟩)
    · intro n hn
      rcases List.mem_append.1 hn with hn | hn
      · exact h.counted n hn
      · rw [List.mem_singleton.1 hn]
        exact ⟨Nat.le_refl 1, (by decide : 1 ≤ 65535)⟩

/-! ### Sample rings -/

theorem SampleRing.SameEntries.free {d x : SampleRing} (h : d.SameEntries x) : x.free = d.free := by
  unfold SampleRing.free SampleRing.used
  rw [h.size, h.producer, h.consumer]

theorem SampleRing.SameEntries.full {d x : SampleRing} (h : d.SameEntries x) : x.full = d.full := by
  unfold SampleRing.full
  rw [h.free]

theorem SampleRing.SameEntries.writable {d x : SampleRing} (h : d.SameEntries x) : x.writable = d.writable := by
  unfold SampleRing.writable
  rw [h.state]

theorem SampleRing.SameEntries.levelled {d x : SampleRing} (h : d.SameEntries x) (hl : d.Levelled) : x.Levelled where
  active ha := by rw [h.free, h.lowWater]; exact hl.active (h.state ▸ ha)
  congested hc := by rw [h.free, h.resume]; exact hl.congested (h.state ▸ hc)

/-- A written entry keeps the levels of a ring (R111). -/
theorem SampleRing.Levelled.written {d : SampleRing} (hl : d.Levelled) (h : d.Ok) (hw : d.writable = true)
    (hf : d.full = false) : d.advance.congest.Levelled := by
  obtain ⟨hfree, hact, hcon⟩ := SampleRing.written_levels h hw hf
  obtain ⟨-, -, -, hlow, hres, -⟩ := d.advance.congest_keeps
  rw [SampleRing.advance_lowWater] at hlow
  rw [SampleRing.advance_resume] at hres
  refine ⟨fun ha => hlow ▸ hact ha, fun hc => ?_⟩
  rw [hres]
  rcases hcon hc with hd | hlt
  · have := hl.congested hd
    omega
  · exact hlt

theorem SampleRing.advance_congest_writable (d : SampleRing) : d.advance.congest.writable = d.writable := by
  rw [d.advance.congest_keeps.2.2.2.2.2]
  unfold SampleRing.writable
  rw [SampleRing.advance_state]

/-- A sensor context after a write of its table entry. -/
theorem State.sensor_setSensor_ind (s : State) (n : SensorId) (x : Sensor) {Q : SensorId → Sensor → Prop} (hx : Q n x)
    (h : ∀ m, Q m (s.sensor m)) (m : SensorId) : Q m ((s.setSensor n x).sensor m) := by
  rw [State.sensor_setSensor]
  split
  · rename_i e; exact e ▸ hx
  · exact h m

/-- A sample ring after a write of its table entry. -/
theorem State.sr_setSr_ind (s : State) (i : SrId) (x : SampleRing) {Q : SrId → SampleRing → Prop} (hx : Q i x)
    (h : ∀ j, Q j (s.sr j)) (j : SrId) : Q j ((s.setSr i x).sr j) := by
  rw [State.sr_setSr]
  split
  · rename_i e; exact e ▸ hx
  · exact h j

/-- A request ring after a write of its table entry. -/
theorem State.rq_setRq_ind (s : State) (i : RqId) (x : RequestRing) {Q : RqId → RequestRing → Prop} (hx : Q i x)
    (h : ∀ j, Q j (s.rq j)) (j : RqId) : Q j ((s.setRq i x).rq j) := by
  rw [State.rq_setRq]
  split
  · rename_i e; exact e ▸ hx
  · exact h j

/-- A completion ring after a write of its table entry. -/
theorem State.cr_setCr_ind (s : State) (i : CrId) (x : CompletionRing) {Q : CrId → CompletionRing → Prop} (hx : Q i x)
    (h : ∀ j, Q j (s.cr j)) (j : CrId) : Q j ((s.setCr i x).cr j) := by
  rw [State.cr_setCr]
  split
  · rename_i e; exact e ▸ hx
  · exact h j

/-- Between the writes of sensors and sample rings the other tables stand as they were. -/
theorem Kept.stores (h : Kept e s)
    (ht : t = { s with sensors := t.sensors, srs := t.srs, outbox := t.outbox, msix := t.msix })
    (hs : ∀ n, (t.sensor n).Ok) (hst : ∀ n, (t.sensor n).state = (s.sensor n).state) (hr : ∀ r, (t.sr r).Ok)
    (hh : ∀ n, (t.sensor n).held ≠ [] → (t.sensor n).state ≠ .unbound ∧
      (t.sr (t.sensor n).ring).writable = true ∧ (t.sr (t.sensor n).ring).full = true)
    (hl : ∀ r, (t.sr r).Levelled) : Kept e t := by
  rw [ht]
  exact
  { h with
    sensors := hs, srs := hr, holding := hh, levels := hl
    acquiring := fun n ha => h.acquiring n ((hst n).symm.trans ha)
    account := h.account.same rfl rfl rfl rfl rfl }

/-! ### The moves of `Closed` -/

theorem Kept.sensorsChange {v : Vector Sensor 32} (h : Kept e s) (hv : ∀ n : SensorId, (s.sensor n).Ok → Sensor.Ok v[n])
    (ht : ∀ n : SensorId, (s.sensor n).Tame v[n]) : Kept e { s with sensors := v } :=
  { h with
    sensors := fun n => hv n (h.sensors n)
    acquiring := fun n ha => h.acquiring n ((ht n).acquiring ha)
    holding := fun n hn => by
      rcases (ht n).held with h0 | ⟨hheld, hring, hunbound⟩
      · exact absurd h0 hn
      · obtain ⟨ha, hb⟩ := h.holding n (fun h0 => hn (hheld.trans h0))
        exact ⟨mt hunbound ha, by change (s.sr v[n].ring).writable = true ∧ (s.sr v[n].ring).full = true; rw [hring]; exact hb⟩
    account := h.account.same rfl rfl rfl rfl rfl }

theorem Kept.hold {n : SensorId} {l : List SampleRecord} (h : Kept e s) (hu : (s.sensor n).state ≠ .unbound)
    (hw : (s.sr (s.sensor n).ring).writable = true)
    (hf : (s.sensor n).held ≠ [] ∨ (s.sr (s.sensor n).ring).full = true)
    (hl : (s.sensor n).held.length ≤ Config.heldPerSensor → l.length ≤ Config.heldPerSensor) :
    Kept e (s.setSensor n { s.sensor n with held := l }) :=
  { h with
    sensors := s.sensor_setSensor_ind n _ ((h.sensors n).setHeld (hl (h.sensors n).held)) h.sensors
    acquiring := s.sensor_setSensor_ind n _ (Q := fun m c => c.state = .acquiring →
      (s.link (portOf m)).state.polls = true ∨ e = some (portOf m)) (h.acquiring n) h.acquiring
    holding := s.sensor_setSensor_ind n _ (Q := fun _ c => c.held ≠ [] →
      c.state ≠ .unbound ∧ (s.sr c.ring).writable = true ∧ (s.sr c.ring).full = true)
      (fun _ => ⟨hu, hw, hf.elim (fun hne => (h.holding n hne).2.2) id⟩) h.holding
    account := h.account.same rfl rfl rfl rfl rfl }

theorem Kept.setSr {i : SrId} {x : SampleRing} (h : Kept e s) (hx : (s.sr i).Ok → x.Ok)
    (hs : (s.sr i).SameEntries x) : Kept e (s.setSr i x) :=
  { h with
    srs := s.sr_setSr_ind i x (hx (h.srs i)) h.srs
    holding := fun n hn => by
      obtain ⟨ha, hw, hf⟩ := h.holding n hn
      refine ⟨ha, ?_⟩
      change ((s.setSr i x).sr (s.sensor n).ring).writable = true ∧ ((s.setSr i x).sr (s.sensor n).ring).full = true
      rw [State.sr_setSr]
      split
      · rename_i he
        rw [hs.writable, hs.full, he]
        exact ⟨hw, hf⟩
      · exact ⟨hw, hf⟩
    levels := s.sr_setSr_ind i x (hs.levelled (h.levels i)) h.levels
    account := h.account.same rfl rfl rfl rfl rfl }

theorem Kept.writeSr {i : SrId} (h : Kept e s) (hw : (s.sr i).writable = true) (hf : (s.sr i).full = false) :
    Kept e (s.setSr i (s.sr i).advance.congest) :=
  { h with
    srs := s.sr_setSr_ind i _ (h.srs i).advance.congest h.srs
    holding := fun n hn => by
      obtain ⟨ha, hw', hf'⟩ := h.holding n hn
      have hne : i ≠ (s.sensor n).ring := fun he => by rw [← he, hf] at hf'; cases hf'
      refine ⟨ha, ?_⟩
      change (State.sr _ (s.sensor n).ring).writable = true ∧ (State.sr _ (s.sensor n).ring).full = true
      rw [State.sr_setSr_ne _ _ _ _ hne]
      exact ⟨hw', hf'⟩
    levels := s.sr_setSr_ind i _ ((h.levels i).written (h.srs i) hw hf) h.levels
    account := h.account.same rfl rfl rfl rfl rfl }

theorem Kept.post {k : SlotId} {x : Slot} (h : Kept e s) (ho : (s.slot k).isOpen = true) (hx : x.state = .done)
    (hr : x.rq = (s.slot k).rq) (hc : x.cr = (s.slot k).cr) (ha : (s.cr (s.slot k).cr).state = .active) :
    Kept e ((s.setSlot k x).setCr (s.slot k).cr
      { (s.cr (s.slot k).cr).advance with reserved := (s.cr (s.slot k).cr).reserved - 1 }) := by
  have hne : (s.cr (s.slot k).cr).state ≠ .absent := by simp [ha]
  have hroom := h.account.room _ hne
  have hpos := creditsOf_pos ho
  rw [← h.account.reserved] at hpos
  have hsize := (h.crs _).size hne
  have hadv := CompletionRing.posted_advance _ ((h.crs _).producer hne) ((h.crs _).consumer hne) (by omega)
  exact
  { h with
    crs := (s.setSlot k x).cr_setCr_ind _ _ ((h.crs _).advance.reserved _) h.crs
    account := h.account.done ho hx hr hc rfl
      (by
        change (s.cr (s.slot k).cr).advance.posted + ((s.cr (s.slot k).cr).reserved - 1) ≤
          (s.cr (s.slot k).cr).advance.size - 1
        rw [hadv, CompletionRing.advance_size]
        omega)
      (by change (s.cr (s.slot k).cr).advance.state ≠ _; rw [CompletionRing.advance_state]; exact hne) }

theorem Kept.discard {k : SlotId} {x : Slot} (h : Kept e s) (ho : (s.slot k).isOpen = true) (hx : x.state = .done)
    (hr : x.rq = (s.slot k).rq) (hc : x.cr = (s.slot k).cr) (ha : (s.cr (s.slot k).cr).state = .faulted) :
    Kept e ((s.setSlot k x).setCr (s.slot k).cr
      { s.cr (s.slot k).cr with reserved := (s.cr (s.slot k).cr).reserved - 1 }) := by
  have hne : (s.cr (s.slot k).cr).state ≠ .absent := by simp [ha]
  have hroom := h.account.room _ hne
  exact
  { h with
    crs := (s.setSlot k x).cr_setCr_ind _ _ ((h.crs _).reserved _) h.crs
    account := h.account.done ho hx hr hc rfl
      (by
        change (s.cr (s.slot k).cr).posted + ((s.cr (s.slot k).cr).reserved - 1) ≤ (s.cr (s.slot k).cr).size - 1
        omega) hne }

theorem Kept.closed (e : Option PortId) : Closed (Kept e) where
  scheds _ _ hv h := { h with scheds := fun p => hv p (h.scheds p), account := h.account.same rfl rfl rfl rfl rfl }
  sensors _ _ hv ht h := h.sensorsChange hv ht
  hold _ _ _ hu hw hf hl h := h.hold hu hw hf hl
  lines _ _ hv h := { h with lines := fun l => hv l (h.lines l), account := h.account.same rfl rfl rfl rfl rfl }
  setRq {s} r x hx hs h :=
    { h with rqs := s.rq_setRq_ind r x (hx (h.rqs r)) h.rqs, account := h.account.setRq r x hs }
  dropRq s r hz h :=
    { h with
      rqs := s.rq_setRq_ind r _ RequestRing.initial_ok h.rqs
      account := h.account.emptyRq hz rfl fun ha => absurd rfl ha }
  setCr {s} c x hx hs h :=
    { h with crs := s.cr_setCr_ind c x (hx (h.crs c)) h.crs, account := h.account.setCr c x hs }
  setSr _ _ hx hs h := h.setSr hx hs
  writeSr _ _ hw hf h := h.writeSr hw hf
  setSlot k x hs h := { h with account := h.account.setSlot k x hs }
  post _ _ _ ho hx hr hc ha h := h.post ho hx hr hc ha
  discard _ _ _ ho hx hr hc ha h := h.discard ho hx hr hc ha
  lose _ _ _ ho _ _ _ ha h := absurd ha (h.account.cr_of_slot (Slot.isOpen_ne ho).1)
  free s k hd h :=
    { h with
      rqs := (s.setSlot k .initial).rq_setRq_ind _ _ ((h.rqs _).keep rfl rfl rfl rfl rfl) h.rqs
      account := h.account.free hd }
  slotOrder _ _ h := { h with account := h.account.same rfl rfl rfl rfl rfl }
  fetch _ _ hv h :=
    { h with account := h.account.congr (fun _ => .refl _) (fun _ => .refl _) (fun _ => .refl _) hv rfl }
  nextIoRing _ _ hv h := { h with turn := hv h.turn, account := h.account.same rfl rfl rfl rfl rfl }
  axInbox _ _ h := { h with account := h.account.same rfl rfl rfl rfl rfl }
  axInFlight _ _ hv h :=
    { h with inFlight := h.inFlight.sublist (hv.map _), account := h.account.same rfl rfl rfl rfl rfl }
  msix _ _ h := { h with account := h.account.same rfl rfl rfl rfl rfl }
  outbox _ _ h := { h with account := h.account.same rfl rfl rfl rfl rfl }
  discarded _ _ h := { h with account := h.account.same rfl rfl rfl rfl rfl }
  sent _ _ h := { h with account := h.account.same rfl rfl rfl rfl rfl }
  raise s src detail time h := by
    have hn := h.notices.raise src detail time
    rw [raiseNotice_frame]
    exact { h with notices := hn, account := h.account.same rfl rfl rfl rfl rfl }
  dropNotices _ _ hl h :=
    { h with
      notices := ⟨h.notices.distinct.sublist (hl.sublist.map _), fun n hn => h.notices.counted n (hl.subset hn)⟩
      account := h.account.same rfl rfl rfl rfl rfl }
  links _ _ hv hst h :=
    { h with
      links := fun p => hv p (h.links p)
      acquiring := fun n ha => (h.acquiring n ha).imp_left fun hp => (congrArg LinkState.polls (hst _)).trans hp
      account := h.account.same rfl rfl rfl rfl rfl }

/-! ### A head update (R110) -/

/-- One change of sensors and sample rings after another is such a change. -/
theorem stores_frame_trans {u : State} (h : t = { s with sensors := t.sensors, srs := t.srs, outbox := t.outbox, msix := t.msix })
    (k : u = { t with sensors := u.sensors, srs := u.srs, outbox := u.outbox, msix := u.msix }) :
    u = { s with sensors := u.sensors, srs := u.srs, outbox := u.outbox, msix := u.msix } :=
  k.trans (by rw [h])

/-- Writing a record touches sensors, sample rings, the outbox and MSI-X alone. -/
theorem writeRecord_frame (n : SensorId) (r : SampleRecord) (s : State) : writeRecord n r s =
    { s with sensors := (writeRecord n r s).sensors, srs := (writeRecord n r s).srs
             outbox := (writeRecord n r s).outbox, msix := (writeRecord n r s).msix } := by
  obtain ⟨it, ms, m, he, -⟩ := writeRecord_effect n r s
  rw [he]

/-- From the state `s₀` of the stored index to `s`, held records of ring `i` have been written; the sensors of `L` are still
to drain. -/
structure Draining (i : SrId) (L : List SensorId) (s₀ s : State) : Prop where
  frame : s = { s₀ with sensors := s.sensors, srs := s.srs, outbox := s.outbox, msix := s.msix }
  states : ∀ n, (s.sensor n).state = (s₀.sensor n).state
  sensors : ∀ n, (s.sensor n).Ok
  srs : ∀ r, (s.sr r).Ok
  writable : (s.sr i).writable = true
  holding : ∀ n, (s.sensor n).held ≠ [] → (s.sensor n).state ≠ .unbound ∧
    (s.sr (s.sensor n).ring).writable = true ∧
    ((s.sr (s.sensor n).ring).full = true ∨ ((s.sensor n).ring = i ∧ n ∈ L))
  others : ∀ r, r ≠ i → (s.sr r).Levelled
  active : (s.sr i).state = .active → (s.sr i).lowWater ≤ (s.sr i).free

/-- The unsignalled count of a signalled record's ring (R166). -/
theorem count_of_signalled {u t : State} {v : VectorId} {count time : Nat} {notify : Bool} {it it' : Interrupt}
    {ms : List OutItem} (h : Signalled u t v count time notify it it' ms) (hc : count ≤ 255) : it'.count ≤ 254 := by
  unfold Signalled at h
  split at h
  · rw [h.1]; decide
  · rename_i hn
    rw [h.1]
    omega

/-- Writing a record of sensor `n` touches the sample ring of that sensor alone (R105, R166). -/
theorem writeRecord_sr (n : SensorId) (r : SampleRecord) (s : State)
    (hc : (s.sr (s.sensor n).ring).coalescingCount ≤ 255) : ∃ it : Interrupt, it.count ≤ 254 ∧
    ∀ j, (writeRecord n r s).sr j =
      if (s.sensor n).ring = j then { (s.sr (s.sensor n).ring).advance.congest with interrupt := it } else s.sr j := by
  obtain ⟨it, ms, m, he, hsig⟩ := writeRecord_effect n r s
  refine ⟨it, count_of_signalled (hsig { s with msix := m } rfl) hc, fun j => ?_⟩
  rw [he]
  exact s.sr_setSr (s.sensor n).ring j _

theorem Draining.writeRecord {i : SrId} {L : List SensorId} {s₀ s : State} {n : SensorId} (r : SampleRecord)
    (h : Draining i L s₀ s) (hi : (s.sensor n).ring = i) (hf : (s.sr i).full = false) :
    Draining i L s₀ (Machine.writeRecord n r s) := by
  subst hi
  obtain ⟨it, hit, hsr⟩ := writeRecord_sr n r s (h.srs _).coalescing
  have hsen := writeRecord_sensor n r s
  have hcases : ∀ m, (Machine.writeRecord n r s).sensor m = s.sensor m ∨
      (m = n ∧ ∃ x, (Machine.writeRecord n r s).sensor m = { s.sensor n with sequence := x, missed := 0, rejected := 0, withheld := 0 }) := by
    intro m
    rw [hsen]
    split
    · rename_i hm; exact .inr ⟨hm.symm, _, rfl⟩
    · exact .inl rfl
  have hkeep : ∀ m, ((Machine.writeRecord n r s).sensor m).state = (s.sensor m).state ∧
      ((Machine.writeRecord n r s).sensor m).ring = (s.sensor m).ring ∧
      ((Machine.writeRecord n r s).sensor m).held = (s.sensor m).held := fun m => by
    rcases hcases m with he | ⟨rfl, x, he⟩ <;> rw [he] <;> exact ⟨rfl, rfl, rfl⟩
  refine ⟨?_, fun m => (hkeep m).1.trans (h.states m), fun m => ?_, fun j => ?_, ?_, fun m hm => ?_, fun j hj => ?_, ?_⟩
  · exact stores_frame_trans h.frame (writeRecord_frame n r s)
  · rcases hcases m with he | ⟨rfl, x, he⟩
    · rw [he]; exact h.sensors m
    · rw [he]; exact (h.sensors m).written x
  · rw [hsr]
    split
    · exact { (h.srs _).advance.congest with unsignalled := hit }
    · exact h.srs j
  · rw [hsr, if_pos rfl]
    exact (s.sr (s.sensor n).ring).advance_congest_writable.trans h.writable
  · obtain ⟨hst, hring, hheld⟩ := hkeep m
    rw [hheld] at hm
    obtain ⟨h1, h2, h3⟩ := h.holding m hm
    rw [hst, hring, hsr]
    split
    · rename_i he
      rw [← he, hf] at h3
      exact ⟨h1, (SampleRing.advance_congest_writable _).trans h.writable,
        .inr (h3.resolve_left Bool.false_ne_true |>.imp_left fun _ => he.symm)⟩
    · exact ⟨h1, h2, h3⟩
  · rw [hsr, if_neg hj.symm]
    exact h.others j hj
  · rw [hsr, if_pos rfl]
    obtain ⟨-, hact, -⟩ := SampleRing.written_levels (h.srs _) h.writable hf
    have hlow := (s.sr (s.sensor n).ring).advance.congest_keeps.2.2.2.1
    rw [SampleRing.advance_lowWater] at hlow
    exact fun ha => hlow.trans_le (hact ha)

/-- A drained sensor's queue takes what is left, which stays held only where the ring is full. -/
theorem Draining.setHeld {i : SrId} {L : List SensorId} {s₀ s : State} {n : SensorId} {l : List SampleRecord}
    (h : Draining i (n :: L) s₀ s) (hi : (s.sensor n).ring = i) (hu : (s.sensor n).state ≠ .unbound)
    (hl : l.length ≤ Config.heldPerSensor) (hf : l ≠ [] → (s.sr i).full = true) :
    Draining i L s₀ (s.setSensor n { s.sensor n with held := l }) where
  frame := congrArg (State.setSensor · n { s.sensor n with held := l }) h.frame
  states := s.sensor_setSensor_ind n _ (Q := fun m c => c.state = (s₀.sensor m).state) (h.states n) h.states
  sensors := s.sensor_setSensor_ind n _ ((h.sensors n).setHeld hl) h.sensors
  srs := h.srs
  writable := h.writable
  others := h.others
  active := h.active
  holding m := by
    rw [State.sensor_setSensor]
    split
    · intro hne
      refine ⟨hu, ?_⟩
      change (s.sr (s.sensor n).ring).writable = true ∧ ((s.sr (s.sensor n).ring).full = true ∨ _)
      rw [hi]
      exact ⟨h.writable, .inl (hf hne)⟩
    · rename_i hm
      intro hne
      obtain ⟨h1, h2, h3⟩ := h.holding m hne
      exact ⟨h1, h2, h3.imp_right fun h4 => ⟨h4.1, (List.mem_cons.1 h4.2).resolve_left (Ne.symm hm)⟩⟩

theorem Draining.drainHeld {i : SrId} {L : List SensorId} {s₀ : State} {n : SensorId} :
    ∀ (l : List SampleRecord) (s : State), Draining i (n :: L) s₀ s → (s.sensor n).ring = i →
      (s.sensor n).state ≠ .unbound → l.length ≤ Config.heldPerSensor → Draining i L s₀ (drainHeld n l s)
  | [], _, h, hi, hu, hl => h.setHeld hi hu hl fun hne => absurd rfl hne
  | r :: rest, s, h, hi, hu, hl => by
    unfold Machine.drainHeld
    split
    · rename_i hf
      exact h.setHeld hi hu hl fun _ => hi ▸ hf
    · rename_i hf
      rw [Bool.not_eq_true, hi] at hf
      refine Draining.drainHeld rest _ (h.writeRecord r hi hf) ?_ ?_ ((Nat.le_succ _).trans hl)
      · rw [writeRecord_sensor, if_pos rfl]; exact hi
      · rw [writeRecord_sensor, if_pos rfl]; exact hu

theorem Draining.drainRing {i : SrId} {s₀ : State} : ∀ (L : List SensorId) (s : State), Draining i L s₀ s →
    Draining i [] s₀ (L.foldl (fun s n =>
      let c := s.sensor n
      if c.ring = i ∧ c.state ≠ .unbound then Machine.drainHeld n c.held s else s) s)
  | [], _, h => h
  | n :: L, s, h => by
    rw [List.foldl_cons]
    refine Draining.drainRing L _ ?_
    dsimp only
    split
    · rename_i hc
      exact h.drainHeld _ _ hc.1 hc.2 (h.sensors n).held
    · rename_i hc
      refine { h with holding := fun m hm => ?_ }
      obtain ⟨h1, h2, h3⟩ := h.holding m hm
      refine ⟨h1, h2, h3.imp_right fun h4 => ⟨h4.1, (List.mem_cons.1 h4.2).resolve_left fun he => ?_⟩⟩
      subst he
      exact hc ⟨h4.1, h1⟩

/-- The resume check ends a head update with the levels of R111. -/
theorem SampleRing.tryResume_levelled {d : SampleRing} (h : d.Ok) (hw : d.writable = true)
    (ha : d.state = .active → d.lowWater ≤ d.free) : d.tryResume.Levelled := by
  obtain ⟨-, hfree, -, hlow, hres, -⟩ := d.tryResume_keeps
  have hne : d.state ≠ .absent := by intro he; simp [SampleRing.writable, he] at hw
  have hlv := h.levels hne
  refine ⟨fun hact => ?_, fun hcon => ?_⟩
  · rw [hlow, hfree]
    unfold SampleRing.tryResume at hact
    split at hact
    · rename_i hr; omega
    · exact ha hact
  · rw [hres, hfree]
    unfold SampleRing.tryResume at hcon
    split at hcon
    · cases hcon
    · rename_i hr
      by_contra hge
      exact hr ⟨hcon, by omega⟩

theorem SampleRing.free_consumed {d : SampleRing} {index : Nat} (h : d.Ok) (ha : d.state ≠ .absent) (hi : index < d.size)
    (hp : headPasses index d.consumer d.producer d.size = true) : d.free ≤ { d with consumer := index }.free := by
  have := unconsumed_consumed index d.producer d.consumer d.size hi (h.producer ha) (h.consumer ha)
    (of_decide_eq_true hp)
  unfold SampleRing.free SampleRing.used
  dsimp only
  omega

theorem Kept.headUpdate {i : SrId} {index : Nat} (h : Kept none s) (ha : (s.sr i).state ≠ .absent)
    (hi : index < (s.sr i).size)
    (hp : headPasses index (s.sr i).consumer (s.sr i).producer (s.sr i).size = true) :
    Kept none (sampleHeadUpdate i index s) := by
  have hok := (h.srs i).consumed index fun _ => hi
  have hsrs := s.sr_setSr_ind i { s.sr i with consumer := index } (Q := fun _ d => d.Ok) hok h.srs
  unfold sampleHeadUpdate
  dsimp only
  split
  · rename_i hw
    rw [State.sr_setSr_same] at hw
    have hstart : Draining i allSensors s (s.setSr i { s.sr i with consumer := index }) :=
      { frame := rfl
        states := fun _ => rfl
        sensors := h.sensors
        srs := hsrs
        writable := by rw [State.sr_setSr_same]; exact hw
        holding := fun n hn => by
          obtain ⟨h1, h2, h3⟩ := h.holding n hn
          refine ⟨h1, ?_⟩
          rw [State.sensor_setSr, State.sr_setSr]
          split
          · rename_i he; exact ⟨hw, .inr ⟨he.symm, List.mem_finRange n⟩⟩
          · exact ⟨h2, .inl h3⟩
        others := fun r hr => by rw [State.sr_setSr_ne _ _ _ _ hr.symm]; exact h.levels r
        active := by
          rw [State.sr_setSr_same]
          intro hact
          exact ((h.levels i).active hact).trans (SampleRing.free_consumed (h.srs i) ha hi hp) }
    have hend : Draining i [] s (drainRing i (s.setSr i { s.sr i with consumer := index })) :=
      Draining.drainRing allSensors _ hstart
    generalize drainRing i (s.setSr i { s.sr i with consumer := index }) = v at hend ⊢
    obtain ⟨-, -, hfull, -, -, hwr⟩ := (v.sr i).tryResume_keeps
    refine h.stores (congrArg (State.setSr · i (v.sr i).tryResume) hend.frame) hend.sensors hend.states
      (v.sr_setSr_ind i _ (hend.srs i).tryResume hend.srs) (fun n hn => ?_) (fun r => ?_)
    · obtain ⟨h1, h2, h3⟩ := hend.holding n hn
      have h3 := h3.resolve_right (by simp)
      refine ⟨h1, ?_⟩
      rw [State.sensor_setSr, State.sr_setSr]
      split
      · rename_i he
        rw [hwr, hfull, he]
        exact ⟨h2, h3⟩
      · exact ⟨h2, h3⟩
    · rw [State.sr_setSr]
      split
      · exact SampleRing.tryResume_levelled (hend.srs i) hend.writable hend.active
      · rename_i hne; exact hend.others r (Ne.symm hne)
  · rename_i hw
    rw [State.sr_setSr_same] at hw
    have hst : (s.sr i).state ≠ .active ∧ (s.sr i).state ≠ .congested :=
      ⟨fun he => hw (by simp [SampleRing.writable, he]), fun he => hw (by simp [SampleRing.writable, he])⟩
    refine h.stores rfl h.sensors (fun _ => rfl) hsrs (fun n hn => ?_) (s.sr_setSr_ind i _ ?_ h.levels)
    · obtain ⟨h1, h2, h3⟩ := h.holding n hn
      refine ⟨h1, ?_⟩
      rw [State.sensor_setSr, State.sr_setSr_ne _ _ _ _ fun he : i = (s.sensor n).ring =>
        hw (by change (s.sr i).writable = true; rw [he]; exact h2)]
      exact ⟨h2, h3⟩
    · exact ⟨fun he => absurd he hst.1, fun he => absurd he hst.2⟩

/-- A sample ring is FAULTED and the held queues of its sensors are empty (R112). -/
theorem Kept.emptied {i : SrId} {x : SampleRing} (h : Kept e s) (hx : x.Ok) (hst : x.state = .faulted)
    (ht : t = { s with sensors := t.sensors, srs := t.srs, outbox := t.outbox, msix := t.msix })
    (hsen : ∀ n, t.sensor n = if (s.sensor n).ring = i then { s.sensor n with held := [] } else s.sensor n)
    (hsr : ∀ j, t.sr j = (s.setSr i x).sr j) : Kept e t := by
  refine h.stores ht (fun n => ?_) (fun n => ?_) (fun j => ?_) (fun n hn => ?_) (fun j => ?_)
  · rw [hsen]
    split
    · exact (h.sensors n).setHeld (by decide)
    · exact h.sensors n
  · rw [hsen]
    split <;> rfl
  · rw [hsr]
    exact s.sr_setSr_ind i x (Q := fun _ d => d.Ok) hx h.srs j
  · rw [hsen] at hn ⊢
    split at hn
    · exact absurd rfl hn
    · rename_i hr
      rw [if_neg hr, hsr, State.sr_setSr_ne _ _ _ _ (Ne.symm hr)]
      exact h.holding n hn
  · rw [hsr]
    exact s.sr_setSr_ind i x (Q := fun _ d => d.Levelled)
      ⟨fun he => absurd (hst.symm.trans he) (by decide), fun he => absurd (hst.symm.trans he) (by decide)⟩ h.levels j

/-- A write to a sample ring ended in error: the ring is FAULTED and its held queues are empty (R112). -/
theorem Kept.srFault {i : SrId} {entry : Nat} (h : Kept none s) : Kept none (sampleRingFault i entry s) := by
  unfold sampleRingFault
  dsimp only
  split
  · rename_i hw
    have ha : (s.sr i).state ≠ .absent := by intro he; simp [SampleRing.writable, he] at hw
    refine (Kept.closed none).raise _ _ _ _ (h.emptied ((h.srs i).faulted ha entry) rfl rfl (fun n => ?_) fun _ => rfl)
    change (s.sensors.map _)[n.val] = _
    rw [Vector.getElem_map]
    rfl
  · exact h

end Sys2Proof.Machine
end

section
set_option Elab.async false
/-! SUPPORT. `Kept` survives every move of a step, and the four commands that write the host's own words keep it too: every
step keeps `Safe`. -/

namespace Sys2Proof.Machine

open Sys2Proof.Claims

variable {s t : State} {e : Option PortId}

/-! ### Moves of single commands -/

theorem Kept.relink {p : PortId} {x : LinkEngine} (h : Kept e s) (hx : (s.link p).Ok → x.Ok)
    (hp : (s.link p).state.polls = true → x.state.polls = true ∨ e = some p) : Kept e (s.setLink p x) :=
  { h with
    links := fun q => by
      rw [State.link_setLink]
      split
      · exact hx (h.links p)
      · exact h.links q
    acquiring := fun n ha => by
      rw [State.link_setLink]
      split
      · rename_i hq
        subst hq
        exact (h.acquiring n ha).elim hp .inr
      · exact h.acquiring n ha
    account := h.account.same rfl rfl rfl rfl rfl }

theorem Kept.acquire {n : SensorId} {x : Sensor} (h : Kept e s) (hx : (s.sensor n).Ok → x.Ok)
    (hst : x.state = .acquiring) (hr : x.ring = (s.sensor n).ring) (hh : x.held = (s.sensor n).held)
    (hp : (s.link (portOf n)).state.polls = true ∨ e = some (portOf n)) : Kept e (s.setSensor n x) :=
  { h with
    sensors := s.sensor_setSensor_ind n x (hx (h.sensors n)) h.sensors
    acquiring := s.sensor_setSensor_ind n x (Q := fun m c => c.state = .acquiring →
      (s.link (portOf m)).state.polls = true ∨ e = some (portOf m)) (fun _ => hp) h.acquiring
    holding := s.sensor_setSensor_ind n x (Q := fun _ c => c.held ≠ [] →
      c.state ≠ .unbound ∧ (s.sr c.ring).writable = true ∧ (s.sr c.ring).full = true)
      (fun hne => ⟨by rw [hst]; decide, by rw [hr]; exact (h.holding n (hh ▸ hne)).2⟩) h.holding
    account := h.account.same rfl rfl rfl rfl rfl }

theorem CompletionRing.posted_zero (d : CompletionRing) (hp : d.producer = 0) (hc : d.consumer = 0) : d.posted = 0 := by
  simp [CompletionRing.posted, unconsumed, hp, hc]

/-- No request ring names a completion ring that is ABSENT. -/
theorem Account.unnamed (h : Account s) {c : CrId} (ha : (s.cr c).state = .absent) (r : RqId)
    (hr : (s.rq r).state ≠ .absent) : (s.rq r).boundCr ≠ some c := fun hb => by
  obtain ⟨d, hd, hne⟩ := h.bound r hr
  rw [hb, Option.some.injEq] at hd
  exact hne (hd ▸ ha)

theorem unnamed_of_not_inUse {c : CrId} (h : crInUse c s = false) (r : RqId) (hr : (s.rq r).state ≠ .absent) :
    (s.rq r).boundCr ≠ some c := fun hb => by
  have : crInUse c s = true := by
    unfold crInUse
    refine List.any_eq_true.2 ⟨s.rq r, ?_, by simpa [hb] using hr⟩
    exact Vector.mem_toList_iff.2 (Vector.getElem_mem r.isLt)
  rw [this] at h
  cases h

theorem unnamed_of_not_srInUse {i : SrId} (h : srInUse i s = false) (n : SensorId)
    (hn : (s.sensor n).state ≠ .unbound) : (s.sensor n).ring ≠ i := fun hr => by
  have : srInUse i s = true := by
    unfold srInUse
    refine List.any_eq_true.2 ⟨s.sensor n, ?_, by simpa [hr] using hn⟩
    exact Vector.mem_toList_iff.2 (Vector.getElem_mem n.isLt)
  rw [this] at h
  cases h

theorem Kept.createRq {r : RqId} {base size : Nat} {c : CrId} (h : Kept e s) (hr : (s.rq r).state = .absent)
    (hc : (s.cr c).state = .active) (hw : s.window.control = .ready) (hz : 2 ≤ size ∧ size ≤ 4096) :
    Kept e (Machine.createRq r base size c s) :=
  { h with
    rqs := s.rq_setRq_ind r _ (RequestRing.created_ok base size c hz) h.rqs
    account := h.account.emptyRq (h.account.ofAbsent r hr) rfl fun _ => ⟨⟨c, rfl, by rw [hc]; decide⟩, hw⟩ }

theorem Kept.createCr {r : CrId} {base size : Nat} {v : VectorId} {count time : Nat} (h : Kept e s)
    (hr : (s.cr r).state = .absent) (hw : s.window.control = .ready) (hz : 2 ≤ size ∧ size ≤ 4096) (hc : count ≤ 255) :
    Kept e (Machine.createCr r base size v count time s) :=
  { h with
    crs := s.cr_setCr_ind r _ (CompletionRing.created_ok base size v count time hz hc) h.crs
    account := h.account.emptyCr (h.account.unnamed hr) (CompletionRing.posted_zero _ rfl rfl) rfl fun _ => hw }

theorem SampleRing.initial_levelled : SampleRing.initial.Levelled :=
  ⟨fun h => absurd h (by decide), fun h => absurd h (by decide)⟩

/-- A sample ring takes another descriptor where no sensor holds records for it. -/
theorem Kept.replaceSr {i : SrId} {x : SampleRing} (h : Kept e s) (hx : x.Ok) (hl : x.Levelled)
    (hn : ∀ n, (s.sensor n).held ≠ [] → (s.sensor n).ring ≠ i) : Kept e (s.setSr i x) :=
  { h with
    srs := s.sr_setSr_ind i x hx h.srs
    levels := s.sr_setSr_ind i x hl h.levels
    holding := fun n hne => by
      obtain ⟨h1, h2⟩ := h.holding n hne
      refine ⟨h1, ?_⟩
      change (State.sr _ (s.sensor n).ring).writable = true ∧ (State.sr _ (s.sensor n).ring).full = true
      rw [State.sr_setSr_ne _ _ _ _ (hn n hne).symm]
      exact h2
    account := h.account.same rfl rfl rfl rfl rfl }

theorem Kept.createSr {i : SrId} {base size : Nat} {v : VectorId} {count time low high : Nat} (h : Kept e s)
    (ha : (s.sr i).state = .absent) (hz : 16 ≤ size ∧ size ≤ 65536) (hc : count ≤ 255)
    (hw : 1 ≤ low ∧ low < high ∧ high + 1 ≤ size) : Kept e (Machine.createSr i base size v count time low high s) := by
  refine h.replaceSr (SampleRing.created_ok base size v count time low high hz hc hw) ⟨fun _ => ?_, fun hc => ?_⟩
    fun n hne hr => ?_
  · simp only [SampleRing.free, SampleRing.used, unconsumed, SampleRing.initial, Nat.zero_add, Nat.sub_zero, Nat.mod_self]
    omega
  · cases hc
  · have := (h.holding n hne).2.1
    rw [hr] at this
    simp [SampleRing.writable, ha] at this

theorem Kept.fetchIssued {f : Fetch} (h : Kept none s) (hl : f.live = true) (hn : s.fetch = none)
    (he : eligible f.rq s = true) (hb : (s.rq f.rq).boundCr = some f.cr) (hk : (s.slot f.slot).state = .free) :
    Kept none { (s.setRq f.rq { s.rq f.rq with slotsHeld := (s.rq f.rq).slotsHeld + 1 }).setCr f.cr
      { s.cr f.cr with reserved := (s.cr f.cr).reserved + 1 } with fetch := some f } := by
  unfold eligible at he
  simp only [Bool.and_eq_true, beq_iff_eq, bne_iff_ne, decide_eq_true_eq, Bool.or_eq_true, hb, Option.any_some] at he
  obtain ⟨⟨⟨⟨⟨hact, -⟩, -⟩, hslots⟩, hio⟩, -, hroom⟩ := he
  unfold CompletionRing.unreserved at hroom
  exact
  { h with
    rqs := s.rq_setRq_ind _ _ ((h.rqs _).keep rfl rfl rfl rfl rfl) h.rqs
    crs := (s.setRq f.rq _).cr_setCr_ind _ _ ((h.crs _).reserved _) h.crs
    account := h.account.fetchIssued hl hn hslots (fun hne => hio.resolve_left hne) (by rw [hact]; decide) hb
      (by omega) hk }

theorem Kept.window {w : Window} (h : Kept e s)
    (hw : w.control = s.window.control ∨ s.window.control ≠ .ready ∨
      (∀ r, (s.rq r).state = .absent) ∧ ∀ c, (s.cr c).state = .absent) : Kept e { s with window := w } :=
  { h with
    account := { h.account with
      off := fun hn => by
        rcases hw with he | hne | hall
        · exact h.account.off (he ▸ hn)
        · exact h.account.off hne
        · exact hall } }

theorem Kept.enable (h : Kept e s) (hoff : s.window.control = .off) : Kept e (takeEnable s) := by
  obtain ⟨hr, hc⟩ := h.account.off (by rw [hoff]; decide)
  unfold takeEnable
  dsimp only
  split
  · rename_i hv
    obtain ⟨hrq, hcr⟩ := Window.adminValid_sizes hv
    have h1 := (h.window (w := { s.window with fatal := false, configError := false, control := .ready })
      (.inr (.inr ⟨hr, hc⟩))).createCr (r := 0) (base := s.window.adminCrBase.toNat) (v := 0) (count := 1) (time := 0)
        (hc 0) rfl hcr (by decide)
    exact h1.createRq (hr 0) (congrArg CompletionRing.state (State.cr_setCr_same _ _ _)) rfl hrq
  · exact h.window (.inr (.inr ⟨hr, hc⟩))

/-- The blocks at their halt values (R169). -/
theorem Kept.halted (hl : ∀ p, t.link p = .initial) (hs : ∀ p, t.sched p = .initial) (hn : ∀ n, t.sensor n = .initial)
    (hli : ∀ l, (t.line l).Ok) (hr : ∀ r, t.rq r = .initial) (hc : ∀ c, t.cr c = .initial)
    (hsr : ∀ i, t.sr i = .initial) (hk : ∀ k, t.slot k = .initial) (hf : ∀ f, t.fetch = some f → f.live = false)
    (hno : t.notices = []) (htu : t.nextIoRing ≠ 0) (hax : t.axInFlight = []) : Kept e t where
  links p := by rw [hl]; exact LinkEngine.initial_ok
  scheds p := by rw [hs]; exact Scheduler.initial_ok p
  sensors n := by rw [hn]; exact Sensor.initial_ok
  lines := hli
  rqs r := by rw [hr]; exact RequestRing.initial_ok
  crs c := by rw [hc]; exact CompletionRing.initial_ok
  srs i := by rw [hsr]; exact SampleRing.initial_ok
  notices := by rw [hno]; exact ⟨List.nodup_nil, fun _ h => absurd h List.not_mem_nil⟩
  turn := htu
  account := .ofNothing hr hc hk hf
  acquiring n ha := by rw [hn] at ha; cases ha
  holding n hne := by rw [hn] at hne; exact absurd rfl hne
  levels i := by rw [hsr]; exact SampleRing.initial_levelled
  inFlight := by rw [hax]; exact List.nodup_nil

theorem haltBlocks_line (s : State) (l : LineId) : (haltBlocks s).line l = .initial (s.line l).input := by
  change (s.lines.map _)[l.val] = _
  rw [Vector.getElem_map]
  rfl

theorem haltBlocks_fetch {f : Fetch} (hf : (haltBlocks s).fetch = some f) : f.live = false := by
  obtain ⟨g, -, rfl⟩ := Option.map_eq_some_iff.1 hf
  rfl

/-- An entry of a table whose entries are alike. -/
theorem Vector.getElem_replicate_fin {α : Type} {n : Nat} (a : α) (i : Fin n) : (Vector.replicate n a)[i] = a :=
  Vector.getElem_replicate i.isLt

theorem Kept.halt : Kept e (haltBlocks s) :=
  .halted (Vector.getElem_replicate_fin _) (Vector.getElem_replicate_fin _) (Vector.getElem_replicate_fin _)
    (fun l => by rw [haltBlocks_line]; exact CaptureLine.initial_ok _) (Vector.getElem_replicate_fin _)
    (Vector.getElem_replicate_fin _) (Vector.getElem_replicate_fin _) (Vector.getElem_replicate_fin _)
    (fun _ => haltBlocks_fetch) rfl (by change (1 : RqId) ≠ 0; decide) rfl

theorem Kept.steps : Steps Kept where
  closed := Kept.closed
  weaken p h := { h with acquiring := fun n ha => .inl ((h.acquiring n ha).resolve_right (by simp)) }
  settled p hd h := { h with
    acquiring := fun n ha => .inl ((h.acquiring n ha).elim id fun he => by
      obtain rfl : p = portOf n := Option.some.inj he
      exact hd.elim id fun hq => absurd ha (hq n ((mem_sensorsOf _ n).2 rfl))) }
  relink _ _ _ hx hp h := h.relink hx hp
  acquire _ _ _ hx hst hr hh hp h := h.acquire hx hst hr hh hp
  headUpdate _ _ ha hi hp h := h.headUpdate ha hi hp
  srFault _ _ h := h.srFault
  createRq _ _ _ _ _ hk hr hc hz h := h.createRq hr hc (h.account.ready (by rw [hk]; decide)) hz
  createCr _ _ _ _ _ _ _ hk hr hz hc h := h.createCr hr (h.account.ready (by rw [hk]; decide)) hz hc
  createSr _ _ _ _ _ _ _ _ ha hz hc hw h := h.createSr ha hz hc hw
  deleteCr {s} r hu h :=
    { h with
      crs := s.cr_setCr_ind r _ CompletionRing.initial_ok h.crs
      account := h.account.emptyCr (unnamed_of_not_inUse hu) (CompletionRing.posted_zero _ rfl rfl) rfl
        fun ha => absurd rfl ha }
  deleteSr i hu h := h.replaceSr SampleRing.initial_ok SampleRing.initial_levelled
    fun n hne => unnamed_of_not_srInUse hu n (h.holding n hne).1
  crConsumed {s} r index ha hi hp h :=
    { h with
      crs := s.cr_setCr_ind r _ ((h.crs r).consumed index hi) h.crs
      account := h.account.entries rfl .rfl (by
        have hroom := h.account.room r ha
        have := unconsumed_consumed index _ _ _ hi ((h.crs r).producer ha) ((h.crs r).consumer ha) (of_decide_eq_true hp)
        unfold CompletionRing.posted at hroom ⊢
        dsimp only
        omega) }
  crNotice {s} ha hu h :=
    { h with
      crs := s.cr_setCr_ind 0 _ (h.crs 0).advance h.crs
      account := h.account.entries (CompletionRing.advance_reserved _) (by rw [CompletionRing.advance_state]) (by
        have hne : (s.cr 0).state ≠ .absent := by rw [ha]; decide
        unfold CompletionRing.unreserved at hu
        rw [CompletionRing.posted_advance _ ((h.crs 0).producer hne) ((h.crs 0).consumer hne) (by omega),
          CompletionRing.advance_reserved, CompletionRing.advance_size]
        omega) }
  fetchIssued _ hl hn he hb hk h := h.fetchIssued hl hn he hb hk
  fetchReturned {s} f hl hf h :=
    { h with
      rqs := ({ s with fetch := none }.setCr f.cr _).rq_setRq_ind _ _ ((h.rqs _).keep rfl rfl rfl rfl rfl) h.rqs
      crs := State.cr_setCr_ind { s with fetch := none } _ _ ((h.crs _).reserved _) h.crs
      account := h.account.fetchReturned hl hf }
  fetchArrived _ _ hl hf ho hr hc h := { h with account := h.account.fetchArrived hl hf ho hr hc }
  fetchDropped _ hl hf h := { h with account := h.account.fetchDropped hl hf }
  inFlightMore {s} k kind o ho h :=
    { h with
      account := h.account.same rfl rfl rfl rfl rfl
      inFlight := by
        change ((s.axInFlight ++ [_]).map AdminEntry.object).Nodup
        rw [List.map_append, List.nodup_append]
        refine ⟨h.inFlight, List.nodup_singleton _, fun a ha b hb => ?_⟩
        obtain ⟨x, hx, rfl⟩ := List.mem_map.1 ha
        rw [List.mem_singleton.1 hb]
        exact ho x hx }
  window _ _ hw h := h.window hw
  enable hoff h := h.enable hoff
  halt h := .halt

/-! ### The commands that write the host's own words -/

theorem deviceResetByCtrl_kept (s : State) : Kept none (deviceResetByCtrl s) := by
  refine .halted (Vector.getElem_replicate_fin _) (Vector.getElem_replicate_fin _) (Vector.getElem_replicate_fin _)
    (fun l => ?_) (Vector.getElem_replicate_fin _)
    (Vector.getElem_replicate_fin _) (Vector.getElem_replicate_fin _) (Vector.getElem_replicate_fin _)
    (fun f hf => by cases hf) rfl (by change (1 : RqId) ≠ 0; decide) rfl
  change ((haltBlocks s).line l).Ok
  rw [haltBlocks_line]
  exact CaptureLine.initial_ok _

section HostWords

variable {P : Option PortId → State → Prop}

theorem Steps.writeCtrl (h : Steps P) (hreset : ∀ s, P none s → P none (deviceResetByCtrl s)) (v : BitVec 32)
    (hs : P none s) : P none (Machine.writeCtrl v s) := by
  unfold Machine.writeCtrl
  split
  · exact hreset s hs
  split
  · exact h.writeEnableOne hs
  · exact h.writeEnableZero hs

theorem Steps.writeMsixTable (h : Steps P) (offset : Nat) (v : BitVec 32) (hs : P none s) :
    P none (Machine.writeMsixTable offset v s) := by
  have hm : ∀ w, P none (writeMsix w s) := fun w => h.on.writeMsix w hs
  unfold Machine.writeMsixTable
  dsimp only
  split; · exact hm _
  split; · exact hm _
  split; · exact hm _
  split; · exact hm _
  exact hs

/-- A property that survives every move of a step, a device reset and a change of the admin registers survives every write to
a word of BAR0 (R163). -/
theorem Steps.writeWord (h : Steps P) (hreset : ∀ s, P none s → P none (deviceResetByCtrl s))
    (hadmin : ∀ s w, w.control = s.window.control → P none s → P none { s with window := w }) (offset : Nat)
    (v : BitVec 32) (hs : P none s) : P none (Machine.writeWord offset v s) := by
  have ha : ∀ f : Window → Window, (∀ w, (f w).control = w.control) → P none (Machine.writeAdmin f s) := fun f hf => by
    unfold Machine.writeAdmin
    split
    · exact hs
    · exact hadmin s _ (hf _) hs
  unfold Machine.writeWord
  split
  · exact h.writeCtrl hreset v hs
  · exact h.writeStatus v hs
  · exact h.writeRingNotify v hs
  · exact ha _ fun _ => rfl
  · exact ha _ fun _ => rfl
  · exact ha _ fun _ => rfl
  · exact ha _ fun _ => rfl
  · exact ha _ fun _ => rfl
  · split
    · exact h.writeMsixTable _ _ hs
    · exact hs

end HostWords

theorem Kept.writeWord (h : Kept none s) (offset : Nat) (v : BitVec 32) : Kept none (Machine.writeWord offset v s) :=
  Kept.steps.writeWord (fun s _ => deviceResetByCtrl_kept s) (fun _ _ hw hs => hs.window (.inl hw)) offset v h

/-- The commands of `writesHostWords` keep every table too. -/
theorem Kept.hostWords (h : Kept none s) {c : Instr} (hc : writesHostWords c = true) (ht : exec c s = .next t) :
    Kept none t := by
  cases c with
  | reset b => exact Steps.out_inj ht ▸ Kept.steps.writeCtrl (fun s _ => deviceResetByCtrl_kept s) _ h
  | deviceReset source =>
    have h1 := deviceResetByCtrl_kept s
    exact Steps.out_inj ht ▸ { h1 with account := h1.account.same rfl rfl rfl rfl rfl }
  | timeLowRead access =>
    have h1 := h.window (w := { s.window with timeLatch := (s.time >>> 32).setWidth 32 }) (.inl rfl)
    exact Steps.out_inj ht ▸ { h1 with account := h1.account.same rfl rfl rfl rfl rfl }
  | registerWrite offset width value =>
    change execRegisterWrite offset width value s = _ at ht
    cases width with
    | narrow => exact Steps.out_inj ht ▸ h
    | word => exact Steps.out_inj ht ▸ h.writeWord _ _
    | quad => exact Steps.out_inj ht ▸ (h.writeWord _ _).writeWord _ _
  | _ => cases hc

/-- Every command keeps every table. -/
theorem Kept.exec (h : Kept none s) (c : Instr) (ht : Machine.exec c s = .next t) : Kept none t := by
  cases hc : writesHostWords c with
  | true => exact h.hostWords hc ht
  | false => exact Kept.steps.exec c hc h ht

end Sys2Proof.Machine

namespace Sys2Proof.Claims

open Sys2Proof.Machine

/-- Settles O3: by the step's command on the state with the queue's rest, or the tick of an empty queue. -/
theorem everyStepKeepsTheTables : Obligations.EveryStepKeepsTheTables := by
  intro s t hs ht
  have h := kept_none_iff.2 hs
  unfold step at ht
  split at ht
  · rw [← Steps.out_inj ht]
    exact kept_none_iff.1 { h with account := h.account.same rfl rfl rfl rfl rfl }
  · rename_i c rest _
    exact kept_none_iff.1 (Kept.exec (s := { s with pending := rest })
      { h with account := h.account.same rfl rfl rfl rfl rfl } c ht)

/-- Settles O1, by the definition of a step. -/
theorem stepRunsFrontCommand : Obligations.StepRunsFrontCommand :=
  ⟨fun _ _ _ => rfl, fun s h => by unfold step tick; rw [h]⟩

/-- Settles O2: the state after reset is one of halt values. -/
theorem resetStateIsSafe : Obligations.ResetStateIsSafe :=
  ⟨kept_none_iff.1 (.halted State.link_reset State.sched_reset State.sensor_reset
      (fun l => by rw [State.line_reset]; exact CaptureLine.initial_ok _) State.rq_reset State.cr_reset
      (Vector.getElem_replicate_fin _) State.slot_reset (fun f hf => by cases hf) rfl
      (by change (1 : RqId) ≠ 0; decide) rfl),
    rfl, rfl, rfl, rfl, rfl, rfl, rfl⟩

end Sys2Proof.Claims
end

section
set_option Elab.async false
/-! SUPPORT. What the host alone writes: the admin registers, the TIME latch, the value last read and device time stay as they
are under every move of a step, and the commands that wait under every command. -/

namespace Sys2Proof.Machine

variable {s t s₀ : State}

/-- From `s₀` to `s` the words that the host alone writes, the device time and the commands that wait are as they were. -/
structure HostWordsAre (s₀ s : State) : Prop where
  pending : s.pending = s₀.pending
  time : s.time = s₀.time
  readData : s.readData = s₀.readData
  window : s₀.window.SameHostWords s.window

theorem HostWordsAre.refl (s : State) : HostWordsAre s s := ⟨rfl, rfl, rfl, ⟨rfl, rfl, rfl, rfl⟩⟩

theorem HostWordsAre.beside (h : HostWordsAre s₀ s) (hb : SameBut s t) : HostWordsAre s₀ t :=
  ⟨hb.pending.trans h.pending, hb.time.trans h.time, hb.readData.trans h.readData, by rw [hb.window]; exact h.window⟩

theorem raiseNotice_same (src : NoticeSource) (detail : BitVec 32) (time : Time) (s : State) :
    SameBut s (raiseNotice src detail time s) := by
  rw [raiseNotice_frame]
  exact ⟨rfl, rfl, rfl, rfl, rfl, rfl, rfl, rfl, rfl, rfl, rfl⟩

theorem HostWordsAre.steps (s₀ : State) : Steps fun _ s => HostWordsAre s₀ s where
  closed _ :=
    { scheds := fun _ _ _ h => { h with }, sensors := fun _ _ _ _ h => { h with }, hold := fun _ _ _ _ _ _ _ h => { h with }
      lines := fun _ _ _ h => { h with }, setRq := fun _ _ _ _ h => { h with }, dropRq := fun _ _ _ h => { h with }
      setCr := fun _ _ _ _ h => { h with }, setSr := fun _ _ _ _ h => { h with }, writeSr := fun _ _ _ _ h => { h with }
      setSlot := fun _ _ _ h => { h with }, post := fun _ _ _ _ _ _ _ _ h => { h with }
      discard := fun _ _ _ _ _ _ _ _ h => { h with }, lose := fun _ _ _ _ _ _ _ _ h => { h with }
      free := fun _ _ _ h => { h with }, slotOrder := fun _ _ h => { h with }, fetch := fun _ _ _ h => { h with }
      nextIoRing := fun _ _ _ h => { h with }, axInbox := fun _ _ h => { h with }, axInFlight := fun _ _ _ h => { h with }
      msix := fun _ _ h => { h with }, outbox := fun _ _ h => { h with }, discarded := fun _ _ h => { h with }
      sent := fun _ _ h => { h with }, raise := fun _ _ _ _ h => h.beside (raiseNotice_same _ _ _ _)
      dropNotices := fun _ _ _ h => { h with }, links := fun _ _ _ _ h => { h with } }
  weaken _ h := h
  settled _ _ h := h
  relink _ _ _ _ _ h := { h with }
  acquire _ _ _ _ _ _ _ _ h := { h with }
  headUpdate i index _ _ _ h := h.beside (sampleHeadUpdate_same i index _)
  srFault i entry h := h.beside (sampleRingFault_same i entry _)
  createRq _ _ _ _ _ _ _ _ _ h := { h with }
  createCr _ _ _ _ _ _ _ _ _ _ _ h := { h with }
  createSr _ _ _ _ _ _ _ _ _ _ _ _ h := { h with }
  deleteCr _ _ h := { h with }
  deleteSr _ _ h := { h with }
  crConsumed _ _ _ _ _ h := { h with }
  crNotice _ _ h := { h with }
  fetchIssued _ _ _ _ _ _ h := { h with }
  fetchReturned _ _ _ h := { h with }
  fetchArrived _ _ _ _ _ _ _ h := { h with }
  fetchDropped _ _ _ h := { h with }
  inFlightMore _ _ _ _ h := { h with }
  window _ hw _ h :=
    { h with window := ⟨hw.rqBase.trans h.window.rqBase, hw.crBase.trans h.window.crBase, hw.sizes.trans h.window.sizes,
        hw.latch.trans h.window.latch⟩ }
  enable _ h := by
    unfold takeEnable
    dsimp only
    split
    · exact { h with window := ⟨h.window.rqBase, h.window.crBase, h.window.sizes, h.window.latch⟩ }
    · exact { h with window := ⟨h.window.rqBase, h.window.crBase, h.window.sizes, h.window.latch⟩ }
  halt h := { h with }

theorem writeCtrl_pending (v : BitVec 32) (s : State) : (writeCtrl v s).pending = s.pending := by
  unfold writeCtrl
  split
  · rfl
  split
  · exact ((HostWordsAre.steps s).writeEnableOne (.refl s)).pending
  · exact ((HostWordsAre.steps s).writeEnableZero (.refl s)).pending

theorem writeAdmin_pending (f : Window → Window) (s : State) : (writeAdmin f s).pending = s.pending := by
  unfold writeAdmin
  split <;> rfl

/-- A write to a word of BAR0 leaves the commands that wait. -/
theorem writeWord_pending (offset : Nat) (v : BitVec 32) (s : State) : (writeWord offset v s).pending = s.pending := by
  have h := HostWordsAre.steps s
  unfold writeWord
  split
  · exact writeCtrl_pending v s
  · exact (h.writeStatus v (.refl s)).pending
  · exact (h.writeRingNotify v (.refl s)).pending
  · exact writeAdmin_pending _ s
  · exact writeAdmin_pending _ s
  · exact writeAdmin_pending _ s
  · exact writeAdmin_pending _ s
  · exact writeAdmin_pending _ s
  · split
    · exact (h.writeMsixTable offset v (.refl s)).pending
    · rfl

/-- Every command answers a next state. -/
theorem exec_next (c : Instr) (s : State) : ∃ t, exec c s = .next t := by
  cases c
  all_goals simp only [exec, execEnable, execHalt, execReset, execDeviceReset, execBadNotifyClear, execRqTail, execCrHead,
    execSrHead, execTimeLowRead, execRegisterWrite, execVectorUnblock, execFetchIssue, execFetchEnd, execFetchTimeout,
    execCreateRing, execDeleteRing, execPortConfig, execPortStart, execPortStop, execSensorBind, execSensorUnbind,
    execSensorStart, execSensorStop, execCaptureConfig, execCaptureArm, execCaptureDisarm, execQueryPort, execQuerySensor,
    execQueryDevice, execAbort, execRegRead, execRegWrite, execReadPosition, execSetPosition, execSlaveReset,
    execAttemptBegin, execRequestFrameSent, execResponseFrame, execResponseWindowExpiry, execRetryGapExpiry,
    execRetrainTimerExpiry, execCycleTimerExpiry, execCaptureInputTransition, execTransitionRecognised, execSampleWriteEnd,
    execCompletionWriteEnd, execNoticeWrite, execCoalescingTimerExpiry, execHaltComplete, execStartPatternSeen]
  all_goals repeat' split
  all_goals exact ⟨_, rfl⟩

end Sys2Proof.Machine

namespace Sys2Proof.Claims

open Sys2Proof.Machine

/-- Settles O5: the four commands that write the host's words by what they do, every other one as a step of the part. -/
theorem hostWordsKept : Obligations.HostWordsKept := by
  intro c s t ht
  cases hc : writesHostWords c with
  | false =>
    have h := (HostWordsAre.steps s).exec c hc (.refl s) ht
    exact ⟨h.pending, fun _ => ⟨h.time, h.window.rqBase, h.window.crBase, h.window.sizes, h.window.latch, h.readData⟩⟩
  | true =>
    refine ⟨?_, fun h => absurd h (by decide)⟩
    cases c with
    | reset b => exact Steps.out_inj ht ▸ writeCtrl_pending _ s
    | deviceReset source => exact Steps.out_inj ht ▸ rfl
    | timeLowRead access => exact Steps.out_inj ht ▸ rfl
    | registerWrite offset width value =>
      change execRegisterWrite offset width value s = _ at ht
      cases width with
      | narrow => exact Steps.out_inj ht ▸ rfl
      | word => exact Steps.out_inj ht ▸ writeWord_pending _ _ _
      | quad => exact Steps.out_inj ht ▸ (writeWord_pending _ _ _).trans (writeWord_pending _ _ _)
    | _ => cases hc

/-- Settles O4: a tick, or a command, each of which answers a next state. -/
theorem everyStepAnswersNext : Obligations.EveryStepAnswersNext := by
  intro s
  unfold Runs step
  split
  · exact ⟨_, rfl⟩
  · exact exec_next _ _

end Sys2Proof.Claims
end

section
set_option Elab.async false
/-! SUPPORT. Frames read back (R3 to R12), and which moments end an attempt: the events of the line and the rows of the
transactions bring about one and the same event (assumption 2). -/

namespace Sys2Proof.Claims

open Sys2Proof.Machine

/-! ### CRC-8 (R8) -/

/-- A bit equal to the one shifted out shifts alone. -/
theorem crcStep_msb (r : BitVec 8) : crcStep r r.msb = r <<< 1 := by simp [crcStep]

/-- The first `i` bits of the register, fed back, shift it `i` places. -/
theorem foldl_crcStep_own (r : BitVec 8) : ∀ i ≤ 8,
    ((List.range i).map fun j => r.toNat.testBit (8 - 1 - j)).foldl crcStep r = r <<< i
  | 0, _ => by simp
  | i + 1, hi => by
    rw [List.range_succ, List.map_append, List.foldl_append, foldl_crcStep_own r i (by omega)]
    have hbit : r.toNat.testBit (8 - 1 - i) = (r <<< i).msb := by
      rw [BitVec.msb_eq_getLsbD_last, BitVec.getLsbD_shiftLeft, BitVec.testBit_toNat]
      simp [show ¬ 7 < i by omega]
    rw [List.map_singleton, List.foldl_cons, List.foldl_nil, hbit, crcStep_msb, BitVec.shiftLeft_add]

theorem crcOverWholeFrameIsZero : CrcOverWholeFrameIsZero := by
  intro body
  unfold crc8
  rw [List.foldl_append]
  exact (foldl_crcStep_own _ 8 le_rfl).trans (by simp)

/-! ### Response frames (R6, R12) -/

/-- The payloads that a kind calls for (Table 6). -/
theorem payloadFits_cases {kind : FrameKind} {payload : WirePayload} (h : payloadFits kind payload = true) :
    (kind = .identify ∧ ∃ w, payload = .identity w) ∨
    ((kind = .position ∨ kind = .repeat) ∧ ∃ x y, payload = .position x y) ∨
    ((kind = .regRead ∨ kind = .regWrite) ∧ ∃ v, payload = .register v) ∨
    (kind = .slaveReset ∧ payload = .empty) := by
  cases kind <;> cases payload <;> cases h <;> simp

theorem payloadBits_length {kind : FrameKind} {payload : WirePayload} (h : payloadFits kind payload = true) :
    (payloadBits payload).length = kind.payloadBits := by
  rcases payloadFits_cases h with ⟨rfl, w, rfl⟩ | ⟨rfl | rfl, x, y, rfl⟩ | ⟨rfl | rfl, v, rfl⟩ | ⟨rfl, rfl⟩ <;>
    simp [payloadBits, FrameKind.payloadBits, bitsOf_length]

/-- The fields of a response frame ahead of its payload. -/
def responseHead (address : SlaveAddr) (kind : FrameKind) (tag : BitVec 3) (warn alarm : Bool) : List Bool :=
  bitsOf 2 address.val ++ bitsOf 3 kind.code ++ bitsOf 3 tag.toNat ++ [warn, alarm]

theorem responseHead_length (address : SlaveAddr) (kind : FrameKind) (tag : BitVec 3) (warn alarm : Bool) :
    (responseHead address kind tag warn alarm).length = 10 := by
  simp [responseHead, bitsOf_length]

theorem natOf_bitsOf_toNat {n : Nat} (v : BitVec n) : natOf (bitsOf n v.toNat) = v.toNat := by
  rw [natOf_bitsOf, Nat.mod_eq_of_lt v.isLt]

/-- The fields ahead of the payload read back, whatever follows them. -/
theorem responseHead_fields (address : SlaveAddr) (kind : FrameKind) (tag : BitVec 3) (warn alarm : Bool)
    (post : List Bool) :
    let f := responseHead address kind tag warn alarm ++ post
    bitField f 0 2 = address.val ∧ bitField f 2 3 = kind.code ∧ bitField f 5 3 = tag.toNat ∧
      bitField f 8 1 = warn.toNat ∧ bitField f 9 1 = alarm.toNat := by
  intro f
  refine ⟨?_, ?_, ?_, ?_, ?_⟩
  · have h := bitField_append [] (bitsOf 2 address.val) (bitsOf 3 kind.code ++ bitsOf 3 tag.toNat ++ [warn, alarm] ++ post)
      0 2 rfl (bitsOf_length _ _)
    rw [natOf_bitsOf, Nat.mod_eq_of_lt (show address.val < 2 ^ 2 from address.isLt)] at h
    simpa [f, responseHead] using h
  · have h := bitField_append (bitsOf 2 address.val) (bitsOf 3 kind.code) (bitsOf 3 tag.toNat ++ [warn, alarm] ++ post)
      2 3 (bitsOf_length _ _) (bitsOf_length _ _)
    rw [natOf_bitsOf, Nat.mod_eq_of_lt (by cases kind <;> decide)] at h
    simpa [f, responseHead] using h
  · have h := bitField_append (bitsOf 2 address.val ++ bitsOf 3 kind.code) (bitsOf 3 tag.toNat) ([warn, alarm] ++ post)
      5 3 (by simp [bitsOf_length]) (bitsOf_length _ _)
    rw [natOf_bitsOf_toNat] at h
    simpa [f, responseHead] using h
  · have h := bitField_append (bitsOf 2 address.val ++ bitsOf 3 kind.code ++ bitsOf 3 tag.toNat) [warn] (alarm :: post)
      8 1 (by simp [bitsOf_length]) rfl
    simpa [f, responseHead, natOf] using h
  · have h := bitField_append (bitsOf 2 address.val ++ bitsOf 3 kind.code ++ bitsOf 3 tag.toNat ++ [warn]) [alarm] post
      9 1 (by simp [bitsOf_length]) rfl
    simpa [f, responseHead, natOf] using h

/-- The payload reads back behind ten bits, whatever follows it. -/
theorem framePayload_append {kind : FrameKind} {payload : WirePayload} (h : payloadFits kind payload = true)
    {pre : List Bool} (hpre : pre.length = 10) (post : List Bool) :
    framePayload kind (pre ++ payloadBits payload ++ post) = payload := by
  have one : ∀ {n : Nat} (v : BitVec n), bitField (pre ++ bitsOf n v.toNat ++ post) 10 n = v.toNat := fun v => by
    rw [bitField_append _ _ _ _ _ hpre (bitsOf_length _ _), natOf_bitsOf_toNat]
  have two : ∀ (x : BitVec 24) (y : BitVec 16),
      bitField (pre ++ (bitsOf 24 x.toNat ++ bitsOf 16 y.toNat) ++ post) 10 24 = x.toNat ∧
      bitField (pre ++ (bitsOf 24 x.toNat ++ bitsOf 16 y.toNat) ++ post) 34 16 = y.toNat := fun x y => by
    have h1 := bitField_append pre (bitsOf 24 x.toNat) (bitsOf 16 y.toNat ++ post) 10 24 hpre (bitsOf_length _ _)
    have h2 := bitField_append (pre ++ bitsOf 24 x.toNat) (bitsOf 16 y.toNat) post 34 16
      (by simp [hpre, bitsOf_length]) (bitsOf_length _ _)
    rw [natOf_bitsOf_toNat] at h1 h2
    simp only [List.append_assoc] at h1 h2 ⊢
    exact ⟨h1, h2⟩
  rcases payloadFits_cases h with ⟨rfl, w, rfl⟩ | ⟨rfl | rfl, x, y, rfl⟩ | ⟨rfl | rfl, v, rfl⟩ | ⟨rfl, rfl⟩ <;>
    simp only [framePayload, payloadBits, one, two, BitVec.ofNat_toNat, BitVec.setWidth_eq]

/-- A frame of the counted length is taken whole, and what follows it is not looked at (R3). -/
theorem receivedBits_append {kind : FrameKind} {f : List Bool} (h : f.length = kind.responseBits - 2) (rest : List Bool) :
    receivedBits kind (f ++ rest) = f := by
  unfold receivedBits
  rw [List.append_assoc, ← h, List.take_left]

/-- A response frame from the current attempt's slave is classified by its tag alone (R12). -/
theorem classify_responseFrame (a : Attempt) (tag : BitVec 3) (warn alarm : Bool) {payload : WirePayload} (rest : List Bool)
    (hfit : payloadFits a.kind payload = true) :
    classify a (receivedBits a.kind (responseFrame a.address a.kind tag warn alarm payload ++ rest)) =
      if a.tags.getLast? = some tag then .ended (.ok warn alarm payload)
      else if a.tags.contains tag then .late else .ended (.fault .tagMismatch) := by
  have hbody : ∀ crc, ((responseHead a.address a.kind tag warn alarm ++ payloadBits payload) ++ bitsOf 8 crc).length =
      a.kind.responseBits - 2 := fun crc => by
    simp [responseHead_length, payloadBits_length hfit, bitsOf_length, FrameKind.responseBits]
    omega
  have hlen : (responseHead a.address a.kind tag warn alarm ++ payloadBits payload).length = a.kind.responseBits - 2 - 8 := by
    have := hbody 0
    rw [List.length_append, bitsOf_length] at this
    omega
  change classify a (receivedBits a.kind (((responseHead a.address a.kind tag warn alarm ++ payloadBits payload) ++
    bitsOf 8 (crc8 (responseHead a.address a.kind tag warn alarm ++ payloadBits payload)).toNat) ++ rest)) = _
  rw [receivedBits_append (hbody _)]
  obtain ⟨h1, h2, h3, h4, h5⟩ := responseHead_fields a.address a.kind tag warn alarm (payloadBits payload ++
    bitsOf 8 (crc8 (responseHead a.address a.kind tag warn alarm ++ payloadBits payload)).toNat)
  rw [← List.append_assoc] at h1 h2 h3 h4 h5
  have hcrc := bitField_append (responseHead a.address a.kind tag warn alarm ++ payloadBits payload)
    (bitsOf 8 (crc8 (responseHead a.address a.kind tag warn alarm ++ payloadBits payload)).toNat) [] _ 8 hlen
    (bitsOf_length _ _)
  rw [List.append_nil, natOf_bitsOf_toNat] at hcrc
  unfold classify
  dsimp only
  rw [hcrc, ← hlen, List.take_left, if_neg (by simp), h1, if_neg (by simp), h2, if_neg (by simp), h3, h4, h5,
    BitVec.ofNat_toNat, BitVec.setWidth_eq, framePayload_append hfit (responseHead_length _ _ _ _ _)]
  cases warn <;> cases alarm <;> rfl

theorem responseFrameReadsBack : ResponseFrameReadsBack := by
  intro a tag warn alarm payload rest htag hfit
  rw [classify_responseFrame a tag warn alarm rest hfit, if_pos htag]

/-- Settles O6, by its two parts. -/
theorem responseFramesCarryTheirFields : Obligations.ResponseFramesCarryTheirFields :=
  ⟨responseFrameReadsBack, crcOverWholeFrameIsZero⟩

/-! ### The moments that end an attempt (R11, R12) -/

/-- The payload of a frame has the form that its kind calls for. -/
theorem payloadFits_framePayload (kind : FrameKind) (f : List Bool) : payloadFits kind (framePayload kind f) = true := by
  cases kind <;> rfl

/-- An end that the checks of R12 give a counted frame is one that the attempt can have. -/
theorem canEnd_of_classify {le : LinkEngine} {a : Attempt} {f : List Bool} {e : AttemptEnd} {now : Time}
    (hc : frameCounted le a now = true) (h : classify a f = .ended e) : canEnd le a e now = true := by
  unfold classify at h
  dsimp only at h
  split at h
  · cases h; exact hc
  split at h
  · cases h; exact hc
  split at h
  · cases h; exact hc
  split at h
  · cases h
    unfold canEnd
    dsimp only
    rw [hc, payloadFits_framePayload]
    rfl
  split at h
  · cases h
  · rename_i hn
    cases h
    unfold canEnd
    dsimp only
    rw [hc, Bool.true_and]
    exact a.hasFreeTag_iff.2 ⟨_, by simpa using hn⟩

/-- A transaction's row is the end of an attempt of its exchange (assumption 2). -/
theorem transactionCommand_exec {k : SlotId} {e : AttemptEnd} {c : Instr} {s : State}
    (h : transactionCommand k e (s.slot k).body = some c) : exec c s = .next (transactionAttempt k e s) := by
  unfold transactionCommand at h
  split at h
  · rename_i hb; cases h; change execRegRead k e s = _; unfold execRegRead; rw [hb]
  · rename_i hb; cases h; change execRegWrite k e s = _; unfold execRegWrite; rw [hb]
  · rename_i hb; cases h; change execReadPosition k e s = _; unfold execReadPosition; rw [hb]
  · rename_i hb; cases h; change execSetPosition k e s = _; unfold execSetPosition; rw [hb]
  · rename_i hb; cases h; change execSlaveReset k e s = _; unfold execSlaveReset; rw [hb]
  · cases h

/-- The exchange on the line belongs to the transaction in slot `k`. -/
structure Owns (k : SlotId) (s : State) : Prop where
  active : (s.slot k).state = .active
  own : (s.sched (portOf (s.slot k).sensor)).active = some k
  owner : (s.sched (portOf (s.slot k).sensor)).owner = some .transaction

theorem Owns.ownsExchange {k : SlotId} {s : State} (h : Owns k s) : ownsExchange k s = true := by
  unfold Machine.ownsExchange
  simp [h.active, h.own, h.owner]

/-- The attempt on the line ends as it can (R11, R12). -/
theorem Owns.transactionAttempt {k : SlotId} {s : State} {a : Attempt} {e : AttemptEnd} (h : Owns k s)
    (ha : (s.link (portOf (s.slot k).sensor)).attempt = some a)
    (hc : canEnd (s.link (portOf (s.slot k).sensor)) a e s.time = true) :
    transactionAttempt k e s = settle (endAttempt (portOf (s.slot k).sensor) e s) := by
  unfold Machine.transactionAttempt
  dsimp only
  rw [ha]
  dsimp only
  rw [h.ownsExchange, hc]
  rfl

/-- A counted frame ends the attempt as the checks of R12 say. -/
theorem execResponseFrame_ended {p : PortId} {bits : List Bool} {a : Attempt} {e : AttemptEnd} {s : State}
    (ha : (s.link p).attempt = some a) (hc : frameCounted (s.link p) a s.time = true)
    (h : classify a (receivedBits a.kind bits) = .ended e) :
    exec (.responseFrame p bits) s = .next (settle (endAttempt p e s)) := by
  change execResponseFrame p bits s = _
  unfold execResponseFrame
  dsimp only
  rw [ha]
  dsimp only
  rw [if_pos hc, h]

/-- The expiry of the window ends a LISTENING attempt (R11). -/
theorem execResponseWindowExpiry_over {p : PortId} {a : Attempt} {s : State} (ha : (s.link p).attempt = some a)
    (h : windowOver a s.time = true) :
    exec (.responseWindowExpiry p) s = .next (settle (endAttempt p (.fault .noResponse) s)) := by
  change execResponseWindowExpiry p s = _
  unfold execResponseWindowExpiry
  rw [ha]
  dsimp only
  rw [if_pos h]

/-- Settles O7: each of the two commands is the end of the attempt on the line. -/
theorem lineEventsAreTransactionEnds : Obligations.LineEventsAreTransactionEnds := by
  rintro k p s a rfl hact hown howner ha
  have ho : Owns k s := ⟨hact, hown, howner⟩
  refine ⟨fun bits e c hc hcl hrow => ?_, fun c hw hrow => ?_⟩
  · rw [execResponseFrame_ended ha hc hcl, transactionCommand_exec hrow,
      ho.transactionAttempt ha (canEnd_of_classify hc hcl)]
  · rw [execResponseWindowExpiry_over ha hw, transactionCommand_exec hrow, ho.transactionAttempt ha (e := .fault .noResponse) hw]

theorem windowOver_iff (a : Attempt) (now : Time) :
    windowOver a now = true ↔ a.phase = .listening ∧ ∃ w, a.windowEnd = some w ∧ reached now w = true := by
  unfold windowOver expired
  rw [Bool.and_eq_true, beq_iff_eq, Option.any_eq_true]

/-- Whatever ends the attempt on the line of a port is one and the same event. -/
theorem EndsAttempt.exec {p : PortId} {a : Attempt} {e : AttemptEnd} {c : Instr} {s : State} (h : EndsAttempt p a e c s) :
    exec c s = .next (settle (endAttempt p e s)) := by
  obtain ⟨ha, ⟨bits, rfl, hc, hcl⟩ | ⟨rfl, rfl, hw⟩⟩ := h
  · exact execResponseFrame_ended ha hc hcl
  · exact execResponseWindowExpiry_over ha ((windowOver_iff a s.time).2 hw)

theorem EndsAttempt.canEnd {p : PortId} {a : Attempt} {e : AttemptEnd} {c : Instr} {s : State} (h : EndsAttempt p a e c s) :
    canEnd (s.link p) a e s.time = true := by
  obtain ⟨-, ⟨bits, -, hc, hcl⟩ | ⟨-, rfl, hw⟩⟩ := h
  · exact canEnd_of_classify hc hcl
  · exact (windowOver_iff a s.time).2 hw

/-- Whatever ends an attempt of the transaction's exchange is one and the same event, and the attempt can end so. -/
theorem EndsExchange.exec {k : SlotId} {a : Attempt} {e : AttemptEnd} {c : Instr} {s : State} (ho : Owns k s)
    (h : EndsExchange k a e c s) :
    exec c s = .next (settle (endAttempt (portOf (s.slot k).sensor) e s)) ∧
      canEnd (s.link (portOf (s.slot k).sensor)) a e s.time = true := by
  rcases h with h | ⟨ha, hrow, hend⟩
  · exact ⟨h.exec, h.canEnd⟩
  · have hc : canEnd (s.link (portOf (s.slot k).sensor)) a e s.time = true := by
      unfold Machine.canEnd
      split at hend
      · exact (windowOver_iff a s.time).2 hend
      · dsimp only; rw [hend.1, a.hasFreeTag_iff.2 hend.2]; rfl
      · rename_i f hn ht
        cases f with
        | noResponse => exact absurd rfl hn
        | tagMismatch => exact absurd rfl ht
        | _ => exact hend
      · dsimp only; rw [hend.1, hend.2]; rfl
    exact ⟨by rw [transactionCommand_exec hrow, ho.transactionAttempt ha hc], hc⟩

end Sys2Proof.Claims
end

section
set_option Elab.async false
/-! SUPPORT. Device control and the register window: the enable, the halt and the reset (R168 to R172), what reads of BAR0
return and what writes to it do (R163, R164, R173), and the vectors that a write to MSI-X releases (R167). -/

namespace Sys2Proof.Claims

open Sys2Proof.Machine

/-! ### Enable (R168) -/

theorem Window.adminValid_iff (w : Window) : w.adminValid = true ↔
    w.adminRqBase.toNat % 64 = 0 ∧ w.adminCrBase.toNat % 32 = 0 ∧ 2 ≤ w.rqSize ∧ w.rqSize ≤ 4096 ∧ 2 ≤ w.crSize ∧
      w.crSize ≤ 4096 := by
  simp [Window.adminValid, and_assoc]

theorem writeEnableOne_of_enabled {s : State} (h : s.window.enable = true) : writeEnableOne s = s := if_pos h

theorem writeEnableOne_of_disabled {s : State} (h : s.window.enable = false) : writeEnableOne s =
    if s.window.control = .off then takeEnable { s with window := { s.window with enable := true } }
    else { s with window := { s.window with enable := true } } := by
  unfold writeEnableOne
  rw [if_neg (by simp [h])]

/-- Settles O8, by the cases of `writeEnableOne` and `takeEnable`. -/
theorem enableCreatesTheAdminRings : Obligations.EnableCreatesTheAdminRings := by
  intro s
  refine ⟨fun h => congrArg Host.Outcome.next (writeEnableOne_of_enabled h), fun h hc => ?_, fun h hc => ?_⟩
  · exact congrArg Host.Outcome.next ((writeEnableOne_of_disabled h).trans (if_neg hc))
  · have hone := (writeEnableOne_of_disabled h).trans (if_pos hc)
    have hw := Window.adminValid_iff { s.window with enable := true, fatal := false, configError := false }
    refine ⟨fun hv => congrArg Host.Outcome.next (hone.trans ?_), fun hv => congrArg Host.Outcome.next (hone.trans ?_)⟩
    · exact if_pos (hw.2 hv)
    · exact if_neg fun hn => hv (hw.1 hn)

/-! ### Halt (R169, R170) -/

theorem dmaOutstanding_iff (s : State) :
    dmaOutstanding s = true ↔ (∃ w, OutItem.record w ∈ s.outbox) ∨ s.fetch ≠ none := by
  rw [dmaOutstanding, Bool.or_eq_true, hasRecord_iff, Option.isSome_iff_ne_none]

theorem dmaOutstanding_eq_false_iff (s : State) :
    dmaOutstanding s = false ↔ (∀ w, OutItem.record w ∉ s.outbox) ∧ s.fetch = none := by
  rw [← Bool.not_eq_true, dmaOutstanding_iff]
  push Not
  rfl

theorem dmaOutstanding_haltBlocks (s : State) : dmaOutstanding (haltBlocks s) = dmaOutstanding s := by
  unfold dmaOutstanding
  rw [show (haltBlocks s).outbox = orphanWrites (fun _ => true) s.outbox from rfl, hasRecord_orphanWrites,
    show (haltBlocks s).fetch = s.fetch.map fun f => { f with live := false } from rfl, Option.isSome_map]

theorem haltBlocks_eq (s : State) : haltBlocks s = haltState s s.window := by
  unfold haltBlocks haltState
  rw [orphanWrites_all]
  rfl

/-- The state of control that a halt enters. -/
def haltControl (s : State) : Control := if dmaOutstanding s then .halting else .off

theorem haltControl_spec (s : State) : HaltControl s (haltControl s) := by
  unfold haltControl
  cases h : dmaOutstanding s with
  | true => exact .inl ⟨(dmaOutstanding_iff s).1 h, rfl⟩
  | false =>
    obtain ⟨hr, hf⟩ := (dmaOutstanding_eq_false_iff s).1 h
    exact .inr ⟨hr, hf, rfl⟩

/-- A halt is the halt values and the state of control (R169). -/
theorem beginHalt_eq (s : State) : beginHalt s = haltState s { s.window with control := haltControl s } := by
  unfold beginHalt
  dsimp only
  rw [dmaOutstanding_haltBlocks, haltBlocks_eq]
  rfl

theorem haltBringsTheHaltValues : HaltBringsTheHaltValues := by
  intro s
  refine ⟨fun h => ?_, fun h hc => ?_, fun h hc => ⟨haltControl s, haltControl_spec s, ?_⟩⟩ <;>
    refine congrArg Host.Outcome.next ?_ <;> unfold writeEnableZero
  · rw [if_pos (by simp [h])]
  · rw [if_neg (by simp [h])]
    exact if_neg hc
  · rw [if_neg (by simp [h])]
    exact (if_pos hc).trans (beginHalt_eq _)

theorem haltCompletes : HaltCompletes := by
  intro s
  refine ⟨fun h => if_neg ?_, fun hc hr hf => ?_⟩
  · rintro ⟨hc, hd⟩
    rcases h with h | h
    · exact h hc
    · exact absurd ((dmaOutstanding_iff s).2 h) (by simp [hd])
  · have hrun : exec .haltComplete s = if s.window.enable then
        .next (takeEnable { s with window := { s.window with control := .off } })
        else .next { s with window := { s.window with control := .off } } :=
      if_pos ⟨hc, (dmaOutstanding_eq_false_iff s).2 ⟨hr, hf⟩⟩
    refine ⟨fun he => hrun.trans (if_neg (by simp [he])), fun he => hrun.trans ((if_pos he).trans ?_)⟩
    refine congrArg Host.Outcome.next (Eq.symm ((writeEnableOne_of_disabled rfl).trans ((if_pos rfl).trans ?_)))
    rw [← he]

/-- Settles O9, by its two parts. -/
theorem haltAndItsEnd : Obligations.HaltAndItsEnd := ⟨haltBringsTheHaltValues, haltCompletes⟩

/-- Settles O10: the reset is the halt values without the DMA work and the window. -/
theorem deviceResetLeavesResetState : Obligations.DeviceResetLeavesResetState := by
  intro s b source
  refine ⟨?_, rfl⟩
  cases b <;> rfl

/-! ### Words of 32 bits -/

theorem lowWord (x : BitVec 64) : x.setWidth 32 = x.extractLsb' 0 32 := by
  apply BitVec.eq_of_getLsbD_eq
  simp +contextual

theorem highWord (x : BitVec 64) : (x >>> 32).setWidth 32 = x.extractLsb' 32 32 := by
  apply BitVec.eq_of_getLsbD_eq
  simp +contextual

theorem highWord_append_lowWord (x : BitVec 64) : x.extractLsb' 32 32 ++ x.extractLsb' 0 32 = x := by
  apply BitVec.eq_of_getLsbD_eq
  intro i hi
  refine (BitVec.getLsbD_append (x := x.extractLsb' 32 32) (y := x.extractLsb' 0 32)).trans ?_
  by_cases h : i < 32
  · simp [h]
  · simp [h, show i - 32 < 32 by omega, show 32 + (i - 32) = i by omega]

theorem getLsbD_lowWord (v : BitVec 64) {i : Nat} (h : i < 32) : (v.setWidth 32).getLsbD i = v.getLsbD i := by
  simp [h]

theorem lowWord_masked (v : BitVec 64) : (v &&& 0xFFFFFFFF#64).setWidth 32 = v.setWidth 32 := by
  apply BitVec.eq_of_toNat_eq
  rw [BitVec.toNat_setWidth, BitVec.toNat_setWidth, BitVec.toNat_and, show (0xFFFFFFFF#64).toNat = 2 ^ 32 - 1 from rfl,
    Nat.and_two_pow_sub_one_eq_mod, Nat.mod_mod]

theorem boolWord (b : Bool) : BitVec.ofNat 32 b.toNat = BitVec.ofNat 31 0 ++ BitVec.ofBool b := by
  cases b <;> rfl

/-- A field of a word is the same field of the 64 bits that carry it. -/
theorem field_of_lowWord (v : BitVec 64) (start len : Nat) (h : start + len ≤ 32) :
    ((v.setWidth 32).toNat >>> start) % 2 ^ len = (v.extractLsb' start len).toNat := by
  apply Nat.eq_of_testBit_eq
  intro i
  rw [Nat.testBit_mod_two_pow, Nat.testBit_shiftRight, BitVec.testBit_toNat, BitVec.testBit_toNat,
    BitVec.getLsbD_extractLsb', BitVec.getLsbD_setWidth]
  by_cases hi : i < len
  · simp [hi, show start + i < 32 by omega]
  · simp [hi]

/-! ### Reads (R163, R173) -/

theorem Window.statusWord_eq (w : Window) : w.statusWord =
    BitVec.ofNat 27 0 ++ BitVec.ofBool w.badNotify ++ BitVec.ofBool w.configError ++ BitVec.ofBool w.fatal ++
      BitVec.ofBool (decide (w.control = .off)) ++ BitVec.ofBool (decide (w.control = .ready)) := by
  have h : ∀ r o f c b : Bool, BitVec.ofNat 32 (r.toNat + 2 * o.toNat + 4 * f.toNat + 8 * c.toNat + 16 * b.toNat) =
      BitVec.ofNat 27 0 ++ BitVec.ofBool b ++ BitVec.ofBool c ++ BitVec.ofBool f ++ BitVec.ofBool o ++ BitVec.ofBool r := by
    decide
  exact h _ _ _ _ _

/-- A list of bits read as a number, its first element least significant. -/
theorem testBit_foldr_bits : ∀ (l : List Bool) (i : Nat),
    (l.foldr (fun (b : Bool) acc => b.toNat + 2 * acc) 0).testBit i = l.getD i false
  | [], i => by simp
  | b :: l, 0 => by cases b <;> simp [Nat.testBit_zero]
  | b :: l, i + 1 => by
    rw [List.foldr_cons, Nat.testBit_succ, List.getD_cons_succ, ← testBit_foldr_bits l i]
    congr 1
    cases b <;> simp; omega

theorem MsixUnit.pendingWord_getLsbD (m : MsixUnit) (i : VectorId) : m.pendingWord.getLsbD i.val = m.pending[i] := by
  unfold MsixUnit.pendingWord
  rw [BitVec.getLsbD_ofNat, testBit_foldr_bits]
  simp [show i.val < 32 by omega]

theorem vectorAt_entry (i : VectorId) (k : Nat) (hk : k < 16) : vectorAt (0x1000 + 16 * i.val + k) = i :=
  Fin.ext (by simp only [vectorAt]; omega)

theorem bar0Read_table (s : State) (i : VectorId) (k : Nat) (hk : k < 16) :
    s.bar0Read (0x1000 + 16 * i.val + k) = s.msix.tableWord (0x1000 + 16 * i.val + k) :=
  if_pos (by omega)

theorem bar0Read_window (s : State) {o : Nat} (h : o < 0x1000 ∨ (0x1100 ≤ o ∧ o ≠ 0x1800)) :
    s.bar0Read o = s.window.read s.time o := by
  unfold State.bar0Read
  rw [if_neg (by omega), if_neg (by omega)]

theorem Window.read_of_ignored (w : Window) (now : Time) {o : Nat} (h : o = 0x0C ∨ o = 0x24 ∨ 0x30 ≤ o) : w.read now o = 0 := by
  unfold Window.read
  split <;> grind

/-- A narrower read returns the named bytes of the word (R163). -/
theorem hostRead_bytes (s : State) (o first count : Nat) (h : first + count ≤ 4) (i : Nat) :
    (s.hostRead o (.bytes first count)).getLsbD i =
      (decide (i < 8 * count) && (s.bar0Read o).getLsbD (8 * first + i)) := by
  change (BitVec.ofNat 64 (((s.bar0Read o).toNat >>> (8 * first)) % 2 ^ (8 * count))).getLsbD i = _
  rw [BitVec.getLsbD_ofNat, Nat.testBit_mod_two_pow, Nat.testBit_shiftRight, BitVec.testBit_toNat]
  by_cases hi : i < 8 * count
  · simp [hi, show i < 64 by omega]
  · simp [hi]

theorem afterRead_timeLow (s : State) :
    s.afterRead 0x28 = { s with window := { s.window with timeLatch := s.time.extractLsb' 32 32 } } := by
  rw [← highWord]
  rfl

theorem hostRead_timeLow_quad (s : State) : s.hostRead 0x28 .quad = s.time := by
  change (s.time >>> 32).setWidth 32 ++ s.time.setWidth 32 = s.time
  rw [highWord, lowWord, highWord_append_lowWord]

theorem flagClearAndTimeLow : FlagClearAndTimeLow := by
  intro s
  refine ⟨rfl, fun access => ⟨s.hostRead 0x28 access, ?_, ?_, ?_, ?_⟩⟩
  · rw [← highWord]
    rfl
  · rintro rfl
    rw [← lowWord]
    rfl
  · rintro rfl
    exact hostRead_timeLow_quad s
  · rintro first count rfl - hle i
    rw [hostRead_bytes s 0x28 first count hle i]
    by_cases hi : i < 8 * count
    · rw [show s.bar0Read 0x28 = s.time.setWidth 32 from rfl, getLsbD_lowWord _ (by omega)]
    · simp [hi]

theorem registerReadsByWidth : RegisterReadsByWidth := by
  intro s
  refine ⟨⟨rfl, boolWord _, Window.statusWord_eq _, lowWord _, highWord _, lowWord _, highWord _, rfl, lowWord _, rfl,
    fun o ho => ?_⟩, fun i => ?_, fun o => ?_⟩
  · rw [bar0Read_window s (by omega)]
    exact Window.read_of_ignored _ _ (by omega)
  · have word : ∀ k, k < 16 → k % 4 = 0 → s.bar0Read (0x1000 + 16 * i.val + k) = s.msix.tableWord (0x1000 + 16 * i.val + k) ∧
        vectorAt (0x1000 + 16 * i.val + k) = i ∧ (0x1000 + 16 * i.val + k) % 16 = k := fun k hk _ =>
      ⟨bar0Read_table s i k hk, vectorAt_entry i k hk, by omega⟩
    refine ⟨?_, ?_, ?_, ?_, ?_⟩
    · obtain ⟨h1, h2, h3⟩ := word 0 (by omega) rfl
      simp only [Nat.add_zero] at h1 h2 h3
      rw [h1]; simp only [MsixUnit.tableWord, h2, h3, if_pos, lowWord]
    · obtain ⟨h1, h2, h3⟩ := word 4 (by omega) rfl
      rw [h1]; simp [MsixUnit.tableWord, h2, h3, ← highWord]
    · obtain ⟨h1, h2, h3⟩ := word 8 (by omega) rfl
      rw [h1]; simp [MsixUnit.tableWord, h2, h3]
    · obtain ⟨h1, h2, h3⟩ := word 12 (by omega) rfl
      rw [h1, ← boolWord]; simp [MsixUnit.tableWord, h2, h3]
    · exact MsixUnit.pendingWord_getLsbD _ i
  · refine ⟨rfl, hostRead_bytes s o, fun h => ?_, hostRead_timeLow_quad s, afterRead_timeLow s⟩
    have hs : s.afterRead o = s := if_neg h
    exact ⟨congrArg (fun u : State => (u.bar0Read (o + 4) ++ s.bar0Read o : BitVec 64)) hs, hs⟩

/-- Settles O11, by its two parts. -/
theorem flagClearAndTimeRead : Obligations.FlagClearAndTimeRead := ⟨flagClearAndTimeLow, registerReadsByWidth⟩

/-! ### RING_NOTIFY (R164) -/

theorem toId_val {n : Nat} (r : Fin n) : toId n r.val = some r := by simp [toId]

theorem toId_eq_none {n i : Nat} (h : n ≤ i) : toId n i = none := by simp [toId, h]

theorem rqTailStoresTheTail : RqTailStoresTheTail := by
  intro id index r s hid
  have hrun : exec (.rqTail id index) s = .next (if (s.rq r).state = .absent ∨ (s.rq r).size ≤ index.toNat then badNotify s
      else s.setRq r { s.rq r with tail := index.toNat }) := by
    change Host.Outcome.next (notifyRqTail id.toNat index.toNat s) = _
    unfold notifyRqTail
    rw [hid, toId_val]
  exact ⟨fun hs hi => hrun.trans (congrArg _ (if_neg (by push Not; exact ⟨hs, hi⟩))),
    fun h => hrun.trans (congrArg _ (if_pos h))⟩

/-- The checks of a head, and where they fail (R164). -/
theorem badHead_iff {index consumer producer size : Nat} {absent : Prop} (hc : ¬ absent → consumer < size)
    (hp : ¬ absent → producer < size) :
    (absent ∨ size ≤ index ∨ headPasses index consumer producer size = false) ↔
      ¬ (¬ absent ∧ index < size ∧
        ((index : Int) - consumer) % size ≤ ((producer : Int) - consumer) % size) := by
  by_cases ha : absent
  · simp [ha]
  · by_cases hi : index < size
    · rw [← headPasses_iff index consumer producer size hi (hc ha) (hp ha)]
      simp [ha, hi]
    · simp [ha, hi, Nat.le_of_not_lt hi]

theorem crHeadStoresTheHead : CrHeadStoresTheHead := by
  intro id index r s hid hok d good
  have hrun : exec (.crHead id index) s = .next (if (s.cr r).state = .absent ∨ (s.cr r).size ≤ index.toNat ∨
      headPasses index.toNat (s.cr r).consumer (s.cr r).producer (s.cr r).size = false then badNotify s
      else s.setCr r { s.cr r with consumer := index.toNat }) := by
    change Host.Outcome.next (notifyCrHead id.toNat index.toNat s) = _
    unfold notifyCrHead
    rw [hid, toId_val]
  have hbad := badHead_iff (index := index.toNat) hok.consumer hok.producer
  exact ⟨fun hg => hrun.trans (congrArg _ (if_neg fun h => hbad.1 h hg)),
    fun hg => hrun.trans (congrArg _ (if_pos (hbad.2 hg)))⟩

/-- Settles O12, by its two parts. -/
theorem headsAndTailsAreStored : Obligations.HeadsAndTailsAreStored := ⟨rqTailStoresTheTail, crHeadStoresTheHead⟩

/-! ### Register writes (R163) -/

theorem writeWord_of_le {o : Nat} (h : 0x30 ≤ o) (v : BitVec 32) (s : State) :
    writeWord o v s = if 0x1000 ≤ o ∧ o ≤ 0x10FF then writeMsixTable o v s else s := by
  unfold writeWord
  split <;> grind

theorem writeWord_table (i : VectorId) (k : Nat) (hk : k < 16) (v : BitVec 32) (s : State) :
    writeWord (0x1000 + 16 * i.val + k) v s = writeMsixTable (0x1000 + 16 * i.val + k) v s :=
  (writeWord_of_le (by omega) v s).trans (if_pos (by omega))

/-- A word of a vector's table entry stores one part of it (assumption 6). -/
theorem writeWord_entry (i : VectorId) (v : BitVec 32) (s : State) :
    writeWord (0x1000 + 16 * i.val) v s = writeMsix (.vectorMessage i
      ((s.msix.table[i]).address.extractLsb' 32 32 ++ v) (s.msix.table[i]).data) s ∧
    writeWord (0x1000 + 16 * i.val + 4) v s = writeMsix (.vectorMessage i
      (v ++ (s.msix.table[i]).address.extractLsb' 0 32) (s.msix.table[i]).data) s ∧
    writeWord (0x1000 + 16 * i.val + 8) v s = writeMsix (.vectorMessage i (s.msix.table[i]).address v) s ∧
    writeWord (0x1000 + 16 * i.val + 12) v s = writeMsix (.vectorMask i (v.getLsbD 0)) s := by
  have word : ∀ k, k < 16 → writeWord (0x1000 + 16 * i.val + k) v s = writeMsixTable (0x1000 + 16 * i.val + k) v s ∧
      vectorAt (0x1000 + 16 * i.val + k) = i ∧ (0x1000 + 16 * i.val + k) % 16 = k := fun k hk =>
    ⟨writeWord_table i k hk v s, vectorAt_entry i k hk, by omega⟩
  rw [← highWord, ← lowWord]
  refine ⟨?_, ?_, ?_, ?_⟩
  · obtain ⟨h1, h2, h3⟩ := word 0 (by omega)
    simp only [Nat.add_zero] at h1 h2 h3
    rw [h1]; simp [writeMsixTable, h2, h3, replaceWord]
  · obtain ⟨h1, h2, h3⟩ := word 4 (by omega)
    rw [h1]; simp [writeMsixTable, h2, h3, replaceWord]
  · obtain ⟨h1, h2, h3⟩ := word 8 (by omega)
    rw [h1]; simp [writeMsixTable, h2, h3]
  · obtain ⟨h1, h2, h3⟩ := word 12 (by omega)
    rw [h1]; simp [writeMsixTable, h2, h3]

/-- A write to RING_NOTIFY by its class (R164). -/
theorem writeRingNotify_word (v : BitVec 64) (s : State) : writeRingNotify (v.setWidth 32) s =
    match (v.extractLsb' 20 2).toNat with
    | 0 => notifyRqTail (v.extractLsb' 16 3).toNat (v.extractLsb' 0 16).toNat s
    | 1 => notifyCrHead (v.extractLsb' 16 3).toNat (v.extractLsb' 0 16).toNat s
    | 2 => notifySrHead (v.extractLsb' 16 3).toNat (v.extractLsb' 0 16).toNat s
    | _ => badNotify s := by
  rw [← field_of_lowWord v 0 16 (by omega), ← field_of_lowWord v 16 3 (by omega), ← field_of_lowWord v 20 2 (by omega)]
  rfl

/-- Settles O14, by the words of the window. -/
theorem registerWriteActsAsItsWord : Obligations.RegisterWriteActsAsItsWord := by
  intro v s
  have bit : ∀ i < 32, (v.setWidth 32).getLsbD i = v.getLsbD i := fun i h => getLsbD_lowWord v h
  have hctrl : exec (.registerWrite 0x04 .word v) s = .next (writeCtrl (v.setWidth 32) s) := rfl
  have hnotify : exec (.registerWrite 0x0C .word v) s = _ := congrArg Host.Outcome.next (writeRingNotify_word v s)
  refine ⟨fun o => rfl, fun o => ⟨_, rfl, ?_⟩, fun h => ?_, fun h h0 => ?_, fun h h0 => ?_, ?_, fun h => ?_, fun h => ?_,
    fun h => ?_, fun h => ?_, fun h o ho => ?_, fun h => ?_, fun o ho => ?_, fun i => ?_⟩
  · change _ = Host.Outcome.next (writeWord (o + 4) ((v >>> 32).setWidth 32) (writeWord o ((v &&& 0xFFFFFFFF#64).setWidth 32) s))
    rw [lowWord_masked]
    rfl
  · rw [hctrl]
    unfold writeCtrl
    rw [bit 1 (by omega), if_pos h]
    cases v.getLsbD 0 <;> rfl
  · rw [hctrl]
    unfold writeCtrl
    rw [bit 1 (by omega), h, bit 0 (by omega), h0]
    rfl
  · rw [hctrl]
    unfold writeCtrl
    rw [bit 1 (by omega), h, bit 0 (by omega), h0]
    rfl
  · change Host.Outcome.next (writeStatus (v.setWidth 32) s) = _
    unfold writeStatus
    rw [bit 4 (by omega)]
    cases v.getLsbD 4 <;> rfl
  · rw [hnotify, h]; rfl
  · rw [hnotify, h]; rfl
  · rw [hnotify, h]; rfl
  · rw [hnotify, h]; rfl
  · have admin : ∀ f : Window → Window, writeAdmin f s = s := fun f => if_pos h
    simp only [List.mem_cons, List.not_mem_nil, or_false] at ho
    rcases ho with rfl | rfl | rfl | rfl | rfl <;> refine congrArg Host.Outcome.next ?_ <;> simp only [writeWord, admin]
  · have admin : ∀ f : Window → Window, writeAdmin f s = { s with window := f s.window } := fun f =>
      if_neg (by simp [h])
    simp only [← lowWord, ← highWord]
    refine ⟨?_, ?_, ?_, ?_, ?_⟩ <;> refine congrArg Host.Outcome.next ?_ <;> simp only [writeWord, admin] <;> rfl
  · refine congrArg Host.Outcome.next ?_
    simp only [List.mem_cons, List.not_mem_nil, or_false] at ho
    rcases ho with (rfl | rfl | rfl | rfl) | h | h
    · rfl
    · rfl
    · rfl
    · rfl
    · exact (writeWord_of_le h.1 _ s).trans (if_neg (by omega))
    · exact (writeWord_of_le (by omega) _ s).trans (if_neg (by omega))
  · obtain ⟨h0, h4, h8, h12⟩ := writeWord_entry i (v.setWidth 32) s
    rw [bit 0 (by omega)] at h12
    rw [← lowWord v]
    exact ⟨congrArg Host.Outcome.next h0, congrArg Host.Outcome.next h4, congrArg Host.Outcome.next h8,
      congrArg Host.Outcome.next h12⟩

end Sys2Proof.Claims
end

section
set_option Elab.async false
/-! SUPPORT. The vectors that a write to MSI-X releases (R165, R167). -/

namespace Sys2Proof.Claims

open Sys2Proof.Machine

/-- The pending flags with those of `l` cleared. -/
def clearFlags (l : List VectorId) (p : Vector Bool 16) : Vector Bool 16 := 
  l.foldl (fun (p : Vector Bool 16) (v : VectorId) => p.set v false) p

theorem clearFlags_get (j : VectorId) : ∀ (l : List VectorId) (p : Vector Bool 16),
    (clearFlags l p)[j] = (p[j] && decide (j ∉ l))
  | [], p => by simp [clearFlags]
  | v :: l, p => by
    rw [show clearFlags (v :: l) p = clearFlags l (p.set v false) from rfl, clearFlags_get j l]
    by_cases h : j = v
    · subst h; simp
    · have : v.val ≠ j.val := fun h' => h (Fin.ext h'.symm)
      simp [this, h]

/-- One message for each vector of `l`, its flag cleared: sent, or put behind what waits in the outbox (R165, R167). -/
def handOver (l : List VectorId) (s : State) : State :=
  { s with
    msix := { s.msix with pending := clearFlags l s.msix.pending }
    sent := s.sent ++ if s.outbox = [] then l.map fun v => .message (s.msix.messageOf v) else []
    outbox := s.outbox ++ if s.outbox = [] then [] else l.map .message }

theorem handOver_of_empty {s : State} (h : s.outbox = []) (l : List VectorId) : handOver l s = { s with
    msix := { s.msix with pending := clearFlags l s.msix.pending }
    sent := s.sent ++ l.map fun v => .message (s.msix.messageOf v) } := by
  unfold handOver
  rw [if_pos h, if_pos h, List.append_nil]

theorem handOver_of_busy {s : State} (h : s.outbox ≠ []) (l : List VectorId) : handOver l s = { s with
    msix := { s.msix with pending := clearFlags l s.msix.pending }
    outbox := s.outbox ++ l.map .message } := by
  unfold handOver
  rw [if_neg h, if_neg h, List.append_nil]

theorem handOver_nil (s : State) : handOver [] s = s := by
  by_cases h : s.outbox = []
  · rw [handOver_of_empty h]; simp [clearFlags]
  · rw [handOver_of_busy h]; simp [clearFlags]

theorem handOver_cons (v : VectorId) (l : List VectorId) (s : State) : handOver (v :: l) s = handOver l (handOver [v] s) := by
  by_cases h : s.outbox = [] <;> simp [handOver, h, clearFlags, MsixUnit.messageOf]

/-- A vector that is not blocked has its message sent or put behind the outbox. -/
theorem messageDue_cleared {v : VectorId} {s : State} (h : s.msix.blocked v = false) :
    messageDue v { s with msix := { s.msix with pending := s.msix.pending.set v false } } = handOver [v] s := by
  have hb : MsixUnit.blocked { s.msix with pending := s.msix.pending.set v false } v = false := h
  unfold messageDue sendMessage
  dsimp only
  rw [hb, Bool.false_or]
  by_cases ho : s.outbox = []
  · rw [handOver_of_empty ho, if_pos (by simp [ho])]
    rfl
  · rw [handOver_of_busy ho, if_neg (by simp [ho])]
    rfl

/-- A pending vector is released where it is not blocked. -/
def releasable (m : MsixUnit) (v : VectorId) : Bool := m.pending[v] && !m.blocked v

/-- One vector is visited: its message is due where it is releasable. -/
def releaseVector (s : State) (v : VectorId) : State :=
  if releasable s.msix v then
    messageDue v { s with msix := { s.msix with pending := s.msix.pending.set v false } }
  else s

theorem releaseVector_of_releasable {s : State} {v : VectorId} (h : releasable s.msix v = true) :
    releaseVector s v = handOver [v] s := by
  have hb : s.msix.blocked v = false := by
    unfold releasable at h
    rw [Bool.and_eq_true] at h
    simpa using h.2
  exact (if_pos h).trans (messageDue_cleared hb)

/-- A list of vectors is visited in its order, and each releasable one is handed over. -/
theorem foldl_releaseVector : ∀ (l : List VectorId) (s : State), l.Nodup →
    l.foldl releaseVector s = handOver (l.filter (releasable s.msix)) s
  | [], s, _ => (handOver_nil s).symm
  | v :: l, s, hl => by
    obtain ⟨hv, hl⟩ := List.nodup_cons.1 hl
    rw [List.foldl_cons, foldl_releaseVector l _ hl]
    by_cases hr : releasable s.msix v = true
    · rw [releaseVector_of_releasable hr, List.filter_cons_of_pos hr, handOver_cons v (l.filter _)]
      congr 1
      refine List.filter_congr fun j hj => ?_
      have hjv : j ≠ v := fun h => hv (h ▸ hj)
      change ((clearFlags [v] s.msix.pending)[j] && _) = _
      rw [clearFlags_get]
      simp only [List.mem_singleton, hjv, not_false_iff, decide_true, Bool.and_true]
      rfl
    · rw [show releaseVector s v = s from if_neg hr, List.filter_cons_of_neg hr]

theorem sendUnblocked_eq (s : State) :
    sendUnblocked s = handOver ((List.finRange 16).filter (releasable s.msix)) s :=
  foldl_releaseVector _ s (List.nodup_finRange 16)

theorem settingWritten_store (m : MsixUnit) (w : MsixWrite) : SettingWritten w m (m.store w) := by
  refine ⟨?_, ?_, ?_, ?_, ?_⟩
  · rintro j b rfl; rfl
  · rintro j a d rfl; rfl
  · rintro b rfl; rfl
  · rintro b rfl; rfl
  · rintro b rfl; rfl

theorem store_pending (m : MsixUnit) (w : MsixWrite) : (m.store w).pending = m.pending := by cases w <;> rfl

theorem releasable_iff (m : MsixUnit) (v : VectorId) : releasable m v = true ↔ m.pending[v] = true ∧ ¬ Blocked m v := by
  unfold releasable
  rw [Bool.and_eq_true, Bool.not_eq_true', ← Bool.not_eq_true, MsixUnit.blocked_iff]

/-- A write to MSI-X stores its setting and hands over what that releases (R167). -/
theorem execVectorUnblock_eq (w : MsixWrite) (s : State) : exec (.vectorUnblock w) s = .next
    (handOver ((List.finRange 16).filter (releasable (s.msix.store w))) { s with msix := s.msix.store w }) :=
  congrArg Host.Outcome.next (sendUnblocked_eq _)

/-- Where no vector is releasable the setting alone changes. -/
theorem execVectorUnblock_of_none {w : MsixWrite} {s : State} (h : ∀ v, releasable (s.msix.store w) v = false) :
    exec (.vectorUnblock w) s = .next { s with msix := s.msix.store w } := by
  rw [execVectorUnblock_eq, List.filter_eq_nil_iff.2 fun v _ => by simp [h v], handOver_nil]

theorem writeReleasesThePendingVectors : WriteReleasesThePendingVectors := by
  intro w s
  refine ⟨s.msix.store w, settingWritten_store _ _, fun h => execVectorUnblock_of_none fun v => ?_, ?_⟩
  · rw [← Bool.not_eq_true, releasable_iff, store_pending, h v]
    simp
  intro released kept
  have hrel : (List.finRange 16).filter (releasable (s.msix.store w)) = released := by
    refine List.filter_congr fun v _ => ?_
    rw [Bool.eq_iff_iff, releasable_iff, store_pending, decide_eq_true_iff]
  have hkept : ({ s.msix.store w with pending := clearFlags released (s.msix.store w).pending } : MsixUnit) = kept := by
    have : clearFlags released (s.msix.store w).pending =
        Vector.ofFn fun v : VectorId => s.msix.pending[v] && decide (Blocked (s.msix.store w) v) := by
      ext i hi
      have := clearFlags_get ⟨i, hi⟩ released (s.msix.store w).pending
      simp only [Fin.getElem_fin] at this
      rw [this, store_pending, Vector.getElem_ofFn]
      cases hp : s.msix.pending[i]
      · simp
      · simp [hp, released]
    rw [this]
  rw [execVectorUnblock_eq, hrel]
  refine ⟨fun h => ?_, fun h => ?_⟩
  · rw [handOver_of_empty (by exact h)]
    dsimp only
    rw [hkept]
    rfl
  · rw [handOver_of_busy (by exact h)]
    dsimp only
    rw [hkept]

theorem finRange_filter_eq (v : VectorId) : (List.finRange 16).filter (fun j => decide (j = v)) = [v] := by
  decide +revert

theorem onePendingVectorSendsOnce : OnePendingVectorSendsOnce := by
  intro w s v hv hother
  have hrel : ∀ j, releasable (s.msix.store w) j = true ↔ j = v ∧ ¬ Blocked (s.msix.store w) v := fun j => by
    rw [releasable_iff, store_pending]
    by_cases hj : j = v
    · subst hj; simp [hv]
    · simp [hj, hother j hj]
  refine ⟨s.msix.store w, store_pending _ _, settingWritten_store _ _, fun hb => execVectorUnblock_of_none fun j => ?_,
    fun h1 h2 h3 h4 => ?_⟩
  · rw [← Bool.not_eq_true, hrel]
    exact fun h => h.2 hb
  have hfree : ¬ Blocked (s.msix.store w) v := by
    rintro (h | h | h | h)
    · exact Bool.noConfusion (h1.symm.trans h)
    · exact Bool.noConfusion (h2.symm.trans h)
    · exact Bool.noConfusion (h3.symm.trans h)
    · exact Bool.noConfusion (h4.symm.trans h)
  have hone : (List.finRange 16).filter (releasable (s.msix.store w)) = [v] := by
    rw [List.filter_congr (q := fun j => decide (j = v)) fun j _ => by
      rw [Bool.eq_iff_iff, hrel, decide_eq_true_iff]; exact and_iff_left hfree]
    exact finRange_filter_eq v
  rw [execVectorUnblock_eq, hone]
  refine ⟨fun h => ?_, fun h => ?_⟩
  · rw [handOver_of_empty (by exact h)]
    rfl
  · rw [handOver_of_busy (by exact h)]
    rfl

/-- Settles O15, by its two parts. -/
theorem unblockedVectorSendsOnce : Obligations.UnblockedVectorSendsOnce :=
  ⟨onePendingVectorSendsOnce, writeReleasesThePendingVectors⟩

end Sys2Proof.Claims
end

section
set_option Elab.async false
/-! SUPPORT. A head update of a sample ring (R109 to R111): the records that the held queues give, written one after the other
on one ring, and what the queues keep. The held queues play no part in the writing of a record, so the writes are followed
apart from them (`withHeld`). -/

namespace Sys2Proof.Machine

open Sys2Proof.Claims

/-! ### Held queues beside the writing of records -/

/-- The sensors with the held queues `f`. -/
@[irreducible] def heldSensors (f : SensorId → List SampleRecord) (s : State) : Vector Sensor 32 :=
  Vector.ofFn fun n : SensorId => { s.sensor n with held := f n }

theorem heldSensors_get (f : SensorId → List SampleRecord) (s : State) (n : SensorId) :
    (heldSensors f s)[n] = { s.sensor n with held := f n } := by
  unfold heldSensors
  simp

/-- The state with the held queues `f`. -/
def withHeld (f : SensorId → List SampleRecord) (s : State) : State := { s with sensors := heldSensors f s }

@[simp] theorem withHeld_sensor (f : SensorId → List SampleRecord) (s : State) (n : SensorId) :
    (withHeld f s).sensor n = { s.sensor n with held := f n } := heldSensors_get f s n

@[simp] theorem withHeld_sr (f : SensorId → List SampleRecord) (s : State) (i : SrId) : (withHeld f s).sr i = s.sr i := rfl

/-- Two states that differ in the sensors alone, and agree there sensor by sensor. -/
theorem State.eq_of_sensors {s t : State} (h : t = { s with sensors := t.sensors }) (hs : ∀ n, t.sensor n = s.sensor n) :
    t = s := by
  have : t.sensors = s.sensors := by
    ext i hi
    · exact hs ⟨i, hi⟩
  rw [h, this]

theorem withHeld_self (s : State) : withHeld (fun n => (s.sensor n).held) s = s :=
  State.eq_of_sensors rfl (withHeld_sensor _ s)

theorem withHeld_setSensor (f : SensorId → List SampleRecord) (s : State) (n : SensorId) (l : List SampleRecord) :
    (withHeld f s).setSensor n { (withHeld f s).sensor n with held := l } = withHeld (Function.update f n l) s := by
  refine State.eq_of_sensors rfl fun m => ?_
  rw [State.sensor_setSensor, withHeld_sensor, withHeld_sensor, withHeld_sensor]
  by_cases h : n = m
  · subst h; simp
  · rw [if_neg h, Function.update_of_ne (Ne.symm h)]

theorem signalSr_sensors (i : SrId) (s : State) (x : Vector Sensor 32) :
    signalSr i { s with sensors := x } = { signalSr i s with sensors := x } := by
  have hmsg : ∀ v (u : State), messageDue v { u with sensors := x } = { messageDue v u with sensors := x } := fun v u => by
    unfold messageDue sendMessage
    dsimp only
    split
    · split <;> rfl
    · rfl
  have hdue : ∀ (due : Bool) v (u : State), (if due then messageDue v { u with sensors := x } else { u with sensors := x }) =
      { (if due then messageDue v u else u) with sensors := x } := fun due v u => by
    cases due
    · rfl
    · exact hmsg v u
  let signal := (s.sr i).interrupt.record (s.sr i).coalescingCount (s.sr i).coalescingTime false s.time
  exact hdue signal.2 (s.sr i).vector (s.setSr i { s.sr i with interrupt := signal.1 })

/-- What writing a record of sensor `n` does beside the sensor: the ring's indices and the write issued (R105). -/
def writeBase (n : SensorId) (r : SampleRecord) (s : State) : State :=
  let i := (s.sensor n).ring
  issueWrite (.sample i) (s.sr i).producer (s.sr i).base (encodeSample r (writeFieldsOf n r s))
    (s.setSr i (s.sr i).advance.congest)

theorem writeRecord_eq (n : SensorId) (r : SampleRecord) (s : State) : ∃ x,
    writeRecord n r s = { signalSr (s.sensor n).ring (writeBase n r s) with sensors := x } := by
  have h : writeRecord n r s = signalSr (s.sensor n).ring { writeBase n r s with
    sensors := (s.setSensor n { s.sensor n with
      sequence := (if r.isMarkStart then 0 else (s.sensor n).sequence) + 1, missed := 0, rejected := 0
      withheld := 0 }).sensors } := rfl
  exact ⟨_, h.trans (signalSr_sensors _ _ _)⟩

theorem writeBase_withHeld (f : SensorId → List SampleRecord) (n : SensorId) (r : SampleRecord) (s : State) :
    writeBase n r (withHeld f s) = { writeBase n r s with sensors := heldSensors f s } := by
  have hfields : writeFieldsOf n r (withHeld f s) = writeFieldsOf n r s := by
    unfold writeFieldsOf
    rw [withHeld_sensor]
    rfl
  unfold writeBase
  rw [hfields, withHeld_sensor]
  rfl

/-- Writing a record neither looks at the held queues nor touches them (R105). -/
theorem writeRecord_withHeld (f : SensorId → List SampleRecord) (n : SensorId) (r : SampleRecord) (s : State) :
    writeRecord n r (withHeld f s) = withHeld f (writeRecord n r s) := by
  have hbeside : writeRecord n r (withHeld f s) = { withHeld f (writeRecord n r s) with
      sensors := (writeRecord n r (withHeld f s)).sensors } := by
    obtain ⟨x, hx⟩ := writeRecord_eq n r s
    obtain ⟨y, hy⟩ := writeRecord_eq n r (withHeld f s)
    rw [writeBase_withHeld, signalSr_sensors, withHeld_sensor] at hy
    rw [hy, hx]
    rfl
  refine State.eq_of_sensors hbeside fun m => ?_
  rw [withHeld_sensor, writeRecord_sensor, writeRecord_sensor, withHeld_sensor, withHeld_sensor]
  split
  · rename_i h; subst h; rfl
  · rfl

/-! ### Records written one after the other -/

/-- Records are written in their order, each of its own sensor. -/
def writeAll (rs : List SampleRecord) (s : State) : State := rs.foldl (fun s r => writeRecord r.sensor r s) s

theorem writeAll_append (rs rs' : List SampleRecord) (s : State) : writeAll (rs ++ rs') s = writeAll rs' (writeAll rs s) :=
  List.foldl_append

/-- Ring `i` takes records, and every sensor has the ring and the state of `s₀`. -/
structure TakesRecords (i : SrId) (s₀ s : State) : Prop where
  ok : (s.sr i).Ok
  writable : (s.sr i).writable = true
  named : ∀ n, (s.sensor n).ring = (s₀.sensor n).ring ∧ (s.sensor n).state = (s₀.sensor n).state

variable {i : SrId} {s₀ s : State}

theorem TakesRecords.present (h : TakesRecords i s₀ s) : (s.sr i).state ≠ .absent := fun he => by
  have := h.writable
  simp [SampleRing.writable, he] at this

theorem TakesRecords.write (h : TakesRecords i s₀ s) {r : SampleRecord} (hr : (s₀.sensor r.sensor).ring = i) :
    TakesRecords i s₀ (writeRecord r.sensor r s) ∧ Written r s (writeRecord r.sensor r s) ∧
      ((s.sr i).full = false → ((writeRecord r.sensor r s).sr i).free + 1 = (s.sr i).free) := by
  have hi : (s.sensor r.sensor).ring = i := (h.named _).1.trans hr
  obtain ⟨it, hit, hsr⟩ := writeRecord_sr r.sensor r s (hi ▸ h.ok.coalescing)
  have hsr := hsr i
  rw [if_pos hi, hi] at hsr
  refine ⟨⟨?_, ?_, fun n => ?_⟩, writeRecord_written r s (hi ▸ h.ok) (hi ▸ h.present), fun hf => ?_⟩
  · rw [hsr]; exact { h.ok.advance.congest with unsignalled := hit }
  · rw [hsr]; exact (s.sr i).advance_congest_writable.trans h.writable
  · rw [writeRecord_sensor]
    split
    · rename_i he; subst he; exact h.named _
    · exact h.named n
  · rw [hsr]; exact (SampleRing.written_levels h.ok h.writable hf).1

theorem TakesRecords.writeAll : ∀ (rs : List SampleRecord) (s : State), TakesRecords i s₀ s →
    (∀ r ∈ rs, (s₀.sensor r.sensor).ring = i) →
    TakesRecords i s₀ (Machine.writeAll rs s) ∧ Through Written rs s (Machine.writeAll rs s)
  | [], s, h, _ => ⟨h, .nil s⟩
  | r :: rs, s, h, hr => by
    obtain ⟨hw, hwr, -⟩ := h.write (hr r (.head _))
    obtain ⟨h1, h2⟩ := TakesRecords.writeAll rs _ hw fun x hx => hr x (.tail _ hx)
    exact ⟨h1, .cons hwr h2⟩

/-- A sensor's queue is written as far as the ring has room, and the rest is kept (R110). -/
theorem TakesRecords.drainHeld {n : SensorId} (hn : (s₀.sensor n).ring = i) :
    ∀ (q : List SampleRecord) (s : State) (f : SensorId → List SampleRecord), TakesRecords i s₀ s → (∀ r ∈ q, r.sensor = n) →
    ∃ w l, q = w ++ l ∧ drainHeld n q (withHeld f s) = withHeld (Function.update f n l) (Machine.writeAll w s) ∧
      w.length = min q.length (s.sr i).free ∧ ((Machine.writeAll w s).sr i).free + w.length = (s.sr i).free
  | [], s, f, _, _ => ⟨[], [], rfl, withHeld_setSensor f s n [], by simp, rfl⟩
  | r :: q, s, f, h, hq => by
    obtain rfl := hq r (.head _)
    unfold Machine.drainHeld
    have hring : ((withHeld f s).sensor r.sensor).ring = i := by rw [withHeld_sensor]; exact (h.named _).1.trans hn
    rw [hring, withHeld_sr]
    cases hf : (s.sr i).full with
    | true =>
      have h0 : (s.sr i).free = 0 := by simpa [SampleRing.full] using hf
      exact ⟨[], r :: q, rfl, withHeld_setSensor f s r.sensor (r :: q), by simp [h0], rfl⟩
    | false =>
      obtain ⟨hw, -, hfree⟩ := h.write hn
      obtain ⟨w, l, rfl, hd, hlen, hleft⟩ := TakesRecords.drainHeld hn q _ f hw fun x hx => hq x (.tail _ hx)
      have hfree := hfree hf
      refine ⟨r :: w, l, rfl, ?_, ?_, ?_⟩
      · rw [if_neg (by simp), writeRecord_withHeld, hd]
        rfl
      · simp only [List.length_cons]; omega
      · change ((Machine.writeAll w (writeRecord r.sensor r s)).sr i).free + (w.length + 1) = _
        omega

/-- The sensor gives its held records to ring `i` (R110). -/
abbrev Names (i : SrId) (s : State) (n : SensorId) : Prop := (s.sensor n).ring = i ∧ (s.sensor n).state ≠ .unbound

/-- The queues of the sensors of `L`, taken in order, are written as far as the ring has room: what each gives, and what each
keeps. -/
structure Drained (i : SrId) (s₀ : State) (L : List SensorId) (free : Nat) (written left : SensorId → List SampleRecord) :
    Prop where
  parts : ∀ n ∈ L, (s₀.sensor n).held = written n ++ left n
  unnamed : ∀ n, ¬ Names i s₀ n → written n = []
  order : ∀ n ∈ L, ∀ m ∈ L, n < m → Names i s₀ n → left n ≠ [] → written m = []
  length : (L.flatMap written).length =
    min (L.flatMap fun n => if Names i s₀ n then (s₀.sensor n).held else []).length free
  apart : ∀ n ∉ L, written n = []

/-- One more queue ahead of those of `L`. -/
theorem Drained.cons {L : List SensorId} {free : Nat} {written left : SensorId → List SampleRecord} {n : SensorId}
    {w l : List SampleRecord} (h : Drained i s₀ L (free - w.length) written left) (hL : ∀ m ∈ L, n < m)
    (hq : (s₀.sensor n).held = w ++ l) (hu : ¬ Names i s₀ n → w = [])
    (hlen : Names i s₀ n → w.length = min (s₀.sensor n).held.length free) :
    Drained i s₀ (n :: L) free (Function.update written n w) (Function.update left n l) := by
  have hne : ∀ m ∈ L, m ≠ n := fun m hm he => absurd (hL m hm) (by rw [he]; exact lt_irrefl n)
  have hwr : ∀ m ∈ L, Function.update written n w m = written m := fun m hm => Function.update_of_ne (hne m hm) w written
  have hle : ∀ m ∈ L, Function.update left n l m = left m := fun m hm => Function.update_of_ne (hne m hm) l left
  have hflat : L.flatMap (Function.update written n w) = L.flatMap written := List.flatMap_congr hwr
  refine ⟨fun m hm => ?_, fun m hm => ?_, fun m hm m' hm' hlt hnm hkept => ?_, ?_, fun m hm => ?_⟩
  · rcases List.mem_cons.1 hm with rfl | hm
    · rw [Function.update_self, Function.update_self]; exact hq
    · rw [hwr m hm, hle m hm]; exact h.parts m hm
  · by_cases he : m = n
    · subst he; rw [Function.update_self]; exact hu hm
    · rw [Function.update_of_ne he]; exact h.unnamed m hm
  · have hmem : m' ∈ L := (List.mem_cons.1 hm').resolve_left fun he => by
      subst he
      rcases List.mem_cons.1 hm with rfl | hm
      · exact lt_irrefl _ hlt
      · exact lt_asymm (hL m hm) hlt
    rw [hwr m' hmem]
    rcases List.mem_cons.1 hm with rfl | hm
    · rw [Function.update_self] at hkept
      have hfree : free - w.length = 0 := by
        have := hlen hnm
        have := congrArg List.length hq
        have := List.length_pos_of_ne_nil hkept
        simp only [List.length_append] at *
        omega
      have hz : (L.flatMap written).length = 0 := by rw [h.length, hfree]; exact Nat.min_zero _
      exact List.flatMap_eq_nil_iff.1 (List.eq_nil_of_length_eq_zero hz) m' hmem
    · rw [hle m hm] at hkept
      exact h.order m hm m' hmem hlt hnm hkept
  · rw [List.flatMap_cons, List.flatMap_cons, hflat, Function.update_self, List.length_append, List.length_append, h.length]
    by_cases hnm : Names i s₀ n
    · rw [if_pos hnm, hlen hnm]
      omega
    · rw [if_neg hnm, hu hnm]
      simp
  · rw [List.mem_cons, not_or] at hm
    rw [Function.update_of_ne hm.1]
    exact h.apart m hm.2

/-- The drain of the queues of `L`, in ascending order. -/
theorem TakesRecords.drain (hown : ∀ n, ∀ x ∈ (s₀.sensor n).held, x.sensor = n) :
    ∀ (L : List SensorId) (s : State) (f : SensorId → List SampleRecord), L.Pairwise (· < ·) → TakesRecords i s₀ s →
    (∀ n ∈ L, f n = (s₀.sensor n).held) →
    ∃ written left, Drained i s₀ L (s.sr i).free written left ∧
      L.foldl (fun s n =>
        let c := s.sensor n
        if c.ring = i ∧ c.state ≠ .unbound then Machine.drainHeld n c.held s else s) (withHeld f s) =
      withHeld (fun n => if n ∈ L then left n else f n) (Machine.writeAll (L.flatMap written) s)
  | [], s, f, _, _, _ => ⟨fun _ => [], fun _ => [], ⟨by simp, fun _ _ => rfl, by simp, by simp, fun _ _ => rfl⟩, by
      simp [Machine.writeAll]⟩
  | n :: L, s, f, hL, h, hf => by
    obtain ⟨hlt, hL⟩ := List.pairwise_cons.1 hL
    have hnL : n ∉ L := fun hm => lt_irrefl n (hlt n hm)
    have hne : ∀ m ∈ L, m ≠ n := fun m hm he => hnL (he ▸ hm)
    have hflat : ∀ (written : SensorId → List SampleRecord) w,
        L.flatMap (Function.update written n w) = L.flatMap written := fun written w =>
      List.flatMap_congr fun m hm => Function.update_of_ne (hne m hm) w written
    rw [List.foldl_cons]
    have hsn : ((withHeld f s).sensor n).ring = (s₀.sensor n).ring ∧
        ((withHeld f s).sensor n).state = (s₀.sensor n).state ∧ ((withHeld f s).sensor n).held = (s₀.sensor n).held := by
      rw [withHeld_sensor]
      exact ⟨(h.named n).1, (h.named n).2, hf n (.head _)⟩
    dsimp only
    rw [hsn.1, hsn.2.1, hsn.2.2]
    by_cases hnm : Names i s₀ n
    · rw [if_pos hnm]
      obtain ⟨w, l, hq, hd, hlen, hfree⟩ := TakesRecords.drainHeld hnm.1 _ s f h (hown n)
      have hrecs : ∀ r ∈ w, (s₀.sensor r.sensor).ring = i := fun r hr => by
        rw [hown n r (hq ▸ List.mem_append_left l hr)]
        exact hnm.1
      obtain ⟨written, left, hdr, hfold⟩ := TakesRecords.drain hown L _ (Function.update f n l) hL
        (TakesRecords.writeAll w s h hrecs).1 fun m hm => by
          rw [Function.update_of_ne (hne m hm)]
          exact hf m (.tail _ hm)
      have hfree' : ((Machine.writeAll w s).sr i).free = (s.sr i).free - w.length := by omega
      rw [hfree'] at hdr
      refine ⟨_, _, hdr.cons hlt hq (fun hu => absurd hnm hu) fun _ => hlen, ?_⟩
      rw [hd, hfold, List.flatMap_cons, Function.update_self, writeAll_append, hflat]
      congr 1
      funext m
      by_cases he : m = n
      · subst he; simp [hnL]
      · simp [he]
    · rw [if_neg hnm]
      obtain ⟨written, left, hdr, hfold⟩ := TakesRecords.drain hown L s f hL h fun m hm => hf m (.tail _ hm)
      refine ⟨_, _, Drained.cons (w := []) (l := (s₀.sensor n).held) hdr hlt rfl (fun _ => rfl) (fun hu => absurd hu hnm), ?_⟩
      rw [hfold, List.flatMap_cons, Function.update_self, List.nil_append, hflat]
      congr 1
      funext m
      by_cases he : m = n
      · subst he; simp [hnL, hf]
      · simp [he]

end Sys2Proof.Machine

namespace Sys2Proof.Claims

open Sys2Proof.Machine

/-- The free entries of a ring that is not ABSENT (R102). -/
theorem SampleRing.free_eq {d : SampleRing} (hs : 2 ≤ d.size) (hp : d.producer < d.size) (hc : d.consumer < d.size) :
    (d.free : Int) = d.size - 1 - ((d.producer : Int) - d.consumer) % d.size := by
  have := unconsumed_eq_emod _ _ _ hp hc
  have hlt : unconsumed d.producer d.consumer d.size < d.size := Nat.mod_lt _ (by omega)
  unfold SampleRing.free SampleRing.used
  omega

theorem SampleRing.tryResume_fields {d : SampleRing} (hs : 2 ≤ d.size) (hp : d.producer < d.size) (hc : d.consumer < d.size) :
    d.tryResume = { d with state := if d.state = .congested ∧
      (d.resume : Int) ≤ d.size - 1 - ((d.producer : Int) - d.consumer) % d.size then .active else d.state } := by
  rw [← SampleRing.free_eq hs hp hc]
  unfold SampleRing.tryResume
  simp only [Int.ofNat_le]
  split <;> rfl

theorem execSrHead_eq {id : BitVec 3} {r : SrId} (hid : id.toNat = r.val) (index : BitVec 16) (s : State) :
    exec (.srHead id index) s = .next (if (s.sr r).state = .absent ∨ (s.sr r).size ≤ index.toNat ∨
      headPasses index.toNat (s.sr r).consumer (s.sr r).producer (s.sr r).size = false then badNotify s
      else sampleHeadUpdate r index.toNat s) := by
  change Host.Outcome.next (notifySrHead id.toNat index.toNat s) = _
  unfold notifySrHead
  rw [hid, toId_val]

/-- A head update of a ring that takes no records stores the index alone (R110). -/
theorem sampleHeadUpdate_of_unwritable {r : SrId} {index : Nat} {s : State} (h : (s.sr r).writable = false) :
    sampleHeadUpdate r index s = s.setSr r { s.sr r with consumer := index } := by
  unfold sampleHeadUpdate
  dsimp only
  rw [State.sr_setSr_same]
  exact if_neg (by rw [show SampleRing.writable { s.sr r with consumer := index } = (s.sr r).writable from rfl, h]; simp)

theorem sampleHeadUpdate_of_writable {r : SrId} {index : Nat} {s : State} (h : (s.sr r).writable = true) :
    sampleHeadUpdate r index s =
      let u := drainRing r (s.setSr r { s.sr r with consumer := index })
      u.setSr r (u.sr r).tryResume := by
  unfold sampleHeadUpdate
  dsimp only
  rw [State.sr_setSr_same]
  exact if_pos h

/-- A ring with nothing held has nothing to drain. -/
theorem drainRing_of_none_held {r : SrId} {s : State} (h : ∀ n, (s.sensor n).ring = r → (s.sensor n).held = []) :
    drainRing r s = s := by
  have hstep : ∀ n, drainHeld n [] s = s.setSensor n { s.sensor n with held := [] } := fun n => rfl
  have : ∀ L : List SensorId, L.foldl (fun s n =>
      let c := s.sensor n
      if c.ring = r ∧ c.state ≠ .unbound then drainHeld n c.held s else s) s = s := by
    intro L
    induction L with
    | nil => rfl
    | cons n L ih =>
      rw [List.foldl_cons]
      by_cases hn : (s.sensor n).ring = r ∧ (s.sensor n).state ≠ .unbound
      · dsimp only
        rw [if_pos hn, h n hn.1, hstep, ← h n hn.1, State.setSensor_self]
        exact ih
      · dsimp only
        rw [if_neg hn]
        exact ih
  exact this allSensors

theorem writable_iff (d : SampleRing) : d.writable = true ↔ d.state = .active ∨ d.state = .congested := by
  simp [SampleRing.writable]

theorem srHeadStoresTheHead : SrHeadStoresTheHead := by
  intro id index s
  refine ⟨fun r hid hok => ?_, fun hid => ?_⟩
  · intro d good
    have hrun := execSrHead_eq hid index s
    have hbad := badHead_iff (index := index.toNat) hok.consumer hok.producer
    refine ⟨fun hg hnone => hrun.trans (congrArg Host.Outcome.next ((if_neg fun h => hbad.1 h hg).trans ?_)),
      fun hg => hrun.trans (congrArg Host.Outcome.next (if_pos (hbad.2 hg)))⟩
    obtain ⟨ha, hi, -⟩ := hg
    cases hw : (s.sr r).writable with
    | false =>
      rw [sampleHeadUpdate_of_unwritable hw, if_neg]
      exact fun h => Bool.false_ne_true (hw.symm.trans ((writable_iff _).2 (.inr h.1)))
    | true =>
      rw [sampleHeadUpdate_of_writable hw]
      dsimp only
      rw [drainRing_of_none_held (r := r) (s := s.setSr r { s.sr r with consumer := index.toNat }) hnone]
      rw [State.sr_setSr_same, State.setSr_setSr, SampleRing.tryResume_fields
        (d := { s.sr r with consumer := index.toNat }) (le_trans (by omega) (hok.size ha).1) (hok.producer ha) hi]
  · change Host.Outcome.next (notifySrHead id.toNat index.toNat s) = _
    unfold notifySrHead
    rw [toId_eq_none hid]
    rfl

theorem srHeadDrainsTheHeldQueues : SrHeadDrainsTheHeldQueues := by
  intro id index r s hid hok hi hpass hown free held
  have hrun : (s.sr r).state ≠ .absent → exec (.srHead id index) s = .next (sampleHeadUpdate r index.toNat s) := fun ha =>
    (execSrHead_eq hid index s).trans (congrArg Host.Outcome.next (if_neg fun h =>
      (badHead_iff (index := index.toNat) hok.consumer hok.producer).1 h ⟨ha, hi, hpass⟩))
  refine ⟨fun hf => ?_, fun hw => ?_⟩
  · rw [hrun (by simp [hf]), sampleHeadUpdate_of_unwritable (by simp [SampleRing.writable, hf])]
  have hw : (s.sr r).writable = true := (writable_iff _).2 hw
  have ha : (s.sr r).state ≠ .absent := by rcases (writable_iff _).1 hw with h | h <;> simp [h]
  have hsize : 2 ≤ (s.sr r).size := le_trans (by omega) (hok.size ha).1
  generalize hs₁ : s.setSr r { s.sr r with consumer := index.toNat } = s₁
  have hsr : s₁.sr r = { s.sr r with consumer := index.toNat } := by rw [← hs₁, State.sr_setSr_same]
  have hsen : ∀ n, s₁.sensor n = s.sensor n := fun n => by rw [← hs₁]; rfl
  have htakes : TakesRecords r s₁ s₁ := ⟨by rw [hsr]; exact { hok with consumer := fun _ => hi }, by rw [hsr]; exact hw,
    fun _ => ⟨rfl, rfl⟩⟩
  have hfree : ((s₁.sr r).free : Int) = free := by
    rw [hsr]
    exact SampleRing.free_eq (d := { s.sr r with consumer := index.toNat }) hsize (hok.producer ha) hi
  obtain ⟨written, left, hdr, hfold⟩ := TakesRecords.drain (s₀ := s₁) (fun n => by rw [hsen]; exact hown n) allSensors s₁
    (fun n => (s₁.sensor n).held) (List.sortedLT_finRange 32).pairwise htakes fun _ _ => rfl
  rw [withHeld_self] at hfold
  have hdrain : drainRing r s₁ = withHeld left (writeAll (allSensors.flatMap written) s₁) := by
    refine hfold.trans (congrArg (withHeld · _) (funext fun n => if_pos (List.mem_finRange n)))
  have hnames : ∀ n, Names r s₁ n ↔ (s.sensor n).ring = r ∧ (s.sensor n).state ≠ .unbound := fun n => by
    unfold Names; rw [hsen]
  have hrecs : ∀ x ∈ allSensors.flatMap written, (s₁.sensor x.sensor).ring = r := fun x hx => by
    obtain ⟨n, -, hx⟩ := List.mem_flatMap.1 hx
    have hnm : Names r s₁ n := by
      by_contra hu
      rw [hdr.unnamed n hu] at hx
      cases hx
    have hmem : x ∈ (s.sensor n).held := by
      rw [← hsen, hdr.parts n (List.mem_finRange n)]
      exact List.mem_append_left _ hx
    rw [hown n x hmem]
    exact hnm.1
  obtain ⟨hend, hthrough⟩ := TakesRecords.writeAll _ s₁ htakes hrecs
  generalize hv : writeAll (allSensors.flatMap written) s₁ = v at *
  have hva : (v.sr r).state ≠ .absent := hend.present
  refine ⟨_, hrun ha, written, left, v, fun n => ?_, fun n hn => ?_, fun n m hlt hring hst hleft => ?_, ?_, ?_⟩
  · rw [← hsen]; exact hdr.parts n (List.mem_finRange n)
  · exact hdr.unnamed n fun h => hn ((hnames n).1 h)
  · exact hdr.order n (List.mem_finRange n) m (List.mem_finRange m) hlt ((hnames n).2 ⟨hring, hst⟩) hleft
  · have hheld : (allSensors.flatMap fun n => if Names r s₁ n then (s₁.sensor n).held else []) = held :=
      List.flatMap_congr fun n _ => by simp only [hnames, hsen]
    rw [hdr.length, hheld, ← hfree, Nat.cast_min]
  · have ht : sampleHeadUpdate r index.toNat s = (withHeld left v).setSr r (v.sr r).tryResume := by
      rw [sampleHeadUpdate_of_writable hw, hs₁, hdrain]
      rfl
    rw [ht]
    refine ⟨hthrough, rfl, fun n => ?_, fun j hj => ?_, ?_⟩
    · rw [State.sensor_setSr, withHeld_sensor]
    · rw [State.sr_setSr_ne _ _ _ _ hj.symm, withHeld_sr]
    · rw [State.sr_setSr_same]
      exact SampleRing.tryResume_fields (le_trans (by omega) (hend.ok.size hva).1) (hend.ok.producer hva)
        (hend.ok.consumer hva)

/-- Settles O13, by its two parts. -/
theorem sampleHeadUpdates : Obligations.SampleHeadUpdates := ⟨srHeadStoresTheHead, srHeadDrainsTheHeldQueues⟩

end Sys2Proof.Claims
end

section
set_option Elab.async false
/-! SUPPORT. The fetch of a request: the arbiter's choice (R119), the fields of a request record (R174, Tables 39 and 40), the
placing of a fetched request (R121, R122) and the failed fetch (R120). -/

namespace Sys2Proof.Claims

open Sys2Proof.Machine

/-! ### The arbiter (R119) -/

/-- The I/O rings stand in the order of their turns. -/
theorem ioRingsFrom_turns : ∀ first : RqId, first ≠ 0 →
    (ioRingsFrom first).Pairwise (turnOf first · < turnOf first ·) ∧ ∀ r : RqId, r ∈ ioRingsFrom first ↔ r ≠ 0 := by
  decide

/-- The first element that fits, in a list sorted by a key. -/
theorem find?_of_first {α : Type} {key : α → Nat} {p : α → Bool} {l : List α} {r : α}
    (hl : l.Pairwise (key · < key ·)) (hm : r ∈ l) (hr : p r = true) (hfirst : ∀ q ∈ l, key q < key r → p q = false) :
    l.find? p = some r := by
  obtain ⟨before, behind, rfl⟩ := List.append_of_mem hm
  refine List.find?_eq_some_iff_append.2 ⟨hr, before, behind, rfl, fun q hq => ?_⟩
  rw [hfirst q (List.mem_append_left _ hq) ((List.pairwise_append.1 hl).2.2 q hq r (.head _))]
  rfl

theorem ioSlots_sum (s : State) : ((List.finRange 8).map fun q => if q = 0 then 0 else (s.rq q).slotsHeld).sum =
    (s.rq 1).slotsHeld + (s.rq 2).slotsHeld + (s.rq 3).slotsHeld + (s.rq 4).slotsHeld + (s.rq 5).slotsHeld
      + (s.rq 6).slotsHeld + (s.rq 7).slotsHeld := by
  rw [show List.finRange 8 = [0, 1, 2, 3, 4, 5, 6, 7] by decide]
  simp [Nat.add_assoc]

theorem anyFree_iff (s : State) : (allSlots.any fun k => (s.slot k).state == .free) = true ↔ ∃ k, (s.slot k).state = .free := by
  simp [allSlots]

/-- The completion ring of a request ring offers an entry for a further request (R117). -/
theorem boundCrOffers_iff {d : RequestRing} {s : State} (hok : ∀ c, (s.cr c).Ok) :
    (d.boundCr.any fun c => (s.cr c).state == .active && decide (0 < (s.cr c).unreserved)) = true ↔
      ∃ c, d.boundCr = some c ∧ (s.cr c).state = .active ∧
        ((s.cr c).producer - (s.cr c).consumer : Int) % (s.cr c).size + (s.cr c).reserved + 1 < (s.cr c).size := by
  rw [Option.any_eq_true]
  refine exists_congr fun c => and_congr_right fun _ => ?_
  rw [Bool.and_eq_true, beq_iff_eq, decide_eq_true_iff]
  refine and_congr_right fun ha => ?_
  have hne : (s.cr c).state ≠ .absent := by rw [ha]; decide
  exact CompletionRing.unreserved_pos_iff _ ((hok c).producer hne) ((hok c).consumer hne)

theorem eligible_iff {s : State} (hrq : ∀ r, (s.rq r).Ok) (hcr : ∀ c, (s.cr c).Ok) (r : RqId) :
    eligible r s = true ↔ Eligible s r := by
  have hpend : (s.rq r).state = .active → (((s.rq r).pendingEntries != 0) = true ↔ (s.rq r).tail ≠ (s.rq r).fetchHead) :=
    fun ha => by
      have hne : (s.rq r).state ≠ .absent := by rw [ha]; decide
      rw [bne_iff_ne]
      exact RequestRing.pendingEntries_ne_zero_iff _ ((hrq r).tail hne) ((hrq r).fetchHead hne)
  have hio : (r == 0 || decide (((List.finRange 8).map fun q => if q = 0 then 0 else (s.rq q).slotsHeld).sum
      < Config.slotsOfIoRings)) = true ↔ (r ≠ 0 → (s.rq 1).slotsHeld + (s.rq 2).slotsHeld + (s.rq 3).slotsHeld
      + (s.rq 4).slotsHeld + (s.rq 5).slotsHeld + (s.rq 6).slotsHeld + (s.rq 7).slotsHeld < 28) := by
    rw [Bool.or_eq_true, beq_iff_eq, decide_eq_true_iff, ioSlots_sum, or_iff_not_imp_left]
    rfl
  unfold eligible
  dsimp only
  rw [Bool.and_eq_true, Bool.and_eq_true, Bool.and_eq_true, Bool.and_eq_true, Bool.and_eq_true, beq_iff_eq, anyFree_iff,
    decide_eq_true_iff, hio, boundCrOffers_iff hcr]
  constructor
  · rintro ⟨⟨⟨⟨⟨ha, hp⟩, hs⟩, hh⟩, ht⟩, hc⟩
    exact ⟨⟨ha, (hpend ha).1 hp⟩, hs, hh, ht, hc⟩
  · rintro ⟨⟨ha, hp⟩, hs, hh, ht, hc⟩
    exact ⟨⟨⟨⟨⟨ha, (hpend ha).2 hp⟩, hs⟩, hh⟩, ht⟩, hc⟩

theorem chooseRing_of_none {s : State} (h : ∀ r, eligible r s = false) : chooseRing s = none := by
  unfold chooseRing
  rw [if_neg (by simp [h 0]), List.find?_eq_none]
  intro r _
  simp [h r]

theorem chooseRing_of_takes {s : State} {r : RqId} (hel : ∀ r, eligible r s = true ↔ Eligible s r) (hturn : s.nextIoRing ≠ 0)
    (h : Takes s r) : chooseRing s = some r := by
  obtain ⟨hr, hfirst⟩ := h
  unfold chooseRing
  by_cases h0 : r = 0
  · subst h0
    exact if_pos ((hel 0).2 hr)
  · obtain ⟨hz, hbefore⟩ := hfirst h0
    obtain ⟨hord, hmem⟩ := ioRingsFrom_turns s.nextIoRing hturn
    rw [if_neg fun he => hz ((hel 0).1 he)]
    refine find?_of_first hord ((hmem r).2 h0) ((hel r).2 hr) fun q hq hlt => ?_
    rw [← Bool.not_eq_true, hel]
    exact hbefore q ((hmem q).1 hq) hlt

theorem lowestFree_eq {s : State} {k : SlotId} (hk : (s.slot k).state = .free) (hlow : ∀ j, j < k → (s.slot j).state ≠ .free) :
    lowestFree s = some k := by
  refine find?_of_first (key := Fin.val) (List.sortedLT_finRange 32).pairwise (List.mem_finRange k) (by simp [hk])
    fun j _ hj => ?_
  simpa using hlow j hj

/-- The HP takes a fetch read (R165). -/
theorem takeRead_eq (f : Fetch) (s : State) : takeRead f s = { s with
    outbox := if s.outbox = [] then [] else s.outbox ++ [.read]
    fetch := some { f with read := if s.outbox ≠ [] then f.read
      else if s.msix.busMaster = true ∧ f.address + 64 ≤ 2 ^ 64 then .issued s.time else .notIssued } } := by
  unfold takeRead Fetch.due
  by_cases ho : s.outbox = []
  · cases s
    dsimp only at ho
    subst ho
    simp
  · simp [ho]

/-- Settles O16: the arbiter's choice is that of R119, and `issueFetch` is what the fetch does. -/
theorem fetchTakesTheRingInTurn : Obligations.FetchTakesTheRingInTurn := by
  intro s hrq hcr hturn
  have hel := eligible_iff hrq hcr
  have hrun : exec .fetchIssue s = execFetchIssue s := rfl
  refine ⟨fun h => ?_, fun h => ?_, fun r c k hf ht hc hk hlow => ?_⟩
  · obtain ⟨f, hf⟩ := Option.ne_none_iff_exists'.1 h
    rw [hrun]
    unfold execFetchIssue
    rw [hf]
  · rw [hrun]
    unfold execFetchIssue
    rw [chooseRing_of_none fun r => by rw [← Bool.not_eq_true, hel]; exact h r]
    split <;> grind
  · have hissue : execFetchIssue s = .next (issueFetch r c k s) := by
      unfold execFetchIssue
      rw [hf, chooseRing_of_takes hel hturn ht, lowestFree_eq hk hlow]
      dsimp only
      rw [hc]
    rw [hrun, hissue]
    unfold issueFetch
    dsimp only
    rw [takeRead_eq]
    rfl

/-! ### The fields of a request record (R174) -/

theorem entryField_eq (e : BitVec 512) (b n : Nat) : entryField e b n = bytesAt e b n :=
  (BitVec.extractLsb'_toNat (8 * b) (8 * n) e).symm

theorem ofNat_entryField (e : BitVec 512) (b n : Nat) :
    BitVec.ofNat (8 * n) (entryField e b n) = e.extractLsb' (8 * b) (8 * n) := by
  rw [entryField_eq, bytesAt, BitVec.ofNat_toNat, BitVec.setWidth_eq]

/-- Settles O17: `entryBody` reads the fields of Table 40. -/
theorem requestBodiesAreRead : Obligations.RequestBodiesAreRead := by
  intro e
  have hf : ∀ b n, entryField e b n = bytesAt e b n := entryField_eq e
  have h64 : ∀ b, entrySigned64 e b = (e.extractLsb' (8 * b) 64).toInt := fun b => congrArg _ (ofNat_entryField e b 8)
  have hval : entryValues e = [e.extractLsb' 128 16, e.extractLsb' 144 16, e.extractLsb' 160 16, e.extractLsb' 176 16,
      e.extractLsb' 192 16, e.extractLsb' 208 16, e.extractLsb' 224 16, e.extractLsb' 240 16] := by
    have h16 : ∀ b, BitVec.ofNat 16 (entryField e b 2) = e.extractLsb' (8 * b) 16 := fun b => ofNat_entryField e b 2
    simp only [entryValues, List.range_succ, List.range_zero, List.nil_append, List.cons_append, List.map_cons, List.map_nil, h16]
  have h16 : BitVec.ofNat 16 (entryField e 10 2) = e.extractLsb' 80 16 := ofNat_entryField e 10 2
  refine ⟨?_, ?_, ?_, ?_, ?_, ?_, ?_, ?_, ?_, ?_, ?_, ?_, ?_, ?_, ?_, ?_, ?_, ?_, ?_, ?_, ?_⟩ <;>
    (intro h
     unfold entryBody
     dsimp only
     rw [← hf] at h
     rw [h]
     simp only [hf, h64, hval, ← h16])

end Sys2Proof.Claims
end

section
set_option Elab.async false
/-! SUPPORT. The placing of a fetched request (R121, R122), the failed fetch (R120), and the requests in flight at the AX
(R137). -/

namespace Sys2Proof.Claims

open Sys2Proof.Machine

/-! ### Requests in flight at the AX (R137) -/

theorem isInFlight_iff (o : AdminObject) (s : State) : isInFlight o s = true ↔ InFlight o s := by
  simp [isInFlight, InFlight, List.any_eq_true]

/-- The one entry that names an object is the one found. -/
theorem find?_of_unique {α : Type} {p : α → Bool} {l : List α} {x : α} (hx : x ∈ l) (hp : p x = true)
    (huniq : ∀ y ∈ l, p y = true → y = x) : l.find? p = some x := by
  cases h : l.find? p with
  | none => exact absurd hp (by simpa using List.find?_eq_none.1 h x hx)
  | some y => rw [huniq y (List.mem_of_find?_eq_some h) (List.find?_some h)]

variable {o : AdminObject} {k : SlotId} {s u : State}

theorem AnswersFor.completes (h : AnswersFor o k s u) (r : Result) : completeInFlight o r s = completeSlot k r u := by
  obtain ⟨e, he, ho, hk, huniq⟩ := h.entry
  unfold completeInFlight
  rw [find?_of_unique (p := fun e => decide (e.object = o)) he (by simpa using ho) fun y hy hyo =>
    huniq y hy (by simpa using hyo)]
  dsimp only
  rw [hk, h.taken]

theorem AnswersFor.ready (h : AnswersFor o k s u) (hd : s.discarded = []) : Ready k u := by
  obtain ⟨hs, hc⟩ : u.slots = s.slots ∧ u.crs = s.crs := by rw [h.taken]; exact ⟨rfl, rfl⟩
  have hslot : u.slot k = s.slot k := by unfold State.slot; rw [hs]
  refine Ready.alone (by rw [hslot]; exact h.alone) ((Slot.isOpen_iff _).2 (.inr (.inr (by rw [hslot]; exact h.active)))) ?_
    (by rw [h.taken]; exact hd)
  rw [hslot]
  unfold State.cr
  rw [hc]
  exact h.ring

/-! ### A fetched request in its slot (Tables 39 and 40) -/

theorem extractLsb'_toNat_mod (e : BitVec 512) (start len : Nat) :
    (e.extractLsb' start len).toNat = e.toNat >>> start % 2 ^ len := BitVec.extractLsb'_toNat _ _ _

/-- The slot of a fetched request has the fields of Tables 39 and 40. -/
theorem fetchedSlot_eq (f : Fetch) (e : BitVec 512) (st : SlotState) : { fetchedSlot f e with state := st } = requestSlot f e st := by
  have hflag : ∀ i < 8, entryFlag e i = e.getLsbD (8 + i) := fun i hi => by
    unfold entryFlag entryField
    rw [Nat.testBit_mod_two_pow, Nat.testBit_shiftRight, BitVec.testBit_toNat]
    simp [hi]
  have hsensor : entrySensor e = ⟨(e.extractLsb' 32 5).toNat, (e.extractLsb' 32 5).isLt⟩ := by
    refine Fin.ext ?_
    change entryField e 4 1 % 32 = (e.extractLsb' 32 5).toNat
    rw [extractLsb'_toNat_mod]
    exact Nat.mod_mod_of_dvd _ (by decide)
  have htag : entryTag e = e.extractLsb' 16 16 := ofNat_entryField e 2 2
  have hkind : entryKind e = e.extractLsb' 0 8 := ofNat_entryField e 0 1
  unfold fetchedSlot requestSlot
  dsimp only
  rw [htag, hkind, hsensor, hflag 0 (by omega), hflag 1 (by omega), hflag 2 (by omega)]
  rfl

section Taken

variable (f : Fetch) (e : BitVec 512) (st st' : SlotState) (c c' : ChainState) (s : State)

theorem requestTaken_slot_same : (requestTaken f e st c s).slot f.slot = requestSlot f e st := State.slot_setSlot_same s f.slot _

theorem requestTaken_slot_ne {j : SlotId} (h : j ≠ f.slot) : (requestTaken f e st c s).slot j = s.slot j :=
  State.slot_setSlot_ne s f.slot j _ h.symm

theorem requestTaken_rq_same : (requestTaken f e st c s).rq f.rq = { s.rq f.rq with
    fetchHead := ((s.rq f.rq).fetchHead + 1) % (s.rq f.rq).size, chain := c } := State.rq_setRq_same s f.rq _

/-- The chain state of the ring is written once more. -/
theorem requestTaken_setChain : (requestTaken f e st c s).setRq f.rq { (requestTaken f e st c s).rq f.rq with chain := c' } =
    requestTaken f e st c' s := by
  rw [requestTaken_rq_same]
  have h := congrArg State.rqs (s.setRq_setRq f.rq { s.rq f.rq with
    fetchHead := ((s.rq f.rq).fetchHead + 1) % (s.rq f.rq).size, chain := c } { s.rq f.rq with
    fetchHead := ((s.rq f.rq).fetchHead + 1) % (s.rq f.rq).size, chain := c' })
  exact congrArg (fun v => { requestTaken f e st c s with rqs := v }) h

/-- The slot is written once more. -/
theorem requestTaken_setSlot (sl : Slot) : (requestTaken f e st c s).setSlot f.slot sl =
    { requestTaken f e st c s with slots := s.slots.set f.slot sl } :=
  congrArg (fun v => { requestTaken f e st c s with slots := v })
    (congrArg State.slots (s.setSlot_setSlot f.slot (requestSlot f e st) sl))

theorem requestTaken_setState : (requestTaken f e st c s).setSlot f.slot (requestSlot f e st') = requestTaken f e st' c s :=
  requestTaken_setSlot f e st c s _

end Taken

/-- A fetched request can be answered at its arrival. -/
theorem requestTaken_ready {f : Fetch} {e : BitVec 512} {c : ChainState} (hd : s.discarded = [])
    (hc : (s.cr f.cr).state = .active) : Ready f.slot (requestTaken f e .active c s) := by
  have hslot := requestTaken_slot_same f e .active c s
  refine Ready.alone (by rw [hslot]; rfl) (by rw [hslot]; rfl) ?_ hd
  rw [hslot]
  exact hc

/-! ### The cases of R121 -/

theorem fetchArrival_eq (f : Fetch) (e : BitVec 512) (s : State) : fetchArrival f e { s with fetch := none } =
    let t := requestTaken f e .active (s.rq f.rq).chain s
    if (s.rq f.rq).state = .draining then refuseArrival f (e.getLsbD 9) .aborted t
    else if (if f.rq = 0 then isAdminKind (e.extractLsb' 0 8) else isIoKind (e.extractLsb' 0 8)) = false then
      if f.rq = 0 then completeSlot f.slot (.plain .invalidKind) t else refuseArrival f (e.getLsbD 9) .invalidKind t
    else if f.rq = 0 then { t with axInbox := s.axInbox ++ [f.slot] }
    else placeByChain f (requestSlot f e .free) t := by
  unfold fetchArrival
  dsimp only
  rw [fetchedSlot_eq, show fetchedSlot f e = requestSlot f e .free from fetchedSlot_eq f e .free]
  rfl

theorem refuseArrival_taken (f : Fetch) (e : BitVec 512) (st : SlotState) (c : ChainState) (link : Bool) (status : Status)
    (s : State) : refuseArrival f link status (requestTaken f e st c s) =
    completeSlot f.slot (plain status) (requestTaken f e st (if link = true then .broken else .noChain) s) := by
  unfold refuseArrival
  rw [requestTaken_setChain]
  rfl

theorem placeByChain_taken (f : Fetch) (e : BitVec 512) (s : State) :
    placeByChain f (requestSlot f e .free) (requestTaken f e .active (s.rq f.rq).chain s) =
      let next := if e.getLsbD 9 = true then ChainState.openAt f.slot else .noChain
      match (s.rq f.rq).chain with
      | .noChain => arrive f.slot (requestTaken f e .queued next s)
      | .openAt j => { requestTaken f e .queued next s with
          slots := s.slots.set f.slot { requestSlot f e .linkWait with predecessor := some j } }
      | .broken => completeSlot f.slot (plain .skipped) (requestTaken f e .active next s) := by
  unfold placeByChain
  dsimp only
  rw [requestTaken_setChain]
  cases hc : (s.rq f.rq).chain with
  | noChain =>
    rw [requestTaken_rq_same]
    dsimp only
    exact congrArg (arrive f.slot) (requestTaken_setState f e .active .queued _ s)
  | openAt j =>
    rw [requestTaken_rq_same]
    dsimp only
    exact requestTaken_setSlot f e .active _ s _
  | broken =>
    rw [requestTaken_rq_same]
    rfl

theorem execFetchEnd_data {f : Fetch} {issue : Time} (hf : s.fetch = some f) (hl : f.live = true)
    (hr : f.read = .issued issue) (e : BitVec 512) :
    exec (.fetchEnd (.data e)) s = .next (settle (fetchArrival f e { s with fetch := none })) := by
  change execFetchEnd (.data e) s = _
  unfold execFetchEnd endFetch
  rw [hf]
  dsimp only
  rw [hr, hl]
  rfl

/-- A kind code of the I/O class has the body of a transaction. -/
theorem isTransaction_of_ioCode {e : BitVec 512} (h1 : 0x20 ≤ bytesAt e 0 1) (h2 : bytesAt e 0 1 ≤ 0x24) :
    IsTransaction (entryBody e) := by
  have hcode : bytesAt e 0 1 = 0x20 ∨ bytesAt e 0 1 = 0x21 ∨ bytesAt e 0 1 = 0x22 ∨ bytesAt e 0 1 = 0x23 ∨
      bytesAt e 0 1 = 0x24 := by omega
  obtain ⟨-, -, -, -, -, -, -, -, -, -, -, -, -, -, -, -, h20, h21, h22, h23, h24⟩ := requestBodiesAreRead e
  rcases hcode with h | h | h | h | h
  · rw [h20 h]; trivial
  · rw [h21 h]; trivial
  · rw [h22 h]; trivial
  · rw [h23 h]; trivial
  · rw [h24 h]; trivial

/-- The queue of a port stays ready when a request is taken into a slot that it does not name. -/
theorem QueueReady.requestTaken {f : Fetch} {e : BitVec 512} {st : SlotState} {c : ChainState} {p : PortId}
    (h : QueueReady p s) (hn : f.slot ∉ (s.sched p).queue) : QueueReady p (requestTaken f e st c s) where
  distinct := h.distinct
  waiting j hj := by
    rw [requestTaken_slot_ne f e st c s (fun he => hn (he ▸ hj))]
    exact h.waiting j hj

/-- Settles O18, by the cases of `fetchArrival` and `placeByChain`. -/
theorem fetchedRequestIsPlaced : Obligations.FetchedRequestIsPlaced := by
  intro f issue e s hf hl hr hd d code refused next port
  have hrun := execFetchEnd_data hf hl hr e
  rw [fetchArrival_eq] at hrun
  have hadmin : isAdminKind (e.extractLsb' 0 8) = true ↔ 1 ≤ code ∧ code ≤ 0x10 := by
    rw [isAdminKind, Bool.and_eq_true, decide_eq_true_iff, decide_eq_true_iff]; rfl
  have hio : isIoKind (e.extractLsb' 0 8) = true ↔ 0x20 ≤ code ∧ code ≤ 0x24 := by
    rw [isIoKind, Bool.and_eq_true, decide_eq_true_iff, decide_eq_true_iff]; rfl
  have hsettle : ∀ t : State, t.discarded = s.discarded → settle t = t := fun t ht =>
    settle_of_none_discarded (ht.trans hd)
  refine ⟨fun hdr hc => ?_, fun hdr h0 hk hc => ?_, fun hdr h0 h1 h2 => ?_, fun hdr h0 hk hc => ?_,
    fun hdr h0 h1 h2 => ?_⟩
  · rw [if_pos hdr, refuseArrival_taken] at hrun
    exact (requestTaken_ready hd hc).complete hrun
  · have hk : isAdminKind (e.extractLsb' 0 8) = false := by rw [← Bool.not_eq_true, hadmin]; exact hk
    rw [if_neg hdr, if_pos h0, if_pos h0, if_pos hk] at hrun
    exact (requestTaken_ready hd hc).complete hrun
  · have hk : ¬ isAdminKind (e.extractLsb' 0 8) = false := by rw [Bool.not_eq_false, hadmin]; exact ⟨h1, h2⟩
    rw [if_neg hdr, if_pos h0, if_pos h0, if_neg hk, if_pos h0] at hrun
    rw [hrun]
    exact congrArg Host.Outcome.next (hsettle _ rfl)
  · have hk : isIoKind (e.extractLsb' 0 8) = false := by rw [← Bool.not_eq_true, hio]; exact hk
    rw [if_neg hdr, if_neg h0, if_neg h0, if_neg h0, if_pos hk, refuseArrival_taken] at hrun
    exact (requestTaken_ready hd hc).complete hrun
  · have hk : ¬ isIoKind (e.extractLsb' 0 8) = false := by rw [Bool.not_eq_false, hio]; exact ⟨h1, h2⟩
    rw [if_neg hdr, if_neg h0, if_neg h0, if_neg h0, if_neg hk, placeByChain_taken] at hrun
    refine ⟨fun hch hc => ?_, fun j hch => ?_, fun hch hst => ?_, fun hch hc hq hn => ?_⟩ <;> rw [show (s.rq f.rq).chain = _ from hch] at hrun
    · exact (requestTaken_ready hd hc).complete hrun
    · rw [hrun]
      exact congrArg Host.Outcome.next (hsettle _ rfl)
    · have hport : portOf ((requestTaken f e .queued next s).slot f.slot).sensor = port := by
        rw [requestTaken_slot_same]
      have harr : arrive f.slot (requestTaken f e .queued next s) = { requestTaken f e .queued next s with
          scheds := s.scheds.set port { s.sched port with queue := (s.sched port).queue ++ [f.slot] } } := by
        unfold arrive
        dsimp only
        rw [hport, show ((requestTaken f e .queued next s).link port).state = .training from hst]
        rfl
      have hset : settle (arrive f.slot (requestTaken f e .queued next s)) = arrive f.slot (requestTaken f e .queued next s) :=
        hsettle _ (by rw [harr]; rfl)
      exact hrun.trans (congrArg Host.Outcome.next (hset.trans harr))
    · have hslot := requestTaken_slot_same f e .queued next s
      have hport : portOf ((requestTaken f e .queued next s).slot f.slot).sensor = port := by rw [hslot]
      obtain ⟨harr, hdis⟩ := arrive_effect f.slot (requestTaken f e .queued next s)
        (by rw [hslot]; exact ⟨rfl, rfl, hc, isTransaction_of_ioCode h1 h2⟩)
        (by rw [hport]; exact hq.requestTaken hn) (by rw [hport]; exact hn)
      exact ⟨_, hrun.trans (congrArg Host.Outcome.next (hsettle _ hdis)), harr⟩

/-! ### A failed fetch (R120) -/

theorem execFetchEnd_waiting {f : Fetch} (hf : s.fetch = some f) (hr : f.read = .waiting) (r : FetchReturn) :
    exec (.fetchEnd r) s = .next s ∧ exec .fetchTimeout s = .next s := by
  refine ⟨?_, ?_⟩
  · change execFetchEnd r s = _
    unfold execFetchEnd
    rw [hf]
    dsimp only
    rw [hr]
  · change execFetchTimeout s = _
    unfold execFetchTimeout
    rw [hf]
    dsimp only
    rw [hr]

/-- The commands that end a fetch in error (R120, R165). -/
def FailsFetch (f : Fetch) (c : Instr) (s : State) : Prop :=
  (∃ t, f.read = .issued t ∧ (c = .fetchEnd .error ∨ (c = .fetchTimeout ∧ reached s.time (after t 1250000) = true))) ∨
    (f.read = .notIssued ∧ ∃ r, c = .fetchEnd r)

theorem FailsFetch.exec {f : Fetch} {c : Instr} (h : FailsFetch f c s) (hf : s.fetch = some f) :
    exec c s = .next (endFetch f .error s) := by
  rcases h with ⟨t, hr, rfl | ⟨rfl, ht⟩⟩ | ⟨hr, r, rfl⟩
  · change execFetchEnd .error s = _
    unfold execFetchEnd
    rw [hf]
    dsimp only
    rw [hr]
  · change execFetchTimeout s = _
    unfold execFetchTimeout
    rw [hf]
    dsimp only
    rw [hr]
    exact if_pos ht
  · change execFetchEnd r s = _
    unfold execFetchEnd
    rw [hf]
    dsimp only
    rw [hr]

theorem endFetch_live {f : Fetch} (hl : f.live = true) (r : FetchReturn) : endFetch f r s = settle (match r with
    | .data e => fetchArrival f e { s with fetch := none }
    | .error => fetchError f { s with fetch := none }) := by
  unfold endFetch
  rw [hl]
  cases r <;> rfl

theorem fetchError_eq (f : Fetch) (s : State) : fetchError f { s with fetch := none } =
    let t := fetchReturned f s
    if f.rq = 0 then fatalError t
    else if (s.rq f.rq).state = .active then
      raiseNotice (.rq f.rq) (failedEntryDetail f.entry) s.time
        (t.setRq f.rq { t.rq f.rq with state := .faulted, failedEntry := some f.entry })
    else if (s.rq f.rq).state = .draining ∧ (s.rq f.rq).slotsHeld - 1 = 0 then
      completeInFlight (.rq f.rq) (.plain .success) (t.setRq f.rq .initial)
    else t := rfl

theorem fetchReturned_rq (f : Fetch) (s : State) :
    (fetchReturned f s).rq f.rq = { s.rq f.rq with slotsHeld := (s.rq f.rq).slotsHeld - 1 } :=
  State.rq_setRq_same s f.rq _

/-- A fatal error in READY is a halt with FATAL set (R171). -/
theorem fatalError_ready (h : s.window.control = .ready) : fatalError s =
    haltState s { s.window with fatal := true, enable := false, control := haltControl s } :=
  (if_pos h).trans (beginHalt_eq _)

/-- Settles O19, by the cases of `fetchError`. -/
theorem fetchErrorReturnsSlotAndCredit : Obligations.FetchErrorReturnsSlotAndCredit := by
  intro f c s hf hd
  refine ⟨fun hr => ⟨fun r => (execFetchEnd_waiting hf hr r).1, (execFetchEnd_waiting hf hr .error).2⟩, fun hc => ?_⟩
  have hrun := FailsFetch.exec hc hf
  have hsettle : ∀ t : State, t.discarded = s.discarded → settle t = t := fun t ht =>
    settle_of_none_discarded (ht.trans hd)
  have hlive : f.live = true → exec c s = .next (settle (fetchError f { s with fetch := none })) := fun hl => by
    rw [hrun, endFetch_live hl]
  refine ⟨fun hl => ?_, fun hl h0 ha => ?_, fun hl h0 hdr hheld => ?_, fun k u hl h0 hdr hheld hans => ?_,
    fun hl h0 hready => ⟨haltControl (fetchReturned f s), haltControl_spec _, ?_⟩⟩
  · rw [hrun]
    unfold endFetch
    rw [hl]
    rfl
  · rw [hlive hl, fetchError_eq]
    dsimp only
    rw [if_neg h0, if_pos ha, fetchReturned_rq]
    exact congrArg Host.Outcome.next (hsettle _ (raiseNotice_keeps _ _ _ _).2.1)
  · rw [hlive hl, fetchError_eq]
    dsimp only
    rw [if_neg h0, if_neg (by rw [hdr]; decide), if_neg (by omega)]
    exact congrArg Host.Outcome.next (hsettle _ rfl)
  · have hfin := hlive hl
    rw [fetchError_eq] at hfin
    dsimp only at hfin
    rw [if_neg h0, if_neg (by rw [hdr]; decide), if_pos ⟨hdr, by omega⟩, hans.completes] at hfin
    exact (hans.ready hd).complete hfin
  · rw [hlive hl, fetchError_eq]
    dsimp only
    rw [if_pos h0, fatalError_ready (s := fetchReturned f s) hready]
    exact congrArg Host.Outcome.next (settle_of_none_discarded rfl)

end Sys2Proof.Claims
end

section
set_option Elab.async false
/-! SUPPORT. The admin requests that the AX answers in the event that takes them (R136, R138): rings, ports, sensors, capture
lines and queries. -/

namespace Sys2Proof.Claims

open Sys2Proof.Machine

variable {k : SlotId} {s u : State}

/-! ### Taking a request and answering it (R135, R138) -/

theorem AxNext.take (h : AxNext k s u) : axTake k s = some u := by
  unfold axTake
  rw [if_pos ⟨h.head, h.active⟩, h.taken]

theorem AxNext.slots (h : AxNext k s u) : u.slots = s.slots := by rw [h.taken]
theorem AxNext.time (h : AxNext k s u) : u.time = s.time := by rw [h.taken]
theorem AxNext.outbox (h : AxNext k s u) : u.outbox = s.outbox := by rw [h.taken]
theorem AxNext.discarded (h : AxNext k s u) : u.discarded = [] := by rw [h.taken]; exact h.settled
theorem AxNext.axInFlight (h : AxNext k s u) : u.axInFlight = s.axInFlight := by rw [h.taken]
theorem AxNext.slotOrder (h : AxNext k s u) : u.slotOrder = s.slotOrder := by rw [h.taken]
theorem AxNext.slot (h : AxNext k s u) (j : SlotId) : u.slot j = s.slot j := by rw [h.taken]; rfl
theorem AxNext.rq (h : AxNext k s u) (r : RqId) : u.rq r = s.rq r := by rw [h.taken]; rfl
theorem AxNext.cr (h : AxNext k s u) (r : CrId) : u.cr r = s.cr r := by rw [h.taken]; rfl
theorem AxNext.sr (h : AxNext k s u) (r : SrId) : u.sr r = s.sr r := by rw [h.taken]; rfl
theorem AxNext.link (h : AxNext k s u) (p : PortId) : u.link p = s.link p := by rw [h.taken]; rfl
theorem AxNext.sched (h : AxNext k s u) (p : PortId) : u.sched p = s.sched p := by rw [h.taken]; rfl
theorem AxNext.sensor (h : AxNext k s u) (n : SensorId) : u.sensor n = s.sensor n := by rw [h.taken]; rfl
theorem AxNext.line (h : AxNext k s u) (l : LineId) : u.line l = s.line l := by rw [h.taken]; rfl

theorem AxNext.inFlight (h : AxNext k s u) (o : AdminObject) : isInFlight o u = true ↔ InFlight o s := by
  rw [h.taken]
  exact isInFlight_iff o s

/-- The request in slot `k` can be answered beside changes that leave its slot and CR0 as they are. -/
theorem AxNext.ready (h : AxNext k s u) {t : State} (h1 : t.slots = u.slots) (h2 : t.cr 0 = u.cr 0)
    (h3 : t.discarded = u.discarded) : Ready k t := by
  have hslot : t.slot k = s.slot k := by unfold State.slot; rw [h1, h.slots]
  refine Ready.alone (by rw [hslot]; exact h.alone) ((Slot.isOpen_iff _).2 (.inr (.inr (by rw [hslot]; exact h.active)))) ?_
    (h3.trans h.discarded)
  rw [hslot, h.onCr0, h2, h.cr]
  exact h.ring

/-- A command that answers the request replies to it. -/
theorem AxNext.answers (h : AxNext k s u) {c : Instr} {r : Result} {t : State} (he : exec c s = .next (answer k r t))
    (h1 : t.slots = u.slots := by rfl) (h2 : t.cr 0 = u.cr 0 := by rfl) (h3 : t.discarded = u.discarded := by rfl) :
    Replies c s k r t :=
  replies he rfl (h.ready h1 h2 h3)

/-! ### Identifiers and ranges (R136) -/

theorem toId_of_lt {n i : Nat} (h : i < n) : toId n i = some ⟨i, h⟩ := dif_pos h

theorem toId_eq {n i : Nat} {x : Fin n} (h : i = x.val) : toId n i = some x := by rw [h, toId_val]

theorem inSigned48_iff (x : Int) : inSigned48 x = true ↔ -140737488355328 ≤ x ∧ x ≤ 140737488355327 := by
  simp [inSigned48]

/-! ### CREATE_RING (R139) -/

theorem AxNext.createRing (h : AxNext k s u) {b : CreateRingBody} (hb : (s.slot k).body = .createRing b) :
    exec (.createRing k) s = match b.ringClass with
      | 0 => .next (createRequestRing k b u)
      | 1 => .next (createCompletionRing k b u)
      | 2 => .next (createSampleRing k b u)
      | _ => .next (answer k (.plain .invalidField) u) := by
  change execCreateRing k s = _
  unfold execCreateRing
  rw [h.take, hb] <;> rfl

theorem createRequestRing_badId {b : CreateRingBody} (h : ¬ (1 ≤ b.ringId ∧ b.ringId ≤ 7)) :
    createRequestRing k b u = answer k (.plain .invalidField) u := by
  unfold createRequestRing
  rcases Nat.eq_zero_or_pos b.ringId with h0 | hpos
  · rw [toId_eq (x := (0 : Fin 8)) h0]; rfl
  · rw [toId_eq_none (by omega)]

theorem createCompletionRing_badId {b : CreateRingBody} (h : ¬ (1 ≤ b.ringId ∧ b.ringId ≤ 7)) :
    createCompletionRing k b u = answer k (.plain .invalidField) u := by
  unfold createCompletionRing
  rcases Nat.eq_zero_or_pos b.ringId with h0 | hpos
  · rw [toId_eq (x := (0 : Fin 8)) h0]; rfl
  · rw [toId_eq_none (by omega)]

theorem createRequestRing_ofId {b : CreateRingBody} {r : RqId} (hr : r ≠ 0) (hid : b.ringId = r.val) :
    createRequestRing k b u =
      if isInFlight (.rq r) u then answer k (.plain .busy) u
      else if (u.rq r).state ≠ .absent then answer k (.plain .wrongState) u
      else match toId 8 b.selector with
        | none => answer k (.plain .invalidField) u
        | some c =>
          if b.base % 64 = 0 ∧ 2 ≤ b.size ∧ b.size ≤ 4096 ∧ c ≠ 0 ∧ (u.cr c).state = .active then
            answer k (.plain .success) (createRq r b.base b.size c u)
          else answer k (.plain .invalidField) u := by
  unfold createRequestRing
  rw [toId_eq hid]
  exact if_neg hr

theorem createCompletionRing_ofId {b : CreateRingBody} {r : CrId} (hr : r ≠ 0) (hid : b.ringId = r.val) :
    createCompletionRing k b u =
      if (u.cr r).state ≠ .absent then answer k (.plain .wrongState) u
      else match toId 16 b.selector with
        | none => answer k (.plain .invalidField) u
        | some v =>
          if b.base % 32 = 0 ∧ 2 ≤ b.size ∧ b.size ≤ 4096 ∧ 1 ≤ b.coalescingCount ∧ b.coalescingCount ≤ 255
              ∧ b.coalescingTime ≤ 65535 then
            answer k (.plain .success) (createCr r b.base b.size v b.coalescingCount b.coalescingTime u)
          else answer k (.plain .invalidField) u := by
  unfold createCompletionRing
  rw [toId_eq hid]
  exact if_neg hr

theorem createRequestRing_replies : CreateRequestRing := by
  intro k b s u h hb hcls
  have hrun := h.createRing hb
  rw [hcls] at hrun
  refine ⟨fun hid => h.answers (hrun.trans (congrArg _ (createRequestRing_badId hid))), fun r hr hid => ?_⟩
  have hrun := hrun.trans (congrArg Host.Outcome.next (createRequestRing_ofId hr hid))
  rw [h.rq] at hrun
  refine ⟨fun hf => ?_, fun hf ha => ?_, fun hf ha => ?_⟩
  · rw [if_pos ((h.inFlight _).2 hf)] at hrun
    exact h.answers hrun
  · rw [if_neg (fun hn => hf ((h.inFlight _).1 hn)), if_pos ha] at hrun
    exact h.answers hrun
  rw [if_neg (fun hn => hf ((h.inFlight _).1 hn)), if_neg (not_not.2 ha)] at hrun
  intro good
  refine ⟨fun hg => ?_, fun hg => ?_⟩
  · by_cases hsel : b.selector < 8
    · rw [toId_of_lt hsel] at hrun
      dsimp only at hrun
      rw [h.cr, if_neg fun hc => hg ⟨hc.1, hc.2.1, hc.2.2.1, _, hc.2.2.2.1, rfl, hc.2.2.2.2⟩] at hrun
      exact h.answers hrun
    · rw [toId_eq_none (Nat.le_of_not_lt hsel)] at hrun
      exact h.answers hrun
  · obtain ⟨hbase, hlo, hhi, c, hc0, hsel, hca⟩ := hg
    rw [toId_eq hsel] at hrun
    dsimp only at hrun
    rw [h.cr, if_pos ⟨hbase, hlo, hhi, hc0, hca⟩] at hrun
    have hc : (⟨b.selector % 8, Nat.mod_lt _ (by decide)⟩ : CrId) = c := Fin.ext (by simp only [hsel]; omega)
    rw [hc]
    exact h.answers hrun

/-- The vector that a selector below 16 names. -/
theorem vector_of_selector {n : Nat} (hv : n < 16) : ∃ v : VectorId, n = v.val ∧
    (⟨n % 16, Nat.mod_lt _ (by decide)⟩ : VectorId) = v :=
  ⟨⟨n, hv⟩, rfl, Fin.ext (Nat.mod_eq_of_lt hv)⟩

theorem createCompletionRing_replies {b : CreateRingBody} (h : AxNext k s u)
    (hrun : exec (.createRing k) s = .next (createCompletionRing k b u)) :
    (¬ (1 ≤ b.ringId ∧ b.ringId ≤ 7) → Replies (.createRing k) s k (plain .invalidField) u) ∧
      ∀ r : CrId, r ≠ 0 → b.ringId = r.val →
        ((s.cr r).state ≠ .absent → Replies (.createRing k) s k (plain .wrongState) u) ∧
        ((s.cr r).state = .absent →
          let good := b.base % 32 = 0 ∧ 2 ≤ b.size ∧ b.size ≤ 4096 ∧ b.selector < 16 ∧ 1 ≤ b.coalescingCount ∧
            b.coalescingCount ≤ 255 ∧ b.coalescingTime ≤ 65535
          (¬ good → Replies (.createRing k) s k (plain .invalidField) u) ∧
          (good → Replies (.createRing k) s k (plain .success) (createCr r b.base b.size
            ⟨b.selector % 16, Nat.mod_lt _ (by decide)⟩ b.coalescingCount b.coalescingTime u))) := by
  refine ⟨fun hid => h.answers (hrun.trans (congrArg _ (createCompletionRing_badId hid))), fun r hr hid => ?_⟩
  have hrun := hrun.trans (congrArg Host.Outcome.next (createCompletionRing_ofId hr hid))
  rw [h.cr] at hrun
  refine ⟨fun ha => ?_, fun ha => ?_⟩
  · rw [if_pos ha] at hrun
    exact h.answers hrun
  rw [if_neg (not_not.2 ha)] at hrun
  intro good
  refine ⟨fun hg => ?_, fun hg => ?_⟩
  · by_cases hsel : b.selector < 16
    · rw [toId_of_lt hsel] at hrun
      dsimp only at hrun
      rw [if_neg fun hc => hg ⟨hc.1, hc.2.1, hc.2.2.1, hsel, hc.2.2.2⟩] at hrun
      exact h.answers hrun
    · rw [toId_eq_none (Nat.le_of_not_lt hsel)] at hrun
      exact h.answers hrun
  · obtain ⟨hbase, hlo, hhi, hsel, hrest⟩ := hg
    obtain ⟨v, hv, hmod⟩ := vector_of_selector hsel
    rw [toId_eq hv] at hrun
    dsimp only at hrun
    rw [if_pos ⟨hbase, hlo, hhi, hrest⟩] at hrun
    rw [hmod]
    exact h.answers hrun rfl (State.cr_setCr_ne _ _ _ _ hr) rfl

theorem createSampleRing_ofId {b : CreateRingBody} {r : SrId} (hid : b.ringId = r.val) :
    createSampleRing k b u =
      if (u.sr r).state ≠ .absent then answer k (.plain .wrongState) u
      else match toId 16 b.selector with
        | none => answer k (.plain .invalidField) u
        | some v =>
          if b.base % 32 = 0 ∧ 16 ≤ b.size ∧ b.size ≤ 65536 ∧ 1 ≤ b.coalescingCount ∧ b.coalescingCount ≤ 255
              ∧ b.coalescingTime ≤ 65535 ∧ 1 ≤ b.lowWater ∧ b.lowWater < b.resume ∧ b.resume + 1 ≤ b.size then
            answer k (.plain .success)
              (createSr r b.base b.size v b.coalescingCount b.coalescingTime b.lowWater b.resume u)
          else answer k (.plain .invalidField) u := by
  unfold createSampleRing
  rw [toId_eq hid] <;> rfl

theorem createSampleRing_replies {b : CreateRingBody} (h : AxNext k s u)
    (hrun : exec (.createRing k) s = .next (createSampleRing k b u)) :
    (3 < b.ringId → Replies (.createRing k) s k (plain .invalidField) u) ∧
      ∀ r : SrId, b.ringId = r.val →
        ((s.sr r).state ≠ .absent → Replies (.createRing k) s k (plain .wrongState) u) ∧
        ((s.sr r).state = .absent →
          let good := b.base % 32 = 0 ∧ 16 ≤ b.size ∧ b.size ≤ 65536 ∧ b.selector < 16 ∧ 1 ≤ b.coalescingCount ∧
            b.coalescingCount ≤ 255 ∧ b.coalescingTime ≤ 65535 ∧ 1 ≤ b.lowWater ∧ b.lowWater < b.resume ∧
            b.resume ≤ b.size - 1
          (¬ good → Replies (.createRing k) s k (plain .invalidField) u) ∧
          (good → Replies (.createRing k) s k (plain .success) (createSr r b.base b.size
            ⟨b.selector % 16, Nat.mod_lt _ (by decide)⟩ b.coalescingCount b.coalescingTime b.lowWater b.resume u))) := by
  refine ⟨fun hid => ?_, fun r hid => ?_⟩
  · unfold createSampleRing at hrun
    rw [toId_eq_none (by omega)] at hrun
    exact h.answers hrun
  rw [createSampleRing_ofId hid, h.sr] at hrun
  refine ⟨fun ha => ?_, fun ha => ?_⟩
  · rw [if_pos ha] at hrun
    exact h.answers hrun
  rw [if_neg (not_not.2 ha)] at hrun
  intro good
  refine ⟨fun hg => ?_, fun hg => ?_⟩
  · by_cases hsel : b.selector < 16
    · rw [toId_of_lt hsel] at hrun
      dsimp only at hrun
      rw [if_neg fun ⟨hbase, hlo, hhi, hc1, hc2, ht, hl, hlr, hrs⟩ =>
        hg ⟨hbase, hlo, hhi, hsel, hc1, hc2, ht, hl, hlr, by omega⟩] at hrun
      exact h.answers hrun
    · rw [toId_eq_none (Nat.le_of_not_lt hsel)] at hrun
      exact h.answers hrun
  · obtain ⟨hbase, hlo, hhi, hsel, hc1, hc2, ht, hl, hlr, hrs⟩ := hg
    obtain ⟨v, hv, hmod⟩ := vector_of_selector hsel
    rw [toId_eq hv] at hrun
    dsimp only at hrun
    rw [if_pos ⟨hbase, hlo, hhi, hc1, hc2, ht, hl, hlr, by omega⟩] at hrun
    rw [hmod]
    exact h.answers hrun

/-- A class code above 2 names no class. -/
theorem execCreateRing_badClass {b : CreateRingBody} (h : AxNext k s u) (hb : (s.slot k).body = .createRing b)
    (hcls : 2 < b.ringClass) : exec (.createRing k) s = .next (answer k (.plain .invalidField) u) := by
  have hrun := h.createRing hb
  obtain ⟨m, hm⟩ := Nat.exists_eq_add_of_lt hcls
  rw [hm, show 2 + m + 1 = m + 3 by omega] at hrun
  exact hrun

theorem createOutputRing_replies : CreateOutputRing := by
  intro k b s u h hb
  refine ⟨fun hcls => h.answers (execCreateRing_badClass h hb hcls), fun hcls => ?_, fun hcls => ?_⟩
  · have hrun := h.createRing hb
    rw [hcls] at hrun
    exact createCompletionRing_replies h hrun
  · have hrun := h.createRing hb
    rw [hcls] at hrun
    exact createSampleRing_replies h hrun

/-- Settles O20, by its two parts. -/
theorem createRing : Obligations.CreateRing := ⟨createRequestRing_replies, createOutputRing_replies⟩

/-! ### Ports (R141, R142) -/

theorem onPort_badId {id : Nat} (h : 8 ≤ id) (effect : PortId → State → State) (s : State) :
    onPort k id effect s = answer k (.plain .invalidField) s := by
  unfold onPort
  rw [toId_eq_none h]

theorem onPort_ofId {id : Nat} {p : PortId} (h : id = p.val) (effect : PortId → State → State) (s : State) :
    onPort k id effect s = if isInFlight (.port p) s then answer k (.plain .busy) s else effect p s := by
  unfold onPort
  rw [toId_eq h]

/-- The checks of R136 for a request that names a port, and its effect past them. -/
theorem AxNext.onPort (h : AxNext k s u) {c : Instr} {id : Nat} {effect : PortId → State → State}
    (hrun : exec c s = .next (onPort k id effect u)) :
    (8 ≤ id → Replies c s k (plain .invalidField) u) ∧ ∀ p : PortId, id = p.val →
      (InFlight (.port p) s → Replies c s k (plain .busy) u) ∧
      (¬ InFlight (.port p) s → exec c s = .next (effect p u)) := by
  refine ⟨fun hid => h.answers (hrun.trans (congrArg _ (onPort_badId hid _ _))), fun p hid => ?_⟩
  rw [onPort_ofId hid] at hrun
  refine ⟨fun hf => ?_, fun hf => ?_⟩
  · rw [if_pos ((h.inFlight _).2 hf)] at hrun
    exact h.answers hrun
  · rwa [if_neg fun hn => hf ((h.inFlight _).1 hn)] at hrun

theorem bitRateOfCode_iff (n : Nat) (rate : BitRate) : bitRateOfCode n = some rate ↔
    (n = 0 ∧ rate = .mbit1) ∨ (n = 1 ∧ rate = .mbit2_5) ∨ (n = 2 ∧ rate = .mbit5) ∨ (n = 3 ∧ rate = .mbit10) := by
  unfold bitRateOfCode
  split
  · simp [eq_comm]
  · simp [eq_comm]
  · simp [eq_comm]
  · simp [eq_comm]
  · simp only [reduceCtorEq, false_iff]
    rintro (⟨rfl, -⟩ | ⟨rfl, -⟩ | ⟨rfl, -⟩ | ⟨rfl, -⟩) <;> contradiction

/-- The parameters of a PORT_CONFIG are those in the ranges of Table 11 (R17). -/
theorem parameters_eq_some_iff (b : PortConfigBody) (q : PortParameters) :
    b.parameters = some q ↔ ∃ rate, GoodParameters b rate ∧ q = parametersOf b rate := by
  have hrate := bitRateOfCode_iff b.bitRate
  unfold PortConfigBody.parameters GoodParameters
  cases hb : bitRateOfCode b.bitRate with
  | none =>
    refine ⟨fun h => (by cases h), ?_⟩
    rintro ⟨rate, ⟨hr, -⟩, -⟩
    exact absurd ((hrate rate).2 hr) (by rw [hb]; simp)
  | some rate =>
    dsimp only
    have hgood := (hrate rate).1 hb
    split
    · rename_i hranges
      refine ⟨fun h => ⟨rate, ⟨hgood, hranges⟩, (Option.some.inj h).symm⟩, ?_⟩
      rintro ⟨rate', ⟨hr', -⟩, rfl⟩
      have : rate' = rate := Option.some.inj (((hrate rate').2 hr').symm.trans hb)
      rw [this]
      rfl
    · rename_i hranges
      refine ⟨fun h => (by cases h), ?_⟩
      rintro ⟨rate', ⟨-, hr'⟩, -⟩
      exact absurd hr' hranges

/-- Settles O22, by the checks of `takePortConfig`. -/
theorem portConfigReplacesParameters : Obligations.PortConfigReplacesParameters := by
  intro k b s u h hb
  have hrun : exec (.portConfig k) s = .next (onPort k b.port (takePortConfig k b) u) := by
    change execPortConfig k s = _
    unfold execPortConfig
    rw [h.take, hb]
  obtain ⟨hbad, hport⟩ := h.onPort hrun
  refine ⟨hbad, fun p hid => ?_⟩
  obtain ⟨hbusy, heffect⟩ := hport p hid
  unfold takePortConfig at heffect
  dsimp only at heffect
  rw [h.link, h.time] at heffect
  refine ⟨hbusy, fun hf h1 h2 => ?_, fun hf hst => ?_⟩
  · exact h.answers ((heffect hf).trans (congrArg _ (if_pos ⟨h1, h2⟩)))
  have hrun := heffect hf
  rw [if_neg (by rintro ⟨h1, h2⟩; exact hst.elim h1 h2)] at hrun
  refine ⟨fun hnone => ?_, fun rate hgood => ?_⟩
  · have hq : b.parameters = none := Option.eq_none_iff_forall_not_mem.2 fun q hq => by
      obtain ⟨rate, hg, -⟩ := (parameters_eq_some_iff b q).1 hq
      exact hnone rate hg
    rw [hq] at hrun
    exact h.answers hrun
  · rw [(parameters_eq_some_iff b _).2 ⟨rate, hgood, rfl⟩] at hrun
    rw [Nat.mul_comm 125000]
    exact h.answers hrun

/-- Settles O23, by the link states of `takePortStart`. -/
theorem portStartBeginsTraining : Obligations.PortStartBeginsTraining := by
  intro k port s u h hb
  have hrun : exec (.portStart k) s = .next (onPort k port (takePortStart k) u) := by
    change execPortStart k s = _
    unfold execPortStart
    rw [h.take, hb]
  obtain ⟨hbad, hport⟩ := h.onPort hrun
  refine ⟨hbad, fun p hid => ?_⟩
  obtain ⟨hbusy, heffect⟩ := hport p hid
  intro flying
  unfold takePortStart at heffect
  dsimp only at heffect
  rw [h.link] at heffect
  refine ⟨hbusy, fun hf hst => ?_, fun t hf hst ht => ?_, fun hf hst => ?_⟩
  · rw [heffect hf, show flying = u.axInFlight ++ [{ slot := k, kind := .portStart, object := .port p }] by
      rw [h.axInFlight], ← h.link]
    rw [← h.link] at hst
    rcases hst with hst | hst <;> rw [hst] <;> rfl
  · rw [heffect hf, show flying = u.axInFlight ++ [{ slot := k, kind := .portStart, object := .port p }] by
      rw [h.axInFlight]]
    split <;> rename_i hs <;> simp only [hst, reduceCtorEq] at hs
    rw [ht]
    rfl
  · have hrun := heffect hf
    rcases hst with hst | hst <;> rw [hst] at hrun <;> exact h.answers hrun

end Sys2Proof.Claims
end

section
set_option Elab.async false
/-! SUPPORT. The admin requests about sensors (R60 to R65), capture lines (R93 to R95) and the queries (R147 to R149). -/

namespace Sys2Proof.Claims

open Sys2Proof.Machine

variable {k : SlotId} {s u : State}

/-! ### Sensors (R144) -/

/-- The identifier check for a request that names a sensor, and its effect past it (R136). -/
theorem AxNext.onSensor (h : AxNext k s u) {c : Instr} {id : Nat} {effect : SensorId → State → State}
    (hrun : exec c s = .next (onSensor k id effect u)) :
    (32 ≤ id → Replies c s k (plain .invalidField) u) ∧ ∀ n : SensorId, id = n.val → exec c s = .next (effect n u) := by
  unfold Machine.onSensor at hrun
  refine ⟨fun hid => ?_, fun n hid => ?_⟩
  · rw [toId_eq_none hid] at hrun
    exact h.answers hrun
  · rwa [toId_eq hid] at hrun

theorem AxNext.identityOf (h : AxNext k s u) (n : SensorId) : u.identityOf n = entryOf n s := by
  rw [h.taken]
  rfl

theorem turnModeOfCode_iff (n : Nat) (mode : TurnMode) : turnModeOfCode n = some mode ↔ n = turnModeCode mode := by
  unfold turnModeOfCode
  split
  · cases mode <;> simp [turnModeCode]
  · cases mode <;> simp [turnModeCode]
  · cases mode <;> simp [turnModeCode]
  · simp only [reduceCtorEq, false_iff]
    rintro rfl
    cases mode <;> contradiction

theorem confirmOfCode_iff (n : Nat) (c : Confirm) : confirmOfCode n = some c ↔ n = confirmCode c := by
  unfold confirmOfCode
  split
  · cases c <;> simp [confirmCode]
  · cases c <;> simp [confirmCode]
  · simp only [reduceCtorEq, false_iff]
    rintro rfl
    cases c <;> contradiction

theorem toId_eq_some_iff {n i : Nat} (x : Fin n) : toId n i = some x ↔ i = x.val := by
  refine ⟨fun h => ?_, toId_eq⟩
  unfold toId at h
  split at h
  · exact congrArg Fin.val (Option.some.inj h)
  · cases h

/-- The context that a SENSOR_BIND makes is that of R61, where the field checks of R60 pass. -/
theorem boundContext_eq_some_iff (b : BindBody) (word : BitVec 32) (s : State) (c : Sensor) : boundContext b word s = some c ↔
    ∃ ring mode confirm, GoodBind b word ring mode confirm s ∧ c = boundSensor b word ring mode confirm := by
  have hring := fun x => toId_eq_some_iff (n := 4) (i := b.ring) x
  have hmode := turnModeOfCode_iff b.turnMode
  have hconf := confirmOfCode_iff b.confirm
  unfold boundContext
  constructor
  · intro h
    split at h
    · rename_i ring mode confirm hr hm hc
      split at h
      · rename_i hg
        obtain ⟨hw, hmt, hrep, hj, hr1, hr2, hs, ho, hd1, hd2, hcap⟩ := hg
        exact ⟨ring, mode, confirm, ⟨⟨(hring _).1 hr, (writable_iff _).1 hw⟩, ⟨(hmode _).1 hm, hmt⟩, ⟨(hconf _).1 hc, hrep⟩, hj,
          ⟨hr1, hr2⟩, hs, (inSigned48_iff _).1 ho, ⟨hd1, hd2⟩, hcap⟩, (Option.some.inj h).symm⟩
      · cases h
    · cases h
  · rintro ⟨ring, mode, confirm, hg, rfl⟩
    rw [(hring _).2 hg.ring.1, (hmode _).2 hg.mode.1, (hconf _).2 hg.confirm.1]
    exact if_pos ⟨(writable_iff _).2 hg.ring.2, hg.mode.2, hg.confirm.2, hg.jumpLimit, hg.rejectLimit.1, hg.rejectLimit.2,
      hg.scale, (inSigned48_iff _).2 hg.offset, hg.decimation.1, hg.decimation.2, hg.captureMask⟩

/-- Settles O25, by the checks of `takeBind`. -/
theorem sensorBindBindsTheContext : Obligations.SensorBindBindsTheContext := by
  intro k b s u h hb
  have hrun : exec (.sensorBind k) s = .next (onSensor k b.sensor (takeBind k b) u) := by
    change execSensorBind k s = _
    unfold execSensorBind
    rw [h.take, hb]
  obtain ⟨hbad, hsensor⟩ := h.onSensor hrun
  refine ⟨hbad, fun n hid => ?_⟩
  have hrun := hsensor n hid
  unfold takeBind at hrun
  dsimp only at hrun
  rw [h.sensor, h.identityOf] at hrun
  refine ⟨fun h1 h2 => ?_, fun hst hp => ?_, fun hst hp => ?_⟩
  · rw [if_pos ⟨h1, h2⟩] at hrun
    exact h.answers hrun
  · rw [if_neg (by rintro ⟨h1, h2⟩; exact hst.elim h1 h2), if_pos (by rw [hp]; rfl)] at hrun
    exact h.answers hrun
  rw [if_neg (by rintro ⟨h1, h2⟩; exact hst.elim h1 h2), if_neg (by rw [hp]; decide)] at hrun
  have hsr : ∀ c, boundContext b (entryOf n s).word u = some c ↔ _ := boundContext_eq_some_iff b (entryOf n s).word u
  have hgood : ∀ ring mode confirm, GoodBind b (entryOf n s).word ring mode confirm u ↔
      GoodBind b (entryOf n s).word ring mode confirm s := fun ring mode confirm => by
    obtain rfl := h.taken
    exact ⟨fun g => ⟨g.ring, g.mode, g.confirm, g.jumpLimit, g.rejectLimit, g.scale, g.offset, g.decimation, g.captureMask⟩,
      fun g => ⟨g.ring, g.mode, g.confirm, g.jumpLimit, g.rejectLimit, g.scale, g.offset, g.decimation, g.captureMask⟩⟩
  refine ⟨fun hnone => ?_, fun ring mode confirm hg => ?_⟩
  · have hctx : boundContext b (entryOf n s).word u = none := Option.eq_none_iff_forall_not_mem.2 fun c hc => by
      obtain ⟨ring, mode, confirm, hg, -⟩ := (hsr c).1 hc
      exact hnone ring mode confirm ((hgood _ _ _).1 hg)
    rw [hctx] at hrun
    exact h.answers hrun
  · rw [(hsr _).2 ⟨ring, mode, confirm, (hgood _ _ _).2 hg, rfl⟩] at hrun
    dsimp only at hrun
    rw [BitVec.ofNat_toNat] at hrun
    exact h.answers hrun

/-- Settles O26, by the states of `takeUnbind`. -/
theorem sensorUnbindClearsTheContext : Obligations.SensorUnbindClearsTheContext := by
  intro k sensor s u h hb
  have hrun : exec (.sensorUnbind k) s = .next (onSensor k sensor (takeUnbind k) u) := by
    change execSensorUnbind k s = _
    unfold execSensorUnbind
    rw [h.take, hb]
  obtain ⟨hbad, hsensor⟩ := h.onSensor hrun
  refine ⟨hbad, fun n hid => ?_⟩
  have hrun := hsensor n hid
  unfold takeUnbind at hrun
  rw [h.sensor] at hrun
  refine ⟨fun hst => ?_, fun hst => ?_, fun hst => ?_⟩
  · rcases hst with hst | hst <;> rw [hst] at hrun <;> exact h.answers hrun
  · rcases hst with hst | hst <;> rw [hst] at hrun <;> exact h.answers hrun
  · rw [hst] at hrun
    exact h.answers hrun

/-- Posting a record leaves the slots, the completion rings and the discarded completions as they are. -/
theorem postRecord_beside (r : SampleRecord) (s : State) : (postRecord r s).slots = s.slots ∧ (postRecord r s).cr 0 = s.cr 0 ∧
    (postRecord r s).discarded = s.discarded := by
  rw [postRecord_frame]
  exact ⟨rfl, rfl, rfl⟩

/-- A request is answered behind a record that it posts. -/
theorem AxNext.answersPosted (h : AxNext k s u) {c : Instr} {r : Result} {x : SampleRecord} {t : State}
    (he : exec c s = .next (answer k r (postRecord x t))) (h1 : t.slots = u.slots := by rfl) (h2 : t.cr 0 = u.cr 0 := by rfl)
    (h3 : t.discarded = u.discarded := by rfl) : Replies c s k r (postRecord x t) := by
  obtain ⟨p1, p2, p3⟩ := postRecord_beside x t
  exact h.answers he (p1.trans h1) (p2.trans h2) (p3.trans h3)

theorem startState_eq (link : LinkState) (present : Bool) : startState link present =
    if present = true ∧ (link = .running ∨ link = .retryWait) then .acquiring else .waiting := by
  cases link <;> cases present <;> rfl

/-- A START's mark carries zeros (R59). -/
theorem markRecord_start (n : SensorId) (c : Sensor) (now : Time) : markRecord n c .start .none now false = startMark n now := rfl

/-- Settles O27, by the checks of `takeStart`. -/
theorem sensorStartBeginsAcquisition : Obligations.SensorStartBeginsAcquisition := by
  intro k sensor s u h hb
  have hrun : exec (.sensorStart k) s = .next (onSensor k sensor (takeStart k) u) := by
    change execSensorStart k s = _
    unfold execSensorStart
    rw [h.take, hb]
  obtain ⟨hbad, hsensor⟩ := h.onSensor hrun
  refine ⟨hbad, fun n hid => ?_⟩
  intro c e link
  have hrun := hsensor n hid
  unfold takeStart at hrun
  dsimp only at hrun
  rw [h.sensor, h.identityOf, h.link, h.time, markRecord_start, startState_eq] at hrun
  refine ⟨fun h1 h2 => ?_, fun hst => ?_⟩
  · rw [if_pos ⟨h1, h2⟩] at hrun
    exact h.answers hrun
  rw [if_neg (by rintro ⟨h1, h2⟩; exact hst.elim h1 h2)] at hrun
  refine ⟨fun hp hsame => ?_, fun hsame hheld => ?_, fun hsame hheld => ⟨fun hp hl => ?_, fun hpl => ?_⟩⟩
  · rw [if_pos ⟨hp, hsame⟩] at hrun
    exact h.answers hrun
  · rw [if_neg hsame, if_pos (by exact hheld)] at hrun
    exact h.answers hrun
  · rw [if_neg hsame, if_neg (by exact hheld), if_pos ⟨hp, hl⟩] at hrun
    exact h.answersPosted hrun
  · rw [if_neg hsame, if_neg (by exact hheld), if_neg hpl] at hrun
    exact h.answersPosted hrun

/-! ### Capture lines (R93 to R95) -/

theorem onLine_ofId {id : Nat} {l : LineId} (h : id = l.val) (effect : LineId → State → State) (s : State) :
    onLine k id effect s = effect l s := by
  unfold onLine
  rw [toId_eq h]

theorem onLine_badId {id : Nat} (h : 4 ≤ id) (effect : LineId → State → State) (s : State) :
    onLine k id effect s = answer k (.plain .invalidField) s := by
  unfold onLine
  rw [toId_eq_none h]

theorem edgeSelectOfCode_eq {n : Nat} (h : n ≤ 2) :
    edgeSelectOfCode n = some (if n = 0 then .rising else if n = 1 then .falling else .both) := by
  have hn : n = 0 ∨ n = 1 ∨ n = 2 := by omega
  rcases hn with rfl | rfl | rfl <;> rfl

theorem edgeSelectOfCode_none {n : Nat} (h : 2 < n) : edgeSelectOfCode n = none := by
  unfold edgeSelectOfCode
  split <;> grind

/-- Settles O29, by the checks of `takeCaptureConfig`. -/
theorem captureConfigSetsEdgeAndFilter : Obligations.CaptureConfigSetsEdgeAndFilter := by
  intro k line edge filter s u h hb
  have hrun : exec (.captureConfig k) s = .next (onLine k line (takeCaptureConfig k edge filter) u) := by
    change execCaptureConfig k s = _
    unfold execCaptureConfig
    rw [h.take, hb]
  refine ⟨fun hbad => ?_, fun l hid he hf => ?_⟩
  · by_cases hl : line ≤ 3
    · rw [onLine_ofId (l := ⟨line, by omega⟩) rfl] at hrun
      unfold takeCaptureConfig at hrun
      by_cases he : edge ≤ 2
      · rw [edgeSelectOfCode_eq he] at hrun
        dsimp only at hrun
        rw [if_pos (by by_contra hf; exact hbad ⟨hl, he, by omega⟩)] at hrun
        exact h.answers hrun
      · rw [edgeSelectOfCode_none (by omega)] at hrun
        exact h.answers hrun
    · rw [onLine_badId (by omega)] at hrun
      exact h.answers hrun
  · rw [onLine_ofId hid] at hrun
    unfold takeCaptureConfig at hrun
    rw [edgeSelectOfCode_eq he] at hrun
    dsimp only at hrun
    rw [if_neg (by omega), h.line, h.time] at hrun
    refine ⟨fun ha => ?_, fun ha => ?_⟩
    · rw [if_pos ha] at hrun
      exact h.answers hrun
    · rw [if_neg (not_not.2 ha)] at hrun
      exact h.answers hrun

theorem armModeOfCode_none {n : Nat} (h : ¬ (n = 1 ∨ n = 2)) : armModeOfCode n = none := by
  unfold armModeOfCode
  split <;> grind

/-- Settles O30, by the checks of `takeCaptureArm`. -/
theorem captureArmArmsTheLine : Obligations.CaptureArmArmsTheLine := by
  intro k b s u h hb refused
  have hrun : exec (.captureArm k) s = .next (onLine k b.line (takeCaptureArm k b) u) := by
    change execCaptureArm k s = _
    unfold execCaptureArm
    rw [h.take, hb]
  refine ⟨fun hid => ?_, fun l hid => ?_⟩
  · rw [onLine_badId hid] at hrun
    exact h.answers hrun
  intro armed
  rw [onLine_ofId hid] at hrun
  have harm : ∀ mode ref, armLine l mode ref u =
      u.setLine l { s.line l with arm := mode, armTime := some s.time, reference := ref } := fun mode ref => by
    unfold armLine
    rw [h.line, h.time]
  have hmodes : ¬ (b.mode = 1 ∨ b.mode = 2) → refused .invalidField := fun hm => by
    unfold takeCaptureArm at hrun
    rw [armModeOfCode_none hm] at hrun
    exact h.answers hrun
  have hmode : ∀ mode, armModeOfCode b.mode = some mode →
      (b.referencePresent = 0 → armed mode none) ∧ (1 < b.referencePresent → refused .invalidField) := fun mode hm => by
    unfold takeCaptureArm at hrun
    rw [hm] at hrun
    dsimp only at hrun
    refine ⟨fun h0 => ?_, fun h1 => ?_⟩
    · rw [if_pos h0, harm] at hrun
      exact h.answers hrun
    · rw [if_neg (by omega), if_pos (by omega)] at hrun
      exact h.answers hrun
  refine ⟨hmodes, fun hm h0 => (hmode .once (by rw [hm]; rfl)).1 h0, fun hm h0 => (hmode .continuous (by rw [hm]; rfl)).1 h0,
    fun hp => ?_, fun hm hp => ?_, fun hm hp => ?_⟩
  · by_cases hm : b.mode = 1 ∨ b.mode = 2
    · rcases hm with hm | hm
      · exact (hmode .once (by rw [hm]; rfl)).2 hp
      · exact (hmode .continuous (by rw [hm]; rfl)).2 hp
    · exact hmodes hm
  · unfold takeCaptureArm at hrun
    rw [hm, show armModeOfCode 2 = some .continuous from rfl] at hrun
    dsimp only at hrun
    rw [if_neg (by omega), if_neg (not_not.2 hp)] at hrun
    split at hrun
    · exact h.answers hrun
    · rw [if_pos rfl, ite_self] at hrun
      exact h.answers hrun
  · unfold takeCaptureArm at hrun
    rw [hm, show armModeOfCode 1 = some .once from rfl] at hrun
    dsimp only at hrun
    rw [if_neg (by omega), if_neg (not_not.2 hp)] at hrun
    refine ⟨fun hbad => ?_, fun n hn hlo hhi => ?_⟩
    · by_cases hn : b.referenceSensor < 32
      · rw [toId_of_lt hn] at hrun
        dsimp only at hrun
        rw [if_pos (by rw [← Bool.not_eq_true, inSigned48_iff]; exact fun hp => hbad ⟨hn, hp⟩)] at hrun
        exact h.answers hrun
      · rw [toId_eq_none (Nat.le_of_not_lt hn)] at hrun
        exact h.answers hrun
    · rw [toId_eq hn] at hrun
      dsimp only at hrun
      rw [if_neg (by rw [Bool.not_eq_false, inSigned48_iff]; exact ⟨hlo, hhi⟩), if_neg (by decide), h.sensor, harm] at hrun
      refine ⟨fun hs => ?_, fun hs hmask => ?_, fun hs hmask => ?_⟩
      · rw [if_pos hs] at hrun
        exact h.answers hrun
      · rw [if_neg hs, if_pos hmask] at hrun
        exact h.answers hrun
      · rw [if_neg hs, if_neg (by rw [hmask]; decide)] at hrun
        exact h.answers hrun

/-- Settles O31, by `CaptureLine.disarmed`. -/
theorem captureDisarmDisarmsTheLine : Obligations.CaptureDisarmDisarmsTheLine := by
  intro k line s u h hb
  have hrun : exec (.captureDisarm k) s = .next (onLine k line (takeCaptureDisarm k) u) := by
    change execCaptureDisarm k s = _
    unfold execCaptureDisarm
    rw [h.take, hb]
  refine ⟨fun hid => ?_, fun l hid => ?_⟩
  · rw [onLine_badId hid] at hrun
    exact h.answers hrun
  · rw [onLine_ofId hid] at hrun
    unfold takeCaptureDisarm at hrun
    rw [h.line] at hrun
    exact h.answers hrun

/-! ### Queries (R147 to R149) -/

theorem execQuerySensor_eq (h : AxNext k s u) {sensor : Nat} (hb : (s.slot k).body = .querySensor sensor) :
    exec (.querySensor k) s =
      .next (onSensor k sensor (fun n s => answer k (querySensorResult (s.sensor n)) s) u) := by
  change execQuerySensor k s = _
  unfold execQuerySensor
  rw [h.take, hb]

/-- The slots in use and the states of the rings do not depend on what waits for the AX. -/
theorem AxNext.device (h : AxNext k s u) : slotsInUse u = slotsInUse s ∧ ringStateCodes u = ringStateCodes s := by
  rw [h.taken]
  exact ⟨rfl, rfl⟩

theorem queriesAnswer : QueriesAnswer := by
  intro k s u h
  refine ⟨fun port hb => ?_, fun sensor hb => ?_, fun hb => ?_⟩
  · have hrun : exec (.queryPort k) s =
        .next (onPort k port (fun p s => answer k (queryPortResult (s.link p)) s) u) := by
      change execQueryPort k s = _
      unfold execQueryPort
      rw [h.take, hb]
    obtain ⟨hbad, hport⟩ := h.onPort hrun
    refine ⟨hbad, fun p hid => ?_⟩
    obtain ⟨hbusy, heffect⟩ := hport p hid
    refine ⟨hbusy, fun hf => ?_⟩
    have hrun := heffect hf
    rw [h.link] at hrun
    exact h.answers hrun
  · obtain ⟨hbad, hsensor⟩ := h.onSensor (execQuerySensor_eq h hb)
    refine ⟨hbad, fun n hid => ?_⟩
    have hrun := hsensor n hid
    rw [h.sensor] at hrun
    exact h.answers hrun
  · have hrun : exec (.queryDevice k) s =
        .next (answer k (queryDeviceResult u.time (slotsInUse u) (ringStateCodes u)) u) := by
      change execQueryDevice k s = _
      unfold execQueryDevice
      rw [h.take, hb]
    rw [h.time, h.device.1, h.device.2] at hrun
    exact h.answers hrun

theorem unboundSensorReportsZeros : UnboundSensorReportsZeros := by
  intro k n s u h hb hst
  have hans := (queriesAnswer k s u h).2.1 n.val hb |>.2 n rfl
  rwa [show querySensorResult (s.sensor n) = { status := .success, detail := 0, data := 0 } by
    unfold querySensorResult
    rw [if_pos hst]] at hans

theorem slots_toList (s : State) : s.slots.toList = (List.finRange 32).map s.slot := by
  refine List.ext_getElem (by simp) fun i h1 h2 => ?_
  simp [State.slot]

theorem slotsInUseAreCounted : SlotsInUseAreCounted := by
  intro s
  unfold slotsInUse
  rw [slots_toList, List.countP_map, List.countP_eq_length_filter]
  cases s.fetch <;> rfl

/-- Settles O32, by its three parts. -/
theorem queriesReport : Obligations.QueriesReport := ⟨queriesAnswer, unboundSensorReportsZeros, slotsInUseAreCounted⟩

end Sys2Proof.Claims
end

section
set_option Elab.async false
/-! SUPPORT. SENSOR_STOP (R65) and ABORT by the state of its target (R128 to R130, R146). -/

namespace Sys2Proof.Claims

open Sys2Proof.Machine

variable {k j : SlotId} {s u : State}

/-! ### SENSOR_STOP (R65) -/

theorem stopSensor_away {n : SensorId} (h : (s.sensor n).state ≠ .acquiring) : stopSensor n s =
    postRecord (markRecord n (s.sensor n) .stop .none s.time (dropsCaptures (s.sensor n)))
      (s.setSensor n { s.sensor n with state := .bound, cause := .none }) := by
  unfold stopSensor leaveAcquisition
  dsimp only
  rw [if_neg h]

theorem stopSensor_acquiring {n : SensorId} (h : (s.sensor n).state = .acquiring) : stopSensor n s =
    postRecord (markRecord n (s.sensor n) .stop .none s.time (dropsCaptures (s.sensor n)))
      ((s.setSched (portOf n) ((s.sched (portOf n)).dropEntry n)).setSensor n { s.sensor n with
        state := .bound, cause := .none, captures := Vector.replicate 4 none }) := by
  unfold stopSensor leaveAcquisition
  dsimp only
  rw [if_pos h, State.sensor_setSensor_same, State.setSensor_setSensor]

/-- Settles O28, by the states of `takeStop`. -/
theorem sensorStopReturnsToBound : Obligations.SensorStopReturnsToBound := by
  intro k sensor s u h hb
  have hrun : exec (.sensorStop k) s = .next (onSensor k sensor (takeStop k) u) := by
    change execSensorStop k s = _
    unfold execSensorStop
    rw [h.take, hb]
  obtain ⟨hbad, hsensor⟩ := h.onSensor hrun
  refine ⟨hbad, fun n hid => ?_⟩
  have hrun := hsensor n hid
  unfold takeStop at hrun
  rw [h.sensor] at hrun
  intro c dropped stopped mark
  have hsen : u.sensor n = c := h.sensor n
  have hmark : markRecord n (u.sensor n) .stop .none u.time (dropsCaptures (u.sensor n)) = mark := by
    rw [hsen, h.time]
    rfl
  have hacq : c.state = .acquiring → exec (.sensorStop k) s = .next (answer k (.plain .success)
      (postRecord mark ((u.setSched (portOf n) ((s.sched (portOf n)).dropEntry n)).setSensor n stopped))) := fun hst => by
    have hst' : (u.sensor n).state = .acquiring := by rw [hsen]; exact hst
    rw [show (s.sensor n).state = .acquiring from hst, stopSensor_acquiring hst', hmark, hsen, h.sched] at hrun
    rw [hrun, show stopped = { c with state := .bound, cause := .none, captures := Vector.replicate 4 none } by
      simp only [stopped]; rw [if_pos hst]]
  refine ⟨fun hst => ?_, fun hst hh => ?_, fun hst hh => ?_, fun hst => ?_, fun hst => ?_⟩
  · have hna : c.state ≠ .acquiring := by rcases hst with hst | hst <;> rw [hst] <;> decide
    have hstop : stopSensor n u = postRecord mark (u.setSensor n stopped) := by
      rw [stopSensor_away (by rw [hsen]; exact hna), hmark, hsen]
      simp only [stopped]
      rw [if_neg hna]
    rcases hst with hst | hst <;> rw [show (s.sensor n).state = _ from hst, hstop] at hrun <;> exact h.answersPosted hrun
  · have hrun := hacq hst
    rw [show (s.sched (portOf n)).dropEntry n = { s.sched (portOf n) with
      roundList := (s.sched (portOf n)).roundList.filter fun m => m ≠ n } from if_neg hh] at hrun
    exact h.answersPosted hrun
  · have hrun := hacq hst
    rw [show (s.sched (portOf n)).dropEntry n = { s.sched (portOf n) with
      roundList := (s.sched (portOf n)).roundList.tail, roundStep := none, heldPosition := none } from if_pos hh] at hrun
    exact h.answersPosted hrun
  · rw [show (s.sensor n).state = _ from hst] at hrun
    exact h.answers hrun
  · rw [show (s.sensor n).state = _ from hst] at hrun
    exact h.answers hrun

/-! ### The target of an ABORT (R128) -/

/-- The slot has the ring and the tag, and no result yet. -/
def Matches (r : RqId) (tag : BitVec 16) (s : State) (j : SlotId) : Prop :=
  (s.slot j).rq = r ∧ (s.slot j).tag = tag ∧
    ((s.slot j).state = .linkWait ∨ (s.slot j).state = .queued ∨ (s.slot j).state = .active)

theorem abortTarget_eq_some_iff {r : RqId} {tag : BitVec 16} : abortTarget r tag s = some j ↔ Target r tag s j := by
  have hp : ∀ i, ((decide ((s.slot i).rq = r) && decide ((s.slot i).tag = tag) && ((s.slot i).state == .linkWait ||
      (s.slot i).state == .queued || (s.slot i).state == .active)) = true ↔ Matches r tag s i) := fun i => by
    simp [Matches, and_assoc, or_assoc]
  unfold abortTarget
  dsimp only
  rw [List.find?_eq_some_iff_append, hp]
  constructor
  · rintro ⟨⟨h1, h2, h3⟩, before, behind, hl, hbefore⟩
    refine ⟨⟨h1, h2⟩, h3, before, behind, hl, fun i hi hm => ?_⟩
    have := hbefore i hi
    rw [(hp i).2 hm] at this
    cases this
  · rintro ⟨⟨h1, h2⟩, h3, before, behind, hl, hbefore⟩
    refine ⟨⟨h1, h2, h3⟩, before, behind, hl, fun i hi => ?_⟩
    rw [Bool.not_eq_true', ← Bool.not_eq_true, hp]
    exact hbefore i hi

theorem AxNext.abortTarget (h : AxNext k s u) (r : RqId) (tag : BitVec 16) : abortTarget r tag u = abortTarget r tag s := by
  rw [h.taken]
  rfl

theorem AxNext.execAbort (h : AxNext k s u) {ring : Nat} {tag : BitVec 16} (hb : (s.slot k).body = .abort ring tag) :
    (8 ≤ ring → exec (.abort k) s = .next (answer k (.plain .invalidField) u)) ∧
    ∀ r : RqId, ring = r.val →
      (InFlight (.rq r) s → exec (.abort k) s = .next (answer k (.plain .busy) u)) ∧
      (¬ InFlight (.rq r) s → exec (.abort k) s = .next (takeAbort k r tag u)) := by
  have hrun : exec (.abort k) s = Machine.execAbort k s := rfl
  unfold Machine.execAbort at hrun
  rw [h.take, hb] at hrun
  dsimp only at hrun
  refine ⟨fun hr => ?_, fun r hr => ⟨fun hf => ?_, fun hf => ?_⟩⟩
  · rw [hrun, toId_eq_none hr]
  · rw [hrun, toId_eq hr]
    dsimp only
    rw [if_pos ((h.inFlight _).2 hf)]
  · rw [hrun, toId_eq hr]
    dsimp only
    rw [if_neg fun hn => hf ((h.inFlight _).1 hn)]

theorem takeAbort_none {r : RqId} {tag : BitVec 16} (hr : r ≠ 0) (h : abortTarget r tag u = none) :
    takeAbort k r tag u = answer k (.plain .notFound) u := by
  unfold takeAbort
  rw [if_neg hr, h]

theorem takeAbort_some {r : RqId} {tag : BitVec 16} (hr : r ≠ 0) (h : abortTarget r tag u = some j) :
    takeAbort k r tag u =
      if (u.slot j).state = .active then
        if (u.slot j).abortPending then answer k (.plain .busy) u else settle (markAbort j (some k) u)
      else abortNow k j tag u := by
  unfold takeAbort
  rw [if_neg hr, h]

/-- The slot as an abort marks it. -/
def markedSlot (requester : Option SlotId) (sl : Slot) : Slot :=
  { sl with abortPending := true, abortRequester := if sl.abortPending = true then sl.abortRequester else requester }

/-- A transaction with its exchange on the line is marked alone (R51). -/
theorem markAbort_onLine {requester : Option SlotId} (h : (s.sched (portOf (s.slot j).sensor)).owner = some .transaction) :
    markAbort j requester s = s.setSlot j (markedSlot requester (s.slot j)) := by
  unfold markAbort
  dsimp only
  rw [State.sched_setSlot, if_neg fun hn => hn.2 h]
  rfl

theorem abortMarksAnActiveTarget : AbortMarksAnActiveTarget := by
  intro k ring tag s u h hb
  obtain ⟨hbad, hring⟩ := h.execAbort hb
  refine ⟨fun hr => h.answers (hbad hr), fun h0 hf => ?_, fun r hr hid => ?_⟩
  · exact h.answers (((hring 0 h0).2 hf).trans (congrArg _ (if_pos rfl)))
  obtain ⟨hbusy, htake⟩ := hring r hid
  refine ⟨fun hf => h.answers (hbusy hf), fun hf hnone => ?_, fun j hf ht hact => ?_⟩
  · have hfind : abortTarget r tag u = none := by
      rw [h.abortTarget]
      exact Option.eq_none_iff_forall_not_mem.2 fun j hj => hnone j (abortTarget_eq_some_iff.1 hj)
    exact h.answers ((htake hf).trans (congrArg _ (takeAbort_none hr hfind)))
  · have hrun := (htake hf).trans (congrArg Host.Outcome.next
      (takeAbort_some hr ((h.abortTarget r tag).trans (abortTarget_eq_some_iff.2 ht))))
    rw [h.slot, if_pos hact] at hrun
    refine ⟨fun hp => ?_, fun hp hown => ?_⟩
    · rw [if_pos hp] at hrun
      exact h.answers hrun
    · rw [if_neg (by rw [hp]; decide), markAbort_onLine (by rw [h.slot, h.sched]; exact hown), h.slot] at hrun
      have hset : settle (u.setSlot j (markedSlot (some k) (s.slot j))) = u.setSlot j (markedSlot (some k) (s.slot j)) :=
        settle_of_none_discarded (s := u.setSlot j (markedSlot (some k) (s.slot j))) h.discarded
      rw [hrun, hset]
      unfold markedSlot
      rw [hp]
      rfl

/-! ### A target that waits (R46, R129) -/

/-- A waiting request without an ABORT on it is answered ABORTED, its reference out of the queue. -/
theorem abortWaiting_effect (hw : (s.slot j).state = .linkWait ∨ (s.slot j).state = .queued)
    (ha : (s.slot j).abortRequester = none) (hc : (s.cr (s.slot j).cr).state = .active) :
    Answered j (plain .aborted) (s.setSched (portOf (s.slot j).sensor) { s.sched (portOf (s.slot j).sensor) with
      queue := (s.sched (portOf (s.slot j).sensor)).queue.filter fun i => i ≠ j }) (abortWaiting j s) ∧
    (abortWaiting j s).discarded = s.discarded := by
  have hcon : Concludable j (dequeue j s) := ⟨hw.imp_right .inl, hc, fun a h => by
    rw [show (State.slot (dequeue j s) j).abortRequester = none from ha] at h; cases h⟩
  obtain ⟨A, hd⟩ := completeSlot_effect (plain .aborted) hcon
  exact ⟨(concluded_iff_answered (u := dequeue j s) ha).1 A, hd⟩

/-- An answer stands beside a new chain state of a request ring. -/
theorem Answered.setChain {r : RqId} {res : Result} {v : State} (h : Answered j res s v) (c : ChainState) :
    Answered j res (s.setRq r { s.rq r with chain := c }) (v.setRq r { v.rq r with chain := c }) := by
  have hrq : v.rq r = s.rq r := by rw [h.others]; rfl
  refine h.frame ⟨rfl, rfl, rfl, rfl, rfl, fun i => ?_⟩ ?_
  · rw [State.rq_setRq]
    split
    · rename_i he; subst he; rfl
    · rfl
  · rw [hrq]
    exact congrArg (State.setRq · r { s.rq r with chain := c }) h.others

/-- The answer to an ABORT, beside the one to its target. -/
theorem AxNext.answersBehind (h : AxNext k s u) {c : Instr} {x r : Result} {v w : State} (hkj : j ≠ k) (A : Answered j x w v)
    (hw1 : w.slots = u.slots) (hw2 : w.crs = u.crs) (hd : v.discarded = []) (he : exec c s = .next (answer k r v)) :
    Completes c s (Answered k r v) := by
  have hslot : v.slot k = s.slot k := by
    rw [A.otherSlots k hkj.symm, ← h.slot]
    unfold State.slot
    rw [hw1]
  have hcr : (v.cr 0).state = .active := by
    rw [A.cr_state, show w.cr 0 = u.cr 0 by unfold State.cr; rw [hw2], h.cr]
    exact h.ring
  have hready : Ready k v := Ready.alone (by rw [hslot]; exact h.alone)
    ((Slot.isOpen_iff _).2 (.inr (.inr (by rw [hslot]; exact h.active)))) (by rw [hslot, h.onCr0]; exact hcr) hd
  exact ⟨_, he, (concluded_iff_answered (by rw [hslot]; exact h.alone)).1 (hready.answer r)⟩

theorem abortEndsAWaitingTarget : AbortEndsAWaitingTarget := by
  intro k j ring r tag s u h hb hr hid hf ht hst ha hc p
  have hrun := (((h.execAbort hb).2 r hid).2 hf).trans (congrArg Host.Outcome.next
    (takeAbort_some hr ((h.abortTarget r tag).trans (abortTarget_eq_some_iff.2 ht))))
  rw [h.slot, if_neg hst] at hrun
  have hkj : j ≠ k := fun he => hst (he ▸ h.active)
  have hw : (u.slot j).state = .linkWait ∨ (u.slot j).state = .queued := by
    rw [h.slot]
    exact ht.live.imp_right fun hl => hl.resolve_right hst
  obtain ⟨A, hd⟩ := abortWaiting_effect hw (by rw [h.slot]; exact ha) (by rw [h.slot, h.cr]; exact hc)
  rw [h.slot, h.sched] at A
  unfold abortNow at hrun
  dsimp only at hrun
  rw [h.slot, ht.names.1, abortResult_eq] at hrun
  have hrq : (abortWaiting j u).rq r = s.rq r := by rw [A.others, ← h.rq]; rfl
  have hchain : (if ((abortWaiting j u).rq r).chain = .openAt j then (abortWaiting j u).setRq r
      { (abortWaiting j u).rq r with chain := .broken } else abortWaiting j u) = (abortWaiting j u).setRq r
      { (abortWaiting j u).rq r with
        chain := if (s.rq r).chain = .openAt j then .broken else (s.rq r).chain } := by
    rw [hrq]
    split
    · rfl
    · rw [← hrq, State.setRq_self]
  rw [hchain] at hrun
  have A' := A.setChain (r := r) (if (s.rq r).chain = .openAt j then .broken else (s.rq r).chain)
  rw [show (u.setSched (portOf (s.slot j).sensor) _).rq r = s.rq r from h.rq r] at A'
  obtain ⟨t, ht, B⟩ := h.answersBehind hkj A' rfl rfl (hd.trans h.discarded) hrun
  exact ⟨t, ht, _, A', B⟩

/-! ### A target that has yielded its port to a round (R51) -/

theorem progressData_eq_cutShort (st : Status) (done : Nat) (b : Body) (g : TransactionProgress) :
    ({ status := st, detail := BitVec.ofNat 32 done, data := progressData b g } : Result) = cutShort st done b g.values := by
  cases b <;> rfl

/-- Everything `cutActive` does for the active transaction, where it can be concluded (R52, R162). -/
theorem cutActive_concludes {p : PortId} {st : Status} {done : Nat} (ha : (s.sched p).active = some j) (hc : Concludable j s) :
    Concluded j (cutShort st done (s.slot j).body (s.sched p).progress.values) (s.setSched p (withoutActive (s.sched p)))
        (cutActive p st done s) ∧
      (cutActive p st done s).discarded = s.discarded := by
  obtain ⟨A, hd⟩ := completeSlot_effect (cutShort st done (s.slot j).body (s.sched p).progress.values) hc
  rw [cutActive_effect ha, progressData_eq_cutShort, completeActive_effect ha A rfl]
  exact ⟨A.sched p _, hd⟩

/-- No decision is taken while an exchange is out (R47). -/
theorem makeDecision_of_owned {p : PortId} {o : ExchangeOwner} (h : (s.sched p).owner = some o) : makeDecision p s = s := by
  unfold makeDecision mayDecide
  rw [h]
  simp

/-- A transaction that has yielded to a round is marked and cut short at once (R51). -/
theorem markAbort_yielded {requester : Option SlotId} (ha : (schedOf j s).active = some j)
    (ho : (schedOf j s).owner = some .round) (hc : Concludable j (s.setSlot j (markedSlot requester (s.slot j)))) :
    Concluded j (cutShort .aborted (schedOf j s).exchangesDone (s.slot j).body (schedOf j s).progress.values)
        ((s.setSlot j (markedSlot requester (s.slot j))).setSched (portOf (s.slot j).sensor) (withoutActive (schedOf j s)))
        (markAbort j requester s) ∧
      (markAbort j requester s).discarded = s.discarded := by
  obtain ⟨A, hd⟩ := cutActive_concludes (s := s.setSlot j (markedSlot requester (s.slot j))) (st := .aborted)
    (done := (schedOf j s).exchangesDone) (p := portOf (s.slot j).sensor) ha hc
  have hmark : markAbort j requester s = cutActive (portOf (s.slot j).sensor) .aborted (schedOf j s).exchangesDone
      (s.setSlot j (markedSlot requester (s.slot j))) := by
    unfold markAbort
    dsimp only
    rw [State.sched_setSlot, if_pos ⟨ha, by rw [show (s.sched (portOf (s.slot j).sensor)).owner = _ from ho]; decide⟩]
    refine makeDecision_of_owned (o := .round) ?_
    change (State.sched (cutActive (portOf (s.slot j).sensor) .aborted (schedOf j s).exchangesDone
      (s.setSlot j (markedSlot requester (s.slot j)))) (portOf (s.slot j).sensor)).owner = _
    rw [A.others]
    change (State.sched (State.setSched _ _ _) _).owner = _
    rw [State.sched_setSched_same]
    exact ho
  rw [hmark]
  rw [State.slot_setSlot_same, State.sched_setSlot] at A
  exact ⟨A, hd⟩

theorem abortEndsAYieldedTarget : AbortEndsAYieldedTarget := by
  intro k j ring r tag s u h hb hr hid hf ht hkj hact hp hc ha ho
  have hrun := (((h.execAbort hb).2 r hid).2 hf).trans (congrArg Host.Outcome.next
    (takeAbort_some hr ((h.abortTarget r tag).trans (abortTarget_eq_some_iff.2 ht))))
  rw [h.slot, if_pos hact, if_neg (by rw [hp]; decide)] at hrun
  have hmarked : markedSlot (some k) (u.slot j) = { s.slot j with abortPending := true, abortRequester := some k } := by
    unfold markedSlot
    rw [h.slot, hp]
    rfl
  have hsched : schedOf j u = schedOf j s := by
    unfold schedOf
    rw [h.slot, h.sched]
  have hslot : (u.setSlot j (markedSlot (some k) (u.slot j))).slot k = s.slot k := by
    rw [State.slot_setSlot_ne _ _ _ _ hkj, h.slot]
  have hcon : Concludable j (u.setSlot j (markedSlot (some k) (u.slot j))) := by
    refine ⟨?_, ?_, fun a ha => ?_⟩
    · rw [State.slot_setSlot_same, hmarked]
      exact .inr (.inr hact)
    · rw [State.slot_setSlot_same, hmarked, State.cr_setSlot, h.cr]
      exact hc
    · rw [State.slot_setSlot_same, hmarked] at ha
      obtain rfl : k = a := Option.some.inj ha
      rw [hslot, State.cr_setSlot, h.cr]
      exact ⟨hkj.symm, h.active, h.onCr0, h.alone, h.ring⟩
  obtain ⟨A, hd⟩ := markAbort_yielded (requester := some k) (by rw [hsched]; exact ha) (by rw [hsched]; exact ho) hcon
  rw [settle_of_none_discarded (hd.trans h.discarded)] at hrun
  refine ⟨_, hrun, ?_⟩
  unfold Concluded at A
  rw [State.slot_setSched, State.slot_setSlot_same, hmarked, hsched, h.slot] at A
  obtain ⟨v, A1, A2⟩ := A
  refine ⟨v, A1, ?_⟩
  have hans : abortAnswer k j .aborted ((u.setSlot j { s.slot j with abortPending := true, abortRequester := some k }).setSched
      (portOf (s.slot j).sensor) (withoutActive (schedOf j s))) =
      { status := .success, detail := 0, data := BitVec.ofNat 128 (tag.toNat + 65536 * j.val) } := by
    unfold abortAnswer
    rw [State.slot_setSched, State.slot_setSlot_ne _ _ _ _ hkj, h.slot, hb]
    rfl
  rw [← hans]
  exact A2

/-- Settles O33, by its three parts. -/
theorem abortByTargetState : Obligations.AbortByTargetState :=
  ⟨abortMarksAnActiveTarget, abortEndsAWaitingTarget, abortEndsAYieldedTarget⟩

end Sys2Proof.Claims
end

section
set_option Elab.async false
/-! SUPPORT. What a flush and the suspensions leave as they were, and PORT_STOP (R30 to R33, R143). -/

namespace Sys2Proof.Machine

open Sys2Proof.Claims

/-- Links and schedulers are written in any order. -/
theorem State.setLink_setSched (s : State) (p q : PortId) (x : Scheduler) (y : LinkEngine) :
    (s.setSched p x).setLink q y = (s.setLink q y).setSched p x := rfl

theorem Scheduler.leaveRunning_eq (ps : Scheduler) : ps.leaveRunning = roundOver ps := rfl

end Sys2Proof.Machine

namespace Sys2Proof.Claims

open Sys2Proof.Machine

variable {s t u v : State} {p : PortId} {k j : SlotId} {st : Status}


/-! ### What concluded requests leave -/

/-- A request that can be concluded still can be where its own slot, its ABORT's and the rings' states are the same. -/
theorem Concludable.of_kept (h : Concludable j s) (hj : t.slot j = s.slot j)
    (ha : ∀ a, (s.slot j).abortRequester = some a → t.slot a = s.slot a) (hc : ∀ c, (t.cr c).state = (s.cr c).state) :
    Concludable j t := by
  refine ⟨by rw [hj]; exact h.isOpen, by rw [hj, hc]; exact h.ring, fun a hr => ?_⟩
  rw [hj] at hr
  rw [ha a hr, hc]
  exact h.requester a hr

/-- The states differ at most in slots, completion rings, outbox and MSI-X, and a completion ring is in one state in both. -/
structure Beside (s t : State) : Prop where
  others : t = { s with slots := t.slots, crs := t.crs, outbox := t.outbox, msix := t.msix }
  cr_state : ∀ c, (t.cr c).state = (s.cr c).state

theorem Beside.refl (s : State) : Beside s s := ⟨rfl, fun _ => rfl⟩

theorem Beside.trans (h : Beside s t) (g : Beside t u) : Beside s u :=
  ⟨by rw [g.others, h.others], fun c => (g.cr_state c).trans (h.cr_state c)⟩

theorem Concluded.beside {r : Result} (h : Concluded k r s t) : Beside s t := ⟨h.others, h.cr_state⟩

theorem Beside.link (h : Beside s t) (p : PortId) : t.link p = s.link p := by rw [h.others]; rfl
theorem Beside.sched (h : Beside s t) (p : PortId) : t.sched p = s.sched p := by rw [h.others]; rfl
theorem Beside.sensor (h : Beside s t) (n : SensorId) : t.sensor n = s.sensor n := by rw [h.others]; rfl
theorem Beside.axInFlight (h : Beside s t) : t.axInFlight = s.axInFlight := by rw [h.others]

/-- Answering references that wait changes their slots alone among the slots. -/
theorem Through.answered_keeps : ∀ {l : List SlotId} {u t : State}, Through (fun k => Concluded k (plain st)) l u t →
    Waiting l u → Beside u t ∧ ∀ i, i ∉ l → t.slot i = u.slot i
  | [], _, _, .nil u, _ => ⟨.refl u, fun _ _ => rfl⟩
  | k :: l, u, t, .cons (u := v) head tail, hw => by
    have hn := List.nodup_cons.1 hw.distinct
    have halone := (hw.waiting k List.mem_cons_self).2.1
    have hrest : Waiting l u := ⟨hn.2, fun j hj => hw.waiting j (List.mem_cons_of_mem _ hj)⟩
    obtain ⟨b, hs⟩ := tail.answered_keeps
      (hrest.concluded head rfl rfl hn.1 fun a e => absurd (halone.symm.trans e) (by simp))
    refine ⟨head.beside.trans b, fun i hi => ?_⟩
    rw [hs i fun h => hi (List.mem_cons_of_mem _ h),
      head.otherSlots i (fun h => hi (h ▸ List.mem_cons_self)) (by rw [halone]; simp)]

/-- The scheduler of a port whose host work has been flushed. -/
def flushedSched (ps : Scheduler) : Scheduler :=
  { (if ps.owner = some .transaction then ps else if ps.active = none then ps else withoutActive ps) with queue := [] }

/-- A flush keeps all but the slots it answers and the port's queue and active transaction (R54). -/
theorem Flushed.keeps (h : Flushed p st u t) (hr : FlushReady p u) :
    Beside (u.setSched p (flushedSched (u.sched p))) t ∧
    ∀ i, i ∉ (u.sched p).queue →
      (∀ j, (u.sched p).active = some j → (u.sched p).owner ≠ some .transaction →
        i ≠ j ∧ (u.slot j).abortRequester ≠ some i) → t.slot i = u.slot i := by
  obtain ⟨v, hv, hq⟩ := h
  unfold QueueFlushed at hq
  by_cases ho : (u.sched p).owner = some .transaction
  · have hvu : v = u := by
      cases ha : (u.sched p).active <;> rw [ha] at hv
      · exact hv
      · exact (if_pos ho).mp hv
    subst hvu
    obtain ⟨b, hs⟩ := hq.answered_keeps (Waiting.of_queue hr.queue rfl rfl)
    unfold flushedSched
    rw [if_pos ho]
    exact ⟨b, fun i hi _ => hs i hi⟩
  cases ha : (u.sched p).active with
  | none =>
    rw [ha] at hv
    obtain rfl : v = u := hv
    obtain ⟨b, hs⟩ := hq.answered_keeps (Waiting.of_queue hr.queue rfl rfl)
    unfold flushedSched
    rw [if_neg ho, if_pos ha]
    exact ⟨b, fun i hi _ => hs i hi⟩
  | some j =>
    rw [ha] at hv
    have A : Concluded j _ (u.setSched p (withoutActive (u.sched p))) v := (if_neg ho).mp hv
    obtain ⟨hact, -, hreq⟩ := hr.active j ha ho
    have hps : v.sched p = withoutActive (u.sched p) := by rw [A.beside.sched, State.sched_setSched_same]
    have hj : j ∉ (u.sched p).queue := fun hj => by
      have hqd := (hr.queue.waiting j hj).1
      rw [hact] at hqd
      cases hqd
    rw [hps] at hq
    have hw : Waiting (u.sched p).queue v := Waiting.concluded (Waiting.of_queue hr.queue rfl rfl) A rfl rfl hj hreq
    obtain ⟨b, hs⟩ := hq.answered_keeps ⟨hw.distinct, hw.waiting⟩
    refine ⟨⟨?_, fun c => (b.cr_state c).trans (A.cr_state c)⟩, fun i hi hij => ?_⟩
    · have b1 := b.others
      rw [A.others] at b1
      rw [b1]
      unfold flushedSched
      rw [if_neg ho, if_neg (by rw [ha]; simp)]
      simp [State.setSched, withoutActive]
    · obtain ⟨hij, hir⟩ := hij j rfl ho
      rw [hs i hi]
      exact A.otherSlots i hij hir

/-! ### Suspensions (R66) -/

/-- The states differ at most in sensor contexts, sample rings, outbox and MSI-X. -/
def BesideSensors (s t : State) : Prop :=
  t = { s with sensors := t.sensors, srs := t.srs, outbox := t.outbox, msix := t.msix }

theorem BesideSensors.refl (s : State) : BesideSensors s s := rfl

theorem BesideSensors.trans (h : BesideSensors s t) (g : BesideSensors t u) : BesideSensors s u := by
  unfold BesideSensors at *
  rw [g, h]

theorem suspended_beside (n : SensorId) (s : State) : BesideSensors s (suspended n s) := by
  unfold suspended BesideSensors
  rw [postRecord_frame]
  rfl

theorem allSuspended_beside (p : PortId) (s : State) : BesideSensors s (allSuspended p s) := by
  unfold allSuspended
  generalize acquirers p s = l
  induction l generalizing s with
  | nil => exact .refl s
  | cons n l ih => exact (suspended_beside n s).trans (ih _)

theorem BesideSensors.link (h : BesideSensors s t) (p : PortId) : t.link p = s.link p := by rw [h]; rfl
theorem BesideSensors.sched (h : BesideSensors s t) (p : PortId) : t.sched p = s.sched p := by rw [h]; rfl
theorem BesideSensors.slot (h : BesideSensors s t) (k : SlotId) : t.slot k = s.slot k := by rw [h]; rfl
theorem BesideSensors.cr (h : BesideSensors s t) (c : CrId) : t.cr c = s.cr c := by rw [h]; rfl
theorem BesideSensors.axInFlight (h : BesideSensors s t) : t.axInFlight = s.axInFlight := by rw [h]
theorem BesideSensors.discarded (h : BesideSensors s t) : t.discarded = s.discarded := by rw [h]

/-! ### The exchange that stands between attempts on entry to STOPPING (R31, R32) -/

theorem endIfEmpty_of_none {ps : Scheduler} (h : ps.round = .none) : ps.endIfEmpty = ps := by
  unfold Scheduler.endIfEmpty
  rw [h]
  exact if_neg fun hn => by cases hn.1

theorem outcomeOf_fault (le : LinkEngine) (a : Attempt) (f : LinkFault) : (outcomeOf le a (.fault f)).result = .failed f := rfl

/-- The outcome of a round that has ended is discarded (R43). -/
theorem roundOutcome_of_none {o : ExchangeOutcome} (h : (s.sched p).round = .none) :
    roundOutcome p o s = s.setSched p { s.sched p with owner := none } := by
  unfold roundOutcome
  dsimp only
  rw [h]
  exact congrArg (s.setSched p) (endIfEmpty_of_none (ps := { s.sched p with round := .none, owner := none }) rfl |>.trans
    (by rw [← h]))

/-- A transaction's failed exchange cuts it short, by the link state (R32, R49). -/
theorem transactionOutcome_failed {o : ExchangeOutcome} {f : LinkFault} {stopping : Bool}
    (ho : o.result = .failed f) (ha : (s.sched p).active = some j) :
    transactionOutcome p stopping o s = cutActive p (if stopping then .portStopped else .linkFailed)
      (s.sched p).exchangesDone (s.setSched p { s.sched p with owner := none }) := by
  unfold transactionOutcome
  dsimp only
  rw [State.sched_setSched_same, ha, ho]

theorem endStoppedExchange_other {a : Attempt} (hr : (s.sched p).round = .none) (ho : (s.sched p).owner ≠ some .transaction) :
    endStoppedExchange p a s =
      (s.setLink p { s.link p with attempt := none }).setSched p { s.sched p with owner := none } := by
  unfold endStoppedExchange deliverOutcome
  dsimp only
  rw [State.sched_setLink]
  cases hw : (s.sched p).owner with
  | none =>
    split
    · rfl
    · have hself : { s.sched p with owner := none } = s.sched p := by rw [← hw]
      rw [hself]
      exact (State.setSched_self (s.setLink p { s.link p with attempt := none }) p).symm
  | some o =>
    cases o with
    | transaction => exact absurd hw ho
    | round =>
      split
      · rfl
      · exact roundOutcome_of_none hr

theorem endStoppedExchange_transaction {a : Attempt} (ho : (s.sched p).owner = some .transaction)
    (ha : (s.sched p).active = some j) :
    endStoppedExchange p a s = cutActive p .portStopped (s.sched p).exchangesDone
      ((s.setLink p { s.link p with attempt := none }).setSched p { s.sched p with owner := none }) := by
  unfold endStoppedExchange deliverOutcome
  dsimp only
  rw [State.sched_setLink, ho]
  split
  · dsimp only
    rw [State.sched_setSched_same]
  · exact transactionOutcome_failed (outcomeOf_fault _ _ _) ha

/-! ### PORT_STOP (R143) -/

theorem AxNext.portStop (h : AxNext k s u) {port : Nat} (hb : (s.slot k).body = .portStop port) :
    exec (.portStop k) s = .next (Machine.onPort k port (takePortStop k) u) := by
  change execPortStop k s = _
  unfold execPortStop
  rw [h.take, hb]

/-- What PORT_STOP leaves of the port before it ends an exchange: STOPPING, without round, host work and ACQUIRING sensors. -/
def stopped (p : PortId) (s : State) : State :=
  suspendPort p (flushPort p .portStopped
    ((s.setLink p { s.link p with state := .stopping, training := none, retryGapTimer := none }).setSched p
      (roundOver (s.sched p))))

/-- A link that has entered DISABLED (R33). -/
def disabledLink (le : LinkEngine) : LinkEngine :=
  { le with
    state := .disabled, failures := 0, retryGapTimer := none, retrainTimer := none, training := none, attempt := none }

theorem enterDisabled_eq (p : PortId) (s : State) : enterDisabled p s = s.setLink p (disabledLink (s.link p)) := rfl

theorem stopPort_idle (h : ((stopped p s).link p).attempt = none) :
    stopPort k p s = answer k (.plain .success) (enterDisabled p (stopped p s)) := by
  unfold stopped at h ⊢
  unfold stopPort
  simp only [State.sched_setLink, Scheduler.leaveRunning_eq]
  rw [h]

theorem stopPort_attempt {a : Attempt} (h : ((stopped p s).link p).attempt = some a) :
    stopPort k p s =
      if a.phase = .between then answer k (.plain .success) (enterDisabled p (endStoppedExchange p a (stopped p s)))
      else settle (addInFlight k .portStop (.port p) (stopped p s)) := by
  unfold stopped at h ⊢
  unfold stopPort
  simp only [State.sched_setLink, Scheduler.leaveRunning_eq]
  rw [h]

/-- On a port without host work that waits and without ACQUIRING sensor there is nothing to flush or suspend. -/
theorem stopped_of_quiet (hq : (s.sched p).queue = []) (ha : (s.sched p).active = none ∨ (s.sched p).owner = some .transaction)
    (hn : ∀ n, portOf n = p → (s.sensor n).state ≠ .acquiring) (hd : s.discarded = []) :
    stopped p s = (s.setLink p { s.link p with state := .stopping, training := none, retryGapTimer := none }).setSched p
      (roundOver (s.sched p)) := by
  unfold stopped
  rw [flushPort_of_quiet]
  · exact suspendPort_of_none_acquiring hn
  · rw [State.sched_setSched_same]; exact hq
  · rw [State.sched_setSched_same]; exact ha
  · exact hd

theorem portStopByLinkState : PortStopByLinkState := by
  intro k port s u h hb
  obtain ⟨hbad, hport⟩ := h.onPort (h.portStop hb)
  refine ⟨hbad, fun p hid => ?_⟩
  obtain ⟨hbusy, heffect⟩ := hport p hid
  intro ended disabled quiet
  unfold takePortStop at heffect
  have hquiet : quiet → stopped p u = (u.setLink p { s.link p with
      state := .stopping, training := none, retryGapTimer := none }).setSched p ended := fun hq => by
    rw [stopped_of_quiet (by rw [h.sched]; exact hq.1) (by rw [h.sched]; exact hq.2.1)
      (fun n hn => by rw [h.sensor]; exact hq.2.2 n hn) h.discarded, h.link, h.sched]
    rfl
  refine ⟨hbusy, fun hf hst => ?_, fun hf hst => ?_, fun hf hst hnone hq => ?_, fun a hf hst ha hphase hq => ?_⟩
  · have hrun := heffect hf
    rw [h.link, hst] at hrun
    exact h.answers hrun
  · have hrun := heffect hf
    rw [h.link, hst] at hrun
    unfold enterDisabled at hrun
    rw [h.link] at hrun
    exact h.answers hrun
  · have hrun := heffect hf
    rw [h.link, hst] at hrun
    dsimp only at hrun
    have hx : ((stopped p u).link p).attempt = none := by
      rw [hquiet hq, State.link_setSched, State.link_setLink_same]
      exact hnone
    rw [stopPort_idle hx, hquiet hq] at hrun
    unfold enterDisabled at hrun
    rw [State.link_setSched, State.link_setLink_same, State.setLink_setSched, State.setLink_setLink] at hrun
    exact h.answers hrun
  · have hrun := heffect hf
    rw [h.link, hst] at hrun
    dsimp only at hrun
    have hx : ((stopped p u).link p).attempt = some a := by
      rw [hquiet hq, State.link_setSched, State.link_setLink_same]
      exact ha
    rw [stopPort_attempt hx, if_neg hphase, hquiet hq] at hrun
    have hset := settle_of_none_discarded (s := addInFlight k .portStop (.port p) ((u.setLink p { s.link p with
      state := .stopping, training := none, retryGapTimer := none }).setSched p ended)) h.discarded
    rw [hrun, hset, ← h.axInFlight]
    rfl

/-- What a port is left with by the entry actions of STOPPING (R31). -/
structure HasStopped (p : PortId) (u w : State) : Prop where
  link : w.link p = { u.link p with state := .stopping, training := none, retryGapTimer := none }
  sched : w.sched p = flushedSched (roundOver (u.sched p))
  slot : ∀ i, i ∉ (u.sched p).queue → (∀ j, (u.sched p).active = some j → (u.sched p).owner ≠ some .transaction →
    i ≠ j ∧ (u.slot j).abortRequester ≠ some i) → w.slot i = u.slot i
  cr_state : ∀ c, (w.cr c).state = (u.cr c).state
  axInFlight : w.axInFlight = u.axInFlight
  discarded : w.discarded = []

theorem stopped_effect {le : LinkEngine} {ps : Scheduler} (hl : u.link p = le) (hs : u.sched p = ps) (hr : FlushReady p u)
    (hd : u.discarded = []) : ∃ v,
    Flushed p .portStopped ((u.setLink p { le with state := .stopping, training := none, retryGapTimer := none }).setSched p
      (roundOver ps)) v ∧ stopped p u = allSuspended p v ∧ HasStopped p u (allSuspended p v) := by
  subst hl hs
  let x := (u.setLink p { u.link p with state := .stopping, training := none, retryGapTimer := none }).setSched p
    (roundOver (u.sched p))
  have hps : x.sched p = roundOver (u.sched p) := State.sched_setSched_same _ _ _
  have hready : FlushReady p x := by
    refine ⟨⟨?_, ?_⟩, ?_⟩
    · rw [hps]; exact hr.queue.distinct
    · rw [hps]; exact hr.queue.waiting
    · rw [hps]
      intro j ha ho
      obtain ⟨hact, hcl, hreq⟩ := hr.active j ha ho
      exact ⟨hact, hcl.of_kept rfl (fun _ _ => rfl) fun _ => rfl, hreq⟩
  obtain ⟨F, hdv⟩ := flushPort_effect p .portStopped x hready hd
  obtain ⟨B, hslot⟩ := F.keeps hready
  rw [hps] at hslot B
  have W := allSuspended_beside p (flushPort p .portStopped x)
  have hsv : (flushPort p .portStopped x).sched p = flushedSched (roundOver (u.sched p)) := by
    rw [B.sched, State.sched_setSched_same]
  refine ⟨_, F, suspendPort_effect p _ ?_, ?_⟩
  · rw [hsv]
    unfold flushedSched roundOver
    split
    · rfl
    · split <;> rfl
  · refine ⟨?_, ?_, fun i hi hij => ?_, fun c => ?_, ?_, ?_⟩
    · rw [W.link, B.link]
      exact State.link_setLink_same u p _
    · rw [W.sched, hsv]
    · rw [W.slot, hslot i hi hij]
      rfl
    · rw [W.cr, B.cr_state]
      rfl
    · rw [W.axInFlight, B.axInFlight]
      rfl
    · rw [W.discarded, hdv]

theorem portStopFlushesAndSuspends : PortStopFlushesAndSuspends := by
  intro k p s u h hb hf hst hq hact hnone stopping disabled between
  have hrun := (((h.onPort (h.portStop hb)).2 p rfl).2 hf).trans (congrArg Host.Outcome.next
    (show takePortStop k p u = stopPort k p u by
      unfold takePortStop
      rw [h.link]
      rcases hst with hst | hst | hst <;> rw [hst]))
  have hready : FlushReady p u := by
    refine ⟨⟨?_, ?_⟩, ?_⟩
    · rw [h.sched]; exact hq.distinct
    · rw [h.sched]
      intro j hj
      rw [h.slot, h.cr]
      exact hq.waiting j hj
    · rw [h.sched]
      intro j ha _
      obtain ⟨-, hst, -, hcl, hreq⟩ := hact j ha
      rw [h.slot]
      exact ⟨hst, hcl.of_kept (h.slot j) (fun a _ => h.slot a) fun c => by rw [h.cr], hreq⟩
  obtain ⟨v, F, hw, S⟩ := stopped_effect (h.link p) (h.sched p) hready h.discarded
  refine ⟨_, hrun, v, F, ?_⟩
  intro w
  have hkq : k ∉ (s.sched p).queue := fun hk => by
    have hqd := (hq.waiting k hk).1
    rw [h.active] at hqd
    cases hqd
  have hslot : w.slot k = s.slot k := by
    rw [S.slot k (by rw [h.sched]; exact hkq) (by
      rw [h.sched]
      intro j ha _
      rw [h.slot]
      obtain ⟨hr, -, hne, -, -⟩ := hact j ha
      exact ⟨hne.symm, hr⟩), h.slot]
  have hcr : (w.cr 0).state = .active := by rw [S.cr_state, h.cr]; exact h.ring
  have hreadyk : ∀ y : State, y.slot k = s.slot k → (y.cr 0).state = .active → y.discarded = [] → Ready k y :=
    fun y h1 h2 h3 => Ready.alone (by rw [h1]; exact h.alone)
      ((Slot.isOpen_iff _).2 (.inr (.inr (by rw [h1]; exact h.active)))) (by rw [h1, h.onCr0]; exact h2) h3
  have hdis : disabledLink (w.link p) = disabled := by rw [S.link, h.link]; rfl
  have hround : (w.sched p).round = .none := by
    rw [S.sched]
    unfold flushedSched roundOver
    split
    · rfl
    · split <;> rfl
  have howner : (w.sched p).owner = (s.sched p).owner := by
    rw [S.sched, h.sched]
    unfold flushedSched roundOver
    split
    · rfl
    · split <;> rfl
  have hlink : (w.link p).attempt = (s.link p).attempt := by rw [S.link, h.link]
  refine ⟨fun hb => ?_, fun hb ho => ?_, fun j hb ho ha => ?_⟩
  · obtain ⟨a, ha⟩ := Option.ne_none_iff_exists'.1 fun hn => hb (.inl hn)
    have hx : ((stopped p u).link p).attempt = some a := by rw [hw]; exact hlink.trans ha
    rw [stopPort_attempt hx, if_neg fun hph => hb (.inr ⟨a, ha, hph⟩), hw]
    have hset := settle_of_none_discarded (s := addInFlight k .portStop (.port p) w) S.discarded
    rw [hset, ← h.axInFlight, ← S.axInFlight]
    rfl
  · have hend : stopPort k p u = answer k (.plain .success)
        ((w.setLink p disabled).setSched p { w.sched p with owner := none }) := by
      rcases hb with hn | ⟨a, ha, hph⟩
      · have hself : { w.sched p with owner := none } = w.sched p := by
          rw [← howner.trans (hnone hn)]
        rw [hself, stopPort_idle (by rw [hw]; exact hlink.trans hn), hw, enterDisabled_eq, hdis]
        exact congrArg _ (State.setSched_self (w.setLink p disabled) p).symm
      · have hx : ((stopped p u).link p).attempt = some a := by rw [hw]; exact hlink.trans ha
        have hstop := endStoppedExchange_other (a := a) hround (by rw [howner]; exact ho)
        rw [stopPort_attempt hx, if_pos hph, hw, hstop, enterDisabled_eq, State.link_setSched, State.link_setLink_same,
          State.setLink_setSched, State.setLink_setLink, ← hdis]
        rfl
    rw [hend]
    exact (hreadyk ((w.setLink p disabled).setSched p _) hslot hcr S.discarded).answer _
  · rcases hb with hn | ⟨a, hat, hph⟩
    · rw [hnone hn] at ho
      cases ho
    obtain ⟨hreq, hjact, hjk, hcl, hreqq⟩ := hact j ha
    have hsched : w.sched p = { roundOver (s.sched p) with queue := [] } := by
      rw [S.sched, h.sched]
      unfold flushedSched
      rw [if_pos (show (roundOver (s.sched p)).owner = some .transaction from ho)]
    have hjslot : ∀ i, i ∉ (s.sched p).queue → w.slot i = s.slot i := fun i hi => by
      rw [S.slot i (by rw [h.sched]; exact hi) (by rw [h.sched]; exact fun _ _ hne => absurd ho hne), h.slot]
    have hjw : w.slot j = s.slot j := hjslot j fun hj => by
      have hqd := (hq.waiting j hj).1
      rw [hjact] at hqd
      cases hqd
    have hx : ((stopped p u).link p).attempt = some a := by rw [hw]; exact hlink.trans hat
    have haw : (w.sched p).active = some j := by rw [hsched]; exact ha
    let y := (w.setLink p { w.link p with attempt := none }).setSched p { w.sched p with owner := none }
    have hy : y.sched p = { w.sched p with owner := none } := State.sched_setSched_same _ _ _
    have hcy : Concludable j y := hcl.of_kept hjw (fun i hi => hjslot i (hreqq i hi)) fun c => by
      rw [← h.cr]
      exact S.cr_state c
    obtain ⟨A, hdA⟩ := cutActive_concludes (s := y) (st := .portStopped) (done := (w.sched p).exchangesDone)
      (by rw [hy]; exact haw) hcy
    rw [stopPort_attempt hx, if_pos hph, hw, endStoppedExchange_transaction (by rw [howner]; exact ho) haw,
      enterDisabled_eq, A.beside.link, show disabledLink ((y.setSched p (withoutActive (y.sched p))).link p) = disabled from
        (congrArg disabledLink (State.link_setLink_same w p _)).trans hdis]
    refine ⟨_, ?_, (hreadyk ((cutActive p .portStopped (w.sched p).exchangesDone y).setLink p disabled) ?_ ?_
      (hdA.trans S.discarded)).answer _⟩
    · have B := A.link p disabled
      rw [hy, hsched] at B
      rw [show y.slot j = s.slot j from hjw] at B
      rw [State.setLink_setSched, State.setLink_setSched, State.setLink_setLink, State.setSched_setSched] at B
      rw [hsched]
      exact B
    · exact (A.otherSlots k hjk.symm (by rw [State.slot_setSched]; exact hjw ▸ hreq)).trans hslot
    · exact (A.cr_state 0).trans hcr ▸ rfl

/-- Settles O24, by its two parts. -/
theorem portStopStopsTheLink : Obligations.PortStopStopsTheLink := ⟨portStopByLinkState, portStopFlushesAndSuspends⟩

end Sys2Proof.Claims
end

section
set_option Elab.async false
/-! SUPPORT. DELETE_RING for the three classes (R113, R131, R132, R140), and the draining of a request ring (R51, R129). -/

namespace Sys2Proof.Claims

open Sys2Proof.Machine

variable {s t u v : State} {j k : SlotId} {r : RqId}

theorem AxNext.deleteRing (h : AxNext k s u) {cls id : Nat} (hb : (s.slot k).body = .deleteRing cls id) :
    (cls = 0 → exec (.deleteRing k) s = .next (deleteRequestRing k id u)) ∧
    (cls = 1 → exec (.deleteRing k) s = .next (deleteCompletionRing k id u)) ∧
    (cls = 2 → exec (.deleteRing k) s = .next (deleteSampleRing k id u)) ∧
    (2 < cls → exec (.deleteRing k) s = .next (answer k (.plain .invalidField) u)) := by
  have hrun : exec (.deleteRing k) s = execDeleteRing k s := rfl
  unfold execDeleteRing at hrun
  rw [h.take, hb] at hrun
  dsimp only at hrun
  refine ⟨?_, ?_, ?_, fun hc => ?_⟩
  · rintro rfl; exact hrun
  · rintro rfl; exact hrun
  · rintro rfl; exact hrun
  · obtain ⟨n, rfl⟩ : ∃ n, cls = n + 3 := ⟨cls - 3, by omega⟩
    exact hrun

/-! ### Completion and sample rings (R113, R132) -/

theorem crInUse_iff (c : CrId) (s : State) : crInUse c s = true ↔ ∃ q, (s.rq q).state ≠ .absent ∧ (s.rq q).boundCr = some c := by
  unfold crInUse
  rw [List.any_eq_true]
  constructor
  · rintro ⟨d, hd, hin⟩
    obtain ⟨i, hi, rfl⟩ := Vector.mem_iff_getElem.1 (Vector.mem_toList_iff.1 hd)
    simp only [Bool.and_eq_true, bne_iff_ne, beq_iff_eq] at hin
    exact ⟨⟨i, hi⟩, hin⟩
  · rintro ⟨q, h1, h2⟩
    refine ⟨s.rq q, Vector.mem_toList_iff.2 (Vector.getElem_mem q.isLt), ?_⟩
    simp only [Bool.and_eq_true, bne_iff_ne, beq_iff_eq]
    exact ⟨h1, h2⟩

theorem srInUse_iff (i : SrId) (s : State) :
    srInUse i s = true ↔ ∃ n, (s.sensor n).state ≠ .unbound ∧ (s.sensor n).ring = i := by
  unfold srInUse
  rw [List.any_eq_true]
  constructor
  · rintro ⟨c, hc, hin⟩
    obtain ⟨n, hn, rfl⟩ := Vector.mem_iff_getElem.1 (Vector.mem_toList_iff.1 hc)
    simp only [Bool.and_eq_true, bne_iff_ne, beq_iff_eq] at hin
    exact ⟨⟨n, hn⟩, hin⟩
  · rintro ⟨n, h1, h2⟩
    refine ⟨s.sensor n, Vector.mem_toList_iff.2 (Vector.getElem_mem n.isLt), ?_⟩
    simp only [Bool.and_eq_true, bne_iff_ne, beq_iff_eq]
    exact ⟨h1, h2⟩

/-- Errors of a deleted completion ring's writes in flight are disregarded (R113, R132). -/
theorem deleteCr_eq (c : CrId) (s : State) : deleteCr c s = { s.setCr c CompletionRing.initial with
    outbox := s.outbox.map fun i => match i with
      | .record w => if ∃ j, w.kind = .completion c j then .record { w with live := false } else .record w
      | .message v => .message v
      | .read => .read } := by
  have hp : ∀ w : RecordWrite, (match w.kind with
      | .completion i _ => i == c
      | _ => false) = true ↔ ∃ j, w.kind = .completion c j := fun w => by
    cases w.kind <;> simp
  unfold deleteCr orphanWrites
  refine congrArg (fun o => { s.setCr c CompletionRing.initial with outbox := o }) (List.map_congr_left fun i _ => ?_)
  cases i with
  | record w => exact if_congr (hp w) rfl rfl
  | message v => rfl
  | read => rfl

theorem deleteSr_eq (i : SrId) (s : State) : deleteSr i s = { s.setSr i SampleRing.initial with
    outbox := s.outbox.map fun o => match o with
      | .record w => if w.kind = .sample i then .record { w with live := false } else .record w
      | .message v => .message v
      | .read => .read } := by
  have hp : ∀ w : RecordWrite, (match w.kind with
      | .sample c => c == i
      | _ => false) = true ↔ w.kind = .sample i := fun w => by
    cases w.kind <;> simp
  unfold deleteSr orphanWrites
  refine congrArg (fun o => { s.setSr i SampleRing.initial with outbox := o }) (List.map_congr_left fun o _ => ?_)
  cases o with
  | record w => exact if_congr (hp w) rfl rfl
  | message v => rfl
  | read => rfl

theorem deleteCompletionRing_badId {id : Nat} (h : ¬ (1 ≤ id ∧ id ≤ 7)) :
    deleteCompletionRing k id u = answer k (.plain .invalidField) u := by
  unfold deleteCompletionRing
  rcases Nat.eq_zero_or_pos id with h0 | hpos
  · rw [toId_eq (x := (0 : Fin 8)) h0]; rfl
  · rw [toId_eq_none (by omega)]

theorem deleteCompletionRing_ofId {id : Nat} {c : CrId} (hc : c ≠ 0) (hid : id = c.val) :
    deleteCompletionRing k id u =
      if (u.cr c).state = .absent then answer k (.plain .notFound) u
      else if crInUse c u then answer k (.plain .inUse) u
      else answer k (.plain .success) (deleteCr c u) := by
  unfold deleteCompletionRing
  rw [toId_eq hid]
  exact if_neg hc

theorem deleteSampleRing_ofId {id : Nat} {i : SrId} (hid : id = i.val) :
    deleteSampleRing k id u =
      if (u.sr i).state = .absent then answer k (.plain .notFound) u
      else if srInUse i u then answer k (.plain .inUse) u
      else answer k (.plain .success) (deleteSr i u) := by
  unfold deleteSampleRing
  rw [toId_eq hid]

theorem deleteOutputRing : DeleteOutputRing := by
  intro k cls id s u h hb
  obtain ⟨-, hcr, hsr, hno⟩ := h.deleteRing hb
  refine ⟨fun hc => h.answers (hno hc), fun hc hid => ?_, fun hc hid => ?_, fun hc c hc0 hid => ?_, fun hc i hid => ?_⟩
  · exact h.answers ((hcr hc).trans (congrArg _ (deleteCompletionRing_badId hid)))
  · have hrun := hsr hc
    unfold deleteSampleRing at hrun
    rw [toId_eq_none (by omega)] at hrun
    exact h.answers hrun
  · have hrun := (hcr hc).trans (congrArg Host.Outcome.next (deleteCompletionRing_ofId hc0 hid))
    rw [h.cr] at hrun
    have huse : crInUse c u = true ↔ ∃ q, (s.rq q).state ≠ .absent ∧ (s.rq q).boundCr = some c := by
      rw [crInUse_iff]
      simp only [h.rq]
    refine ⟨fun ha => ?_, fun ha hu => ?_, fun ha hu => ?_⟩
    · rw [if_pos ha] at hrun
      exact h.answers hrun
    · rw [if_neg ha, if_pos (huse.2 hu)] at hrun
      exact h.answers hrun
    · rw [if_neg ha, if_neg fun hn => by
        obtain ⟨q, h1, h2⟩ := huse.1 hn
        exact h1 (hu q h2), deleteCr_eq, h.outbox] at hrun
      exact h.answers hrun rfl (State.cr_setCr_ne u c 0 _ hc0)
  · have hrun := (hsr hc).trans (congrArg Host.Outcome.next (deleteSampleRing_ofId hid))
    rw [h.sr] at hrun
    have huse : srInUse i u = true ↔ ∃ n, (s.sensor n).state ≠ .unbound ∧ (s.sensor n).ring = i := by
      rw [srInUse_iff]
      simp only [h.sensor]
    refine ⟨fun ha => ?_, fun ha hu => ?_, fun ha hu => ?_⟩
    · rw [if_pos ha] at hrun
      exact h.answers hrun
    · rw [if_neg ha, if_pos (huse.2 hu)] at hrun
      exact h.answers hrun
    · rw [if_neg ha, if_neg fun hn => by
        obtain ⟨n, h1, h2⟩ := huse.1 hn
        exact h1 (hu n h2), deleteSr_eq, h.outbox] at hrun
      exact h.answers hrun

/-! ### Request rings (R131) -/

/-- The state in which a request ring drains: DRAINING, its DELETE_RING in flight. -/
def draining (k : SlotId) (r : RqId) (s : State) : State :=
  { s.setRq r { s.rq r with state := .draining, failedEntry := none } with
    axInFlight := s.axInFlight ++ [{ slot := k, kind := .deleteRing, object := .rq r }] }

/-- The slots of a ring that wait, and those that are ACTIVE, in fetch order. -/
def waitingSlots (r : RqId) (s : State) : List SlotId :=
  s.slotOrder.filter fun j => (s.slot j).rq = r ∧ ((s.slot j).state = .queued ∨ (s.slot j).state = .linkWait)
def activeSlots (r : RqId) (s : State) : List SlotId :=
  s.slotOrder.filter fun j => (s.slot j).rq = r ∧ (s.slot j).state = .active

theorem startDraining_eq (k : SlotId) (r : RqId) (s : State) :
    startDraining r (addInFlight k .deleteRing (.rq r) s) =
      (activeSlots r s).foldl (fun s j => markAbort j none s)
        ((waitingSlots r s).foldl (fun s j => abortWaiting j s) (draining k r s)) := by
  have hslot : ∀ j, (draining k r s).slot j = s.slot j := fun _ => rfl
  have hw : slotsOfRing r (fun st => st == .queued || st == .linkWait) (draining k r s) = waitingSlots r s := by
    unfold slotsOfRing waitingSlots
    refine List.filter_congr fun j _ => ?_
    rw [hslot]
    simp [beq_eq_decide]
  have ha : slotsOfRing r (fun st => st == .active) (draining k r s) = activeSlots r s := by
    unfold slotsOfRing activeSlots
    refine List.filter_congr fun j _ => ?_
    rw [hslot]
    simp [beq_eq_decide]
  rw [← hw, ← ha]
  rfl

theorem deleteRequestRing_badId {id : Nat} (h : ¬ (1 ≤ id ∧ id ≤ 7)) :
    deleteRequestRing k id u = answer k (.plain .invalidField) u := by
  unfold deleteRequestRing
  rcases Nat.eq_zero_or_pos id with h0 | hpos
  · rw [toId_eq (x := (0 : Fin 8)) h0]; rfl
  · rw [toId_eq_none (by omega)]

theorem deleteRequestRing_ofId {id : Nat} (hr : r ≠ 0) (hid : id = r.val) :
    deleteRequestRing k id u =
      if isInFlight (.rq r) u then answer k (.plain .busy) u
      else if (u.rq r).state = .absent then answer k (.plain .notFound) u
      else if (u.rq r).slotsHeld = 0 then answer k (.plain .success) (u.setRq r .initial)
      else settle (startDraining r (addInFlight k .deleteRing (.rq r) u)) := by
  unfold deleteRequestRing
  rw [toId_eq hid]
  exact if_neg hr

/-- The draining of a ring that holds slots (R131). -/
theorem AxNext.drains (h : AxNext k s u) {id : Nat} (hb : (s.slot k).body = .deleteRing 0 id) (hr : r ≠ 0) (hid : id = r.val)
    (hf : ¬ InFlight (.rq r) s) (ha : (s.rq r).state ≠ .absent) (hh : (s.rq r).slotsHeld ≠ 0) :
    exec (.deleteRing k) s = .next (settle ((activeSlots r u).foldl (fun s j => markAbort j none s)
      ((waitingSlots r u).foldl (fun s j => abortWaiting j s) (draining k r u)))) := by
  rw [(h.deleteRing hb).1 rfl, deleteRequestRing_ofId hr hid, if_neg fun hn => hf ((h.inFlight _).1 hn), h.rq, if_neg ha,
    if_neg hh, startDraining_eq]

theorem markedSlot_markedSlot (sl : Slot) : markedSlot none (markedSlot none sl) = markedSlot none sl := by
  unfold markedSlot
  cases sl.abortPending <;> rfl

/-- Slots with their exchanges on the line are marked and go on (R51). -/
theorem markAbort_fold_onLine : ∀ (l : List SlotId) (s : State),
    (∀ j ∈ l, (s.sched (portOf (s.slot j).sensor)).owner = some .transaction) →
    l.foldl (fun s j => markAbort j none s) s = { s with slots := (l.foldl (fun s j => markAbort j none s) s).slots } ∧
    ∀ i, (l.foldl (fun s j => markAbort j none s) s).slot i = if i ∈ l then markedSlot none (s.slot i) else s.slot i
  | [], s, _ => ⟨rfl, fun i => by simp⟩
  | j :: l, s, h => by
    have hj := markAbort_onLine (requester := none) (h j List.mem_cons_self)
    have hsensor : ∀ i, ((markAbort j none s).slot i).sensor = (s.slot i).sensor := fun i => by
      rw [hj, State.slot_setSlot]
      split
      · next e => subst e; rfl
      · rfl
    obtain ⟨h1, h2⟩ := markAbort_fold_onLine l (markAbort j none s) fun i hi => by
      rw [hsensor, hj]
      exact h i (List.mem_cons_of_mem _ hi)
    rw [List.foldl_cons]
    refine ⟨?_, fun i => ?_⟩
    · rw [h1, hj]
      rfl
    · rw [h2, hj, State.slot_setSlot]
      by_cases hi : j = i
      · subst hi
        simp [markedSlot_markedSlot]
      · simp [hi, Ne.symm hi]

theorem deleteRequestRing_replies : DeleteRequestRing := by
  intro k id s u h hb
  have hrun := (h.deleteRing hb).1 rfl
  refine ⟨fun hid => h.answers (hrun.trans (congrArg _ (deleteRequestRing_badId hid))), fun r hr hid => ?_⟩
  have hrun := hrun.trans (congrArg Host.Outcome.next (deleteRequestRing_ofId hr hid))
  rw [h.rq] at hrun
  refine ⟨fun hf => ?_, fun hf ha => ?_, fun hf ha hh => ?_, fun hf ha hh hwait hact => ?_⟩
  · rw [if_pos ((h.inFlight _).2 hf)] at hrun
    exact h.answers hrun
  · rw [if_neg (fun hn => hf ((h.inFlight _).1 hn)), if_pos ha] at hrun
    exact h.answers hrun
  · rw [if_neg (fun hn => hf ((h.inFlight _).1 hn)), if_neg ha, if_pos hh] at hrun
    exact h.answers hrun
  · have hnone : waitingSlots r u = [] := by
      unfold waitingSlots
      rw [List.filter_eq_nil_iff]
      intro j _
      rw [h.slot, decide_eq_true_eq]
      rintro ⟨hj, hs | hs⟩
      · exact (hwait j hj).1 hs
      · exact (hwait j hj).2 hs
    have hmem : ∀ j, j ∈ activeSlots r u ↔ (s.slot j).rq = r ∧ (s.slot j).state = .active := fun j => by
      unfold activeSlots
      rw [List.mem_filter, h.slot, decide_eq_true_eq, h.slotOrder]
      exact ⟨And.right, fun hj => ⟨(hact j hj.1 hj.2).1, hj⟩⟩
    obtain ⟨h1, h2⟩ := markAbort_fold_onLine (activeSlots r u) (draining k r u) fun j hj => by
      obtain ⟨hjr, hja⟩ := (hmem j).1 hj
      exact (congrArg (fun x => (u.sched (portOf (Slot.sensor x))).owner) (h.slot j)).trans
        ((congrArg Scheduler.owner (h.sched _)).trans (hact j hjr hja).2.2)
    have hrun := h.drains hb hr hid hf ha hh
    rw [hnone, List.foldl_nil] at hrun
    have hd : ((activeSlots r u).foldl (fun s j => markAbort j none s) (draining k r u)).discarded = [] := by
      rw [h1]; exact h.discarded
    rw [settle_of_none_discarded hd] at hrun
    refine ⟨_, hrun, ?_, fun j => ?_⟩
    · rw [← h.rq, ← h.axInFlight]
      exact h1
    · rw [h2, show (draining k r u).slot j = s.slot j from h.slot j]
      exact if_congr (hmem j) rfl rfl

/-! ### The slots of a draining ring, whatever stands in them (R51, R129) -/

/-- Ending a waiting slot keeps the other slots, the rings' states and, but for queues, the schedulers. -/
structure KeptBut (l : List SlotId) (s t : State) : Prop where
  slot : ∀ i, i ∉ l → t.slot i = s.slot i
  cr_state : ∀ c, (t.cr c).state = (s.cr c).state
  sched : ∀ p, ∃ q, t.sched p = { s.sched p with queue := q }
  discarded : t.discarded = s.discarded

theorem waitingAborted_of_wait (hw : (s.slot j).state = .queued ∨ (s.slot j).state = .linkWait)
    (ha : (s.slot j).abortRequester = none) (hc : (s.cr (s.slot j).cr).state = .active) :
    WaitingAborted j s (abortWaiting j s) ∧ KeptBut [j] s (abortWaiting j s) := by
  obtain ⟨A, hd⟩ := abortWaiting_effect hw.symm ha hc
  refine ⟨(concluded_iff_answered (by rw [State.slot_setSched]; exact ha)).2 A, fun i hi => ?_, A.cr_state, fun p => ?_, hd⟩
  · exact A.otherSlots i (by simpa using hi)
  · rw [A.others]
    change ∃ q, (s.setSched _ _).sched p = _
    rw [State.sched_setSched]
    split
    · next e => subst e; exact ⟨_, rfl⟩
    · exact ⟨_, rfl⟩

theorem abortWaiting_fold : ∀ (l : List SlotId) (s : State), l.Nodup →
    (∀ j ∈ l, ((s.slot j).state = .queued ∨ (s.slot j).state = .linkWait) ∧ (s.slot j).abortRequester = none ∧
      (s.cr (s.slot j).cr).state = .active) →
    Through WaitingAborted l s (l.foldl (fun s j => abortWaiting j s) s) ∧
      KeptBut l s (l.foldl (fun s j => abortWaiting j s) s)
  | [], s, _, _ => ⟨.nil s, fun _ _ => rfl, fun _ => rfl, fun p => ⟨_, rfl⟩, rfl⟩
  | j :: l, s, hn, h => by
    obtain ⟨hjl, hn⟩ := List.nodup_cons.1 hn
    obtain ⟨hw, ha, hc⟩ := h j List.mem_cons_self
    obtain ⟨A, K⟩ := waitingAborted_of_wait hw ha hc
    have hkeep : ∀ i, i ≠ j → (abortWaiting j s).slot i = s.slot i := fun i hi => K.slot i (by simpa using hi)
    obtain ⟨T, L⟩ := abortWaiting_fold l (abortWaiting j s) hn fun i hi => by
      rw [hkeep i fun e => hjl (e ▸ hi), K.cr_state]
      exact h i (List.mem_cons_of_mem _ hi)
    refine ⟨.cons A T, fun i hi => ?_, fun c => (L.cr_state c).trans (K.cr_state c), fun p => ?_,
      L.discarded.trans K.discarded⟩
    · obtain ⟨hij, hil⟩ := not_or.1 (mt List.mem_cons.2 hi)
      exact (L.slot i hil).trans (hkeep i hij)
    · obtain ⟨q, hq⟩ := K.sched p
      obtain ⟨q', hq'⟩ := L.sched p
      exact ⟨q', by rw [List.foldl_cons, hq', hq]⟩

/-- ACTIVE slots of a ring that can be marked one after another: each is its port's active transaction, on the line or yielded to
a round and then to be concluded, with an ABORT of its own on it. -/
structure Markable (r : RqId) (l : List SlotId) (s : State) : Prop where
  distinct : l.Nodup
  ring : ∀ j ∈ l, (s.slot j).rq = r
  running : ∀ j ∈ l, (schedOf j s).active = some j ∧ ((schedOf j s).owner = some .transaction ∨
    (schedOf j s).owner = some .round ∧ Concludable j s ∧ ∀ a, (s.slot j).abortRequester = some a → (s.slot a).rq ≠ r)
  requesters : ∀ i ∈ l, ∀ j ∈ l, ∀ a, (s.slot i).abortRequester = some a → (s.slot j).abortRequester = some a → i = j

/-- The others can still be marked where slots but the marked one's and its ABORT's, and the other ports, are as they were. -/
theorem Markable.tail {l : List SlotId} (h : Markable r (j :: l) s)
    (hslot : ∀ i, i ≠ j → ((schedOf j s).owner ≠ some .transaction → (s.slot j).abortRequester ≠ some i) →
      t.slot i = s.slot i)
    (hsched : ∀ p, p ≠ portOf (s.slot j).sensor → t.sched p = s.sched p)
    (hcr : ∀ c, (t.cr c).state = (s.cr c).state) : Markable r l t := by
  obtain ⟨hjl, hn⟩ := List.nodup_cons.1 h.distinct
  have hne : ∀ i ∈ l, i ≠ j := fun i hi e => hjl (e ▸ hi)
  obtain ⟨hja, hjo⟩ := h.running j List.mem_cons_self
  have hsame : ∀ i ∈ l, t.slot i = s.slot i := fun i hi => hslot i (hne i hi) fun ho hreq => by
    obtain hjo | ⟨-, -, hrq⟩ := hjo
    · exact ho hjo
    · exact hrq i hreq (h.ring i (List.mem_cons_of_mem _ hi))
  have hport : ∀ i ∈ l, schedOf i t = schedOf i s := fun i hi => by
    unfold schedOf
    rw [hsame i hi]
    refine hsched _ fun e => hne i hi ?_
    have hia := (h.running i (List.mem_cons_of_mem _ hi)).1
    unfold schedOf at hia hja
    rw [e, hja] at hia
    exact (Option.some.inj hia).symm
  have hreq : ∀ i ∈ l, ∀ a, (s.slot i).abortRequester = some a → (s.slot a).rq ≠ r → t.slot a = s.slot a :=
    fun i hi a ha hrq => hslot a (fun e => hrq (e ▸ h.ring j List.mem_cons_self)) fun _ hj =>
      hne i hi (h.requesters i (List.mem_cons_of_mem _ hi) j List.mem_cons_self a ha hj)
  refine ⟨hn, fun i hi => ?_, fun i hi => ?_, fun i hi i' hi' a ha ha' => ?_⟩
  · rw [hsame i hi]
    exact h.ring i (List.mem_cons_of_mem _ hi)
  · rw [hport i hi, hsame i hi]
    obtain ⟨hia, hio⟩ := h.running i (List.mem_cons_of_mem _ hi)
    refine ⟨hia, hio.imp_right fun ⟨ho, hc, hrq⟩ => ⟨ho, ?_, fun a ha => ?_⟩⟩
    · exact hc.of_kept (hsame i hi) (fun a ha => hreq i hi a ha (hrq a ha)) hcr
    · rw [hreq i hi a ha (hrq a ha)]
      exact hrq a ha
  · rw [hsame i hi] at ha
    rw [hsame i' hi'] at ha'
    exact h.requesters i (List.mem_cons_of_mem _ hi) i' (List.mem_cons_of_mem _ hi') a ha ha'

/-- A slot that can be concluded can be once it is marked without a requester. -/
theorem Concludable.marked (h : Concludable j s) : Concludable j (s.setSlot j (markedSlot none (s.slot j))) := by
  refine ⟨?_, ?_, fun a ha => ?_⟩
  · rw [State.slot_setSlot_same]
    exact h.isOpen
  · rw [State.slot_setSlot_same]
    exact h.ring
  · rw [State.slot_setSlot_same] at ha
    have hreq : (s.slot j).abortRequester = some a := by
      unfold markedSlot at ha
      dsimp only at ha
      split at ha
      · exact ha
      · cases ha
    obtain ⟨hne, hrest⟩ := h.requester a hreq
    rw [State.slot_setSlot_ne _ _ _ _ hne.symm]
    exact ⟨hne, hrest⟩

theorem activeMarked_of_markable {l : List SlotId} (h : Markable r (j :: l) s) :
    ActiveMarked j s (markAbort j none s) ∧ Markable r l (markAbort j none s) ∧
      (markAbort j none s).discarded = s.discarded := by
  obtain ⟨hja, hjo⟩ := h.running j List.mem_cons_self
  by_cases ho : (schedOf j s).owner = some .transaction
  · have hmark := markAbort_onLine (requester := none) ho
    refine ⟨?_, h.tail (fun i hi _ => ?_) (fun p _ => ?_) fun c => ?_, ?_⟩
    · exact (if_pos ho).mpr hmark
    · rw [hmark, State.slot_setSlot_ne _ _ _ _ hi.symm]
    · rw [hmark, State.sched_setSlot]
    · rw [hmark, State.cr_setSlot]
    · rw [hmark, State.setSlot_discarded]
  · obtain ⟨hround, hc, hrq⟩ := hjo.resolve_left ho
    obtain ⟨A, hd⟩ := markAbort_yielded (requester := none) hja hround hc.marked
    refine ⟨?_, h.tail (fun i hi hreq => ?_) (fun p hp => ?_) fun c => ?_, hd⟩
    · exact (if_neg ho).mpr A
    · rw [A.otherSlots i hi ?_, State.slot_setSched, State.slot_setSlot_ne _ _ _ _ hi.symm]
      rw [State.slot_setSched, State.slot_setSlot_same]
      unfold markedSlot
      dsimp only
      split
      · exact hreq ho
      · simp
    · rw [A.beside.sched, State.sched_setSched_ne _ _ _ _ hp.symm, State.sched_setSlot]
    · exact A.cr_state c

theorem markAbort_fold : ∀ (l : List SlotId) (s : State), Markable r l s →
    Through ActiveMarked l s (l.foldl (fun s j => markAbort j none s) s) ∧
      (l.foldl (fun s j => markAbort j none s) s).discarded = s.discarded
  | [], s, _ => ⟨.nil s, rfl⟩
  | _ :: l, _, h => by
    obtain ⟨A, hl, hd⟩ := activeMarked_of_markable h
    obtain ⟨T, hd'⟩ := markAbort_fold l _ hl
    exact ⟨.cons A T, hd'.trans hd⟩

theorem deleteRequestRingEndsItsSlots : DeleteRequestRingEndsItsSlots := by
  intro k id r s u h hb hr hid hf ha hh D
  have hrun := h.drains hb hr hid hf ha hh
  have hslot : ∀ j, (draining k r u).slot j = s.slot j := h.slot
  have hcr : ∀ c, (draining k r u).cr c = s.cr c := h.cr
  have hw : waitingSlots r u = waitingSlots r s := by
    unfold waitingSlots
    simp only [h.slot, h.slotOrder]
  have hact : activeSlots r u = activeSlots r s := by
    unfold activeSlots
    simp only [h.slot, h.slotOrder]
  have mem_waiting : ∀ j, j ∈ waitingSlots r s ↔ j ∈ s.slotOrder ∧ (s.slot j).rq = r ∧
      ((s.slot j).state = .queued ∨ (s.slot j).state = .linkWait) := fun j => by
    unfold waitingSlots
    rw [List.mem_filter, decide_eq_true_eq]
  have mem_active : ∀ j, j ∈ activeSlots r s ↔ j ∈ s.slotOrder ∧ (s.slot j).rq = r ∧ (s.slot j).state = .active := fun j => by
    unfold activeSlots
    rw [List.mem_filter, decide_eq_true_eq]
  rw [hw, hact] at hrun
  obtain ⟨T, K⟩ := abortWaiting_fold (waitingSlots r s) (draining k r u) (D.distinct.filter _) fun j hj => by
    obtain ⟨hin, hjr, hst⟩ := (mem_waiting j).1 hj
    rw [hslot, hcr]
    exact ⟨hst, D.waiting j hin hjr hst⟩
  have hkeep : ∀ j, (s.slot j).rq ≠ r ∨ (s.slot j).state = .active →
      ((waitingSlots r s).foldl (fun s j => abortWaiting j s) (draining k r u)).slot j = s.slot j := fun j hj => by
    rw [K.slot j fun hn => ?_, hslot]
    obtain ⟨-, hjr, hst⟩ := (mem_waiting j).1 hn
    rcases hj with hj | hj
    · exact hj hjr
    · rw [hj] at hst
      exact hst.elim (fun e => by cases e) fun e => by cases e
  generalize (waitingSlots r s).foldl (fun s j => abortWaiting j s) (draining k r u) = v at T K hkeep hrun
  have hM : Markable r (activeSlots r s) v := by
    refine ⟨D.distinct.filter _, fun j hj => ?_, fun j hj => ?_, fun i hi j hj a hia hja => ?_⟩
    · obtain ⟨-, hjr, hst⟩ := (mem_active j).1 hj
      rw [hkeep j (.inr hst)]
      exact hjr
    · obtain ⟨hin, hjr, hst⟩ := (mem_active j).1 hj
      obtain ⟨q, hq⟩ := K.sched (portOf (s.slot j).sensor)
      obtain ⟨hactive, hown⟩ := D.running j hin hjr hst
      have hps : schedOf j v = { s.sched (portOf (s.slot j).sensor) with queue := q } := by
        unfold schedOf
        rw [hkeep j (.inr hst), hq]
        exact congrArg (fun ps : Scheduler => { ps with queue := q }) (h.sched _)
      rw [hps, hkeep j (.inr hst)]
      refine ⟨hactive, hown.imp_right fun ⟨ho, hc, hrq⟩ => ⟨ho, ?_, fun a ha => ?_⟩⟩
      · exact hc.of_kept (hkeep j (.inr hst)) (fun a ha => hkeep a (.inl (hrq a ha))) fun c => by rw [K.cr_state, hcr]
      · rw [hkeep a (.inl (hrq a ha))]
        exact hrq a ha
    · obtain ⟨hii, -, hist⟩ := (mem_active i).1 hi
      obtain ⟨hji, -, hjst⟩ := (mem_active j).1 hj
      rw [hkeep i (.inr hist)] at hia
      rw [hkeep j (.inr hjst)] at hja
      exact D.requesters i hii j hji a hia hja
  obtain ⟨M, hdm⟩ := markAbort_fold (activeSlots r s) v hM
  rw [settle_of_none_discarded (hdm.trans (K.discarded.trans h.discarded))] at hrun
  refine ⟨_, hrun, v, ?_, M⟩
  unfold draining at T
  rw [h.rq, h.axInFlight] at T
  exact T

/-- Settles O21, by its three parts. -/
theorem deleteRing : Obligations.DeleteRing := ⟨deleteOutputRing, deleteRequestRing_replies, deleteRequestRingEndsItsSlots⟩

end Sys2Proof.Claims
end

section
set_option Elab.async false
/-! SUPPORT. The bytes of records and results (R174): a field placed among others is a piece of a concatenation. -/

namespace Sys2Proof.Machine

open Sys2Proof.Claims

/-! ### Fields side by side (R174) -/


/-- A concatenation in numbers: the high part above the width of the low one. -/
theorem toNat_append_eq {m n : Nat} (x : BitVec m) (y : BitVec n) : (x ++ y).toNat = 2 ^ n * x.toNat + y.toNat := by
  rw [BitVec.toNat_append, ← Nat.shiftLeft_add_eq_or_of_lt y.isLt, Nat.shiftLeft_eq, Nat.mul_comm]

theorem placed_eq (b n v : Nat) : placed b n v = 2 ^ (8 * b) * (v % 2 ^ (8 * n)) := by
  unfold placed
  rw [Nat.shiftLeft_eq, Nat.mul_comm]

theorem encodeCompletion_eq (head : Nat) (rq : RqId) (tag : BitVec 16) (r : Result) (phase : Bool) :
    encodeCompletion head rq tag r phase =
    BitVec.ofNat 7 0 ++ BitVec.ofBool phase ++ BitVec.ofNat 24 0 ++ r.data ++ r.detail ++ BitVec.ofNat 8 0 ++
    BitVec.ofNat 8 r.status.code ++ tag ++ BitVec.ofNat 8 rq.val ++ BitVec.ofNat 8 0 ++ BitVec.ofNat 16 head := by
  apply BitVec.eq_of_toNat_eq
  unfold encodeCompletion assemble
  simp only [toNat_append_eq, placed_eq, BitVec.toNat_ofNat, BitVec.toNat_ofBool, List.foldl_cons, List.foldl_nil]
  have hdata := r.data.isLt
  have hdetail := r.detail.isLt
  have htag := tag.isLt
  have hphase := phase.toNat_lt
  omega

theorem encodeNotice_eq (n : Notice) (phase : Bool) : encodeNotice n phase =
    BitVec.ofNat 7 0 ++ BitVec.ofBool phase ++ BitVec.ofNat 72 0 ++ BitVec.ofNat 16 n.occurrences ++ n.firstTime ++ n.detail ++
    BitVec.ofNat 16 0 ++ BitVec.ofNat 8 n.source.id ++ BitVec.ofNat 8 n.source.classCode ++
    BitVec.ofNat 8 n.source.kindCode ++ BitVec.ofNat 8 1 ++ BitVec.ofNat 16 0 := by
  apply BitVec.eq_of_toNat_eq
  unfold encodeNotice assemble
  simp only [toNat_append_eq, placed_eq, BitVec.toNat_ofNat, BitVec.toNat_ofBool, List.foldl_cons, List.foldl_nil]
  have htime := n.firstTime.isLt
  have hdetail := n.detail.isLt
  have hphase := phase.toNat_lt
  omega

/-- The flags word bit by bit (Table 45, bytes 28 and 29). -/
theorem flagsWord_eq (f : RecordFlags) (congested : Bool) : BitVec.ofNat 16 (f.word congested) =
    BitVec.ofNat 6 0 ++ BitVec.ofBool congested ++ BitVec.ofBool f.heldOverflow ++
    BitVec.ofBool f.captureDropped ++ BitVec.ofBool f.captureOverrun ++ BitVec.ofBool f.referenced ++
    BitVec.ofBool f.noInterp ++ BitVec.ofBool f.mtWrap ++ BitVec.ofBool f.resync ++
    BitVec.ofBool f.warning ++ BitVec.ofBool f.late := by
  apply BitVec.eq_of_toNat_eq
  unfold RecordFlags.word
  simp only [toNat_append_eq, BitVec.toNat_ofNat, BitVec.toNat_ofBool]
  have h1 := f.late.toNat_lt
  have h2 := f.warning.toNat_lt
  have h3 := f.resync.toNat_lt
  have h4 := f.mtWrap.toNat_lt
  have h5 := f.noInterp.toNat_lt
  have h6 := f.referenced.toNat_lt
  have h7 := f.captureOverrun.toNat_lt
  have h8 := f.captureDropped.toNat_lt
  have h9 := f.heldOverflow.toNat_lt
  have h10 := congested.toNat_lt
  omega

/-- The fields of a sample record, its flags in one word (Table 45). -/
theorem encodeSample_fields (r : SampleRecord) (f : WriteFields) : encodeSample r f =
    BitVec.ofNat 4 0 ++ BitVec.ofNat 3 r.cause.code ++ BitVec.ofBool f.phase ++ BitVec.ofNat 8 r.byte30 ++
    BitVec.ofNat 16 (r.flags.word f.congested) ++
    BitVec.ofNat 16 f.withheld ++ BitVec.ofNat 8 f.rejected ++ BitVec.ofNat 8 f.missed ++ BitVec.ofInt 24 r.turn ++
    BitVec.ofNat 24 r.angle ++ BitVec.ofInt 48 r.position ++ r.time ++ f.sequence ++ BitVec.ofNat 8 r.sensor.val ++
    BitVec.ofNat 8 r.kind.code := by
  apply BitVec.eq_of_toNat_eq
  unfold encodeSample assemble
  simp only [toNat_append_eq, placed_eq, placedInt, BitVec.toNat_ofNat, BitVec.toNat_ofInt, BitVec.toNat_ofBool,
    List.foldl_cons, List.foldl_nil, Nat.reduceMul, Nat.reducePow, Int.reducePow, Nat.cast_ofNat]
  have htime := r.time.isLt
  have hseq := f.sequence.isLt
  have hphase := f.phase.toNat_lt
  have hcause : r.cause.code < 8 := by cases r.cause <;> decide
  omega

theorem recordsAreLaidOut : RecordsAreLaidOut := by
  refine ⟨fun r f => ?_, encodeCompletion_eq, encodeNotice_eq⟩
  rw [encodeSample_fields, flagsWord_eq]
  apply BitVec.eq_of_toNat_eq
  simp only [toNat_append_eq]
  ring

/-! ### Results (Table 43) -/

theorem identityData_eq (t : Vector IdentityEntry 4) : identityData t = t[3].word ++ t[2].word ++ t[1].word ++ t[0].word := by
  apply BitVec.eq_of_toNat_eq
  unfold identityData assemble
  simp only [toNat_append_eq, placed_eq, BitVec.toNat_ofNat, List.foldl_cons, List.foldl_nil]
  have h0 := t[0].word.isLt
  have h1 := t[1].word.isLt
  have h2 := t[2].word.isLt
  have h3 := t[3].word.isLt
  omega


theorem AbsenceCause.code_lt : ∀ c : AbsenceCause, c.code < 8
  | .none => by decide
  | .notTrained => by decide
  | .badIdentity => by decide
  | .linkFault f => by cases f <;> decide

theorem absenceDetail_eq (t : Vector IdentityEntry 4) : absenceDetail t =
    1048576 * (t[0].cause.code + 8 * t[1].cause.code + 64 * t[2].cause.code + 512 * t[3].cause.code) := by
  unfold absenceDetail
  rw [Nat.shiftLeft_eq, Nat.mul_comm]

theorem portStartDetail_eq (t : Vector IdentityEntry 4) : BitVec.ofNat 32 (presentMask t + absenceDetail t) =
    BitVec.ofNat 3 t[3].cause.code ++ BitVec.ofNat 3 t[2].cause.code ++ BitVec.ofNat 3 t[1].cause.code ++
      BitVec.ofNat 3 t[0].cause.code ++ BitVec.ofNat 16 0 ++ BitVec.ofBool t[3].present ++ BitVec.ofBool t[2].present ++
      BitVec.ofBool t[1].present ++ BitVec.ofBool t[0].present := by
  apply BitVec.eq_of_toNat_eq
  rw [absenceDetail_eq]
  unfold presentMask
  simp only [toNat_append_eq, BitVec.toNat_ofNat, BitVec.toNat_ofBool]
  have c0 := t[0].cause.code_lt
  have c1 := t[1].cause.code_lt
  have c2 := t[2].cause.code_lt
  have c3 := t[3].cause.code_lt
  have p0 := t[0].present.toNat_lt
  have p1 := t[1].present.toNat_lt
  have p2 := t[2].present.toNat_lt
  have p3 := t[3].present.toNat_lt
  omega

theorem LinkState.code_lt (st : LinkState) : st.code < 8 := by cases st <;> decide

theorem queryPortDetail_eq (le : LinkEngine) (h : le.failures ≤ 15) :
    BitVec.ofNat 32 (le.state.code + 256 * le.failures + 65536 * presentMask le.identity + absenceDetail le.identity) =
      BitVec.ofNat 3 le.identity[3].cause.code ++ BitVec.ofNat 3 le.identity[2].cause.code ++
        BitVec.ofNat 3 le.identity[1].cause.code ++ BitVec.ofNat 3 le.identity[0].cause.code ++
        BitVec.ofBool le.identity[3].present ++ BitVec.ofBool le.identity[2].present ++
        BitVec.ofBool le.identity[1].present ++ BitVec.ofBool le.identity[0].present ++ BitVec.ofNat 4 0 ++
        BitVec.ofNat 4 le.failures ++ BitVec.ofNat 5 0 ++ BitVec.ofNat 3 le.state.code := by
  apply BitVec.eq_of_toNat_eq
  rw [absenceDetail_eq]
  unfold presentMask
  simp only [toNat_append_eq, BitVec.toNat_ofNat, BitVec.toNat_ofBool]
  have c0 := le.identity[0].cause.code_lt
  have c1 := le.identity[1].cause.code_lt
  have c2 := le.identity[2].cause.code_lt
  have c3 := le.identity[3].cause.code_lt
  have p0 := le.identity[0].present.toNat_lt
  have p1 := le.identity[1].present.toNat_lt
  have p2 := le.identity[2].present.toNat_lt
  have p3 := le.identity[3].present.toNat_lt
  have hstate := le.state.code_lt
  omega

theorem querySensorResult_eq (c : Sensor) (h : c.state ≠ .unbound) : querySensorResult c =
    { status := .success, detail := 0
      data := BitVec.ofNat 8 0 ++ BitVec.ofNat 8 c.held.length ++ c.sequence ++ BitVec.ofInt 24 c.extendedTurn ++
        BitVec.ofNat 16 c.last.turn ++ BitVec.ofNat 24 c.last.angle ++ BitVec.ofNat 8 c.last.validity.code ++
        BitVec.ofNat 8 c.rejects ++ BitVec.ofNat 8 c.cause.code ++ BitVec.ofNat 8 c.state.code } := by
  unfold querySensorResult assemble
  rw [if_neg h]
  refine congrArg (Result.mk .success 0) (BitVec.eq_of_toNat_eq ?_)
  simp only [toNat_append_eq, placed_eq, placedInt, BitVec.toNat_ofNat, BitVec.toNat_ofInt, List.foldl_cons, List.foldl_nil,
    Nat.reduceMul, Nat.reducePow, Int.reducePow, Nat.cast_ofNat]
  have hseq := c.sequence.isLt
  omega

/-! ### The ring states of QUERY_DEVICE -/

theorem packedStates_div (codes : List Nat) (h : ∀ c ∈ codes, c < 4) (i : Nat) :
    packedStates codes / 4 ^ i % 4 = codes.getD i 0 := by
  induction codes generalizing i with
  | nil => simp [packedStates]
  | cons c codes ih =>
    have hc := h c List.mem_cons_self
    have hcons : packedStates (c :: codes) = c + 4 * packedStates codes := rfl
    rw [hcons]
    cases i with
    | zero => simp; omega
    | succ i =>
      rw [Nat.pow_succ', ← Nat.div_div_eq_div_mul, show (c + 4 * packedStates codes) / 4 = packedStates codes by omega]
      exact (ih (fun d hd => h d (List.mem_cons_of_mem _ hd)) i).trans (by simp)

theorem extractLsb'_packedStates (codes : List Nat) (h : ∀ c ∈ codes, c < 4) {i : Nat} (hi : i < 20) :
    (BitVec.ofNat 40 (packedStates codes)).extractLsb' (2 * i) 2 = BitVec.ofNat 2 (codes.getD i 0) := by
  apply BitVec.eq_of_toNat_eq
  rw [BitVec.extractLsb'_toNat, BitVec.toNat_ofNat, BitVec.toNat_ofNat, Nat.shiftRight_eq_div_pow, ← packedStates_div codes h i,
    Nat.pow_mul, show 2 ^ 40 = 4 ^ i * 4 ^ (20 - i) by rw [← Nat.pow_add, show i + (20 - i) = 20 by omega]; rfl,
    Nat.mod_mul_right_div_self, Nat.mod_mod_of_dvd _ (dvd_pow_self 4 (by omega)), Nat.mod_mod]

theorem queryDeviceData_eq (now : Time) (slots : Nat) (codes : List Nat) :
    queryDeviceResult now slots codes = { status := .success, detail := 0
                                          data := BitVec.ofNat 16 0 ++ BitVec.ofNat 40 (packedStates codes) ++
                                            BitVec.ofNat 8 slots ++ now } := by
  unfold queryDeviceResult assemble
  refine congrArg (Result.mk .success 0) (BitVec.eq_of_toNat_eq ?_)
  simp only [toNat_append_eq, placed_eq, BitVec.toNat_ofNat, List.foldl_cons, List.foldl_nil, Nat.reduceMul, Nat.reducePow]
  have htime := now.isLt
  omega

theorem readPositionData_eq (position : Int) (angle turn : Nat) (time : Time) :
    BitVec.ofNat 128 (assemble [placedInt 0 6 position, placed 6 3 angle, placed 9 2 turn, placed 11 5 time.toNat]) =
      time.extractLsb' 0 40 ++ BitVec.ofNat 16 turn ++ BitVec.ofNat 24 angle ++ BitVec.ofInt 48 position := by
  apply BitVec.eq_of_toNat_eq
  unfold assemble
  simp only [toNat_append_eq, placed_eq, placedInt, BitVec.toNat_ofNat, BitVec.toNat_ofInt, BitVec.extractLsb'_toNat,
    Nat.shiftRight_zero, List.foldl_cons, List.foldl_nil, Nat.reduceMul, Nat.reducePow, Int.reducePow, Nat.cast_ofNat]
  omega

theorem setPositionData_eq (offset : Int) (angle turn : Nat) (extended : Int) :
    BitVec.ofNat 128 (assemble [placedInt 0 6 offset, placed 6 3 angle, placed 9 2 turn, placedInt 11 3 extended]) =
      BitVec.ofNat 16 0 ++ BitVec.ofInt 24 extended ++ BitVec.ofNat 16 turn ++ BitVec.ofNat 24 angle ++
        BitVec.ofInt 48 offset := by
  apply BitVec.eq_of_toNat_eq
  unfold assemble
  simp only [toNat_append_eq, placed_eq, placedInt, BitVec.toNat_ofNat, BitVec.toNat_ofInt, List.foldl_cons, List.foldl_nil,
    Nat.reduceMul, Nat.reducePow, Int.reducePow, Nat.cast_ofNat]
  omega

theorem getD_toList_map {α : Type} {n : Nat} (v : Vector α n) (f : α → Nat) (i : Fin n) : (v.toList.map f).getD i.val 0 = f v[i] := by
  rw [List.getD_eq_getElem _ _ (by simp)]
  simp

theorem ringStateCodes_rq (s : State) (r : RqId) : (ringStateCodes s).getD r.val 0 = (s.rq r).state.code := by
  unfold ringStateCodes
  rw [List.append_assoc, List.getD_append _ _ _ _ (by simp)]
  exact getD_toList_map s.rqs _ r

theorem ringStateCodes_cr (s : State) (c : CrId) : (ringStateCodes s).getD (8 + c.val) 0 = (s.cr c).state.code := by
  unfold ringStateCodes
  rw [List.getD_append _ _ _ _ (by simp; omega), List.getD_append_right _ _ _ _ (by simp)]
  rw [List.length_map, Vector.length_toList, Nat.add_sub_cancel_left]
  exact getD_toList_map s.crs _ c

theorem ringStateCodes_sr (s : State) (i : SrId) : (ringStateCodes s).getD (16 + i.val) 0 = (s.sr i).state.code := by
  unfold ringStateCodes
  rw [List.getD_append_right _ _ _ _ (by simp)]
  rw [List.length_append, List.length_map, List.length_map, Vector.length_toList, Vector.length_toList,
    Nat.add_sub_cancel_left]
  exact getD_toList_map s.srs _ i

theorem ringStateCodes_lt (s : State) : ∀ c ∈ ringStateCodes s, c < 4 := by
  intro c hc
  unfold ringStateCodes at hc
  rw [List.mem_append, List.mem_append, List.mem_map, List.mem_map, List.mem_map] at hc
  rcases hc with (⟨d, -, rfl⟩ | ⟨d, -, rfl⟩) | ⟨d, -, rfl⟩ <;> cases d.state <;> decide

theorem jumps_eq (c : Sensor) (t : Turned) : c.jumps t =
    (decide (c.last.validity = .valid) && decide (c.jumpLimit ≠ 0) && t.delta.any fun d => decide ((c.jumpLimit : Int) < |d|)) := by
  have hlt : ∀ d : Int, c.jumpLimit < d.natAbs ↔ (c.jumpLimit : Int) < |d| := fun d => by
    rw [Int.abs_eq_natAbs, Int.ofNat_lt]
  unfold Sensor.jumps
  simp only [hlt]

theorem readPositionDetail_eq (warn alarm evaluated jump outside : Bool) :
    BitVec.ofNat 32 (warn.toNat + 2 * alarm.toNat + 4 * evaluated.toNat + 8 * jump.toNat + 16 * outside.toNat) =
      BitVec.ofNat 27 0 ++ BitVec.ofBool outside ++ BitVec.ofBool jump ++ BitVec.ofBool evaluated ++ BitVec.ofBool alarm ++
        BitVec.ofBool warn := by
  apply BitVec.eq_of_toNat_eq
  simp only [toNat_append_eq, BitVec.toNat_ofNat, BitVec.toNat_ofBool]
  have h1 := warn.toNat_lt
  have h2 := alarm.toNat_lt
  have h3 := evaluated.toNat_lt
  have h4 := jump.toNat_lt
  have h5 := outside.toNat_lt
  omega

theorem resultsAreLaidOut : ResultsAreLaidOut := by
  refine ⟨fun st t => ?_, fun le h => ?_, querySensorResult_eq, ⟨rfl, fun c h => ?_⟩, fun s => ?_,
    fun c warn alarm angle turn time => ?_⟩
  · unfold portStartResult
    rw [portStartDetail_eq, identityData_eq]
  · unfold queryPortResult
    rw [queryPortDetail_eq le h, identityData_eq]
  · unfold querySensorResult
    rw [if_pos h]
  · refine ⟨_, queryDeviceData_eq _ _ _, fun r => ?_, fun c => ?_, fun i => ?_⟩
    · rw [extractLsb'_packedStates _ (ringStateCodes_lt s) (by omega), ringStateCodes_rq]
    · rw [show 16 + 2 * c.val = 2 * (8 + c.val) by omega, extractLsb'_packedStates _ (ringStateCodes_lt s) (by omega),
        ringStateCodes_cr]
    · rw [show 32 + 2 * i.val = 2 * (16 + i.val) by omega, extractLsb'_packedStates _ (ringStateCodes_lt s) (by omega),
        ringStateCodes_sr]
  · intro t evaluated inRange jump
    have hin : (c.turnInRange t && inSigned48 (c.positionOf t.extRaw)) = inRange := by
      unfold Sensor.turnInRange
      cases hm : c.turnMode <;> simp [inRange, hm]
    have hjump : c.jumps t = jump := jumps_eq c t
    have hreported : (if (evaluated && !(evaluated && !inRange)) = true then c.positionOf t.extRaw else 0) =
        if evaluated = true ∧ inRange = true then c.positionOf t.extRaw else 0 :=
      if_congr (by cases evaluated <;> cases inRange <;> decide) rfl rfl
    unfold readPositionResult
    dsimp only
    rw [hin, hjump, readPositionDetail_eq, hreported, readPositionData_eq]

/-- Settles O52, by its two parts. -/
theorem recordsAndResultsAreLaidOut : Obligations.RecordsAndResultsAreLaidOut := ⟨recordsAreLaidOut, resultsAreLaidOut⟩

end Sys2Proof.Machine
end

section
set_option Elab.async false
/-! SUPPORT. The end of an exchange in RUNNING and what it gives the transaction that owns it (R24, R27, R49, R156 to R160). -/

namespace Sys2Proof.Machine

open Sys2Proof.Claims

variable {s t u v : State} {p : PortId} {k j : SlotId} {n : SensorId}

/-! ### The end of an attempt in RUNNING (R24, R27) -/

/-- What an attempt says of its exchange does not change as it ends (R1). -/
theorem outcomeOf_finished (le : LinkEngine) (a : Attempt) (e : AttemptEnd) (x : Option Attempt) (now : Option Time) :
    outcomeOf { le with attempt := x, lastEnd := now } (a.finished e) e = outcomeOf le a e := rfl

/-- An exchange that ends OK is delivered with the failure count at 0, and the scheduler decides (R24, R47). -/
theorem endAttempt_running_ok {a : Attempt} {warn alarm : Bool} {payload : WirePayload}
    (ha : (s.link p).attempt = some a) (hr : (s.link p).state = .running) :
    endAttempt p (.ok warn alarm payload) s = makeDecision p (deliverOutcome p false
      (outcomeOf (s.link p) a (.ok warn alarm payload)) (s.setLink p (exchangeEnded (s.link p) 0 s.time))) := by
  rw [endAttempt_ok ha hr]
  unfold okExchange
  dsimp only
  rw [State.link_setLink_same, State.setLink_setLink, outcomeOf_finished]
  rfl

theorem failedExchange_eq (p : PortId) (a : Attempt) (f : LinkFault) (s : State) :
    failedExchange p a f s =
      let d := deliverOutcome p false (outcomeOf (s.link p) a (.fault f)) (s.setLink p { s.link p with attempt := none })
      let c := d.setLink p { d.link p with failures := (d.link p).failures + 1 }
      if (d.link p).parameters.failLimit ≤ (d.link p).failures + 1 then enterDown p f c else makeDecision p c := by
  unfold failedExchange
  simp only [State.link_setLink_same]

/-- An exchange that fails at its last allowed attempt is delivered, the failure count rises, and the link goes DOWN at the
fail limit; otherwise the scheduler decides (R27). -/
theorem endAttempt_running_fault {a : Attempt} {f : LinkFault} (ha : (s.link p).attempt = some a)
    (hr : (s.link p).state = .running) (hl : (s.link p).parameters.retryLimit < a.tags.length) :
    endAttempt p (.fault f) s =
      let d := deliverOutcome p false (outcomeOf (s.link p) a (.fault f))
        (s.setLink p (exchangeEnded (s.link p) (s.link p).failures s.time))
      let c := d.setLink p { d.link p with failures := (d.link p).failures + 1 }
      if (d.link p).parameters.failLimit ≤ (d.link p).failures + 1 then enterDown p f c else makeDecision p c := by
  have hno : retriesRemain (s.link p) (a.finished (.fault f)) = false :=
    decide_eq_false (by change ¬ a.tags.length < _; omega)
  have hend : endAttempt p (.fault f) s = failedExchange p (a.finished (.fault f)) f
      (s.setLink p { s.link p with attempt := some (a.finished (.fault f)), lastEnd := some s.time }) := by
    unfold endAttempt
    simp only [ha, hr, hno]
    rfl
  rw [hend, failedExchange_eq, State.link_setLink_same, State.setLink_setLink, outcomeOf_finished]
  rfl

/-! ### The Sensor Processor beside the ports and the requests -/

/-- The states agree in links, slots, rings but sample rings, and completions discarded. -/
structure BesideRequests (s t : State) : Prop where
  links : t.links = s.links
  slots : t.slots = s.slots
  crs : t.crs = s.crs
  rqs : t.rqs = s.rqs
  discarded : t.discarded = s.discarded
  axInFlight : t.axInFlight = s.axInFlight
  time : t.time = s.time

theorem BesideRequests.refl (s : State) : BesideRequests s s := ⟨rfl, rfl, rfl, rfl, rfl, rfl, rfl⟩

theorem BesideRequests.trans (h : BesideRequests s t) (g : BesideRequests t u) : BesideRequests s u :=
  ⟨g.links.trans h.links, g.slots.trans h.slots, g.crs.trans h.crs, g.rqs.trans h.rqs, g.discarded.trans h.discarded,
    g.axInFlight.trans h.axInFlight, g.time.trans h.time⟩

theorem setSensor_besideRequests (s : State) (n : SensorId) (c : Sensor) : BesideRequests s (s.setSensor n c) :=
  ⟨rfl, rfl, rfl, rfl, rfl, rfl, rfl⟩

theorem setSched_besideRequests (s : State) (p : PortId) (ps : Scheduler) : BesideRequests s (s.setSched p ps) :=
  ⟨rfl, rfl, rfl, rfl, rfl, rfl, rfl⟩

theorem postRecord_besideRequests (r : SampleRecord) (s : State) : BesideRequests s (postRecord r s) := by
  rw [postRecord_frame]
  exact ⟨rfl, rfl, rfl, rfl, rfl, rfl, rfl⟩

theorem raiseNotice_besideRequests (src : NoticeSource) (det : BitVec 32) (tm : Time) (s : State) :
    BesideRequests s (raiseNotice src det tm s) := by
  rw [raiseNotice_frame]
  exact ⟨rfl, rfl, rfl, rfl, rfl, rfl, rfl⟩

theorem postRecords_besideRequests (l : List SampleRecord) (s : State) : BesideRequests s (postRecords l s) := by
  unfold postRecords
  induction l generalizing s with
  | nil => exact .refl s
  | cons r l ih => exact (postRecord_besideRequests r s).trans (ih _)

theorem faultSensor_besideRequests (n : SensorId) (cause : FaultCause) (time : Time) (s : State) :
    BesideRequests s (faultSensor n cause time s) := by
  rw [faultSensor_effect]
  unfold faulted
  dsimp only
  have hleft : BesideRequests s (if (s.sensor n).state = .acquiring then
      s.setSched (portOf n) (withoutEntry n (s.sched (portOf n))) else s) := by
    split
    · exact setSched_besideRequests _ _ _
    · exact .refl s
  refine BesideRequests.trans ?_ (raiseNotice_besideRequests _ _ _ _)
  split
  · exact hleft.trans (setSensor_besideRequests _ _ _)
  · exact (hleft.trans (setSensor_besideRequests _ _ _)).trans (postRecord_besideRequests _ _)

theorem rejectReading_besideRequests (n : SensorId) (time : Time) (s : State) :
    BesideRequests s (rejectReading n time s) := by
  unfold rejectReading
  dsimp only
  split
  · exact (setSensor_besideRequests _ _ _).trans (faultSensor_besideRequests _ _ _ _)
  · exact setSensor_besideRequests _ _ _

theorem admitReading_besideRequests (r : Reading) (angle turn : Nat) (warning : Bool) (s : State) :
    BesideRequests s (admitReading r angle turn warning s) := by
  unfold admitReading
  dsimp only
  split
  · exact faultSensor_besideRequests _ _ _ _
  · split
    · exact faultSensor_besideRequests _ _ _ _
    · exact (setSensor_besideRequests _ _ _).trans (postRecords_besideRequests _ _)

theorem takeReading_besideRequests (r : Reading) (s : State) : BesideRequests s (takeReading r s) := by
  unfold takeReading
  dsimp only
  split
  · exact .refl s
  · split
    · exact setSensor_besideRequests _ _ _
    · exact rejectReading_besideRequests _ _ _
    · split
      · exact rejectReading_besideRequests _ _ _
      · exact admitReading_besideRequests _ _ _ _ _

/-- The schedulers agree but for rounds. -/
structure SameHostWork (s t : State) : Prop where
  queue : ∀ p, (t.sched p).queue = (s.sched p).queue
  active : ∀ p, (t.sched p).active = (s.sched p).active
  owner : ∀ p, (t.sched p).owner = (s.sched p).owner
  done : ∀ p, (t.sched p).exchangesDone = (s.sched p).exchangesDone
  progress : ∀ p, (t.sched p).progress = (s.sched p).progress
  round : ∀ p, (t.sched p).round = (s.sched p).round

theorem dropEntry_fields (n : SensorId) (ps : Scheduler) : (ps.dropEntry n).queue = ps.queue ∧
    (ps.dropEntry n).active = ps.active ∧ (ps.dropEntry n).owner = ps.owner ∧
    (ps.dropEntry n).exchangesDone = ps.exchangesDone ∧ (ps.dropEntry n).progress = ps.progress ∧
    (ps.dropEntry n).round = ps.round := by
  unfold Scheduler.dropEntry
  split <;> exact ⟨rfl, rfl, rfl, rfl, rfl, rfl⟩

/-- A treatment of a sensor drops at most a round entry (R43). -/
theorem Quiet.sameHostWork (h : Quiet n s t) : SameHostWork s t := by
  obtain ⟨-, -, hs⟩ := h
  have hsched : ∀ p, t.sched p = s.sched p ∨ t.sched p = (s.sched p).dropEntry n := fun p => by
    rcases hs with hs | hs
    · left
      unfold State.sched
      rw [hs]
    · have e : t.sched p = (s.setSched (portOf n) ((s.sched (portOf n)).dropEntry n)).sched p := by
        unfold State.sched State.setSched
        rw [hs]
        rfl
      rw [e, State.sched_setSched]
      split
      · next hp => subst hp; exact .inr rfl
      · exact .inl rfl
  have hfields : ∀ p, (t.sched p).queue = (s.sched p).queue ∧ (t.sched p).active = (s.sched p).active ∧
      (t.sched p).owner = (s.sched p).owner ∧ (t.sched p).exchangesDone = (s.sched p).exchangesDone ∧
      (t.sched p).progress = (s.sched p).progress ∧ (t.sched p).round = (s.sched p).round := fun p => by
    rcases hsched p with e | e <;> rw [e]
    · exact ⟨rfl, rfl, rfl, rfl, rfl, rfl⟩
    · exact dropEntry_fields n (s.sched p)
  exact ⟨fun p => (hfields p).1, fun p => (hfields p).2.1, fun p => (hfields p).2.2.1, fun p => (hfields p).2.2.2.1,
    fun p => (hfields p).2.2.2.2.1, fun p => (hfields p).2.2.2.2.2⟩

/-! ### Readings of SET_POSITION (R76, R87, R88, Table 34) -/

/-- What the frames of a reading said. -/
structure Says (r : Reading) (time : Time) (first : Heard) (again : Option Heard) : Prop where
  time : r.sampleTime = time
  first : r.position.result = .ok first.warn first.alarm (.reading first.angle first.turn)
  again : r.repeated.map ExchangeOutcome.result = again.map fun h => .ok h.warn h.alarm (.reading h.angle h.turn)

/-- Either frame carried an ALARM; the data of the second differ; either carried a WARNING (R75, R76). -/
def alarmed (first : Heard) (again : Option Heard) : Bool := first.alarm || again.any Heard.alarm
def mismatched (first : Heard) (again : Option Heard) : Bool :=
  again.any fun h => decide (¬ (h.angle = first.angle ∧ h.turn = first.turn))
def warned (first : Heard) (again : Option Heard) : Bool := first.warn || again.any Heard.warn

/-- Steps 1 and 2 of a reading whose frames came (R75, R76). -/
theorem screen_of_says {r : Reading} {time : Time} {first : Heard} {again : Option Heard} (h : Says r time first again) :
    r.screen = if alarmed first again = true then .rejected .alarm
      else if mismatched first again = true then .rejected .confirmMismatch
      else .good first.angle first.turn (warned first again) := by
  unfold Reading.screen
  rw [h.first]
  dsimp only
  rw [h.again]
  unfold alarmed mismatched warned
  cases again with
  | none =>
    cases hf : first.alarm <;> simp [Payload.reading?]
  | some g =>
    cases hf : first.alarm
    · cases hg : g.alarm
      · by_cases hd : g.angle = first.angle ∧ g.turn = first.turn
        · simp [Payload.reading?, hg, hd]
        · have hne : ¬ ((g.angle, g.turn) = (first.angle, first.turn)) := fun e => hd (Prod.mk.inj e)
          simp [Payload.reading?, hg, hd, hne]
      · simp [hg]
    · simp

/-- The successful result of a SET_POSITION (Table 34). -/
def setPositionResult (c : Sensor) (angle turn : Nat) (target : Int) (warning : Bool) : Result :=
  let x := c.turned angle turn
  { status := .success
    detail := BitVec.ofNat 32 (warningBit warning + 512 * c.resyncs.toNat)
    data := BitVec.ofNat 16 0 ++ BitVec.ofInt 24 (if c.turnMode = .extend then x.candidate else 0) ++
      BitVec.ofNat 16 turn ++ BitVec.ofNat 24 angle ++ BitVec.ofInt 48 (target - Int.tdiv (x.extRaw * c.scale) 65536) }

/-- The treatment of a SET_POSITION's reading whose frames came, case by case (R87, R88, Table 34). -/
theorem takeSetPosition_eq {r : Reading} {time : Time} {first : Heard} {again : Option Heard} (h : Says r time first again)
    (target : Int) (made : Nat) (u : State) :
    takeSetPosition r target made u =
      let c := u.sensor r.sensor
      let x := c.turned first.angle first.turn
      if c.state = .unbound ∨ c.state = .faulted then (u, .detailed .wrongState made)
      else if alarmed first again = true then (rejectReading r.sensor time u, .detailed .rejected 1)
      else if mismatched first again = true then (rejectReading r.sensor time u, .detailed .rejected 2)
      else if c.jumps x = true then (rejectReading r.sensor time u, .detailed .rejected 3)
      else if c.turnInRange x = false then (u, .detailed .range 1)
      else if inSigned48 (target - Int.tdiv (x.extRaw * c.scale) 65536) = false then (u, .detailed .range 2)
      else (u.setSensor r.sensor (repositioned c first.angle first.turn time target),
        setPositionResult c first.angle first.turn target (warned first again)) := by
  unfold takeSetPosition
  dsimp only
  split
  · rfl
  rw [screen_of_says h, h.time]
  by_cases ha : alarmed first again = true
  · rw [if_pos ha, if_pos ha]
    rfl
  rw [if_neg ha, if_neg ha]
  by_cases hm : mismatched first again = true
  · rw [if_pos hm, if_pos hm]
    rfl
  rw [if_neg hm, if_neg hm]
  dsimp only
  split
  · rfl
  refine if_congr (Bool.not_eq_true' _ ▸ Iff.rfl) rfl (if_congr (Bool.not_eq_true' _ ▸ Iff.rfl) rfl (Prod.ext rfl ?_))
  dsimp only
  rw [setPositionData_eq]
  refine congrArg (fun e : Int => ({ status := .success, detail := _
                                     data := BitVec.ofNat 16 0 ++ BitVec.ofInt 24 e ++ BitVec.ofNat 16 first.turn ++
                                       BitVec.ofNat 24 first.angle ++ BitVec.ofInt 48 _ } : Result)) ?_
  refine ite_congr rfl (fun he => if_pos he) fun _ => rfl

theorem alarmed_iff (first : Heard) (again : Option Heard) :
    alarmed first again = true ↔ first.alarm = true ∨ ∃ h, again = some h ∧ h.alarm = true := by
  unfold alarmed
  rw [Bool.or_eq_true, Option.any_eq_true]

theorem mismatched_iff (first : Heard) (again : Option Heard) :
    mismatched first again = true ↔ ∃ h, again = some h ∧ ¬ (h.angle = first.angle ∧ h.turn = first.turn) := by
  unfold mismatched
  rw [Option.any_eq_true]
  simp only [decide_eq_true_eq]

theorem warned_iff (first : Heard) (again : Option Heard) :
    warned first again = true ↔ first.warn = true ∨ ∃ h, again = some h ∧ h.warn = true := by
  unfold warned
  rw [Bool.or_eq_true, Option.any_eq_true]

theorem jumps_iff (c : Sensor) (x : Turned) : c.jumps x = true ↔
    c.last.validity = .valid ∧ c.jumpLimit ≠ 0 ∧ ∃ d, x.delta = some d ∧ (c.jumpLimit : Int) < |d| := by
  rw [jumps_eq, Bool.and_eq_true, Bool.and_eq_true, decide_eq_true_eq, decide_eq_true_eq, Option.any_eq_true, and_assoc]
  simp only [decide_eq_true_eq]

theorem turnInRange_eq_false_iff (c : Sensor) (x : Turned) :
    c.turnInRange x = false ↔ c.turnMode = .extend ∧ inSigned24 x.candidate = false := by
  unfold Sensor.turnInRange
  rw [Bool.or_eq_false_iff, bne_eq_false_iff_eq]

/-- The detail of a SET_POSITION that succeeds: WARNING and RESYNC (Table 34). -/
theorem setPositionDetail_iff (warning : Bool) (c : Sensor) (d : BitVec 32) :
    d = BitVec.ofNat 32 (warningBit warning + 512 * c.resyncs.toNat) ↔
      (warning = true → d = if c.last.validity ≠ .valid then 768 else 256) ∧
      (¬ warning = true → d = if c.last.validity ≠ .valid then 512 else 0) := by
  unfold warningBit Sensor.resyncs
  by_cases hv : c.last.validity = .valid <;> cases warning <;> simp [hv]

end Sys2Proof.Machine

namespace Sys2Proof.Claims

open Sys2Proof.Machine

variable {u u' : State}

/-- The statement's account of a SET_POSITION's reading is the model's treatment of it (R87, R88, Table 34). -/
theorem setPositionTreated_iff {g : Reading} {time : Time} {first : Heard} {again : Option Heard} (h : Says g time first again)
    (target : Int) (made : Nat) (r : Result) :
    SetPositionTreated g.sensor target made time first again u r u' ↔ takeSetPosition g target made u = (u', r) := by
  rw [takeSetPosition_eq h]
  unfold SetPositionTreated
  dsimp only
  have hpair : ∀ (x : State) (q : Result), (r = q ∧ u' = x) ↔ (x, q) = (u', r) := fun x q => by
    rw [Prod.mk.injEq, and_comm, @eq_comm _ u', @eq_comm _ r]
  split
  · exact hpair _ _
  rw [← alarmed_iff, ← mismatched_iff, ← jumps_iff, ← turnInRange_eq_false_iff, ← warned_iff]
  by_cases ha : alarmed first again = true
  · rw [if_pos ha]
    simp only [ha, not_true_eq_false, false_imp_iff, true_imp_iff, and_true]
    exact hpair _ _
  by_cases hm : mismatched first again = true
  · rw [if_neg ha, if_pos hm]
    simp only [ha, hm, not_true_eq_false, not_false_eq_true, Bool.false_eq_true, false_imp_iff, true_imp_iff, and_true, true_and]
    exact hpair _ _
  rw [if_neg ha, if_neg hm]
  generalize hj : (u.sensor g.sensor).jumps _ = jumps
  generalize ht : (u.sensor g.sensor).turnInRange _ = inTurn
  generalize ho : inSigned48 _ = inOffset
  simp only [ha, hm, not_false_eq_true, Bool.false_eq_true, false_imp_iff, true_imp_iff, true_and]
  cases jumps with
  | true =>
    simp only [not_true_eq_false, if_true, false_imp_iff, true_imp_iff, and_true]
    exact hpair _ _
  | false =>
    simp only [Bool.false_eq_true, not_false_eq_true, if_false, false_imp_iff, true_imp_iff, true_and]
    cases inTurn with
    | false =>
      simp only [not_true_eq_false, if_true, false_imp_iff, true_imp_iff, and_true]
      exact hpair _ _
    | true =>
      simp only [Bool.true_eq_false, not_false_eq_true, if_false, false_imp_iff, true_imp_iff, true_and]
      cases inOffset with
      | false =>
        simp only [Bool.false_eq_true, if_true, false_imp_iff, true_imp_iff, and_true]
        exact hpair _ _
      | true =>
        simp only [Bool.true_eq_false, if_false, false_imp_iff, true_imp_iff, true_and]
        rw [← hpair]
        refine and_congr_left fun _ => ⟨fun ⟨d, hr, hd⟩ => ?_, fun hr => ⟨_, hr, ?_⟩⟩
        · rw [hr, (setPositionDetail_iff _ _ d).2 hd]
          rfl
        · exact (setPositionDetail_iff _ _ _).1 rfl

end Sys2Proof.Claims
end

section
set_option Elab.async false
/-! SUPPORT. What the end of an exchange gives the transaction that owns it (R49, R52, R156 to R160), and the decision after it. -/

namespace Sys2Proof.Claims

open Sys2Proof.Machine

variable {s t u v x z : State} {p : PortId} {k j : SlotId} {r : Result}

/-! ### Completing the active transaction (R52) -/

theorem completeActive_concludes (ha : (x.sched p).active = some k) (hc : Concludable k x) :
    Concluded k r (x.setSched p (withoutActive (x.sched p))) (completeActive p r x) ∧
      (completeActive p r x).discarded = x.discarded := by
  obtain ⟨A, hd⟩ := completeSlot_effect r hc
  rw [completeActive_effect ha A rfl]
  exact ⟨A.sched p _, hd⟩

/-- Answering the active transaction leaves the queue ready. -/
theorem QueueReady.concluded (h : QueueReady p s) (hact : (s.slot k).state = .active) (hc : Concludable k s)
    (A : Concluded k r z v) (hslots : z.slots = s.slots) (hcrs : z.crs = s.crs)
    (hq : (z.sched p).queue = (s.sched p).queue) : QueueReady p v := by
  have hnot : ∀ i, (s.slot i).state = .active → i ∉ (s.sched p).queue := fun i hi hm => by
    have hqd := (h.waiting i hm).1
    rw [hi] at hqd
    cases hqd
  have hw : Waiting (s.sched p).queue v := Waiting.concluded (Waiting.of_queue h rfl rfl) A hslots hcrs (hnot k hact)
    fun a ha => hnot a (hc.requester a ha).2.1
  have hqv : (v.sched p).queue = (s.sched p).queue := by rw [A.beside.sched, hq]
  exact ⟨by rw [hqv]; exact hw.distinct, by rw [hqv]; exact hw.waiting⟩

/-! ### The exchange's own result, and what leaves more to come (R49, R156 to R159) -/

/-- The scheduler with its exchange over. -/
def idleSched (ps : Scheduler) : Scheduler := { ps with owner := none }

/-- From `s` to `x`, a treatment of a sensor leaves the requests and the port's host work. -/
structure Treats (s x : State) : Prop where
  beside : BesideRequests s x
  work : SameHostWork s x

theorem sameHostWork_of_scheds (h : x.scheds = s.scheds) : SameHostWork s x := by
  have e : ∀ p, x.sched p = s.sched p := fun p => by unfold State.sched; rw [h]
  exact ⟨fun p => by rw [e], fun p => by rw [e], fun p => by rw [e], fun p => by rw [e], fun p => by rw [e],
    fun p => by rw [e]⟩

theorem Treats.refl (s : State) : Treats s s := ⟨.refl s, sameHostWork_of_scheds rfl⟩

theorem treats_setSensor (s : State) (n : SensorId) (c : Sensor) : Treats s (s.setSensor n c) :=
  ⟨setSensor_besideRequests s n c, sameHostWork_of_scheds rfl⟩

theorem treats_rejectReading (n : SensorId) (time : Time) (s : State) : Treats s (rejectReading n time s) :=
  ⟨rejectReading_besideRequests n time s, (rejectReading_quiet n time s).sameHostWork⟩

theorem treats_takeReading (g : Reading) (s : State) : Treats s (takeReading g s) :=
  ⟨takeReading_besideRequests g s, (takeReading_quiet g s).sameHostWork⟩

theorem treats_takeSetPosition (g : Reading) (target : Int) (made : Nat) (s : State) :
    Treats s (takeSetPosition g target made s).1 := by
  unfold takeSetPosition
  dsimp only
  split
  · exact .refl s
  split
  · exact .refl s
  · exact treats_rejectReading _ _ _
  split
  · exact treats_rejectReading _ _ _
  split
  · exact .refl s
  split
  · exact .refl s
  · exact treats_setSensor _ _ _

/-- A SET_POSITION's treatment stands beside a change of a scheduler that commutes with dropping a round entry. -/
theorem takeSetPosition_setSched (g : Reading) (target : Int) (made : Nat) (s : State) (p : PortId)
    (h : Scheduler → Scheduler) (hh : ∀ ps : Scheduler, h (ps.dropEntry g.sensor) = (h ps).dropEntry g.sensor) :
    takeSetPosition g target made (s.setSched p (h (s.sched p))) =
      ((takeSetPosition g target made s).1.setSched p (h ((takeSetPosition g target made s).1.sched p)),
        (takeSetPosition g target made s).2) := by
  have hr := (rejectReading_besidePorts g.sensor g.sampleTime).sched s p h hh
  unfold takeSetPosition
  dsimp only [State.sensor_setSched]
  split
  · rfl
  split
  · rfl
  · exact Prod.ext hr rfl
  split
  · exact Prod.ext hr rfl
  split
  · rfl
  split
  · rfl
  · rfl

/-- Beside a change of a link too. -/
theorem takeSetPosition_setLink (g : Reading) (target : Int) (made : Nat) (s : State) (p : PortId) (le : LinkEngine) :
    takeSetPosition g target made (s.setLink p le) =
      ((takeSetPosition g target made s).1.setLink p le, (takeSetPosition g target made s).2) := by
  have hr := (rejectReading_besidePorts g.sensor g.sampleTime).link s p le
  unfold takeSetPosition
  dsimp only [State.sensor_setLink]
  split
  · rfl
  split
  · rfl
  · exact Prod.ext hr rfl
  split
  · exact Prod.ext hr rfl
  split
  · rfl
  split
  · rfl
  · rfl

theorem withoutActive_dropEntry (n : SensorId) (ps : Scheduler) :
    withoutActive (ps.dropEntry n) = (withoutActive ps).dropEntry n := by
  unfold withoutActive Scheduler.dropEntry
  dsimp only
  split <;> rfl

/-- A transaction's exchange is over in `s`, and `x` completes it with `r`: a treatment of a sensor, then the completion, which
leaves `z` but for the answer. -/
structure CompletesWith (p : PortId) (k : SlotId) (r : Result) (s x z : State) : Prop where
  treated : Treats s x
  active : (x.sched p).active = some k
  left : x.setSched p (withoutActive (x.sched p)) = z

/-- The state in which the exchange is over, before the transaction completes. -/
def idled (p : PortId) (s : State) : State := s.setSched p (idleSched (s.sched p))

theorem idled_sched (p : PortId) (s : State) : (idled p s).sched p = idleSched (s.sched p) := State.sched_setSched_same _ _ _

theorem transactionOutcome_ok {le : LinkEngine} {a : Attempt} {warn alarm stopping : Bool} {payload : WirePayload}
    (ha : (s.sched p).active = some k) :
    transactionOutcome p stopping (outcomeOf le a (.ok warn alarm payload)) s =
      match (s.slot k).body, reducePayload (le.identity[a.address]).word payload with
      | .regRead first _, .register v => registerBoundary p k first warn alarm v stopping (idled p s)
      | .regWrite first _ _, .register v =>
        registerBoundary p k first warn alarm v stopping (idled p s)
      | .readPosition, pl => readPositionBoundary p k warn alarm pl a.requestTime (idled p s)
      | .setPosition target, _ => setPositionBoundary p k target (outcomeOf le a (.ok warn alarm payload)) stopping
          (idled p s)
      | .slaveReset, _ => resetBoundary p k warn alarm (idled p s)
      | _, _ => idled p s := by
  unfold transactionOutcome outcomeOf idled idleSched
  dsimp only
  rw [State.sched_setSched_same, ha] <;> rfl

theorem treats_idled (h : Treats (idled p s) x) (ha : (s.sched p).active = some k) :
    CompletesWith p k r (idled p s) x (x.setSched p (withoutActive (x.sched p))) :=
  ⟨h, by rw [h.work.active, idled_sched]; exact ha, rfl⟩

theorem completesWith_idled (ha : (s.sched p).active = some k) :
    CompletesWith p k r (idled p s) (idled p s) (s.setSched p (withoutActive (idleSched (s.sched p)))) := by
  have h := treats_idled (r := r) (.refl (idled p s)) ha
  rw [idled_sched] at h
  unfold idled at h ⊢
  rw [State.setSched_setSched] at h
  exact h

/-- The own result of a register exchange (R156). -/
theorem registersAnswer_outcome {first : Nat} {warn alarm stopping : Bool} {value : BitVec 16}
    (h : RegistersAnswer first (s.sched p) warn alarm value r) :
    registerBoundary p k first warn alarm value stopping (idled p s) = completeActive p r (idled p s) := by
  unfold registerBoundary
  dsimp only
  rw [idled_sched]
  obtain ⟨rfl, rfl⟩ | ⟨rfl, hlast, rfl⟩ := h
  · exact if_pos rfl
  · rw [if_neg (by decide)]
    refine (if_pos hlast).trans ?_
    have hw : warningBit ((s.sched p).progress.warning || warn) =
        if (s.sched p).progress.warning = true ∨ warn = true then 256 else 0 := by
      unfold warningBit
      cases (s.sched p).progress.warning <;> cases warn <;> rfl
    unfold idleSched
    dsimp only
    rw [hw]

/-- The reading of a SET_POSITION whose last exchange ended with outcome `o` (R159). -/
def setPositionReading (n : SensorId) (position : Option ExchangeOutcome) (o : ExchangeOutcome) : Reading :=
  { sensor := n, position := position.getD o, repeated := position.map fun _ => o
    sampleTime := (position.getD o).requestTime, late := false }

theorem setPositionBoundary_last {target : Int} {o : ExchangeOutcome} {stopping : Bool}
    (h : (s.sched p).progress.planned ≤ (s.sched p).exchangesDone + 1) :
    setPositionBoundary p k target o stopping s =
      let g := takeSetPosition (setPositionReading (s.slot k).sensor (s.sched p).progress.position o) target
        ((s.sched p).exchangesDone + 1) s
      completeActive p g.2 g.1 := by
  unfold setPositionBoundary
  dsimp only
  rw [if_pos h]
  rfl

/-- The own result of a SET_POSITION (R159, Table 34). -/
theorem setPositionTreated_outcome {target : Int} {o : ExchangeOutcome} {stopping : Bool} {time : Time} {first : Heard}
    {again : Option Heard} (ha : (s.sched p).active = some k)
    (hlast : (s.sched p).progress.planned ≤ (s.sched p).exchangesDone + 1)
    (hsays : Says (setPositionReading (s.slot k).sensor (s.sched p).progress.position o) time first again)
    (h : SetPositionTreated (s.slot k).sensor target ((s.sched p).exchangesDone + 1) time first again
      (s.setSched p (withoutActive (idleSched (s.sched p)))) r z) :
    ∃ x, setPositionBoundary p k target o stopping (idled p s) = completeActive p r x ∧
      CompletesWith p k r (idled p s) x z := by
  have hu : s.setSched p (withoutActive (idleSched (s.sched p))) =
      (idled p s).setSched p (withoutActive ((idled p s).sched p)) := by
    rw [idled_sched]
    unfold idled
    rw [State.setSched_setSched]
  have htake := (setPositionTreated_iff hsays target ((s.sched p).exchangesDone + 1) r).1 h
  rw [hu, takeSetPosition_setSched _ _ _ _ _ _ fun ps => withoutActive_dropEntry _ ps] at htake
  obtain ⟨hz, hr⟩ := Prod.mk.inj htake
  have hboundary : setPositionBoundary p k target o stopping (idled p s) = _ :=
    setPositionBoundary_last (by rw [idled_sched]; exact hlast)
  rw [idled_sched] at hboundary
  refine ⟨_, ?_, hz ▸ treats_idled (treats_takeSetPosition _ target ((s.sched p).exchangesDone + 1) (idled p s)) ha⟩
  rw [hboundary, ← hr]
  rfl

theorem slaveWasReset_eq (n : SensorId) (s : State) : slaveWasReset n s = s.setSensor n (staleContext (s.sensor n)) := by
  unfold slaveWasReset staleContext
  dsimp only
  split
  · exact (State.setSensor_self s n).symm
  · rfl

/-- Its exchange over, the transaction completes with its own result (R49, R156 to R159). -/
theorem ownResult_outcome {le : LinkEngine} {a : Attempt} {e : AttemptEnd} {stopping : Bool}
    (ha : (s.sched p).active = some k)
    (h : OwnResult k a (le.identity[a.address]).word (s.sched p) e (s.setSched p (withoutActive (idleSched (s.sched p)))) r z) :
    ∃ x, transactionOutcome p stopping (outcomeOf le a e) s = completeActive p r x ∧ CompletesWith p k r (idled p s) x z := by
  unfold OwnResult at h
  dsimp only at h
  rw [State.slot_setSched] at h
  split at h
  · next first count warn alarm value hb =>
    obtain ⟨hr, rfl⟩ := h
    rw [transactionOutcome_ok ha, hb]
    exact ⟨_, registersAnswer_outcome hr, completesWith_idled ha⟩
  · next first count values warn alarm value hb =>
    obtain ⟨hr, rfl⟩ := h
    rw [transactionOutcome_ok ha, hb]
    exact ⟨_, registersAnswer_outcome hr, completesWith_idled ha⟩
  · next warn alarm angle turn hb =>
    obtain ⟨rfl, rfl⟩ := h
    rw [transactionOutcome_ok ha, hb]
    exact ⟨_, rfl, completesWith_idled ha⟩
  · next target warn alarm angle turn hb =>
    rw [transactionOutcome_ok ha, hb]
    obtain ⟨hlast, ⟨hnone, ht⟩ | ⟨o, g, hsome, ho, ht⟩⟩ := h
    · exact setPositionTreated_outcome ha hlast (by rw [hnone]; exact ⟨rfl, rfl, rfl⟩) ht
    · exact setPositionTreated_outcome ha hlast (by rw [hsome]; exact ⟨rfl, ho, rfl⟩) ht
  · next warn alarm hb =>
    rw [transactionOutcome_ok ha, hb]
    change ∃ x, resetBoundary p k warn alarm (idled p s) = _ ∧ _
    unfold resetBoundary
    rw [slaveWasReset_eq]
    split at h
    · next hal =>
      obtain ⟨rfl, rfl⟩ := h
      exact ⟨_, if_pos hal, completesWith_idled ha⟩
    · next hal =>
      obtain ⟨rfl, rfl⟩ := h
      have hr : Result.detailed .success (warningBit warn) =
          { status := .success, detail := if warn = true then 256 else 0, data := 0 } := by cases warn <;> rfl
      have hz := treats_idled (r := { status := .success, detail := if warn = true then 256 else 0, data := 0 })
        (treats_setSensor (idled p s) (s.slot k).sensor (staleContext (s.sensor (s.slot k).sensor))) ha
      rw [State.sched_setSensor, idled_sched] at hz
      refine ⟨_, (if_neg hal).trans (congrArg (completeActive p · _) hr), ?_⟩
      rw [State.sensor_setSched, ← State.setSched_setSched s p (idleSched (s.sched p))]
      exact hz
  · exact h.elim

/-- A register exchange with further ones to come is gathered (R156). -/
theorem registerBoundary_more {first : Nat} {warn stopping : Bool} {value : BitVec 16}
    (h : (s.sched p).exchangesDone + 1 < (s.sched p).progress.planned) :
    registerBoundary p k first warn false value stopping s = continueTransaction p k
      { (s.sched p).progress with
        values := (s.sched p).progress.values ++ [value], warning := (s.sched p).progress.warning || warn } stopping s := by
  unfold registerBoundary
  dsimp only
  rw [if_neg (by decide)]
  exact if_neg (Nat.not_le.2 h)

/-- Its exchange over, the transaction has more to come (R49, R156, R159). -/
theorem moreToCome_outcome {le : LinkEngine} {a : Attempt} {e : AttemptEnd} {stopping : Bool} {values : List (BitVec 16)}
    (ha : (s.sched p).active = some k) (hslot : u.slot k = s.slot k) (h : MoreToCome k (s.sched p) e u values) :
    transactionOutcome p stopping (outcomeOf le a e) s = continueTransaction p k
        (progressAfter a (le.identity[a.address]).word (s.sched p).progress e) stopping (idled p s) ∧
      ∀ st done, cutShort st done (s.slot k).body values = cutShort st done (s.slot k).body
        (progressAfter a (le.identity[a.address]).word (s.sched p).progress e).values := by
  obtain ⟨hmore, h⟩ := h
  rw [hslot] at h
  have hidled : (idled p s).sched p = idleSched (s.sched p) := idled_sched p s
  split at h
  · next hb =>
    subst h
    rw [transactionOutcome_ok ha, hb]
    refine ⟨(registerBoundary_more (by rw [hidled]; exact hmore)).trans ?_, fun _ _ => rfl⟩
    rw [hidled]
    rfl
  · next hb =>
    subst h
    rw [transactionOutcome_ok ha, hb]
    refine ⟨(registerBoundary_more (by rw [hidled]; exact hmore)).trans ?_, fun _ _ => rfl⟩
    rw [hidled]
    rfl
  · next hb =>
    subst h
    rw [transactionOutcome_ok ha, hb]
    refine ⟨?_, fun _ _ => rfl⟩
    change setPositionBoundary p k _ _ stopping (idled p s) = _
    unfold setPositionBoundary
    dsimp only
    rw [hidled]
    exact if_neg (Nat.not_le.2 hmore)
  · exact h.elim

/-- What cutting an idle transaction short leaves, with other progress gathered (R162). -/
theorem cutActive_gathered {st : Status} {done : Nat} {g : TransactionProgress} (ha : (s.sched p).active = some k)
    (hc : Concludable k s) :
    Concluded k (cutShort st done (s.slot k).body g.values) (s.setSched p (withoutActive (idleSched (s.sched p))))
        (cutActive p st done ((idled p s).setSched p { idleSched (s.sched p) with progress := g })) ∧
      (cutActive p st done ((idled p s).setSched p { idleSched (s.sched p) with progress := g })).discarded = s.discarded := by
  have h := cutActive_concludes (s := (idled p s).setSched p { idleSched (s.sched p) with progress := g }) (p := p)
    (st := st) (done := done) (j := k) (by rw [State.sched_setSched_same]; exact ha)
    (hc.of_kept rfl (fun _ _ => rfl) fun _ => rfl)
  rw [State.sched_setSched_same] at h
  unfold idled at h ⊢
  rw [State.setSched_setSched, State.setSched_setSched] at h
  rw [State.setSched_setSched]
  exact h

/-- The ways in which a transaction with more to come goes on after an exchange (R32, R49). -/
theorem continueTransaction_stopping {g : TransactionProgress} : continueTransaction p k g true (idled p s) =
    cutActive p .portStopped ((s.sched p).exchangesDone + 1)
      ((idled p s).setSched p { idleSched (s.sched p) with progress := g }) := by
  unfold continueTransaction
  dsimp only
  rw [idled_sched]
  exact if_pos rfl

theorem continueTransaction_abort {g : TransactionProgress} (h : (s.slot k).abortPending = true) :
    continueTransaction p k g false (idled p s) = cutActive p .aborted ((s.sched p).exchangesDone + 1)
      ((idled p s).setSched p { idleSched (s.sched p) with progress := g }) := by
  unfold continueTransaction
  dsimp only
  rw [idled_sched, if_neg (by decide)]
  exact if_pos h

theorem continueTransaction_goesOn {g : TransactionProgress} (h : (s.slot k).abortPending = false) :
    continueTransaction p k g false (idled p s) =
      s.setSched p { idleSched (s.sched p) with exchangesDone := (s.sched p).exchangesDone + 1, progress := g } := by
  unfold continueTransaction
  dsimp only
  rw [idled_sched, if_neg (by decide), if_neg (by rw [show (idled p s).slot k = s.slot k from rfl, h]; decide)]
  unfold idled
  rw [State.setSched_setSched]
  rfl

/-- What completes the transaction concludes it. -/
theorem CompletesWith.concludes {x z : State} (X : CompletesWith p k r (idled p s) x z) (hc : Concludable k s) :
    Concluded k r z (completeActive p r x) ∧ (completeActive p r x).discarded = s.discarded := by
  have hslot : ∀ i, x.slot i = s.slot i := fun i => by unfold State.slot; rw [X.treated.beside.slots]; rfl
  have hcr : ∀ c, x.cr c = s.cr c := fun c => by unfold State.cr; rw [X.treated.beside.crs]; rfl
  obtain ⟨A, hd⟩ := completeActive_concludes (r := r) X.active
    (hc.of_kept (hslot k) (fun i _ => hslot i) fun c => by rw [hcr])
  rw [X.left] at A
  exact ⟨A, hd.trans X.treated.beside.discarded⟩

theorem CompletesWith.slots {x z : State} (X : CompletesWith p k r (idled p s) x z) : z.slots = s.slots := by
  rw [← X.left]
  exact X.treated.beside.slots

theorem CompletesWith.crs {x z : State} (X : CompletesWith p k r (idled p s) x z) : z.crs = s.crs := by
  rw [← X.left]
  exact X.treated.beside.crs

theorem CompletesWith.queue {x z : State} (X : CompletesWith p k r (idled p s) x z) :
    (z.sched p).queue = (s.sched p).queue := by
  rw [← X.left, State.sched_setSched_same]
  exact (X.treated.work.queue p).trans (by rw [idled_sched]; rfl)

theorem CompletesWith.round {x z : State} (X : CompletesWith p k r (idled p s) x z) :
    (z.sched p).round = (s.sched p).round := by
  rw [← X.left, State.sched_setSched_same]
  exact (X.treated.work.round p).trans (by rw [idled_sched]; rfl)

theorem CompletesWith.none_active {x z : State} (X : CompletesWith p k r (idled p s) x z) : (z.sched p).active = none := by
  rw [← X.left, State.sched_setSched_same]
  rfl

/-! ### The end of a transaction's exchange in RUNNING -/

theorem Carried.owns {a : Attempt} {st : LinkState} (h : Carried k a st s) : Owns k s := ⟨h.active, h.own, h.owner⟩

/-- The state in which an exchange in RUNNING is over, before it is delivered. -/
def lineIdle (p : PortId) (failures : Nat) (s : State) : State := s.setLink p (exchangeEnded (s.link p) failures s.time)

theorem exchangeOver_eq (k : SlotId) (s : State) : exchangeOver k s =
    (lineIdle (portOf (s.slot k).sensor) 0 s).setSched (portOf (s.slot k).sensor)
      (withoutActive (idleSched (s.sched (portOf (s.slot k).sensor)))) := rfl

/-- A transaction's exchange that ends OK is delivered to it, and the scheduler decides (R24, R47, R49). -/
theorem Carried.exec_ok {a : Attempt} {warn alarm : Bool} {payload : WirePayload} {c : Instr} (h : Carried k a .running s)
    (hE : EndsExchange k a (.ok warn alarm payload) c s) :
    exec c s = .next (settle (makeDecision (portOf (s.slot k).sensor) (transactionOutcome (portOf (s.slot k).sensor) false
      (outcomeOf (s.link (portOf (s.slot k).sensor)) a (.ok warn alarm payload))
      (lineIdle (portOf (s.slot k).sensor) 0 s)))) := by
  rw [(hE.exec h.owns).1, endAttempt_running_ok h.attempt h.running]
  unfold deliverOutcome
  rw [State.sched_setLink, h.owner]
  rfl

/-- What follows an answer: the decision (R47, R52). -/
theorem decided (hv : (v.sched p).active = none → QueueReady p v) (hd : v.discarded = []) :
    settle (makeDecision p v) = makeDecision p v ∧ Decides p v (makeDecision p v) := by
  obtain ⟨D, hd'⟩ := makeDecision_effect p v hv
  exact ⟨settle_of_none_discarded (hd'.trans hd), D⟩

theorem okExchangeEnds (P : Body → Prop) : OkExchangeEnds P := by
  intro k a e c s hC hcl hE _ p ps hq
  cases e with
  | fault f =>
    refine ⟨fun r u h => ?_, fun values h => ?_⟩
    · unfold OwnResult at h
      cases hb : (exchangeOver k s |>.slot k).body <;> rw [hb] at h <;> exact h.elim
    · have hm := h.2
      cases hb : (s.slot k).body <;> rw [hb] at hm <;> exact hm.elim
  | ok warn alarm payload =>
    have hrun := hC.exec_ok hE
    have ha : ((lineIdle p 0 s).sched p).active = some k := hC.own
    have hcl' : Concludable k (lineIdle p 0 s) := hcl.of_kept rfl (fun _ _ => rfl) fun _ => rfl
    have hq' : QueueReady p (lineIdle p 0 s) := ⟨hq.distinct, hq.waiting⟩
    refine ⟨fun r u h => ?_, fun values h => ⟨fun hab => ?_, fun hab => ?_⟩⟩
    · obtain ⟨x, hx, X⟩ := ownResult_outcome (s := lineIdle p 0 s) (le := s.link p) (stopping := false) ha h
      obtain ⟨A, hd⟩ := X.concludes hcl'
      have hv := QueueReady.concluded hq' hC.active hcl' A X.slots X.crs X.queue
      obtain ⟨hset, D⟩ := decided (fun _ => hv) (hd.trans hC.settled)
      rw [hx, hset] at hrun
      exact ⟨_, hrun, _, A, D⟩
    · obtain ⟨hx, hvalues⟩ := moreToCome_outcome (s := lineIdle p 0 s) (le := s.link p) (stopping := false) ha rfl h
      obtain ⟨A, hd⟩ := cutActive_gathered (s := lineIdle p 0 s) (st := .aborted) (done := ps.exchangesDone + 1)
        (g := progressAfter a ((s.link p).identity[a.address]).word ps.progress (.ok warn alarm payload)) ha hcl'
      have hv := QueueReady.concluded hq' hC.active hcl' A rfl rfl (by rw [State.sched_setSched_same]; rfl)
      obtain ⟨hset, D⟩ := decided (fun _ => hv) (hd.trans hC.settled)
      rw [hx, continueTransaction_abort (s := lineIdle p 0 s) hab] at hrun
      refine ⟨_, hrun.trans (congrArg _ hset), _, ?_, D⟩
      rw [show cutShort .aborted (ps.exchangesDone + 1) (s.slot k).body values = _ from hvalues _ _]
      exact A
    · obtain ⟨hx, hvalues⟩ := moreToCome_outcome (s := lineIdle p 0 s) (le := s.link p) (stopping := false) ha rfl h
      rw [hx, continueTransaction_goesOn (s := lineIdle p 0 s) hab] at hrun
      have hcounted : (exchangeCounted k a (.ok warn alarm payload) s).sched p = _ := State.sched_setSched_same _ _ _
      obtain ⟨hset, D⟩ := decided (p := p) (v := exchangeCounted k a (.ok warn alarm payload) s)
        (fun hn => by rw [hcounted, show ps.active = some k from ha] at hn; cases hn) hC.settled
      exact ⟨_, hrun.trans (congrArg _ hset), D⟩

end Sys2Proof.Claims
end

section
set_option Elab.async false
/-! SUPPORT. The five I/O transactions at the end of an exchange that ended OK: on a port with no other work, from what they do
whatever stands on it (R154 to R159). -/

namespace Sys2Proof.Claims

open Sys2Proof.Machine

variable {s t u v : State} {p : PortId} {k : SlotId} {r : Result} {a : Attempt} {c : Instr}

/-! ### A port with nothing else to do -/

/-- With no round, no active transaction and no reference there is nothing to decide (R47). -/
theorem Decides.of_idle (h : Decides p v t) (hround : (v.sched p).round = .none) (hact : (v.sched p).active = none)
    (hqueue : (v.sched p).queue = []) : t = v := by
  unfold Decides at h
  dsimp only at h
  obtain ⟨hno, hmay⟩ := h
  by_cases hm : MayDecide p v
  · have hw := ((hmay hm).2.2 (.inl hround)).2 hact
    rw [hqueue, hround, if_neg (by decide)] at hw
    cases hw
    rfl
  · exact hno hm

/-- The active transaction goes on where no round waits (R47, R49). -/
theorem Decides.of_active {x : Attempt} (h : Decides p v t) (hm : MayDecide p v) (hround : (v.sched p).round = .none)
    (hact : (v.sched p).active = some k) (hx : IsExchange (v.slot k) (v.sched p).exchangesDone x) :
    t = offered p .transaction x v := by
  unfold Decides at h
  dsimp only at h
  have hw := ((h.2 hm).2.2 (.inl hround)).1 k hact x hx
  rwa [hround, if_neg (by decide)] at hw

theorem Replies.of_idle (h : Completes c s fun t => ∃ v, Concluded k r u v ∧ Decides p v t)
    (hround : (u.sched p).round = .none) (hact : (u.sched p).active = none) (hqueue : (u.sched p).queue = []) :
    Replies c s k r u := by
  obtain ⟨t, hrun, v, A, D⟩ := h
  have hsched := A.beside.sched p
  rw [D.of_idle (by rw [hsched]; exact hround) (by rw [hsched]; exact hact) (by rw [hsched]; exact hqueue)] at hrun
  exact ⟨v, hrun, A⟩

theorem OnTheLine.queueReady (h : OnTheLine k a s) : QueueReady (portOf (s.slot k).sensor) s :=
  ⟨by rw [h.empty]; exact List.nodup_nil, by rw [h.empty]; exact fun i hi => absurd hi List.not_mem_nil⟩

theorem exchangeOver_sched (k : SlotId) (s : State) : (exchangeOver k s).sched (portOf (s.slot k).sensor) =
    withoutActive (idleSched (s.sched (portOf (s.slot k).sensor))) := State.sched_setSched_same _ _ _

/-- On a port with nothing else to do, the exchange that completes its transaction is all that happens. -/
theorem OnTheLine.replies {e : AttemptEnd} (h : OnTheLine k a s) (hcl : Concludable k s) (hE : EndsExchange k a e c s)
    (hO : OwnResult k a ((s.link (portOf (s.slot k).sensor)).identity[a.address]).word (s.sched (portOf (s.slot k).sensor)) e
      (exchangeOver k s) r u) : Replies c s k r u := by
  have hrun := (okExchangeEnds (fun _ => True) k a e c s h.toCarried hcl hE trivial h.queueReady).1 r u hO
  obtain ⟨x, -, X⟩ := ownResult_outcome (s := lineIdle (portOf (s.slot k).sensor) 0 s) (le := s.link (portOf (s.slot k).sensor))
    (stopping := false) h.own hO
  exact Replies.of_idle hrun (X.round.trans h.noRound) X.none_active (X.queue.trans h.empty)

/-- On a port with nothing else to do, an abort that is pending ends the transaction at the boundary (R49). -/
theorem OnTheLine.aborted {e : AttemptEnd} {values : List (BitVec 16)} (h : OnTheLine k a s) (hcl : Concludable k s)
    (hE : EndsExchange k a e c s) (hM : MoreToCome k (schedOf k s) e s values) (hab : (s.slot k).abortPending = true) :
    Replies c s k (cutShort .aborted ((schedOf k s).exchangesDone + 1) (s.slot k).body values) (exchangeOver k s) := by
  have hrun := ((okExchangeEnds (fun _ => True) k a e c s h.toCarried hcl hE trivial h.queueReady).2 values hM).1 hab
  have hu := exchangeOver_sched k s
  exact Replies.of_idle hrun (by rw [hu]; exact h.noRound) (by rw [hu]; rfl) (by rw [hu]; exact h.empty)

/-- On a port with nothing else to do, the next exchange of the transaction is offered (R49). -/
theorem OnTheLine.goesOn {e : AttemptEnd} {values : List (BitVec 16)} {next : Attempt} (h : OnTheLine k a s)
    (hcl : Concludable k s) (hE : EndsExchange k a e c s) (hM : MoreToCome k (schedOf k s) e s values)
    (hab : (s.slot k).abortPending = false) (hx : IsExchange (s.slot k) ((schedOf k s).exchangesDone + 1) next) :
    exec c s = .next (offered (portOf (s.slot k).sensor) .transaction next (exchangeCounted k a e s)) := by
  obtain ⟨t, hrun, D⟩ :=
    ((okExchangeEnds (fun _ => True) k a e c s h.toCarried hcl hE trivial h.queueReady).2 values hM).2 hab
  have hsched : (exchangeCounted k a e s).sched (portOf (s.slot k).sensor) = _ := State.sched_setSched_same _ _ _
  have hlink : (exchangeCounted k a e s).link (portOf (s.slot k).sensor) = _ := State.link_setLink_same s _ _
  rw [hrun, D.of_active (k := k) ⟨by rw [hlink]; exact h.running, by rw [hlink], by rw [hsched]⟩
    (by rw [hsched]; exact h.noRound) (by rw [hsched]; exact h.own) (by rw [hsched]; exact hx)]

/-- What the offer of the next exchange makes of the port. -/
theorem offered_exchangeCounted {e : AttemptEnd} {next : Attempt} (h : OnTheLine k a s) :
    offered (portOf (s.slot k).sensor) .transaction next (exchangeCounted k a e s) =
      (s.setLink (portOf (s.slot k).sensor) { s.link (portOf (s.slot k).sensor) with
        attempt := some next, failures := 0, lastEnd := some s.time }).setSched (portOf (s.slot k).sensor)
        { schedOf k s with
          exchangesDone := (schedOf k s).exchangesDone + 1
          progress := progressAfter a ((s.link (portOf (s.slot k).sensor)).identity[a.address]).word
            (schedOf k s).progress e } := by
  have howner : (schedOf k s).owner = some .transaction := h.owner
  unfold offered exchangeCounted
  rw [State.link_setSched, State.link_setLink_same, State.setLink_setSched, State.setLink_setLink,
    State.sched_setSched, if_pos rfl, State.setSched_setSched]
  unfold schedOf at howner ⊢
  rw [← howner]

/-! ### Register transactions (R156) -/

theorem LastExchange.endsExchange {warn alarm : Bool} {payload : WirePayload} (h : LastExchange k a s)
    (hrow : transactionCommand k (.ok warn alarm payload) (s.slot k).body = some c)
    (hfits : payloadFits a.kind payload = true) : EndsExchange k a (.ok warn alarm payload) c s :=
  .inr ⟨h.attempt, hrow, h.counted, hfits⟩

theorem registerBody_cases {write : Bool} {first : Nat} {b : Body} (h : RegisterBody write first b) :
    (write = false ∧ ∃ count, b = .regRead first count) ∨ (write = true ∧ ∃ count values, b = .regWrite first count values) := by
  cases b with
  | regRead f count => obtain ⟨rfl, rfl⟩ := h; exact .inl ⟨rfl, count, rfl⟩
  | regWrite f count values => obtain ⟨rfl, rfl⟩ := h; exact .inr ⟨rfl, count, values, rfl⟩
  | _ => exact h.elim

theorem LastExchange.register {write : Bool} {first : Nat} {warn alarm : Bool} {value : BitVec 16} (h : LastExchange k a s)
    (hb : RegisterBody write first (s.slot k).body) (hkind : a.kind = registerKind write) :
    EndsExchange k a (.ok warn alarm (.register value)) (registerCommand write k (.ok warn alarm (.register value))) s := by
  refine h.endsExchange ?_ ?_
  · obtain ⟨rfl, count, hbody⟩ | ⟨rfl, count, values, hbody⟩ := registerBody_cases hb <;> rw [hbody] <;> rfl
  · rw [hkind]
    cases write <;> rfl

theorem ownResult_register {write : Bool} {first : Nat} {warn alarm : Bool} {value : BitVec 16} {word : BitVec 32}
    {ps : Scheduler} (hb : RegisterBody write first (u.slot k).body) (h : RegistersAnswer first ps warn alarm value r) :
    OwnResult k a word ps (.ok warn alarm (.register value)) u r u := by
  unfold OwnResult
  obtain ⟨-, count, hbody⟩ | ⟨-, count, values, hbody⟩ := registerBody_cases hb <;> rw [hbody] <;> exact ⟨h, rfl⟩

theorem moreToCome_register {write : Bool} {first : Nat} {warn : Bool} {value : BitVec 16} {ps : Scheduler}
    (hb : RegisterBody write first (u.slot k).body) (h : ps.exchangesDone + 1 < ps.progress.planned) :
    MoreToCome k ps (.ok warn false (.register value)) u (ps.progress.values ++ [value]) := by
  refine ⟨h, ?_⟩
  obtain ⟨-, count, hbody⟩ | ⟨-, count, values, hbody⟩ := registerBody_cases hb <;> rw [hbody]

theorem cutShort_register {write : Bool} {first done : Nat} {st : Status} {values : List (BitVec 16)} {b : Body}
    (hb : RegisterBody write first b) :
    cutShort st done b values = { status := st, detail := BitVec.ofNat 32 done, data := registerData values } := by
  obtain ⟨-, count, rfl⟩ | ⟨-, count, values, rfl⟩ := registerBody_cases hb <;> rfl

theorem registerTransactionAnswers : RegisterTransactionAnswers := by
  intro write k a first warn value s h hb hkind ps
  exact ⟨fun hlast => h.replies h.concludable (h.register hb hkind) (ownResult_register hb (.inr ⟨rfl, hlast, rfl⟩)),
    h.replies h.concludable (h.register hb hkind) (ownResult_register hb (.inl ⟨rfl, rfl⟩))⟩

theorem registerTransactionGoesOn : RegisterTransactionGoesOn := by
  intro write k a first warn value s h hb hkind p ps progress command hmore
  have hM : MoreToCome k (schedOf k s) (.ok warn false (.register value)) s _ := moreToCome_register hb hmore
  refine ⟨fun hab => ?_, fun next hab hx => ?_⟩
  · have hrun := h.aborted h.concludable (h.register hb hkind) hM hab
    rwa [cutShort_register hb] at hrun
  · rw [h.goesOn h.concludable (h.register hb hkind) hM hab hx, offered_exchangeCounted h.toOnTheLine]
    rfl

/-- Settles O34, by its three parts. -/
theorem registerTransactionsRun : Obligations.RegisterTransactionsRun :=
  ⟨registerTransactionAnswers, registerTransactionGoesOn, okExchangeEnds _⟩

/-! ### READ_POSITION (R158) and SLAVE_RESET (R157) -/

/-- Settles O36: the answer on a port with nothing else to do, and in company. -/
theorem readPositionAnswers : Obligations.ReadPositionAnswers := by
  refine ⟨fun k a warn alarm angle turn s h hb hkind => ?_, okExchangeEnds _⟩
  intro word
  refine h.replies h.concludable (h.endsExchange (by rw [hb]; rfl) (by rw [hkind]; rfl)) ?_
  unfold OwnResult
  rw [show ((exchangeOver k s).slot k).body = .readPosition from hb]
  exact ⟨rfl, rfl⟩

/-- Settles O38: the answer on a port with nothing else to do, and in company. -/
theorem slaveResetMarksStale : Obligations.SlaveResetMarksStale := by
  refine ⟨fun k a warn s h hb hkind => ?_, okExchangeEnds _⟩
  have hE : ∀ alarm, EndsExchange k a (.ok warn alarm .empty) (.slaveReset k (.ok warn alarm .empty)) s := fun alarm =>
    h.endsExchange (by rw [hb]; rfl) (by rw [hkind]; rfl)
  refine ⟨h.replies h.concludable (hE false) ?_, h.replies h.concludable (hE true) ?_⟩
  · unfold OwnResult
    rw [show ((exchangeOver k s).slot k).body = .slaveReset from hb]
    exact ⟨rfl, rfl⟩
  · unfold OwnResult
    rw [show ((exchangeOver k s).slot k).body = .slaveReset from hb]
    exact ⟨rfl, rfl⟩

/-! ### SET_POSITION (R159) -/

/-- A reading whose frames say what they are given. -/
def heardReading (n : SensorId) (time : Time) (first : Heard) (again : Option Heard) : Reading :=
  let outcome (g : Heard) : ExchangeOutcome :=
    { result := .ok g.warn g.alarm (.reading g.angle g.turn), attempts := 0, address := 0, kind := .position, requestTime := time }
  { sensor := n, position := outcome first, repeated := again.map outcome, sampleTime := time, late := false }

theorem heardReading_says (n : SensorId) (time : Time) (first : Heard) (again : Option Heard) :
    Says (heardReading n time first again) time first again :=
  ⟨rfl, rfl, by cases again <;> rfl⟩

theorem setPositionTreatmentIsOne : SetPositionTreatmentIsOne := by
  intro n target made time first again u
  have hiff : ∀ r u', SetPositionTreated n target made time first again u r u' ↔ _ := fun r u' =>
    setPositionTreated_iff (heardReading_says n time first again) target made r
  refine ⟨_, _, (hiff _ _).2 rfl, fun q v hq => ?_⟩
  have htake := (hiff q v).1 hq
  exact ⟨(congrArg Prod.snd htake).symm, (congrArg Prod.fst htake).symm⟩

theorem ownResult_setPosition {target : Int} {warn alarm : Bool} {angle : BitVec 24} {turn : BitVec 16} {word : BitVec 32}
    {ps : Scheduler} (hb : (u.slot k).body = .setPosition target) (hlast : ps.progress.planned ≤ ps.exchangesDone + 1)
    (h : (ps.progress.position = none ∧ SetPositionTreated (u.slot k).sensor target (ps.exchangesDone + 1) a.requestTime
          { warn := warn, alarm := alarm, angle := angle.toNat % 2 ^ wordSt word, turn := turn.toNat % 2 ^ wordMt word }
          none u r v) ∨
      ∃ o g, ps.progress.position = some o ∧ o.result = .ok g.warn g.alarm (.reading g.angle g.turn) ∧
        SetPositionTreated (u.slot k).sensor target (ps.exchangesDone + 1) o.requestTime g
          (some { warn := warn, alarm := alarm, angle := angle.toNat % 2 ^ wordSt word, turn := turn.toNat % 2 ^ wordMt word })
          u r v) :
    OwnResult k a word ps (.ok warn alarm (.position angle turn)) u r v := by
  unfold OwnResult
  dsimp only
  rw [hb]
  exact ⟨hlast, h⟩

theorem setPositionTreatsTheReading : SetPositionTreatsTheReading := by
  intro k a warn alarm angle turn target c s h hcl hE hb hlast word heard treated
  exact ⟨fun hnone r u ht => h.replies hcl hE (ownResult_setPosition hb hlast (.inl ⟨hnone, ht⟩)),
    fun o g hsome ho r u ht => h.replies hcl hE (ownResult_setPosition hb hlast (.inr ⟨o, g, hsome, ho, ht⟩))⟩

theorem setPositionGoesOnToItsRepeat : SetPositionGoesOnToItsRepeat := by
  intro k a warn alarm angle turn target c s h hcl hE hb hmore p ps word kept
  have hM : MoreToCome k (schedOf k s) (.ok warn alarm (.position angle turn)) s [] := by
    refine ⟨hmore, ?_⟩
    rw [hb]
  refine ⟨fun hab => ?_, fun next hab hx => ?_⟩
  · have hrun := h.aborted hcl hE hM hab
    rwa [hb] at hrun
  · rw [h.goesOn hcl hE hM hab hx, offered_exchangeCounted h]
    rfl

/-- The position of an accepted SET_POSITION is its target (R88). -/
theorem repositioned_position (c : Sensor) (angle turn : Nat) (time : Time) (target : Int) :
    (repositioned c angle turn time target).positionOf (repositioned c angle turn time target).last.extRaw = target := by
  unfold Sensor.positionOf scaledValue repositioned
  dsimp only
  omega

theorem setPositionAccepts : SetPositionAccepts := by
  intro k a warn angleBits turnBits target s h hb hkind hnone hlast n c word angle turn command c'
  have hE : EndsExchange k a (.ok warn false (.position angleBits turnBits)) command s :=
    h.endsExchange (by rw [hb]; rfl) (by rw [hkind]; rfl)
  let first : Heard := { warn := warn, alarm := false, angle := angle, turn := turn }
  have hreply : ∀ r u, takeSetPosition (heardReading n a.requestTime first none) target ((schedOf k s).exchangesDone + 1)
      (exchangeOver k s) = (u, r) → Replies command s k r u := fun r u ht =>
    h.replies h.concludable hE (ownResult_setPosition hb hlast
      (.inl ⟨hnone, (setPositionTreated_iff (heardReading_says n a.requestTime first none) target _ r).2 ht⟩))
  have htake := takeSetPosition_eq (heardReading_says n a.requestTime first none) target
    ((schedOf k s).exchangesDone + 1) (exchangeOver k s)
  rw [show (exchangeOver k s).sensor (heardReading n a.requestTime first none).sensor = c from rfl] at htake
  dsimp only at htake
  refine ⟨fun hst => ?_, fun hu hf hj ht ho => ⟨repositioned_position c angle turn a.requestTime target, ?_⟩⟩
  · rw [if_pos hst] at htake
    exact hreply _ _ htake
  · have hturn : c.turnInRange (c.turned angle turn) = true := by
      unfold Sensor.turnInRange
      cases hm : c.turnMode <;> first | rfl | exact ht hm
    rw [if_neg (fun hn => hn.elim hu hf), if_neg (show ¬ alarmed first none = true from Bool.false_ne_true),
      if_neg (show ¬ mismatched first none = true from Bool.false_ne_true), if_neg (by rw [hj]; decide), if_neg (by rw [hturn]; decide),
      if_neg fun hn => Bool.false_ne_true (hn.symm.trans ho)] at htake
    have hresult : setPositionResult c angle turn target (warned first none) =
        { status := .success
          detail := BitVec.ofNat 32 ((if warn = true then 256 else 0) + if c.last.validity ≠ .valid then 512 else 0)
          data := BitVec.ofNat 16 0 ++ BitVec.ofInt 24 (if c.turnMode = .extend then c'.extendedTurn else 0) ++
            BitVec.ofNat 16 turn ++ BitVec.ofNat 24 angle ++ BitVec.ofInt 48 c'.offset } := by
      have hdetail : warningBit (warned first none) + 512 * c.resyncs.toNat =
          (if warn = true then 256 else 0) + if c.last.validity ≠ .valid then 512 else 0 := by
        unfold warned warningBit Sensor.resyncs
        cases warn <;> by_cases hv : c.last.validity = .valid <;> simp [first, hv]
      have hextended : (if c.turnMode = .extend then (c.turned angle turn).candidate else 0) =
          if c.turnMode = .extend then c'.extendedTurn else 0 :=
        ite_congr rfl (fun he => (if_pos he).symm) fun _ => rfl
      unfold setPositionResult
      dsimp only
      rw [hdetail, hextended]
      rfl
    rw [← hresult]
    exact hreply _ _ htake

/-- Settles O37, by its five parts. -/
theorem setPositionSetsTheOffset : Obligations.SetPositionSetsTheOffset :=
  ⟨setPositionAccepts, setPositionTreatsTheReading, setPositionTreatmentIsOne, setPositionGoesOnToItsRepeat, okExchangeEnds _⟩

end Sys2Proof.Claims
end

section
set_option Elab.async false
/-! SUPPORT. A failed exchange in RUNNING (R27), and the entry to DOWN at the fail limit (R28, R29, R44, R54, R66). -/

namespace Sys2Proof.Claims

open Sys2Proof.Machine

variable {s t u v : State} {p : PortId} {k : SlotId} {r : Result} {a : Attempt} {c : Instr} {f : LinkFault}

/-! ### A transaction's failed exchange (R27, R162) -/

/-- What follows the outcome of a failed exchange: DOWN at the fail limit, the decision below it (R27). -/
def failureFollows (p : PortId) (f : LinkFault) (le : LinkEngine) (x : State) : State :=
  if le.parameters.failLimit ≤ le.failures + 1 then enterDown p f x else makeDecision p x

theorem endAttempt_running_failed {d : State} (ha : (s.link p).attempt = some a) (hr : (s.link p).state = .running)
    (hl : (s.link p).parameters.retryLimit < a.tags.length)
    (hd : deliverOutcome p false (outcomeOf (s.link p) a (.fault f)) (lineIdle p (s.link p).failures s) = d)
    (hlink : d.link p = exchangeEnded (s.link p) (s.link p).failures s.time) :
    endAttempt p (.fault f) s =
      failureFollows p f (s.link p) (d.setLink p (exchangeEnded (s.link p) ((s.link p).failures + 1) s.time)) := by
  have hend := endAttempt_running_fault (f := f) ha hr hl
  unfold lineIdle at hd
  dsimp only at hend
  rw [hd, hlink] at hend
  exact hend

/-- The last allowed attempt fails: the transaction answers LINK_FAILED and the failure count rises. -/
theorem Carried.exec_failed (h : Carried k a .running s) (hcl : Concludable k s) (hE : EndsExchange k a (.fault f) c s)
    (hl : (s.link (portOf (s.slot k).sensor)).parameters.retryLimit < a.tags.length) : ∃ v,
    Concluded k (cutShort .linkFailed (schedOf k s).exchangesDone (s.slot k).body (schedOf k s).progress.values)
      ((exchangeOver k s).setLink (portOf (s.slot k).sensor) (exchangeEnded (s.link (portOf (s.slot k).sensor))
        ((s.link (portOf (s.slot k).sensor)).failures + 1) s.time)) v ∧
    v.discarded = [] ∧
    exec c s = .next (settle (failureFollows (portOf (s.slot k).sensor) f (s.link (portOf (s.slot k).sensor)) v)) := by
  obtain ⟨p, hp⟩ : ∃ p, p = portOf (s.slot k).sensor := ⟨_, rfl⟩
  rw [← hp] at hl ⊢
  have hown : (s.sched p).active = some k := hp ▸ h.own
  have hidle : ((idled p (lineIdle p (s.link p).failures s)).sched p).active = some k := by
    rw [idled_sched]
    exact hown
  have hcl' : Concludable k (idled p (lineIdle p (s.link p).failures s)) := hcl.of_kept rfl (fun _ _ => rfl) fun _ => rfl
  obtain ⟨A, hd⟩ := cutActive_concludes (p := p) (st := .linkFailed) (done := (s.sched p).exchangesDone) hidle hcl'
  have hdeliver : deliverOutcome p false (outcomeOf (s.link p) a (.fault f)) (lineIdle p (s.link p).failures s) =
      cutActive p .linkFailed (s.sched p).exchangesDone (idled p (lineIdle p (s.link p).failures s)) := by
    unfold deliverOutcome
    rw [show ((lineIdle p (s.link p).failures s).sched p).owner = some .transaction from hp ▸ h.owner]
    exact transactionOutcome_failed rfl hown
  have hend := endAttempt_running_failed (hp ▸ h.attempt) (hp ▸ h.running) hl hdeliver
    (by rw [A.beside.link]; exact State.link_setLink_same s p _)
  have hrun := (hE.exec h.owns).1
  rw [← hp, hend] at hrun
  have B := A.link p (exchangeEnded (s.link p) ((s.link p).failures + 1) s.time)
  generalize cutActive p .linkFailed (s.sched p).exchangesDone _ = d at B hd hrun
  refine ⟨d.setLink p _, ?_, hd.trans h.settled, hrun⟩
  rw [idled_sched] at B
  unfold exchangeOver schedOf
  rw [← hp]
  unfold idled lineIdle at B
  rw [State.setSched_setSched, State.setLink_setSched, State.setLink_setLink] at B
  rw [State.setLink_setSched, State.setLink_setLink]
  exact B

theorem exchangeOver_setLink_sched (le : LinkEngine) :
    ((exchangeOver k s).setLink (portOf (s.slot k).sensor) le).sched (portOf (s.slot k).sensor) =
      withoutActive (idleSched (s.sched (portOf (s.slot k).sensor))) := exchangeOver_sched k s

/-- The queue is as ready after the failed transaction's answer as before its exchange ended. -/
theorem Carried.queueReady_failed {le : LinkEngine} (h : Carried k a .running s) (hcl : Concludable k s)
    (hq : QueueReady (portOf (s.slot k).sensor) s)
    (A : Concluded k r ((exchangeOver k s).setLink (portOf (s.slot k).sensor) le) v) :
    QueueReady (portOf (s.slot k).sensor) v :=
  hq.concluded h.active hcl A rfl rfl (by rw [exchangeOver_setLink_sched]; rfl)

theorem failedExchangeInCompany : FailedExchangeInCompany := by
  intro k a f c s h hcl hE p hq hl hlim
  obtain ⟨v, A, hd, hrun⟩ := h.exec_failed hcl hE hl
  obtain ⟨hset, D⟩ := decided (fun _ => h.queueReady_failed hcl hq A) hd
  rw [show failureFollows _ f _ v = makeDecision p v from if_neg (Nat.not_le.2 hlim), hset] at hrun
  exact ⟨_, hrun, v, A, D⟩

/-- Settles O35: in company, and from it on a port with no other work. -/
theorem failedExchangeAnswersLinkFailed : Obligations.FailedExchangeAnswersLinkFailed := by
  refine ⟨fun k a f c s h hcl hE => ?_, failedExchangeInCompany⟩
  intro p hl hlim
  have hu : ((exchangeOver k s).setLink p _).sched p = _ := exchangeOver_setLink_sched
    (exchangeEnded (s.link p) ((s.link p).failures + 1) s.time)
  exact Replies.of_idle (failedExchangeInCompany k a f c s h.toCarried hcl hE h.queueReady hl hlim)
    (by rw [exchangeOver_setLink_sched]; exact h.noRound) (by rw [exchangeOver_setLink_sched]; rfl)
    (by rw [exchangeOver_setLink_sched]; exact h.empty)

/-! ### The entry to DOWN (R28, R29, R44, R54, R66) -/

/-- A round-less scheduler is still so once its host work is flushed. -/
theorem flushedSched_roundList (ps : Scheduler) : (flushedSched (roundOver ps)).roundList = [] := by
  unfold flushedSched
  split
  · rfl
  · split <;> rfl

theorem portDownDetail_eq (f : LinkFault) : portDownDetail (portCauseOf f) = BitVec.ofNat 32 (4 + 16 * faultCode f) := by
  cases f <;> rfl

/-- The link with its retrain timer as it starts on entry to DOWN. -/
def retrainStarted (le : LinkEngine) (now : Time) : LinkEngine :=
  { le with retrainTimer := retrainFrom now le.parameters.retrainInterval }

theorem retrainFrom_eq (now : Time) (interval : Nat) :
    (if interval = 0 then none else some (after now (interval * Config.ticksPerMillisecond))) = retrainFrom now interval := by
  unfold retrainFrom
  rw [Nat.mul_comm]
  rfl

theorem enterDown_eq (p : PortId) (f : LinkFault) (s : State) : enterDown p f s =
    (fun x => (raiseNotice (.port p) (BitVec.ofNat 32 (4 + 16 * faultCode f)) x.time x).setLink p
      (retrainStarted (x.link p) x.time))
      (suspendPort p (flushPort p .portDown
        ((s.setLink p { s.link p with state := .down }).setSched p (roundOver (s.sched p))))) := by
  unfold enterDown
  dsimp only
  rw [State.sched_setLink, Scheduler.leaveRunning_eq, portDownDetail_eq]
  generalize suspendPort p _ = x
  have hlink : (raiseNotice (.port p) (BitVec.ofNat 32 (4 + 16 * faultCode f)) x.time x).link p = x.link p := by
    rw [raiseNotice_frame]
    rfl
  have htime : (raiseNotice (.port p) (BitVec.ofNat 32 (4 + 16 * faultCode f)) x.time x).time = x.time := by
    rw [raiseNotice_frame]
  rw [hlink, htime, retrainFrom_eq]
  rfl

/-- The host work of a port can be answered after its link or its round has changed. -/
theorem FlushReady.of_kept (h : FlushReady p s) (hslots : t.slots = s.slots) (hcr : ∀ c, (t.cr c).state = (s.cr c).state)
    (hq : (t.sched p).queue = (s.sched p).queue) (ha : (t.sched p).active = (s.sched p).active)
    (ho : (t.sched p).owner = some .transaction ↔ (s.sched p).owner = some .transaction) : FlushReady p t := by
  have hslot : ∀ k, t.slot k = s.slot k := fun k => by unfold State.slot; rw [hslots]
  refine ⟨⟨by rw [hq]; exact h.queue.distinct, fun k hk => ?_⟩, fun k hk hn => ?_⟩
  · rw [hq] at hk
    rw [hslot, hcr]
    exact h.queue.waiting k hk
  · rw [ha] at hk
    obtain ⟨hact, hcl, hreq⟩ := h.active k hk fun hs => hn (ho.2 hs)
    rw [hslot, hq]
    exact ⟨hact, hcl.of_kept (hslot k) (fun _ _ => hslot _) hcr, hreq⟩

theorem enterDown_effect (h : FlushReady p u) (hd : u.discarded = []) :
    GoesDown p f u (enterDown p f u) ∧ (enterDown p f u).discarded = [] := by
  let x := (u.setLink p { u.link p with state := .down }).setSched p (roundOver (u.sched p))
  have hps : x.sched p = roundOver (u.sched p) := State.sched_setSched_same _ _ _
  have hready : FlushReady p x := h.of_kept rfl (fun _ => rfl) (by rw [hps]; rfl) (by rw [hps]; rfl) (by rw [hps]; rfl)
  obtain ⟨F, hdw⟩ := flushPort_effect p .portDown x hready hd
  obtain ⟨B, -⟩ := F.keeps hready
  have hsched : (flushPort p .portDown x).sched p = flushedSched (roundOver (u.sched p)) := by
    rw [B.sched, State.sched_setSched_same, hps]
  have hsusp := suspendPort_effect p (flushPort p .portDown x) (by rw [hsched]; exact flushedSched_roundList _)
  have W := allSuspended_beside p (flushPort p .portDown x)
  have htime : (allSuspended p (flushPort p .portDown x)).time = u.time := by rw [W, B.others]; rfl
  have hlinkx : (flushPort p .portDown x).link p = { u.link p with state := .down } := by
    rw [B.link]
    exact State.link_setLink_same u p _
  have heq := enterDown_eq p f u
  rw [show suspendPort p (flushPort p .portDown ((u.setLink p { u.link p with state := .down }).setSched p
    (roundOver (u.sched p)))) = _ from hsusp] at heq
  dsimp only at heq
  rw [htime, W.link] at heq
  refine ⟨⟨_, F, heq.trans (congrArg _ ?_)⟩, ?_⟩
  · unfold retrainStarted
    rw [hlinkx]
  · have hset : ∀ (y : State) (le : LinkEngine), (y.setLink p le).discarded = y.discarded := fun _ _ => rfl
    rw [heq, hset, (raiseNotice_keeps _ _ _ _).2.1, W.discarded, hdw]

theorem transactionFailureTakesTheLinkDown : TransactionFailureTakesTheLinkDown := by
  intro k a f c s h hcl hE p hq hl hlim
  obtain ⟨v, A, hd, hrun⟩ := h.exec_failed hcl hE hl
  have hready : FlushReady p v := by
    refine ⟨h.queueReady_failed hcl hq A, fun j hj => ?_⟩
    rw [A.beside.sched, exchangeOver_setLink_sched] at hj
    cases hj
  obtain ⟨G, hdw⟩ := enterDown_effect (f := f) hready hd
  rw [show failureFollows _ f _ v = enterDown p f v from if_pos hlim, settle_of_none_discarded hdw] at hrun
  exact ⟨_, hrun, v, A, G⟩

/-! ### The entry to DOWN on a quiet port -/

/-- With no reference and no active transaction there is no host work to answer (R54). -/
theorem Flushed.of_quiet {st : Status} (h : Flushed p st u t) (hq : (u.sched p).queue = []) (ha : (u.sched p).active = none) :
    t = u := by
  obtain ⟨v, hv, hf⟩ := h
  rw [ha] at hv
  obtain rfl : v = u := hv
  unfold QueueFlushed at hf
  rw [hq] at hf
  cases hf
  conv_rhs => rw [← State.setSched_self v p]
  rw [← hq]

theorem allSuspended_of_none (h : ∀ n, portOf n = p → (u.sensor n).state ≠ .acquiring) : allSuspended p u = u := by
  unfold allSuspended
  rw [show acquirers p u = [] from List.filter_eq_nil_iff.2 fun n hn => by
    rw [decide_eq_true_eq]
    exact h n ((mem_sensorsOf p n).1 hn)]
  rfl

/-- A notice and a link are written in either order. -/
theorem raiseNotice_setLink (src : NoticeSource) (det : BitVec 32) (tm : Time) (s : State) (p : PortId) (le : LinkEngine) :
    raiseNotice src det tm (s.setLink p le) = (raiseNotice src det tm s).setLink p le := by
  rw [State.setLink_withPorts, raiseNotice_withPorts]
  have hk := raiseNotice_keeps src det tm s
  rw [State.setLink_withPorts, hk.1, hk.2.2]

theorem GoesDown.of_quiet (h : GoesDown p f u t) (hq : (u.sched p).queue = []) (ha : (u.sched p).active = none)
    (hn : ∀ n, portOf n = p → (u.sensor n).state ≠ .acquiring) :
    t = raiseNotice (.port p) (BitVec.ofNat 32 (4 + 16 * faultCode f)) u.time
      ((u.setLink p { u.link p with
        state := .down, retrainTimer := retrainFrom u.time (u.link p).parameters.retrainInterval }).setSched p
          (roundOver (u.sched p))) := by
  obtain ⟨w, F, ht⟩ := h
  have hw := F.of_quiet (by rw [State.sched_setSched_same]; exact hq) (by rw [State.sched_setSched_same]; exact ha)
  rw [ht, allSuspended_of_none (by rw [hw]; exact hn), ← raiseNotice_setLink, hw, State.link_setSched,
    State.link_setLink_same, State.setLink_setSched, State.setLink_setLink]

theorem failLimitOnAQuietPort : FailLimitOnAQuietPort := by
  intro k a f c s h hcl hE p hl hlim hn
  obtain ⟨t, hrun, v, A, G⟩ := transactionFailureTakesTheLinkDown k a f c s h.toCarried hcl hE h.queueReady hl hlim
  have hsched := (A.beside.sched p).trans (exchangeOver_setLink_sched _)
  have ht := G.of_quiet (by rw [hsched]; exact h.empty) (by rw [hsched]; rfl) fun n hp => by
    rw [A.beside.sensor]
    exact hn n hp
  refine ⟨t, hrun, ?_⟩
  have hlink : v.link p = exchangeEnded (s.link p) ((s.link p).failures + 1) s.time :=
    (A.beside.link p).trans (State.link_setLink_same _ p _)
  have htime : v.time = s.time := by rw [A.beside.others]; rfl
  rw [htime, hsched, hlink] at ht
  rw [ht]
  have B := ((A.link p { exchangeEnded (s.link p) ((s.link p).failures + 1) s.time with
    state := .down, retrainTimer := retrainFrom s.time (s.link p).parameters.retrainInterval }).sched p
      (roundOver (withoutActive (idleSched (s.sched p))))).raise (.port p) (BitVec.ofNat 32 (4 + 16 * faultCode f)) s.time
  rw [State.setLink_setLink] at B
  rw [exchangeOver_sched]
  exact B

/-! ### A round's exchange (R41 to R43) -/

theorem readingOutcome_eq {le : LinkEngine} {e : AttemptEnd} {o : ExchangeOutcome}
    (h : ReadingOutcome (le.identity[a.address]).word a e o) : outcomeOf le a e = o := by
  obtain ⟨hresult, hattempts, haddress, hkind, htime⟩ := h
  obtain ⟨result, attempts, address, kind, time⟩ := o
  dsimp only at hresult hattempts haddress hkind htime
  subst hattempts haddress hkind htime
  obtain ⟨f, rfl, rfl⟩ | ⟨warn, alarm, angle, turn, rfl, rfl⟩ := hresult <;> rfl

theorem isOk_iff (o : ExchangeOutcome) : o.isOk = true ↔ ∃ warn alarm x, o.result = .ok warn alarm x := by
  unfold ExchangeOutcome.isOk
  cases o.result with
  | ok warn alarm x => exact iff_of_true rfl ⟨warn, alarm, x, rfl⟩
  | failed f => exact iff_of_false Bool.false_ne_true fun ⟨_, _, _, h⟩ => by cases h

theorem endIfEmpty_roundGoesOn {ps : Scheduler} {rest : List SensorId} (h : ps.round = .inProgress) :
    Scheduler.endIfEmpty { ps with owner := none, roundList := rest, roundStep := none, heldPosition := none } =
      roundGoesOn rest ps := by
  unfold Scheduler.endIfEmpty roundGoesOn
  dsimp only
  by_cases hr : rest = []
  · rw [if_pos ⟨h, hr⟩, if_pos hr, if_pos hr]
  · rw [if_neg fun hn => hr hn.2, if_neg hr, if_neg hr]

/-- The outcome of a round's exchange, by the head entry's step. -/
theorem roundOutcome_removed {o : ExchangeOutcome} (h : (u.sched p).round = .inProgress) (hs : (u.sched p).roundStep = none)
    (hh : (u.sched p).heldPosition = none) :
    roundOutcome p o u = u.setSched p (roundGoesOn (u.sched p).roundList (u.sched p)) := by
  have he := endIfEmpty_roundGoesOn (rest := (u.sched p).roundList) h
  unfold roundOutcome
  dsimp only
  rw [h, hs, ← he, h, hh]

theorem roundOutcome_head {o : ExchangeOutcome} {step : RoundStep} {n : SensorId} {rest : List SensorId}
    (h : (u.sched p).round = .inProgress) (hs : (u.sched p).roundStep = some step) (hl : (u.sched p).roundList = n :: rest) :
    roundOutcome p o u =
      if step = .position ∧ o.isOk = true ∧ (u.sensor n).confirm = .repeat then
        u.setSched p { u.sched p with owner := none, roundStep := none, heldPosition := some o }
      else takeReading (roundReading (u.sched p) n step o) (u.setSched p (roundGoesOn rest (u.sched p))) := by
  have he := endIfEmpty_roundGoesOn (rest := rest) h
  unfold roundOutcome
  dsimp only
  rw [hs, hl, h, ← he, h]
  rfl

/-- A round in progress whose head entry, if any is polled, stands in its list. -/
structure Polls (ps : Scheduler) : Prop where
  round : ps.round = .inProgress
  head : (ps.roundStep = none ∧ ps.heldPosition = none) ∨ ∃ step n rest, ps.roundStep = some step ∧ ps.roundList = n :: rest

theorem RoundOnTheLine.polls {e : AttemptEnd} (h : RoundOnTheLine p a e c s) : Polls (s.sched p) := by
  refine ⟨h.round, ?_⟩
  obtain hn | ⟨hs, -, hl⟩ | ⟨hs, -, hl⟩ := h.head
  · exact .inl hn
  · obtain ⟨n, rest, hl⟩ := List.exists_cons_of_ne_nil hl
    exact .inr ⟨_, n, rest, hs, hl⟩
  · obtain ⟨n, rest, hl⟩ := List.exists_cons_of_ne_nil hl
    exact .inr ⟨_, n, rest, hs, hl⟩

theorem Polls.takes {o : ExchangeOutcome} (h : Polls (u.sched p)) : RoundTakes p o u (roundOutcome p o u) := by
  unfold RoundTakes
  dsimp only
  obtain ⟨hs, hh⟩ | ⟨step, n, rest, hs, hl⟩ := h.head
  · exact ⟨fun _ => roundOutcome_removed h.round hs hh, fun step n rest hs' _ => by rw [hs] at hs'; cases hs'⟩
  · refine ⟨fun hn => (by rw [hs] at hn; cases hn), fun step' n' rest' hs' hl' => ?_⟩
    have hrun := roundOutcome_head (o := o) h.round hs' hl'
    rw [← isOk_iff]
    exact ⟨fun hheld => hrun.trans (if_pos hheld), fun hheld => hrun.trans (if_neg hheld)⟩

/-- What the outcome of a round's exchange leaves of the requests and of the port's host work. -/
structure LeavesHostWork (p : PortId) (u t : State) : Prop where
  beside : BesideRequests u t
  queue : (t.sched p).queue = (u.sched p).queue
  active : (t.sched p).active = (u.sched p).active
  owner : (t.sched p).owner = none

theorem leavesHostWork_setSched {ps : Scheduler} (hq : ps.queue = (u.sched p).queue) (ha : ps.active = (u.sched p).active)
    (ho : ps.owner = none) : LeavesHostWork p u (u.setSched p ps) :=
  ⟨setSched_besideRequests u p ps, by rw [State.sched_setSched_same]; exact hq, by rw [State.sched_setSched_same]; exact ha,
    by rw [State.sched_setSched_same]; exact ho⟩

theorem LeavesHostWork.takeReading (h : LeavesHostWork p u t) (g : Reading) : LeavesHostWork p u (takeReading g t) := by
  have T := treats_takeReading g t
  exact ⟨h.beside.trans T.beside, (T.work.queue p).trans h.queue, (T.work.active p).trans h.active,
    (T.work.owner p).trans h.owner⟩

theorem Polls.leaves {o : ExchangeOutcome} (h : Polls (u.sched p)) : LeavesHostWork p u (roundOutcome p o u) := by
  have hgoes : ∀ rest, LeavesHostWork p u (u.setSched p (roundGoesOn rest (u.sched p))) := fun rest =>
    leavesHostWork_setSched rfl rfl rfl
  obtain ⟨hs, hh⟩ | ⟨step, n, rest, hs, hl⟩ := h.head
  · rw [roundOutcome_removed h.round hs hh]
    exact hgoes _
  · rw [roundOutcome_head h.round hs hl]
    split
    · exact leavesHostWork_setSched rfl rfl rfl
    · exact (hgoes rest).takeReading _

/-- The outcome of a round's exchange is taken beside the link. -/
theorem Polls.setLink {o : ExchangeOutcome} {le : LinkEngine} (h : Polls (u.sched p)) :
    roundOutcome p o (u.setLink p le) = (roundOutcome p o u).setLink p le := by
  obtain ⟨hs, hh⟩ | ⟨step, n, rest, hs, hl⟩ := h.head
  · rw [roundOutcome_removed h.round hs hh, roundOutcome_removed (u := u.setLink p le) h.round hs hh]
    rfl
  · rw [roundOutcome_head h.round hs hl, roundOutcome_head (u := u.setLink p le) h.round hs hl, State.sensor_setLink]
    split
    · rfl
    · exact (takeReading_besidePorts (roundReading (u.sched p) n step o)).link (u.setSched p (roundGoesOn rest (u.sched p))) p le

/-- The last allowed attempt of a round's exchange fails: the round takes the outcome and the failure count rises. -/
theorem RoundOnTheLine.exec_failed {o : ExchangeOutcome} (h : RoundOnTheLine p a (.fault f) c s)
    (ho : ReadingOutcome ((s.link p).identity[a.address]).word a (.fault f) o) : ∃ v,
    RoundTakes p o (s.setLink p (exchangeEnded (s.link p) ((s.link p).failures + 1) s.time)) v ∧
    LeavesHostWork p (s.setLink p (exchangeEnded (s.link p) ((s.link p).failures + 1) s.time)) v ∧
    exec c s = .next (settle (failureFollows p f (s.link p) v)) := by
  have hdeliver : deliverOutcome p false (outcomeOf (s.link p) a (.fault f)) (lineIdle p (s.link p).failures s) =
      roundOutcome p o (lineIdle p (s.link p).failures s) := by
    unfold deliverOutcome
    rw [show ((lineIdle p (s.link p).failures s).sched p).owner = some .round from h.owner, readingOutcome_eq ho]
  have hset : ∀ le, roundOutcome p o (s.setLink p le) = (roundOutcome p o s).setLink p le := fun le => h.polls.setLink
  have hend := endAttempt_running_failed h.ends.1 h.running (h.last f rfl) hdeliver
    (by unfold lineIdle; rw [hset, State.link_setLink_same])
  refine ⟨_, ?_, ?_, h.ends.exec.trans (congrArg (fun x => Host.Outcome.next (settle x)) hend)⟩
  · unfold lineIdle
    rw [hset, State.setLink_setLink, ← hset]
    exact Polls.takes (u := s.setLink p _) h.polls
  · unfold lineIdle
    rw [hset, State.setLink_setLink, ← hset]
    exact Polls.leaves (u := s.setLink p _) h.polls

theorem roundFailureTakesTheLinkDown : RoundFailureTakesTheLinkDown := by
  intro p a f o c s h ho hready hlim
  obtain ⟨v, T, L, hrun⟩ := h.exec_failed ho
  have hv : FlushReady p v := hready.of_kept L.beside.slots (fun i => by unfold State.cr; rw [L.beside.crs]; rfl) L.queue
    L.active (by rw [L.owner, h.owner]; exact ⟨fun hn => (by cases hn), fun hn => (by cases hn)⟩)
  obtain ⟨G, hd⟩ := enterDown_effect (f := f) hv (L.beside.discarded.trans h.settled)
  rw [show failureFollows p f _ v = enterDown p f v from if_pos hlim, settle_of_none_discarded hd] at hrun
  exact ⟨_, hrun, v, T, G⟩

/-- Settles O43, by its three parts. -/
theorem failLimitTakesTheLinkDown : Obligations.FailLimitTakesTheLinkDown :=
  ⟨failLimitOnAQuietPort, transactionFailureTakesTheLinkDown, roundFailureTakesTheLinkDown⟩

end Sys2Proof.Claims
end

section
set_option Elab.async false
/-! SUPPORT. The end of a round's exchange (R24, R27, R41 to R43). -/

namespace Sys2Proof.Claims

open Sys2Proof.Machine

variable {s t u v : State} {p : PortId} {n : SensorId} {a : Attempt} {c : Instr} {e : AttemptEnd}

/-- A round's exchange that ends OK: the round takes the outcome and the scheduler decides (R24, R41). -/
theorem RoundOnTheLine.exec_ok {o : ExchangeOutcome} {warn alarm : Bool} {x : WirePayload}
    (h : RoundOnTheLine p a (.ok warn alarm x) c s)
    (ho : ReadingOutcome ((s.link p).identity[a.address]).word a (.ok warn alarm x) o) :
    exec c s = .next (settle (makeDecision p (roundOutcome p o (lineIdle p 0 s)))) := by
  rw [h.ends.exec, endAttempt_running_ok h.ends.1 h.running, readingOutcome_eq ho]
  unfold deliverOutcome
  rw [State.sched_setLink, h.owner]
  rfl

/-- What a round's exchange leaves is decided on (R47). -/
theorem LeavesHostWork.decided {le : LinkEngine} (L : LeavesHostWork p (s.setLink p le) v)
    (hq : (s.sched p).active = none → QueueReady p s) (hd : s.discarded = []) :
    settle (makeDecision p v) = makeDecision p v ∧ Decides p v (makeDecision p v) := by
  refine Claims.decided (fun hn => ?_) (L.beside.discarded.trans hd)
  have hr := hq (L.active.symm.trans hn)
  have hslot : ∀ k, v.slot k = s.slot k := fun k => by unfold State.slot; rw [L.beside.slots]; rfl
  have hcr : ∀ i, v.cr i = s.cr i := fun i => by unfold State.cr; rw [L.beside.crs]; rfl
  have hqv : (v.sched p).queue = (s.sched p).queue := L.queue
  refine ⟨by rw [hqv]; exact hr.distinct, fun k hk => ?_⟩
  rw [hqv] at hk
  rw [hslot, hcr]
  exact hr.waiting k hk

theorem roundExchangeEnds : RoundExchangeEnds := by
  intro p a e o c s h ho hq hlim
  cases e with
  | ok warn alarm x =>
    have L := Polls.leaves (o := o) (u := lineIdle p 0 s) h.polls
    obtain ⟨hset, D⟩ := L.decided hq h.settled
    refine ⟨_, (h.exec_ok ho).trans (congrArg _ hset), _, ⟨fun _ _ _ _ => ?_, fun f hf => by cases hf⟩, D⟩
    exact Polls.takes (u := lineIdle p 0 s) h.polls
  | fault f =>
    obtain ⟨v, T, L, hrun⟩ := h.exec_failed ho
    obtain ⟨hset, D⟩ := L.decided hq h.settled
    rw [show failureFollows p f _ v = makeDecision p v from if_neg (Nat.not_le.2 (hlim f rfl)), hset] at hrun
    exact ⟨_, hrun, v, ⟨fun _ _ _ hf => (by cases hf), fun _ _ => T⟩, D⟩

/-- A scheduler that holds the POSITION outcome of its round's exchange (R41). -/
def positionHeld (o : ExchangeOutcome) (ps : Scheduler) : Scheduler :=
  { ps with owner := none, roundStep := none, heldPosition := some o }

/-- The state in which the REPEAT that goes with a held POSITION has been offered (R41). -/
def repeatOffered (n : SensorId) (o : ExchangeOutcome) (p : PortId) (u : State) : State :=
  (u.setLink p { u.link p with attempt := some (freshAttempt (addrOf n) .repeat) }).setSched p
    { u.sched p with owner := some .round, roundStep := some .repeat, heldPosition := some o }

theorem offerRound_positionHeld {o : ExchangeOutcome} {rest : List SensorId} (h : (u.sched p).roundList = n :: rest) :
    offerRound p (u.setSched p (positionHeld o (u.sched p))) = repeatOffered n o p u := by
  have hps : (u.setSched p (positionHeld o (u.sched p))).sched p = positionHeld o (u.sched p) := State.sched_setSched_same _ _ _
  rw [offerRound_eq (by rw [hps]; exact h), hps, State.setSched_setSched]
  unfold offered repeatOffered
  rw [State.link_setSched, State.setLink_setSched, State.sched_setSched_same, State.setSched_setSched]
  rfl

theorem goodReadingReachesTheSensor : GoodReadingReachesTheSensor := by
  intro p n a warn alarm angle turn c s hE hrun' hown hround hstep hheld hd word outcome link
  have ho : ReadingOutcome ((s.link p).identity[a.address]).word a (.ok warn alarm (.position angle turn)) outcome :=
    ⟨.inr ⟨warn, alarm, angle, turn, rfl, rfl⟩, rfl, rfl, rfl, rfl⟩
  have hline : ∀ rest, (s.sched p).roundList = n :: rest →
      RoundOnTheLine p a (.ok warn alarm (.position angle turn)) c s := fun rest hl =>
    ⟨hE, hrun', hown, hround, .inr (.inl ⟨hstep, hheld, by rw [hl]; exact List.cons_ne_nil _ _⟩), fun f hf => (by cases hf), hd⟩
  refine ⟨fun rest hl hc => ?_, fun hl hc hq ha => ?_⟩
  · have hrun := (hline rest hl).exec_ok ho
    have hout := roundOutcome_head (u := lineIdle p 0 s) (o := outcome) hround hstep hl
    have hheldNow : roundOutcome p outcome (lineIdle p 0 s) = (lineIdle p 0 s).setSched p (positionHeld outcome (s.sched p)) :=
      hout.trans (if_pos ⟨rfl, rfl, hc⟩)
    have hoffer : offerRound p ((lineIdle p 0 s).setSched p (positionHeld outcome (s.sched p))) = _ :=
      offerRound_positionHeld (u := lineIdle p 0 s) hl
    have hmay : MayDecide p ((lineIdle p 0 s).setSched p (positionHeld outcome (s.sched p))) := by
      unfold MayDecide
      rw [State.link_setSched, State.sched_setSched_same]
      unfold lineIdle
      rw [State.link_setLink_same]
      exact ⟨hrun', rfl, rfl⟩
    have hset := settle_of_none_discarded (s := repeatOffered n outcome p (lineIdle p 0 s)) hd
    rw [hheldNow, makeDecision_of_round (by rw [State.sched_setSched_same]; exact hround) ((mayDecide_iff _ _).2 hmay), hoffer,
      hset] at hrun
    refine hrun.trans (congrArg Host.Outcome.next ?_)
    unfold repeatOffered lineIdle
    rw [State.link_setLink_same, State.setLink_setLink, State.sched_setLink, ← hown]
    rfl
  · have hrun := (hline [] hl).exec_ok ho
    have hout := roundOutcome_head (u := lineIdle p 0 s) (o := outcome) hround hstep hl
    have hnot : ¬ (RoundStep.position = .position ∧ outcome.isOk = true ∧ ((lineIdle p 0 s).sensor n).confirm = .repeat) :=
      fun hn => by
        rw [show ((lineIdle p 0 s).sensor n).confirm = .off from hc] at hn
        cases hn.2.2
    rw [if_neg hnot] at hout
    have T := treats_takeReading (roundReading ((lineIdle p 0 s).sched p) n .position outcome)
      ((lineIdle p 0 s).setSched p (roundGoesOn [] ((lineIdle p 0 s).sched p)))
    have hsched : ((lineIdle p 0 s).setSched p (roundGoesOn [] ((lineIdle p 0 s).sched p))).sched p =
      roundGoesOn [] (s.sched p) := State.sched_setSched_same _ _ _
    rw [hout, makeDecision_of_idle _ _ (by rw [T.work.round, hsched]; rfl)
      (by rw [T.work.active, hsched]; exact ha) (by rw [T.work.queue, hsched]; exact hq),
      settle_of_none_discarded (T.beside.discarded.trans hd)] at hrun
    refine hrun.trans (congrArg Host.Outcome.next ?_)
    have hends : roundGoesOn [] (s.sched p) =
        { s.sched p with owner := none, round := .none, lateMark := none, roundList := [], roundStep := none } := by
      unfold roundGoesOn
      rw [if_pos rfl, if_pos rfl, ← hheld]
    rw [show (lineIdle p 0 s).sched p = s.sched p from rfl, hends]
    rfl

/-- Settles O41, by its two parts. -/
theorem pollReadingReachesTheSensor : Obligations.PollReadingReachesTheSensor :=
  ⟨goodReadingReachesTheSensor, roundExchangeEnds⟩

end Sys2Proof.Claims
end

section
set_option Elab.async false
/-! SUPPORT. The end of a STOPPING link's attempt (R32, R33). -/

namespace Sys2Proof.Claims

open Sys2Proof.Machine

variable {s t u v x z d : State} {p : PortId} {j k : SlotId} {a : Attempt} {c : Instr} {e : AttemptEnd} {r : Result}

theorem endAttempt_stopping (ha : (s.link p).attempt = some a) (hst : (s.link p).state = .stopping) :
    endAttempt p e s = finishStopping p (outcomeOf (s.link p) a e) (lineIdle p (s.link p).failures s) := by
  unfold endAttempt
  simp only [ha, hst]
  rw [outcomeOf_finished]
  unfold lineIdle exchangeEnded
  rw [State.link_setLink_same, State.setLink_setLink, hst]

/-- The link in DISABLED, after an attempt that ended at `now`. -/
theorem disabledLink_exchangeEnded (le : LinkEngine) (now : Time) : disabledLink (exchangeEnded le le.failures now) =
    { le with
      state := .disabled, failures := 0, retryGapTimer := none, retrainTimer := none, training := none, attempt := none
      lastEnd := some now } := rfl

/-- The PORT_STOP in flight is answered in a state that keeps its slot and its entry. -/
theorem AnswersFor.of_kept {o : AdminObject} (h : AnswersFor o k s u) (hx : x.axInFlight = s.axInFlight)
    (hslot : x.slot k = s.slot k) (hc : (x.cr (s.slot k).cr).state = (s.cr (s.slot k).cr).state) :
    AnswersFor o k x { x with axInFlight := u.axInFlight } := by
  refine ⟨by rw [hx]; exact h.entry, ?_, by rw [hslot]; exact h.active, by rw [hslot]; exact h.alone, ?_⟩
  · rw [h.taken, hx]
  · rw [hslot, hc]
    exact h.ring

theorem AnswersFor.answered {o : AdminObject} (h : AnswersFor o k x u) (hd : x.discarded = []) :
    Answered k r u (settle (completeInFlight o r x)) := by
  have hslot : u.slot k = x.slot k := by rw [h.taken]; rfl
  have hready := h.ready hd
  obtain ⟨A, hd'⟩ := completeSlot_effect r hready.request
  rw [h.completes, settle_of_none_discarded (hd'.trans hready.settled)]
  unfold Concluded at A
  rw [hslot, h.alone] at A
  exact A

/-- A transaction that has been answered on a STOPPING link leaves it in DISABLED, and the PORT_STOP is answered. -/
theorem finishStopping_concluded {o : ExchangeOutcome} {y : State} (hdeliver : deliverOutcome p true o y = d)
    (A : Concluded j r z d) (hd : d.discarded = []) (hslots : z.slots = s.slots) (hcrs : z.crs = s.crs)
    (hax : z.axInFlight = s.axInFlight) (hA : AnswersFor (.port p) k s u) (hjk : j ≠ k)
    (hreq : (s.slot j).abortRequester ≠ some k) : ∃ v,
    Concluded j r (z.setLink p (disabledLink (z.link p))) v ∧
      Answered k (plain .success) { v with axInFlight := u.axInFlight } (settle (finishStopping p o y)) := by
  have hslot : ∀ i, z.slot i = s.slot i := fun i => by unfold State.slot; rw [hslots]
  refine ⟨enterDisabled p d, ?_, ?_⟩
  · rw [enterDisabled_eq, A.beside.link]
    exact A.link p _
  · unfold finishStopping
    dsimp only
    rw [hdeliver, settle_of_none_discarded hd]
    refine (hA.of_kept ?_ ?_ ?_).answered hd
    · exact (A.beside.axInFlight).trans hax
    · exact (A.otherSlots k hjk.symm (by rw [hslot]; exact hreq)).trans (hslot k)
    · refine (A.cr_state _).trans ?_
      unfold State.cr
      rw [hcrs]

theorem setPositionTreated_of_setLink {n : SensorId} {target : Int} {made : Nat} {time : Time} {first : Heard}
    {again : Option Heard} {le : LinkEngine} (h : SetPositionTreated n target made time first again (x.setLink p le) r z) :
    ∃ y, SetPositionTreated n target made time first again x r y ∧ z = y.setLink p le := by
  have htake := (setPositionTreated_iff (heardReading_says n time first again) target made r).1 h
  rw [takeSetPosition_setLink] at htake
  obtain ⟨hz, hr⟩ := Prod.mk.inj htake
  exact ⟨_, (setPositionTreated_iff (heardReading_says n time first again) target made r).2 (Prod.ext rfl hr), hz.symm⟩

/-- An exchange's own result does not turn on the links. -/
theorem OwnResult.of_setLink {word : BitVec 32} {ps : Scheduler} {le : LinkEngine}
    (h : OwnResult k a word ps e (x.setLink p le) r z) : ∃ y, OwnResult k a word ps e x r y ∧ z = y.setLink p le := by
  unfold OwnResult at h ⊢
  dsimp only at h ⊢
  rw [State.slot_setLink] at h
  split at h
  · exact ⟨x, ⟨h.1, rfl⟩, h.2⟩
  · exact ⟨x, ⟨h.1, rfl⟩, h.2⟩
  · exact ⟨x, ⟨h.1, rfl⟩, h.2⟩
  · obtain ⟨hlast, ⟨hnone, ht⟩ | ⟨o, g, hsome, ho, ht⟩⟩ := h
    · obtain ⟨y, hy, hz⟩ := setPositionTreated_of_setLink ht
      exact ⟨y, ⟨hlast, .inl ⟨hnone, hy⟩⟩, hz⟩
    · obtain ⟨y, hy, hz⟩ := setPositionTreated_of_setLink ht
      exact ⟨y, ⟨hlast, .inr ⟨o, g, hsome, ho, hy⟩⟩, hz⟩
  · split at h
    · next hal => exact ⟨x, (if_pos hal).mpr ⟨h.1, rfl⟩, h.2⟩
    · next hal => exact ⟨_, (if_neg hal).mpr ⟨h.1, rfl⟩, h.2⟩
  · exact h.elim

theorem CompletesWith.axInFlight (X : CompletesWith p k r (idled p s) x z) : z.axInFlight = s.axInFlight := by
  rw [← X.left]
  exact X.treated.beside.axInFlight

theorem CompletesWith.links (X : CompletesWith p k r (idled p s) x z) : z.links = s.links := by
  rw [← X.left]
  exact X.treated.beside.links

/-- What cutting an idle transaction short leaves (R162). -/
theorem cutActive_idled {st : Status} {done : Nat} (ha : (s.sched p).active = some k) (hc : Concludable k s) :
    Concluded k (cutShort st done (s.slot k).body (s.sched p).progress.values)
        (s.setSched p (withoutActive (idleSched (s.sched p)))) (cutActive p st done (idled p s)) ∧
      (cutActive p st done (idled p s)).discarded = s.discarded := by
  have h := cutActive_concludes (s := idled p s) (p := p) (st := st) (done := done) (j := k)
    (by rw [idled_sched]; exact ha) (hc.of_kept rfl (fun _ _ => rfl) fun _ => rfl)
  rw [idled_sched] at h
  unfold idled at h ⊢
  rw [State.setSched_setSched] at h
  exact h

theorem lineIdle_disabled (p : PortId) (s : State) (ps : Scheduler) :
    ((lineIdle p (s.link p).failures s).setSched p ps).setLink p
        (disabledLink (((lineIdle p (s.link p).failures s).setSched p ps).link p)) =
      (s.setLink p { s.link p with
        state := .disabled, failures := 0, retryGapTimer := none, retrainTimer := none, training := none, attempt := none
        lastEnd := some s.time }).setSched p ps := by
  unfold lineIdle
  rw [State.link_setSched, State.link_setLink_same, State.setLink_setSched, State.setLink_setLink]
  rfl

/-- A transaction's exchange that fails on a STOPPING link cuts it short (R32). -/
theorem finishStopping_failed {f : LinkFault} (hown : (s.sched p).owner = some .transaction) (ha : (s.sched p).active = some j)
    (hcl : Concludable j s) (hd : s.discarded = []) (hA : AnswersFor (.port p) k s u) (hjk : j ≠ k)
    (hreq : (s.slot j).abortRequester ≠ some k) : ∃ v,
    Concluded j (cutShort .portStopped (s.sched p).exchangesDone (s.slot j).body (s.sched p).progress.values)
      ((s.setLink p { s.link p with
        state := .disabled, failures := 0, retryGapTimer := none, retrainTimer := none, training := none, attempt := none
        lastEnd := some s.time }).setSched p (withoutActive { s.sched p with owner := none })) v ∧
    Answered k (plain .success) { v with axInFlight := u.axInFlight }
      (settle (finishStopping p (outcomeOf (s.link p) a (.fault f)) (lineIdle p (s.link p).failures s))) := by
  have hdeliver : deliverOutcome p true (outcomeOf (s.link p) a (.fault f)) (lineIdle p (s.link p).failures s) =
      cutActive p .portStopped (s.sched p).exchangesDone (idled p (lineIdle p (s.link p).failures s)) := by
    unfold deliverOutcome
    rw [show ((lineIdle p (s.link p).failures s).sched p).owner = some .transaction from hown]
    exact transactionOutcome_failed rfl ha
  obtain ⟨A, hd'⟩ := cutActive_idled (s := lineIdle p (s.link p).failures s) (st := .portStopped)
    (done := (s.sched p).exchangesDone) ha (hcl.of_kept rfl (fun _ _ => rfl) fun _ => rfl)
  obtain ⟨v, B, C⟩ := finishStopping_concluded (s := s) hdeliver A (hd'.trans hd) rfl rfl rfl hA hjk hreq
  rw [lineIdle_disabled] at B
  exact ⟨v, B, C⟩

/-- The end of a transaction's exchange on a STOPPING link settles the transaction and the PORT_STOP (R32, R33). -/
theorem stoppingSettlesTheTransaction : StoppingSettlesTheTransaction := by
  intro j k a e c s u hC hcl hE p hround hA hjk hreq ps gone
  have hrun : exec c s = .next (settle (finishStopping p (outcomeOf (s.link p) a e) (lineIdle p (s.link p).failures s))) := by
    rw [(hE.exec hC.owns).1, endAttempt_stopping hC.attempt hC.running]
  have hown : ((lineIdle p (s.link p).failures s).sched p).active = some j := hC.own
  have hcl' : Concludable j (lineIdle p (s.link p).failures s) := hcl.of_kept rfl (fun _ _ => rfl) fun _ => rfl
  have hdeliver : deliverOutcome p true (outcomeOf (s.link p) a e) (lineIdle p (s.link p).failures s) =
      transactionOutcome p true (outcomeOf (s.link p) a e) (lineIdle p (s.link p).failures s) := by
    unfold deliverOutcome
    rw [show ((lineIdle p (s.link p).failures s).sched p).owner = some .transaction from hC.owner]
  have hgone : ((lineIdle p (s.link p).failures s).setSched p (withoutActive (idleSched ps))).setLink p
      (disabledLink (((lineIdle p (s.link p).failures s).setSched p (withoutActive (idleSched ps))).link p)) = gone :=
    lineIdle_disabled p s (withoutActive (idleSched ps))
  refine ⟨_, hrun, fun f hf => ?_, fun values hM => ?_, fun r z hO => ?_⟩
  · subst hf
    exact finishStopping_failed hC.owner hC.own hcl hC.settled hA hjk hreq
  · obtain ⟨hx, hvalues⟩ := moreToCome_outcome (s := lineIdle p (s.link p).failures s) (le := s.link p) (a := a)
      (stopping := true) hown rfl hM
    rw [hx, continueTransaction_stopping] at hdeliver
    obtain ⟨A, hd⟩ := cutActive_gathered (st := .portStopped) (done := ps.exchangesDone + 1)
      (g := progressAfter a ((s.link p).identity[a.address]).word ps.progress e) hown hcl'
    obtain ⟨v, B⟩ := finishStopping_concluded (s := s) hdeliver A (hd.trans hC.settled) rfl rfl rfl hA hjk hreq
    rw [show cutShort .portStopped (ps.exchangesDone + 1) (s.slot j).body values = _ from hvalues _ _]
    exact ⟨v, hgone ▸ B⟩
  · rw [← hgone] at hO
    obtain ⟨y, hO', hz⟩ := hO.of_setLink
    obtain ⟨x, hx, X⟩ := ownResult_outcome (le := s.link p) (stopping := true) hown hO'
    rw [hx] at hdeliver
    obtain ⟨A, hd⟩ := X.concludes hcl'
    obtain ⟨v, B⟩ := finishStopping_concluded (s := s) hdeliver A (hd.trans hC.settled) X.slots X.crs X.axInFlight hA hjk hreq
    have hlink : y.link p = ((lineIdle p (s.link p).failures s).setSched p (withoutActive (idleSched ps))).link p := by
      unfold State.link
      rw [X.links]
      rfl
    rw [hlink, ← hz] at B
    exact ⟨v, B⟩

/-- An outcome that no transaction owns on a STOPPING link is discarded (R32). -/
theorem deliverOutcome_discarded {o : ExchangeOutcome} (hround : (s.sched p).round = .none)
    (hown : (s.sched p).owner ≠ some .transaction) :
    deliverOutcome p true o s = s.setSched p { s.sched p with owner := none } := by
  unfold deliverOutcome
  cases hw : (s.sched p).owner with
  | none =>
    have hself : { s.sched p with owner := none } = s.sched p := by rw [← hw]
    rw [hself]
    exact (State.setSched_self s p).symm
  | some o =>
    cases o with
    | transaction => exact absurd hw hown
    | round => exact roundOutcome_of_none hround

theorem stoppingDiscardsOrFails : StoppingDiscardsOrFails := by
  intro p a e c k s hE hst hround hd disabled
  have hrun : exec c s = .next (settle (finishStopping p (outcomeOf (s.link p) a e) (lineIdle p (s.link p).failures s))) := by
    rw [hE.exec, endAttempt_stopping hE.1 hst]
  refine ⟨fun u hown hA => ?_, fun j f u hf hown hact hjk hj hreq hring hA => ?_⟩
  · have hdeliver := deliverOutcome_discarded (s := lineIdle p (s.link p).failures s) (o := outcomeOf (s.link p) a e) hround hown
    have hfinish : finishStopping p (outcomeOf (s.link p) a e) (lineIdle p (s.link p).failures s) =
        completeInFlight (.port p) (plain .success) ((s.setLink p disabled).setSched p { s.sched p with owner := none }) := by
      unfold finishStopping
      dsimp only
      rw [hdeliver, settle_of_none_discarded (s := (lineIdle p (s.link p).failures s).setSched p _) hd, enterDisabled_eq]
      unfold lineIdle
      rw [State.link_setSched, State.link_setLink_same, State.setLink_setSched, State.setLink_setLink]
      rfl
    rw [hfinish, hA.completes] at hrun
    exact (hA.ready hd).complete hrun
  · subst hf
    obtain ⟨v, B, C⟩ := finishStopping_failed (a := a) (f := f) hown hact
      ⟨.inr (.inr hj), hring, fun i hi => by rw [hreq] at hi; cases hi⟩ hd hA hjk (by rw [hreq]; exact nofun)
    refine ⟨_, hrun, v, ?_, C⟩
    unfold Concluded at B
    rwa [State.slot_setSched, State.slot_setLink, hreq] at B

/-- Settles O44, by its two parts. -/
theorem stoppingEndsInDisabled : Obligations.StoppingEndsInDisabled := ⟨stoppingDiscardsOrFails, stoppingSettlesTheTransaction⟩

end Sys2Proof.Claims
end

section
set_option Elab.async false
/-! SUPPORT. The timers of a port (R20, R26, R30, R37 to R41, R47). -/

namespace Sys2Proof.Claims

open Sys2Proof.Machine

variable {s t u v : State} {p : PortId}

/-! ### The retry-gap and retrain timers (R26, R30) -/

theorem expired_some (now t : Time) : expired now (some t) = reached now t := rfl

theorem execRetryGapExpiry_eq {t : Time} (h : (s.link p).retryGapTimer = some t) :
    exec (.retryGapExpiry p) s = if reached s.time t = true then .next (s.setLink p { s.link p with
      retryGapTimer := none
      state := if (s.link p).state = .retryWait then .running else (s.link p).state }) else .next s := by
  change execRetryGapExpiry p s = _
  unfold execRetryGapExpiry
  dsimp only
  rw [h, expired_some]

theorem execRetrainTimerExpiry_eq {t : Time} (h : (s.link p).retrainTimer = some t) :
    exec (.retrainTimerExpiry p) s =
      if (s.link p).state = .down ∧ reached s.time t = true then .next (enterTraining p .retrain s) else .next s := by
  change execRetrainTimerExpiry p s = _
  unfold execRetrainTimerExpiry
  dsimp only
  rw [h, expired_some]

/-- Settles O45: each timer acts at its expiry and not before. -/
theorem linkTimersExpire : Obligations.LinkTimersExpire := by
  intro p t s
  refine ⟨fun h hr => ?_, fun hst h hr => ?_, fun h hr => ?_, fun h hr => ?_⟩
  · rw [execRetryGapExpiry_eq h, if_pos hr]
  · rw [execRetrainTimerExpiry_eq h, if_pos ⟨hst, hr⟩]
    rfl
  · rw [execRetryGapExpiry_eq h, if_neg (by rw [hr]; exact Bool.false_ne_true)]
  · rw [execRetrainTimerExpiry_eq h, if_neg (by rw [hr]; exact fun hn => Bool.false_ne_true hn.2)]

/-! ### The cycle timer (Table 14) -/

/-- A scheduler whose cycle timer has been reloaded from its expiry time (R37). -/
def reloaded (ps : Scheduler) (t0 : Time) : Scheduler :=
  { ps with cycleTimer := some (after t0 (125 * ps.periodInForce)) }

theorem execCycleTimerExpiry_eq {t0 : Time} (h : (s.sched p).cycleTimer = some t0) (hr : reached s.time t0 = true) :
    exec (.cycleTimerExpiry p) s = .next (settle (cycleExpiry p (s.setSched p (reloaded (s.sched p) t0)))) := by
  change execCycleTimerExpiry p s = _
  unfold execCycleTimerExpiry
  dsimp only
  rw [h]
  dsimp only
  rw [if_pos hr, Nat.mul_comm]
  rfl

/-- A missed cycle: each ACQUIRING sensor of the port is given one missed reading (R39). -/
theorem missAll_effect (p : PortId) (s : State) : missAll p s = { s with sensors := (missAll p s).sensors } ∧
    ∀ n, (missAll p s).sensor n = if portOf n = p ∧ (s.sensor n).state = .acquiring then
      { s.sensor n with missed := min 255 ((s.sensor n).missed + 1) } else s.sensor n := by
  unfold missAll acquiringOf
  obtain ⟨h1, h2⟩ := missReading_fold ((sensorsOf p).filter fun n => (s.sensor n).state = .acquiring)
    ((sensorsOf_nodup p).filter _) s
  refine ⟨h1, fun n => (h2 n).trans (if_congr ?_ rfl rfl)⟩
  rw [List.mem_filter, mem_sensorsOf, decide_eq_true_eq]

/-- The four cases of Table 14. -/
theorem cycleExpiry_missed (h : (s.sched p).round ≠ .none ∨ (s.sched p).hold = true) : cycleExpiry p s = missAll p s := by
  unfold cycleExpiry
  by_cases hr : (s.sched p).round ≠ .none
  · exact if_pos hr
  · exact (if_neg hr).trans (if_pos (h.resolve_left hr))

theorem cycleExpiry_due (h : (s.sched p).round = .none) (hh : (s.sched p).hold = false)
    (ho : (s.sched p).owner = some .transaction) :
    cycleExpiry p s = s.setSched p { s.sched p with round := .due, lateMark := some true } := by
  unfold cycleExpiry
  dsimp only
  rw [if_neg (not_not.2 h), if_neg (by rw [hh]; exact Bool.false_ne_true), if_pos ho]

theorem cycleExpiry_starts (h : (s.sched p).round = .none) (hh : (s.sched p).hold = false)
    (ho : (s.sched p).owner ≠ some .transaction) : cycleExpiry p s = makeDecision p (startRound p false s) := by
  unfold cycleExpiry
  dsimp only
  rw [if_neg (not_not.2 h), if_neg (by rw [hh]; exact Bool.false_ne_true), if_neg ho]

/-- A round starts with the ACQUIRING sensors, or ends at once where there is none (R40). -/
theorem startRound_empty {late : Bool} (h : acquirers p s = []) :
    startRound p late s = s.setSched p { s.sched p with round := .none, lateMark := none, roundList := [] } := by
  unfold startRound
  rw [show acquiringOf p s = [] from h]
  rfl

theorem startRound_cons {late : Bool} (h : acquirers p s ≠ []) :
    startRound p late s =
      s.setSched p { s.sched p with round := .inProgress, lateMark := some late, roundList := acquirers p s } := by
  unfold startRound
  exact if_neg fun he => h (List.isEmpty_iff.1 he)

/-- The first exchange of a round's head entry (R41). -/
theorem offerRound_position {n : SensorId} {rest : List SensorId} {ps : Scheduler} (h : ps.roundList = n :: rest)
    (hheld : ps.heldPosition = none) : offerRound p (s.setSched p ps) =
      (s.setLink p { s.link p with attempt := some (freshAttempt (addrOf n) .position) }).setSched p
        { ps with roundStep := some .position, owner := some .round } := by
  have hps : (s.setSched p ps).sched p = ps := State.sched_setSched_same _ _ _
  rw [offerRound_eq (by rw [hps]; exact h), hps, if_pos hheld, if_pos hheld, State.setSched_setSched]
  unfold offered
  rw [State.link_setSched, State.setLink_setSched, State.sched_setSched_same, State.setSched_setSched]

theorem cycleExpiryByCase : CycleExpiryByCase := by
  intro p t0 s ht hr hd timer
  have hrun := execCycleTimerExpiry_eq ht hr
  have hps : (s.setSched p (reloaded (s.sched p) t0)).sched p = reloaded (s.sched p) t0 := State.sched_setSched_same _ _ _
  refine ⟨fun hmiss => ?_, fun h0 hh ho => ?_, fun n rest h0 hh ho hheld hst hat hl => ?_⟩
  · rw [cycleExpiry_missed (by rw [hps]; exact hmiss)] at hrun
    obtain ⟨h1, h2⟩ := missAll_effect p (s.setSched p (reloaded (s.sched p) t0))
    rw [settle_of_none_discarded (by rw [h1]; exact hd)] at hrun
    exact ⟨_, hrun, h1, h2⟩
  · have hdue := cycleExpiry_due (s := s.setSched p (reloaded (s.sched p) t0)) (p := p) (by rw [hps]; exact h0)
      (by rw [hps]; exact hh) (by rw [hps]; exact ho)
    rw [hps, State.setSched_setSched] at hdue
    rw [hrun, hdue]
    exact congrArg Host.Outcome.next (settle_of_none_discarded (s := s.setSched p _) hd)
  · have hnot : ((s.setSched p (reloaded (s.sched p) t0)).sched p).owner ≠ some .transaction := by
      rw [hps, show (reloaded (s.sched p) t0).owner = none from ho]
      exact nofun
    have hacq : acquirers p (s.setSched p (reloaded (s.sched p) t0)) = n :: rest := hl
    rw [cycleExpiry_starts (by rw [hps]; exact h0) (by rw [hps]; exact hh) hnot,
      startRound_cons (by rw [hacq]; exact List.cons_ne_nil _ _), hacq, hps, State.setSched_setSched] at hrun
    have hoffer := offerRound_position (s := s) (p := p) (n := n) (rest := rest) (ps := { reloaded (s.sched p) t0 with
      round := .inProgress, lateMark := some false, roundList := n :: rest }) rfl hheld
    have hmay : MayDecide p (s.setSched p { reloaded (s.sched p) t0 with
        round := .inProgress, lateMark := some false, roundList := n :: rest }) := by
      unfold MayDecide
      rw [State.sched_setSched_same]
      exact ⟨hst, hat, ho⟩
    rw [makeDecision_of_round (by rw [State.sched_setSched_same]) ((mayDecide_iff _ _).2 hmay), hoffer] at hrun
    exact hrun.trans (congrArg Host.Outcome.next (settle_of_none_discarded (s := (s.setLink p _).setSched p _) hd))

theorem immediateRoundIsDecided : ImmediateRoundIsDecided := by
  intro p t0 s ht hr hd h0 hh ho hq reloaded'
  have hrun := execCycleTimerExpiry_eq ht hr
  have hps : (s.setSched p (reloaded (s.sched p) t0)).sched p = reloaded (s.sched p) t0 := State.sched_setSched_same _ _ _
  rw [cycleExpiry_starts (by rw [hps]; exact h0) (by rw [hps]; exact hh) (by rw [hps]; exact ho)] at hrun
  have hdecide : ∀ ps : Scheduler, ps.active = (s.sched p).active → ps.queue = (s.sched p).queue →
      settle (makeDecision p (s.setSched p ps)) = makeDecision p (s.setSched p ps) ∧
        Decides p (s.setSched p ps) (makeDecision p (s.setSched p ps)) := fun ps ha hqu => by
    have hsched : (s.setSched p ps).sched p = ps := State.sched_setSched_same _ _ _
    refine decided (fun hn => ?_) hd
    rw [hsched, ha] at hn
    have h := hq hn
    exact ⟨by rw [hsched, hqu]; exact h.distinct, by rw [hsched, hqu]; exact h.waiting⟩
  refine ⟨fun hl => ?_, fun hl => ?_⟩
  · rw [startRound_empty (s := s.setSched p _) hl, hps, State.setSched_setSched] at hrun
    obtain ⟨hset, D⟩ := hdecide { reloaded (s.sched p) t0 with round := .none, lateMark := none, roundList := [] } rfl rfl
    exact ⟨_, hrun.trans (congrArg _ hset), D⟩
  · rw [startRound_cons (s := s.setSched p _) hl, hps, State.setSched_setSched] at hrun
    obtain ⟨hset, D⟩ := hdecide { reloaded (s.sched p) t0 with
      round := .inProgress, lateMark := some false, roundList := acquirers p s } rfl rfl
    exact ⟨_, hrun.trans (congrArg _ hset), D⟩

/-- Settles O46, by its two parts. -/
theorem cycleExpiryFollowsTable14 : Obligations.CycleExpiryFollowsTable14 := ⟨cycleExpiryByCase, immediateRoundIsDecided⟩

end Sys2Proof.Claims
end

section
set_option Elab.async false
/-! SUPPORT. The events of a capture line (R91, R92, R93, R96). -/

namespace Sys2Proof.Machine

variable {s : State} {l : LineId} {q : Qualification} {level : Bool}

/-! ### Samples of the input (R91) -/

theorem exec_captureInputTransition (l : LineId) (level : Bool) (s : State) :
    exec (.captureInputTransition l level) s = .next (s.setLine l ((s.line l).sampled level s.time)) := rfl

theorem sampled_same {c : CaptureLine} {now : Time} (h : level = c.recognised) :
    c.sampled level now = { c with input := level, qualification := none } := if_pos h

theorem sampled_starts {c : CaptureLine} {now : Time} (h : level ≠ c.recognised) (hq : c.qualification = none) :
    c.sampled level now =
      { c with input := level, qualification := some { level := level, since := now, configured := none } } := by
  unfold CaptureLine.sampled
  rw [if_neg h, hq]

theorem sampled_continues {c : CaptureLine} {now : Time} (h : level ≠ c.recognised) (hq : c.qualification = some q) :
    c.sampled level now = { c with input := level } := by
  unfold CaptureLine.sampled
  rw [if_neg h, hq]

/-! ### A recognised transition (R92, R93, R96) -/

theorem qualified_iff (c : CaptureLine) (q : Qualification) (now : Time) : c.qualified q now = true ↔
    reached now (after q.since c.filter) = true ∧ ∀ t0, q.configured = some t0 → reached now (after t0 1) = true := by
  unfold CaptureLine.qualified
  rw [Bool.and_eq_true]
  cases q.configured with
  | none => simp
  | some t => simp

theorem isEdge_iff (e : EdgeSelect) (level : Bool) : e.isEdge level = true ↔
    (e = .rising ∧ level = true) ∨ (e = .falling ∧ level = false) ∨ e = .both := by
  cases e <;> cases level <;> simp [EdgeSelect.isEdge]

theorem actsOn_iff (c : CaptureLine) (q : Qualification) : c.actsOn q = true ↔
    ((c.edgeSelect = .rising ∧ q.level = true) ∨ (c.edgeSelect = .falling ∧ q.level = false) ∨ c.edgeSelect = .both) ∧
      c.arm ≠ .disarmed ∧ ∃ t0, c.armTime = some t0 ∧ t0 ≤ q.since := by
  unfold CaptureLine.actsOn
  rw [Bool.and_eq_true, Bool.and_eq_true, isEdge_iff, bne_iff_ne, Option.any_eq_true, and_assoc]
  simp only [decide_eq_true_eq]

theorem execTransitionRecognised_eq (h : (s.line l).qualification = some q) : exec (.transitionRecognised l) s =
    if (s.line l).qualified q s.time = true then .next (recognise l q s) else .next s := by
  change execTransitionRecognised l s = _
  unfold execTransitionRecognised
  rw [h]

theorem recognise_idle (h : ¬ (s.line l).actsOn q = true) :
    recognise l q s = s.setLine l { s.line l with recognised := q.level, qualification := none } := by
  unfold recognise
  exact if_neg h

/-- The reference that a pending capture of a sensor takes from a ONCE line (R96). -/
theorem reference_of (c : CaptureLine) (n : SensorId) :
    ((if c.arm = .once then c.reference else none).bind fun r => if r.sensor = n then some r.position else none) =
      if c.arm = .once then
        (match c.reference with
        | some r => if r.sensor = n then some r.position else none
        | none => none) else none := by
  split
  · cases c.reference <;> rfl
  · rfl

end Sys2Proof.Machine

namespace Sys2Proof.Claims

open Sys2Proof.Machine

theorem inputSampleStartsOrEndsQualification : InputSampleStartsOrEndsQualification := by
  intro l level s
  refine ⟨fun h => ?_, fun h hq => ?_, fun q h hq => ?_⟩ <;> rw [exec_captureInputTransition]
  · rw [sampled_same h]
  · rw [sampled_starts h hq]
  · rw [sampled_continues h hq]

theorem recognisedEdgeSetsCaptures : RecognisedEdgeSetsCaptures := by
  intro l q s hq
  have hrun := execTransitionRecognised_eq hq
  refine ⟨fun h => ?_, fun hr hc => ?_⟩
  · rw [hrun, if_neg fun hn => h ((qualified_iff _ _ _).1 hn)]
  intro c acted
  rw [if_pos ((qualified_iff _ _ _).2 ⟨hr, hc⟩)] at hrun
  have hline : ∀ m x, m ≠ l → (s.setLine l x).line m = s.line m := fun m x hm => State.line_setLine_ne s l m x hm.symm
  by_cases ha : acted
  · obtain ⟨v, hv, hsensor⟩ := recognise_effect l q s ((actsOn_iff _ _).2 ha)
    rw [hv] at hrun
    refine ⟨_, hrun, rfl, fun m hm => hline m _ hm, fun _ ho => ?_, fun hn => ?_, fun n => ⟨fun hn => ?_, fun _ hst hmask => ?_⟩⟩
    · refine (State.line_setLine_same s l _).trans ((if_pos ho).trans rfl)
    · exact (State.line_setLine_same s l _).trans (if_neg fun ho => hn ⟨ha, ho⟩)
    · refine (hsensor n).trans (if_neg fun hn' => hn ⟨ha, hn'.1, hn'.2⟩)
    · refine (hsensor n).trans ?_
      unfold edgeAtSensor
      rw [if_pos ⟨hst, hmask⟩]
      cases hcap : (s.sensor n).captures[l] with
      | some x => rfl
      | none =>
        dsimp only
        rw [reference_of] <;> rfl
  · rw [recognise_idle fun hn => ha ((actsOn_iff _ _).1 hn)] at hrun
    exact ⟨_, hrun, rfl, fun m hm => hline m _ hm, fun h _ => absurd h ha, fun _ => State.line_setLine_same s l _,
      fun n => ⟨fun _ => rfl, fun h => absurd h ha⟩⟩

/-- Settles O47, by its two parts. -/
theorem captureEvents : Obligations.CaptureEvents := ⟨inputSampleStartsOrEndsQualification, recognisedEdgeSetsCaptures⟩

end Sys2Proof.Claims
end

section
set_option Elab.async false
/-! SUPPORT. Delivery: the end of a sample's write (R112 to R114), the notice list (R152, R153), the coalescing timer (R166). -/

namespace Sys2Proof.Machine

open Sys2Proof.Claims

variable {s : State} {w : RecordWrite} {behind rest : List OutItem}

/-! ### The end of a sample's write (R112) -/

theorem execSampleWriteEnd_oldest {i : SrId} (h : Oldest w behind rest s) (hk : w.kind = .sample i) :
    exec .sampleWriteEnd s = .next (sampleWriteReport i w (writeFails s.msix.busMaster w)
      (writeEnded w behind rest (!writeFails s.msix.busMaster w) s)) := by
  change execSampleWriteEnd s = _
  unfold execSampleWriteEnd
  rw [h.1]
  dsimp only
  rw [hk, endWrite_effect h]

theorem writeFails_of_errs (h : Errs w s) : writeFails s.msix.busMaster w = true := (writeFails_iff w s).2 h

theorem writeFails_of_not_errs (h : ¬ Errs w s) : writeFails s.msix.busMaster w = false :=
  Bool.eq_false_iff.2 fun hf => h ((writeFails_iff w s).1 hf)

theorem writable_iff (d : SampleRing) : d.writable = true ↔ d.state = .active ∨ d.state = .congested := by
  unfold SampleRing.writable
  rw [Bool.or_eq_true, beq_iff_eq, beq_iff_eq]

/-- A ring that takes records faults with the entry whose write failed (R112). -/
theorem sampleRingFault_writable {i : SrId} {entry : Nat} (h : (s.sr i).writable = true) :
    sampleRingFault i entry s = raiseNotice (.sr i) (BitVec.ofNat 32 (entry % 65536)) s.time
      { s.setSr i { s.sr i with state := .faulted, failedEntry := some entry } with
        sensors := s.sensors.map fun c => if c.ring = i then { c with held := [] } else c } := by
  unfold sampleRingFault
  exact if_pos h

theorem sampleRingFault_other {i : SrId} {entry : Nat} (h : ¬ (s.sr i).writable = true) : sampleRingFault i entry s = s :=
  if_neg h

/-! ### The coalescing timer (R166) -/

theorem messageDue_blocked {v : VectorId} (h : s.msix.blocked v = true) :
    messageDue v s = { s with msix := { s.msix with pending := s.msix.pending.set v true } } := by
  unfold messageDue
  rw [if_pos (by rw [h]; rfl)]
  exact if_pos h

theorem messageDue_sent {v : VectorId} (h : s.msix.blocked v = false) (ho : s.outbox = []) :
    messageDue v s = { s with sent := s.sent ++ [.message (s.msix.messageOf v)] } := by
  unfold messageDue
  rw [if_pos (by rw [ho]; exact Bool.or_true _)]
  exact if_neg (by rw [h]; exact Bool.false_ne_true)

theorem messageDue_behind {v : VectorId} (h : s.msix.blocked v = false) (ho : s.outbox ≠ []) :
    messageDue v s = { s with outbox := s.outbox ++ [.message v] } := by
  unfold messageDue
  rw [h, Bool.false_or, if_neg fun hn => ho (List.isEmpty_iff.1 hn)]

theorem execCoalescingTimerExpiry_cr {r : CrId} {t0 : Time} (h : (s.cr r).interrupt.timer = some t0)
    (hr : reached s.time t0 = true) : exec (.coalescingTimerExpiry (.cr r)) s =
      .next (messageDue (s.cr r).vector (s.setCr r { s.cr r with interrupt := { count := 0, timer := none } })) := by
  change execCoalescingTimerExpiry (.cr r) s = _
  unfold execCoalescingTimerExpiry
  exact if_pos (by rw [h]; exact hr)

theorem execCoalescingTimerExpiry_sr {r : SrId} {t0 : Time} (h : (s.sr r).interrupt.timer = some t0)
    (hr : reached s.time t0 = true) : exec (.coalescingTimerExpiry (.sr r)) s =
      .next (messageDue (s.sr r).vector (s.setSr r { s.sr r with interrupt := { count := 0, timer := none } })) := by
  change execCoalescingTimerExpiry (.sr r) s = _
  unfold execCoalescingTimerExpiry
  exact if_pos (by rw [h]; exact hr)

/-! ### The notice list (R152, R153) -/

theorem raiseNotice_append {src : NoticeSource} {detail : BitVec 32} {time : Time} (h : ∀ n ∈ s.notices, n.source ≠ src) :
    raiseNotice src detail time s = { s with
      notices := s.notices ++ [{ source := src, detail := detail, firstTime := time, occurrences := 1 }] } := by
  unfold raiseNotice
  refine if_neg fun hn => ?_
  obtain ⟨n, hmem, hsrc⟩ := List.any_eq_true.1 hn
  exact h n hmem (beq_iff_eq.1 hsrc)

theorem raiseNotice_again {src : NoticeSource} {detail : BitVec 32} {time : Time} {n : Notice} (hmem : n ∈ s.notices)
    (hsrc : n.source = src) : raiseNotice src detail time s = { s with
      notices := s.notices.map fun n => if n.source = src then n.again detail else n } := by
  unfold raiseNotice
  exact if_pos (List.any_eq_true.2 ⟨n, hmem, by rw [hsrc]; exact beq_self_eq_true src⟩)

/-- Notices of other sources are left as they are (R152). -/
theorem map_again_others {src : NoticeSource} {detail : BitVec 32} {l : List Notice} (h : ∀ n ∈ l, n.source ≠ src) :
    (l.map fun n => if n.source = src then n.again detail else n) = l :=
  (List.map_congr_left fun n hn => if_neg (h n hn)).trans (List.map_id _)

theorem execNoticeWrite_cons {n : Notice} {notices : List Notice} (h : s.notices = n :: notices) : exec .noticeWrite s =
    if (s.cr 0).state = .active ∧ 0 < (s.cr 0).unreserved then .next (writeNotice n notices s) else .next s := by
  change execNoticeWrite s = _
  unfold execNoticeWrite
  rw [h]

/-- Everything that writing a notice on CR0 does (R153). -/
theorem writeNotice_effect (n : Notice) (notices : List Notice) (s : State) : ∃ it ms m,
    writeNotice n notices s = { s with
      notices := notices
      crs := s.crs.set 0 { s.cr 0 with
        producer := if (s.cr 0).producer + 1 = (s.cr 0).size then 0 else (s.cr 0).producer + 1
        phase := if (s.cr 0).producer + 1 = (s.cr 0).size then !(s.cr 0).phase else (s.cr 0).phase
        interrupt := it }
      outbox := s.outbox ++ .record
        { kind := .notice, entry := (s.cr 0).producer, address := (s.cr 0).base + 32 * (s.cr 0).producer
          data := encodeNotice n (s.cr 0).phase, live := true } :: ms
      msix := m } ∧
    ∀ t : State, t.msix = m → Signalled s t (s.cr 0).vector (s.cr 0).coalescingCount (s.cr 0).coalescingTime false
      (s.cr 0).interrupt it ms := by
  unfold writeNotice
  dsimp only
  generalize hu : (State.setCr _ _ _ : State) = u
  have hne : u.outbox ≠ [] := by rw [← hu]; simp [issueWrite]
  have hcr : u.cr 0 = (s.cr 0).advance := by rw [← hu]; exact State.cr_setCr_same _ 0 _
  obtain ⟨it, ms, m, he, hs⟩ := signalCr_effect 0 false u hne
  rw [hcr, CompletionRing.advance_fields] at he hs
  refine ⟨it, ms, m, ?_, fun t ht => ?_⟩
  · rw [he, ← hu]
    simp [issueWrite, State.setCr]
  · have h := hs t ht
    rw [← hu] at h
    exact h

end Sys2Proof.Machine

namespace Sys2Proof.Claims

open Sys2Proof.Machine

/-- Settles O48: a good end, an error that is disregarded, and one that faults the ring. -/
theorem sampleWriteEnds : Obligations.SampleWriteEnds := by
  intro i w behind rest s h hk
  have hrun := execSampleWriteEnd_oldest h hk
  refine ⟨fun he => ?_, fun he hl => ?_, fun he hl hst => ?_⟩
  · rw [writeFails_of_not_errs he] at hrun
    exact hrun.trans (congrArg Host.Outcome.next (if_neg fun hn => Bool.false_ne_true hn.2))
  · rw [writeFails_of_errs he] at hrun
    refine hrun.trans (congrArg Host.Outcome.next ?_)
    unfold sampleWriteReport
    by_cases hlive : w.live = true
    · refine (if_pos ⟨hlive, rfl⟩).trans (sampleRingFault_other fun hw => ?_)
      have hw' : (s.sr i).writable = true := hw
      rw [writable_iff] at hw'
      obtain hl | hst | hst := hl
      · rw [hlive] at hl
        cases hl
      · rw [hst] at hw'
        exact hw'.elim nofun nofun
      · rw [hst] at hw'
        exact hw'.elim nofun nofun
    · exact if_neg fun hn => hlive hn.1
  · rw [writeFails_of_errs he] at hrun
    refine hrun.trans (congrArg Host.Outcome.next ?_)
    unfold sampleWriteReport
    refine (if_pos ⟨hl, rfl⟩).trans (sampleRingFault_writable ((writable_iff _).2 hst))

/-- Settles O60: the two cases of a raised event. -/
theorem raisedEventCoalesces : Obligations.RaisedEventCoalesces := by
  intro src detail time s
  refine ⟨fun h => raiseNotice_append h, fun before n behind h hsrc hothers => ?_⟩
  rw [raiseNotice_again (by rw [h]; simp) hsrc, h, List.map_append, List.map_cons, if_pos hsrc,
    map_again_others fun x hx => hothers x (List.mem_append_left _ hx),
    map_again_others fun x hx => hothers x (List.mem_append_right _ hx)]
  rfl

/-- Settles O51: a message on a blocked vector, one sent at once, and one behind the writes in flight. -/
theorem coalescingExpirySignals : Obligations.CoalescingExpirySignals := by
  intro ring t0 v s u hr hcr hsr blocked message
  have hrun : exec (.coalescingTimerExpiry ring) s = .next (messageDue v u) ∧ u.msix = s.msix ∧ u.outbox = s.outbox ∧
      u.sent = s.sent := by
    cases ring with
    | cr r =>
      obtain ⟨ht, rfl, rfl⟩ := hcr r rfl
      exact ⟨execCoalescingTimerExpiry_cr ht hr, rfl, rfl, rfl⟩
    | sr r =>
      obtain ⟨ht, rfl, rfl⟩ := hsr r rfl
      exact ⟨execCoalescingTimerExpiry_sr ht hr, rfl, rfl, rfl⟩
  obtain ⟨hrun, hmsix, hout, hsent⟩ := hrun
  have hblocked : u.msix.blocked v = true ↔ blocked := by rw [hmsix]; exact MsixUnit.blocked_iff _ _
  refine ⟨fun hb => ?_, fun hb ho => ?_, fun hb ho => ?_⟩
  · rw [hrun, messageDue_blocked (hblocked.2 hb), hmsix]
  · rw [hrun, messageDue_sent (Bool.eq_false_iff.2 fun hn => hb (hblocked.1 hn)) (by rw [hout]; exact ho), hmsix, hsent]
    rfl
  · rw [hrun, messageDue_behind (Bool.eq_false_iff.2 fun hn => hb (hblocked.1 hn)) (by rw [hout]; exact ho), hout]

/-- Settles O50: with room on CR0 the oldest notice is written, without it nothing is. -/
theorem noticeWriteDeliversTheOldest : Obligations.NoticeWriteDeliversTheOldest := by
  intro n rest s h hok d room
  have hrun := execNoticeWrite_cons h
  have hroom : (s.cr 0).state = .active ∧ 0 < (s.cr 0).unreserved ↔ room := and_congr_right fun ha => by
    have hne : (s.cr 0).state ≠ .absent := by rw [ha]; exact nofun
    exact CompletionRing.unreserved_pos_iff _ (hok.producer hne) (hok.consumer hne)
  refine ⟨fun hn => hrun.trans (if_neg fun hy => hn (hroom.1 hy)), fun hy => ?_⟩
  rw [if_pos (hroom.2 hy)] at hrun
  obtain ⟨it, ms, m, hw, hs⟩ := writeNotice_effect n rest s
  rw [hw] at hrun
  exact ⟨_, hrun, it, ms, rfl, rfl, State.cr_setCr_same s 0 _, fun c hc => State.cr_setCr_ne s 0 c _ hc.symm, hs _ rfl⟩

end Sys2Proof.Claims
end

section
set_option Elab.async false
/-! SUPPORT. What follows an attempt that has not ended well (R9, R11, R12, R20, R25). -/

namespace Sys2Proof.Claims

open Sys2Proof.Machine

variable {s : State} {p : PortId} {a : Attempt} {f : LinkFault} {e : AttemptEnd}

/-! ### The retry gap (R20, R25) -/

/-- A link on which a retry is to follow: the attempt BETWEEN, the retry-gap timer running (R25). -/
def retryFollows (le : LinkEngine) (st : LinkState) (a : Attempt) (now : Time) : LinkEngine :=
  { le with
    state := st, attempt := some a, lastEnd := some now
    retryGapTimer := some (after now (125 * le.parameters.retryGap)) }

theorem startRetryGap_eq (st : LinkState) (x : Option Attempt) :
    startRetryGap p st a (s.setLink p { s.link p with attempt := x, lastEnd := some s.time }) =
      s.setLink p (retryFollows (s.link p) st a s.time) := by
  unfold startRetryGap
  dsimp only
  rw [State.link_setLink_same, State.setLink_setLink, Nat.mul_comm]
  rfl

theorem endAttempt_retries (ha : (s.link p).attempt = some a) (hl : a.tags.length ≤ (s.link p).parameters.retryLimit)
    (hst : (s.link p).state = .running ∨ (s.link p).state = .training) :
    endAttempt p (.fault f) s = s.setLink p (retryFollows (s.link p)
      (if (s.link p).state = .running then .retryWait else .training) (a.finished (.fault f)) s.time) := by
  have hmore : retriesRemain (s.link p) (a.finished (.fault f)) = true := decide_eq_true (Nat.lt_succ_of_le hl)
  rw [← startRetryGap_eq _ (some (a.finished (.fault f)))]
  unfold endAttempt
  dsimp only
  rw [ha]
  dsimp only
  rw [hmore]
  rcases hst with hst | hst <;> rw [hst] <;> rfl

theorem faultStartsTheRetryGap : FaultStartsTheRetryGap := by
  intro p a f c s hE hl hd hst
  rw [hE.exec, endAttempt_retries hE.1 hl hst]
  exact congrArg Host.Outcome.next (settle_of_none_discarded (s := s.setLink p _) hd)

/-! ### A late response (R11, R12) -/

/-- The link that listens again once a late response has been counted (R3, R11). -/
def listeningAgain (le : LinkEngine) (a : Attempt) (now : Time) : LinkEngine :=
  { le with attempt := some { a with phase := .listening, listeningSince := some now, frameStart := none } }

theorem exec_late {bits : List Bool} (ha : (s.link p).attempt = some a) (hc : frameCounted (s.link p) a s.time = true)
    (h : classify a (receivedBits a.kind bits) = .late) :
    exec (.responseFrame p bits) s = .next (settle (if expired s.time a.windowEnd = true
      then endAttempt p (.fault .noResponse) s else s.setLink p (listeningAgain (s.link p) a s.time))) := by
  change execResponseFrame p bits s = _
  unfold execResponseFrame
  dsimp only
  rw [ha]
  dsimp only
  rw [if_pos hc, h]
  rfl

/-- How an attempt ends does not turn on the phase it was in. -/
theorem endAttempt_listeningAgain (ha : (s.link p).attempt = some a) :
    endAttempt p e (s.setLink p (listeningAgain (s.link p) a s.time)) = endAttempt p e s := by
  unfold endAttempt
  dsimp only
  rw [State.link_setLink_same, ha]
  dsimp only [listeningAgain]
  rw [State.setLink_setLink]
  rfl

theorem lateResponseIsDiscarded : LateResponseIsDiscarded := by
  intro p a tag warn alarm payload rest w s ha hc hw htag hlast hfit hd c listening
  have hlate : classify a (receivedBits a.kind (responseFrame a.address a.kind tag warn alarm payload ++ rest)) = .late := by
    rw [classify_responseFrame a tag warn alarm rest hfit, if_neg hlast, if_pos (List.contains_iff_mem.2 htag)]
  have hrun := exec_late ha hc hlate
  rw [hw, expired_some] at hrun
  refine ⟨fun hr => ?_, fun hr => ?_⟩
  · rw [if_neg (by rw [hr]; exact Bool.false_ne_true)] at hrun
    exact hrun.trans (congrArg Host.Outcome.next (settle_of_none_discarded (s := s.setLink p _) hd))
  · rw [if_pos hr, ← endAttempt_listeningAgain ha] at hrun
    have hattempt : (listening.link p).attempt = some { a with
        phase := .listening, listeningSince := some s.time, frameStart := none } :=
      congrArg LinkEngine.attempt (State.link_setLink_same s p _)
    exact hrun.trans (execResponseWindowExpiry_over hattempt ((windowOver_iff _ _).2 ⟨rfl, w, hw, hr⟩)).symm

/-! ### The eighth attempt (R9, R12) -/

theorem classify_ne_tagMismatch (hall : ∀ tag : BitVec 3, tag ∈ a.tags) (bits : List Bool) :
    classify a bits ≠ .ended (.fault .tagMismatch) := by
  have hmem : ∀ tag : BitVec 3, a.tags.contains tag = true := fun tag => List.contains_iff_mem.2 (hall tag)
  unfold classify
  dsimp only
  rw [hmem, if_pos rfl]
  split_ifs <;> intro h <;> cases h

theorem canEnd_tagMismatch {le : LinkEngine} {now : Time} (hall : ∀ tag : BitVec 3, tag ∈ a.tags) :
    canEnd le a (.fault .tagMismatch) now = false := by
  have hfree : a.hasFreeTag = false := Bool.eq_false_iff.2 fun h => by
    obtain ⟨tag, htag⟩ := a.hasFreeTag_iff.1 h
    exact htag (hall tag)
  unfold canEnd
  rw [hfree]
  exact Bool.and_false _

theorem eighthAttemptHasNoTagMismatch : EighthAttemptHasNoTagMismatch := by
  intro a hall
  refine ⟨fun bits => classify_ne_tagMismatch hall _, fun k c s ha hrow => ?_⟩
  rw [transactionCommand_exec hrow]
  unfold Machine.transactionAttempt
  dsimp only
  rw [ha]
  dsimp only
  rw [canEnd_tagMismatch hall, Bool.and_false]
  rfl

/-- Settles O40, by its three parts. -/
theorem faultWithRetriesLeftWaits : Obligations.FaultWithRetriesLeftWaits :=
  ⟨faultStartsTheRetryGap, lateResponseIsDiscarded, eighthAttemptHasNoTagMismatch⟩

end Sys2Proof.Claims
end

section
set_option Elab.async false
/-! SUPPORT. An attempt from its beginning to the start of its response, and the request frame it sends (R2 to R11, R24). -/

namespace Sys2Proof.Claims

open Sys2Proof.Machine

variable {s : State} {p : PortId} {a : Attempt}

/-! ### Line times (R2, R4) -/

theorem bitTicks_gap (r : BitRate) : bitTicks r Config.turnaroundBits = gapTicks r := by cases r <;> rfl

theorem bitTicks_two (r : BitRate) : bitTicks r 2 = twoBitTicks r := by cases r <;> rfl

theorem bitTicks_request (r : BitRate) (k : FrameKind) : bitTicks r k.requestBits = requestLength k / 2 * twoBitTicks r := by
  cases r <;> cases k <;> rfl

/-! ### The events of an attempt (R5, R10, R11) -/

theorem execAttemptBegin_eq (ha : (s.link p).attempt = some a) : exec (.attemptBegin p) s =
    if mayBegin (s.link p) a s.time = true then .next (s.setLink p (beginAttempt (s.link p) a s.time)) else .next s := by
  change execAttemptBegin p s = _
  unfold execAttemptBegin
  dsimp only
  rw [ha]

theorem execRequestFrameSent_eq (ha : (s.link p).attempt = some a) : exec (.requestFrameSent p) s =
    if frameSent (s.link p) a s.time = true then .next (s.setLink p (startListening (s.link p) a s.time)) else .next s := by
  change execRequestFrameSent p s = _
  unfold execRequestFrameSent
  dsimp only
  rw [ha]

theorem execStartPatternSeen_eq (ha : (s.link p).attempt = some a) : exec (.startPatternSeen p) s =
    if seenInWindow (s.link p) a s.time = true then
      .next (s.setLink p { s.link p with
        attempt := some { a with phase := .receiving, listeningSince := none, frameStart := some s.time } })
    else .next s := by
  change execStartPatternSeen p s = _
  unfold execStartPatternSeen
  dsimp only
  rw [ha]

theorem mayBegin_iff (le : LinkEngine) (a : Attempt) (now : Time) : mayBegin le a now = true ↔
    a.phase = .between ∧ (le.state = .running ∨ le.state = .training) ∧ le.retryGapTimer = none ∧
      ∀ t, le.lastEnd = some t → reached now (after t (gapTicks le.parameters.bitRate)) = true := by
  unfold mayBegin gapElapsed
  rw [Bool.and_eq_true, Bool.and_eq_true, Bool.and_eq_true, Bool.or_eq_true, beq_iff_eq, beq_iff_eq, beq_iff_eq,
    Option.isNone_iff_eq_none, Option.all_eq_true, bitTicks_gap, and_assoc, and_assoc]

theorem frameSent_iff (le : LinkEngine) (a : Attempt) (now : Time) : frameSent le a now = true ↔
    a.phase = .sending ∧
      reached now (after a.requestTime (requestLength a.kind / 2 * twoBitTicks le.parameters.bitRate)) = true := by
  unfold frameSent
  rw [Bool.and_eq_true, beq_iff_eq, bitTicks_request]

/-- In LISTENING, both bits of the pattern within the watch and the first within the window (R3, R11). -/
theorem seenInWindow_eq {le : LinkEngine} {now w t : Time} (hw : a.windowEnd = some w) (ht : a.listeningSince = some t) :
    seenInWindow le a now = (a.phase == .listening && (reached now (after t (twoBitTicks le.parameters.bitRate)) &&
      reached (after w (twoBitTicks le.parameters.bitRate)) now)) := by
  unfold seenInWindow
  rw [hw, ht, bitTicks_two, Bool.and_assoc]
  rfl

theorem seenInWindow_of_phase {le : LinkEngine} {now : Time} (h : a.phase ≠ .listening) : seenInWindow le a now = false := by
  unfold seenInWindow
  rw [beq_eq_false_iff_ne.2 h]
  rfl

theorem attemptRunsByItsEvents : AttemptRunsByItsEvents := by
  intro p a s ha le
  refine ⟨fun hph hst hgap hend => ?_, fun hph hr => ?_, fun w t hph hw ht hr hr' => ?_, fun w t hph hw ht hr => ?_,
    fun hph => ?_⟩
  · rw [execAttemptBegin_eq ha, if_pos ((mayBegin_iff _ _ _).2 ⟨hph, hst, hgap, hend⟩)]
    rfl
  · rw [execRequestFrameSent_eq ha, if_pos ((frameSent_iff _ _ _).2 ⟨hph, hr⟩)]
    unfold startListening
    rw [Nat.mul_comm]
    rfl
  · rw [execStartPatternSeen_eq ha, seenInWindow_eq hw ht, hph, hr, hr']
    rfl
  · rw [execStartPatternSeen_eq ha, seenInWindow_eq hw ht, hph]
    refine if_neg fun hn => ?_
    rw [Bool.and_eq_true, Bool.and_eq_true] at hn
    rcases hr with hr | hr
    · exact Bool.false_ne_true (hr.symm.trans hn.2.1)
    · exact Bool.false_ne_true (hr.symm.trans hn.2.2)
  · rw [execStartPatternSeen_eq ha, seenInWindow_of_phase hph]
    rfl

/-! ### CRC-8 and the request frame (R5, R8) -/

theorem crcFollowsItsSteps : CrcFollowsItsSteps := by
  refine ⟨rfl, fun bits b => ?_⟩
  unfold crc8
  rw [List.foldl_append, List.foldl_cons, List.foldl_nil]
  generalize bits.foldl crcStep 0xFF#8 = r
  unfold crcStep
  rw [BitVec.msb_eq_getLsbD_last]
  by_cases h : r.getLsbD 7 = b
  · rw [if_pos h, if_neg (by rw [h]; simp)]
    simp
  · rw [if_neg h, if_pos (by simpa using h)]

/-- A field's bits in the order of the line are those that the model writes (R5). -/
theorem inOrder_eq {n : Nat} (v : BitVec n) : inOrder v = bitsOf n v.toNat := by
  unfold inOrder bitsOf
  refine List.map_congr_left fun i hi => ?_
  rw [BitVec.testBit_toNat]
  unfold BitVec.getMsbD
  rw [decide_eq_true (List.mem_range.1 hi), Bool.true_and]

/-- A request frame by its fields, each most significant bit first (Table 46). -/
def laidOut (address : SlaveAddr) (tag : BitVec 3) (kind : BitVec 3) (fields : List Bool) : List Bool :=
  let body := inOrder (BitVec.ofNat 2 address.val) ++ inOrder kind ++ inOrder tag ++ fields
  [true, false] ++ body ++ inOrder (crc8 body)

theorem requestFrame_eq (address : SlaveAddr) (kind : FrameKind) (tag : BitVec 3) (register : Option (BitVec 8))
    (data : Option (BitVec 16)) : requestFrame address kind tag register data =
      laidOut address tag (BitVec.ofNat 3 kind.code) ((register.map inOrder).getD [] ++ (data.map inOrder).getD []) := by
  have hbody : requestBody address kind tag register data = inOrder (BitVec.ofNat 2 address.val) ++
      inOrder (BitVec.ofNat 3 kind.code) ++ inOrder tag ++
        ((register.map inOrder).getD [] ++ (data.map inOrder).getD []) := by
    have haddress : inOrder (BitVec.ofNat 2 address.val) = bitsOf 2 address.val := by
      rw [inOrder_eq, BitVec.toNat_ofNat, Nat.mod_eq_of_lt address.isLt]
    have hkind : inOrder (BitVec.ofNat 3 kind.code) = bitsOf 3 kind.code := by
      rw [inOrder_eq]
      cases kind <;> rfl
    unfold requestBody
    rw [haddress, hkind, inOrder_eq tag, List.append_assoc]
    cases register <;> cases data <;> simp [inOrder_eq]
  unfold requestFrame laidOut
  dsimp only
  rw [hbody, inOrder_eq (crc8 _)]

theorem inOrder_length {n : Nat} (v : BitVec n) : (inOrder v).length = n := by
  unfold inOrder
  rw [List.length_map, List.length_range]

theorem laidOut_length (address : SlaveAddr) (tag kind : BitVec 3) (fields : List Bool) :
    (laidOut address tag kind fields).length = 18 + fields.length := by
  unfold laidOut
  simp only [List.length_append, inOrder_length, List.length_cons, List.length_nil]
  omega

theorem requestFrameIsLaidOut : RequestFrameIsLaidOut := by
  intro address tag r d frame
  refine ⟨requestFrame_eq address .identify tag none none, requestFrame_eq address .position tag none none,
    requestFrame_eq address .repeat tag none none, ?_, requestFrame_eq address .regWrite tag (some r) (some d),
    requestFrame_eq address .slaveReset tag none none, laidOut_length address tag 0 [], ?_, ?_⟩
  · rw [requestFrame_eq]
    exact congrArg (laidOut address tag 3) (List.append_nil _)
  · refine (laidOut_length address tag 3 (inOrder r)).trans ?_
    rw [inOrder_length]
    rfl
  · refine (laidOut_length address tag 4 (inOrder r ++ inOrder d)).trans ?_
    rw [List.length_append, inOrder_length, inOrder_length]
    rfl

/-- Settles O39, by its three parts. -/
theorem attemptRunsOnTheLine : Obligations.AttemptRunsOnTheLine :=
  ⟨attemptRunsByItsEvents, crcFollowsItsSteps, requestFrameIsLaidOut⟩

end Sys2Proof.Claims
end

section
set_option Elab.async false
/-! SUPPORT. The phase of a ring (R106) and the arithmetic of a reading (R77 to R79, R82). -/

namespace Sys2Proof.Machine

/-! ### The phase of a sample ring (R106) -/

/-- The next record's place and pass. -/
theorem succ_place (m n : Nat) (hn : 2 ≤ n) :
    (m + 1) % n = (if m % n + 1 = n then 0 else m % n + 1) ∧ (m + 1) / n = if m % n + 1 = n then m / n + 1 else m / n := by
  have hlt : m % n < n := Nat.mod_lt m (by omega)
  have hm := Nat.div_add_mod m n
  by_cases h : m % n + 1 = n
  · rw [if_pos h, if_pos h]
    exact (Nat.div_mod_unique (d := m / n + 1) (c := 0) (by omega)).2 ⟨by rw [Nat.mul_add]; omega, by omega⟩ |>.symm
  · rw [if_neg h, if_neg h]
    exact (Nat.div_mod_unique (d := m / n) (c := m % n + 1) (by omega)).2 ⟨by omega, by omega⟩ |>.symm

theorem advance_size (d : SampleRing) : d.advance.size = d.size := by rw [SampleRing.advance_fields]

/-- Settles O55, by induction on the number of records written. -/
theorem phaseTellsThePass : Obligations.PhaseTellsThePass := by
  intro d m hp hph hs
  induction m with
  | zero => exact ⟨by rw [Nat.zero_mod]; exact hp, iff_of_true hph (by rw [Nat.zero_div]), rfl⟩
  | succ m ih =>
    intro written
    obtain ⟨hprod, hphase, hsize⟩ := ih
    have hstep : written = (Nat.iterate SampleRing.advance m d).advance := Function.iterate_succ_apply' _ _ _
    obtain ⟨hmod, hdiv⟩ := succ_place m d.size hs
    rw [hstep, SampleRing.advance_fields]
    dsimp only
    rw [hprod, hsize, hmod, hdiv]
    refine ⟨rfl, ?_, rfl⟩
    by_cases h : m % d.size + 1 = d.size
    · rw [if_pos h, if_pos h, Bool.not_eq_true', ← Bool.not_eq_true, hphase]
      omega
    · rw [if_neg h, if_neg h, hphase]

/-! ### Deltas (R77) -/

theorem wrapDelta_low {d m : Int} (h : d < -(m / 2)) : wrapDelta d m = d + m := if_pos h

theorem wrapDelta_mid {d m : Int} (h : -(m / 2) ≤ d) (h' : d ≤ m / 2 - 1) : wrapDelta d m = d := by
  unfold wrapDelta
  rw [if_neg (by omega), if_neg (by omega)]

theorem wrapDelta_high {d m : Int} (hm : 0 < m) (h : m / 2 ≤ d) : wrapDelta d m = d - m := by
  unfold wrapDelta
  rw [if_neg (by omega), if_pos h]

/-- A delta is the plain difference, or one modulus to the side of it. -/
theorem wrapDelta_cases {m : Int} (hm : 0 < m) (d : Int) :
    (d < -(m / 2) ∧ wrapDelta d m = d + m) ∨ (-(m / 2) ≤ d ∧ d ≤ m / 2 - 1 ∧ wrapDelta d m = d) ∨
      (m / 2 ≤ d ∧ wrapDelta d m = d - m) := by
  by_cases h : d < -(m / 2)
  · exact .inl ⟨h, wrapDelta_low h⟩
  · by_cases h' : m / 2 ≤ d
    · exact .inr (.inr ⟨h', wrapDelta_high hm h'⟩)
    · exact .inr (.inl ⟨by omega, by omega, wrapDelta_mid (by omega) (by omega)⟩)

/-! ### What step 3 forms (R77 to R79) -/

/-- The turn of a reading in EXTEND by the three rows of R79. -/
def turnAfter (kept : Int) (plain delta : Int) : Int :=
  if delta > plain then kept + 1 else if delta < plain then kept - 1 else kept

variable {c : Sensor} (angle turn : Nat)

theorem turned_none (h : c.turnMode = .none) : c.turned angle turn =
    { delta := if c.last.validity = .notValid then none else some (wrapDelta (angle - c.last.angle) (2 ^ wordSt c.identity))
      extRaw := angle, candidate := c.extendedTurn, wrapped := false } := by
  unfold Sensor.turned
  rw [h]
  by_cases hv : c.last.validity = .notValid <;> simp [hv, Sensor.st]

theorem turned_sensor (h : c.turnMode = .sensor) : c.turned angle turn =
    let plain : Int := (turn * 2 ^ wordSt c.identity + angle) - (c.last.turn * 2 ^ wordSt c.identity + c.last.angle)
    let delta := wrapDelta plain (2 ^ (wordSt c.identity + wordMt c.identity))
    { delta := if c.last.validity = .notValid then none else some delta
      extRaw := turn * 2 ^ wordSt c.identity + angle, candidate := c.extendedTurn
      wrapped := if c.last.validity = .notValid then false else decide (delta ≠ plain) } := by
  unfold Sensor.turned Sensor.modulus
  rw [h]
  by_cases hv : c.last.validity = .notValid
  · simp [hv, Sensor.st]
  · simp only [hv, ne_eq, not_false_eq_true, decide_true, if_true, if_false, Bool.true_and]
    rfl

theorem turned_extend (h : c.turnMode = .extend) : c.turned angle turn =
    let plain : Int := angle - c.last.angle
    let delta := wrapDelta plain (2 ^ wordSt c.identity)
    let candidate := if c.last.validity = .notValid then c.extendedTurn else turnAfter c.extendedTurn plain delta
    { delta := if c.last.validity = .notValid then none else some delta
      extRaw := candidate * 2 ^ wordSt c.identity + angle, candidate := candidate, wrapped := false } := by
  unfold Sensor.turned
  rw [h]
  by_cases hv : c.last.validity = .notValid
  · simp [hv, Sensor.st]
  · simp only [hv, ne_eq, not_false_eq_true, decide_true, if_true, if_false, Bool.not_true, Bool.false_eq_true]
    rfl

end Sys2Proof.Machine

namespace Sys2Proof.Claims

open Sys2Proof.Machine

theorem deltaIsTheShortestMovement : DeltaIsTheShortestMovement := by
  intro d m hm heven hl hr
  obtain ⟨h, e⟩ | ⟨h, h', e⟩ | ⟨h, e⟩ := wrapDelta_cases hm d <;> rw [e]
  · exact ⟨by omega, by omega, by rw [add_sub_cancel_left]; exact Int.emod_self⟩
  · exact ⟨by omega, by omega, by rw [Int.sub_self]; exact Int.zero_emod m⟩
  · refine ⟨by omega, by omega, ?_⟩
    rw [show d - m - d = -m by omega, Int.neg_emod_self]

theorem two_pow_pos (n : Nat) : (0 : Int) < 2 ^ n := Int.pow_pos (by decide)

theorem readingFormedByTurnMode : ReadingFormedByTurnMode := by
  intro c angle turn one combined plain x
  refine ⟨fun h => ?_, fun h => ?_, fun h => ?_, fun hv => ?_⟩
  · have hx : x = _ := turned_none angle turn h
    rw [hx]
    exact ⟨rfl, rfl, rfl, fun hv => if_neg hv⟩
  · have hx : x = _ := turned_sensor angle turn h
    rw [hx]
    refine ⟨rfl, rfl, fun hv => ⟨if_neg hv, ?_⟩⟩
    dsimp only
    rw [if_neg hv, decide_eq_true_eq]
  · have hx : x = _ := turned_extend angle turn h
    rw [hx]
    refine ⟨rfl, rfl, fun hv => ?_⟩
    dsimp only
    rw [if_neg hv, if_neg hv]
    have hone : 0 < one := two_pow_pos _
    refine ⟨rfl, fun hp => ?_, fun hp hp' => ?_, fun hp => ?_⟩
    · rw [wrapDelta_low hp]
      exact ⟨rfl, if_pos (by omega)⟩
    · rw [wrapDelta_mid hp hp']
      exact ⟨rfl, (if_neg (lt_irrefl _)).trans (if_neg (lt_irrefl _))⟩
    · rw [wrapDelta_high hone hp]
      exact ⟨rfl, (if_neg (by omega)).trans (if_pos (by omega))⟩
  · cases h : c.turnMode with
    | none => 
      have hx : x = _ := turned_none angle turn h
      rw [hx, if_pos hv]
      exact ⟨rfl, rfl, rfl⟩
    | sensor =>
      have hx : x = _ := turned_sensor angle turn h
      rw [hx]
      dsimp only
      rw [if_pos hv, if_pos hv]
      exact ⟨rfl, rfl, rfl⟩
    | extend =>
      have hx : x = _ := turned_extend angle turn h
      rw [hx]
      dsimp only
      rw [if_pos hv, if_pos hv]
      exact ⟨rfl, rfl, rfl⟩

theorem extendedRawFollowsTheDelta : ExtendedRawFollowsTheDelta := by
  intro c angle turn h hv hlast
  rw [turned_extend angle turn h]
  dsimp only
  rw [if_neg hv, if_neg hv]
  refine ⟨_, rfl, ?_⟩
  unfold turnAfter
  have hone := two_pow_pos (wordSt c.identity)
  generalize (2 : Int) ^ wordSt c.identity = one at *
  obtain ⟨h, e⟩ | ⟨h, h', e⟩ | ⟨h, e⟩ := wrapDelta_cases hone ((angle : Int) - c.last.angle) <;> rw [e]
  · rw [if_pos (by omega)]
    exact ⟨by rw [hlast, Int.add_mul]; omega, rfl, by omega, by omega⟩
  · rw [if_neg (lt_irrefl _), if_neg (lt_irrefl _)]
    exact ⟨by rw [hlast]; omega, rfl, by omega, by omega⟩
  · rw [if_neg (by omega), if_pos (by omega)]
    exact ⟨by rw [hlast, Int.sub_mul]; omega, rfl, by omega, by omega⟩

theorem positionTruncatesTowardZero : PositionTruncatesTowardZero := by
  intro c x
  unfold Sensor.positionOf scaledValue
  refine ⟨fun h => ?_, fun h => ?_⟩
  · rw [Int.tdiv_eq_ediv_of_nonneg (Int.mul_nonneg h (Int.natCast_nonneg _))]
  · have hneg : x * (c.scale : Int) = -(-x * c.scale) := by rw [Int.neg_mul, Int.neg_neg]
    rw [hneg, Int.neg_tdiv, Int.tdiv_eq_ediv_of_nonneg (Int.mul_nonneg (by omega) (Int.natCast_nonneg _))]

/-- Settles O56, by its four parts. -/
theorem readingArithmetic : Obligations.ReadingArithmetic :=
  ⟨deltaIsTheShortestMovement, readingFormedByTurnMode, extendedRawFollowsTheDelta, positionTruncatesTowardZero⟩

end Sys2Proof.Claims
end

section
set_option Elab.async false
/-! SUPPORT. The interpolated value of a capture and its completion (R82, R98 to R100). -/

namespace Sys2Proof.Machine

open Sys2Proof.Claims

variable {c : Sensor} {v : Interval} {edge : Time}

/-! ### The quotient (R98) -/

/-- The ticks from the previous sample time to `t`. -/
def Interval.since (v : Interval) (t : Time) : Int := (t.toNat : Int) - v.previous.sampleTime.toNat

theorem since_current_pos (h : v.previous.sampleTime < v.current.sampleTime) : 0 < v.since v.current.sampleTime := by
  unfold Interval.since
  have := BitVec.lt_def.1 h
  omega

theorem since_nonneg (h : v.previous.sampleTime ≤ edge) : 0 ≤ v.since edge := by
  unfold Interval.since
  have := BitVec.le_def.1 h
  omega

theorem since_le_current (h : edge ≤ v.current.sampleTime) : v.since edge ≤ v.since v.current.sampleTime := by
  unfold Interval.since
  have := BitVec.le_def.1 h
  omega

theorem since_previous : v.since v.previous.sampleTime = 0 := Int.sub_self _

theorem quotient_eq (h : v.previous.sampleTime < v.current.sampleTime) :
    v.quotient edge = Int.tdiv (v.delta * v.since edge) (v.since v.current.sampleTime) :=
  if_neg (by have := since_current_pos h; unfold Interval.since at this; omega)

/-- A part of a delta lies between nothing and the whole of it. -/
theorem tdiv_between {d a b : Int} (ha : 0 ≤ a) (hab : a ≤ b) (hb : 0 < b) :
    min 0 d ≤ Int.tdiv (d * a) b ∧ Int.tdiv (d * a) b ≤ max 0 d := by
  rcases le_total 0 d with hd | hd
  · rw [Int.tdiv_eq_ediv_of_nonneg (Int.mul_nonneg hd ha), min_eq_left hd, max_eq_right hd]
    exact ⟨Int.ediv_nonneg (Int.mul_nonneg hd ha) hb.le,
      Int.ediv_le_of_le_mul hb (Int.mul_le_mul_of_nonneg_left hab hd)⟩
  · rw [show d * a = -(-d * a) by rw [Int.neg_mul, Int.neg_neg], Int.neg_tdiv,
      Int.tdiv_eq_ediv_of_nonneg (Int.mul_nonneg (by omega) ha), min_eq_right hd, max_eq_left hd]
    have h1 := Int.ediv_nonneg (Int.mul_nonneg (show 0 ≤ -d by omega) ha) hb.le
    have h2 : -d * a / b ≤ -d := Int.ediv_le_of_le_mul hb (Int.mul_le_mul_of_nonneg_left hab (by omega))
    omega

theorem quotient_previous (h : v.previous.sampleTime < v.current.sampleTime) (he : edge = v.previous.sampleTime) :
    v.quotient edge = 0 := by
  rw [quotient_eq h, he, since_previous, Int.mul_zero, Int.zero_tdiv]

theorem quotient_current (h : v.previous.sampleTime < v.current.sampleTime) (he : edge = v.current.sampleTime) :
    v.quotient edge = v.delta := by
  rw [quotient_eq h, he]
  exact Int.mul_tdiv_cancel _ (since_current_pos h).ne'

/-! ### The interpolated extended raw (R98) -/

theorem usable_iff : v.usable edge = true ↔ v.previous.validity = .valid ∧ v.previous.sampleTime ≤ edge := by
  unfold Interval.usable
  rw [Bool.and_eq_true, decide_eq_true_eq, decide_eq_true_eq]

theorem usable_eq_false_iff : v.usable edge = false ↔ v.previous.validity ≠ .valid ∨ edge < v.previous.sampleTime := by
  rw [← Bool.not_eq_true, usable_iff, not_and_or, BitVec.not_le]

theorem interpolate_unusable (h : v.usable edge = false) : interpolate c v edge = v.current.extRaw :=
  if_neg (by rw [h]; exact Bool.false_ne_true)

theorem interpolate_extend (h : v.usable edge = true) (hm : c.turnMode = .extend) :
    interpolate c v edge = v.previous.extRaw + v.quotient edge := (if_pos h).trans (if_pos hm)

/-- The modulus of the turn modes NONE and SENSOR (R78). -/
theorem modulus_eq (hm : c.turnMode ≠ .extend) : c.modulus =
    2 ^ (if c.turnMode = .sensor then wordSt c.identity + wordMt c.identity else wordSt c.identity) := by
  unfold Sensor.modulus
  cases h : c.turnMode with
  | none => rfl
  | sensor => rfl
  | extend => exact absurd h hm

theorem interpolate_reduced (h : v.usable edge = true) (hm : c.turnMode ≠ .extend) : interpolate c v edge =
    (v.previous.extRaw + v.quotient edge) %
      2 ^ (if c.turnMode = .sensor then wordSt c.identity + wordMt c.identity else wordSt c.identity) := by
  rw [← modulus_eq hm]
  exact (if_pos h).trans (if_neg hm)

/-! ### The completion of a capture (R99, R100) -/

theorem inSigned48_iff (x : Int) : inSigned48 x = true ↔ -140737488355328 ≤ x ∧ x ≤ 140737488355327 := by
  unfold inSigned48
  simp

theorem saturate48_eq (x : Int) : saturate48 x = max (-140737488355328) (min 140737488355327 x) := by
  unfold saturate48
  omega

/-- A capture's reference applies: its position and the offset it sets lie in range (R100). -/
def captureApplies (x : PendingCapture) (v : Interval) (c : Sensor) : Bool :=
  inSigned48 (c.positionOf (interpolate c v x.edgeTime)) &&
    (x.reference.map fun ref => ref - scaledValue (interpolate c v x.edgeTime) c.scale).any inSigned48

theorem completeCapture_eq (n : SensorId) (l : LineId) (x : PendingCapture) (v : Interval) (c : Sensor) :
    completeCapture n l x v c =
      ({ c with
        offset := if captureApplies x v c = true then
          (x.reference.map fun ref => ref - scaledValue (interpolate c v x.edgeTime) c.scale).getD c.offset else c.offset
        captures := c.captures.set l none },
      { kind := .capture, sensor := n, time := x.edgeTime
        position := if captureApplies x v c = true then x.reference.getD 0
          else saturate48 (c.positionOf (interpolate c v x.edgeTime))
        angle := (interpolate c v x.edgeTime % 2 ^ c.st).toNat
        turn := if c.turnMode = .none then 0 else interpolate c v x.edgeTime / 2 ^ c.st
        line := some l, reason := none, cause := .none
        flags := { RecordFlags.clear with
          late := v.late, warning := v.warning, mtWrap := v.mtWrap, noInterp := !v.usable x.edgeTime
          referenced := captureApplies x v c, captureOverrun := x.overrun } }) := rfl

end Sys2Proof.Machine

namespace Sys2Proof.Claims

open Sys2Proof.Machine

theorem interpolationMeetsTheReadings : InterpolationMeetsTheReadings := by
  intro c v edge hm hcur hlt hle
  have hcurrent : edge = v.current.sampleTime → interpolate c v edge = v.current.extRaw := fun he => by
    cases hu : v.usable edge with
    | false => exact interpolate_unusable hu
    | true => rw [interpolate_extend hu hm, quotient_current hlt he, hcur]
  refine ⟨?_, hcurrent, fun hv he => ?_, fun hn => interpolate_unusable (usable_eq_false_iff.2 hn)⟩
  · cases hu : v.usable edge with
    | false => rw [interpolate_unusable hu]; omega
    | true =>
      have hb := tdiv_between (d := v.delta) (since_nonneg (usable_iff.1 hu).2) (since_le_current hle) (since_current_pos hlt)
      rw [interpolate_extend hu hm, quotient_eq hlt, hcur]
      omega
  · rw [interpolate_extend (usable_iff.2 ⟨hv, BitVec.le_def.2 (by rw [he])⟩) hm, quotient_previous hlt he, Int.add_zero]

theorem interpolationIsReduced : InterpolationIsReduced := by
  intro c v edge hm hv hle hlt m quotient
  have hq : v.quotient edge = quotient := quotient_eq hlt
  have hi : interpolate c v edge = (v.previous.extRaw + quotient) % m := by
    rw [← hq]
    exact interpolate_reduced (usable_iff.2 ⟨hv, hle⟩) hm
  have hpos : 0 < m := two_pow_pos _
  rw [hi]
  exact ⟨Int.emod_nonneg _ hpos.ne', Int.emod_lt_of_pos _ hpos, Int.emod_eq_emod_iff_emod_sub_eq_zero.1 (Int.emod_emod_of_dvd _ dvd_rfl)⟩

theorem interpolationIsExact : InterpolationIsExact := by
  intro c v edge m quotient
  refine ⟨fun hn => interpolate_unusable (usable_eq_false_iff.2 hn), fun hv hle hlt => ?_⟩
  have hu : v.usable edge = true := usable_iff.2 ⟨hv, hle⟩
  refine ⟨fun hm => ?_, fun hm he h0 h1 => ?_, fun hm he h0 h1 hd => ?_⟩
  · rw [interpolate_extend hu hm]
    exact congrArg _ (quotient_eq hlt)
  · rw [interpolate_reduced hu hm, quotient_previous hlt he, Int.add_zero]
    exact Int.emod_eq_of_lt h0 h1
  · rw [interpolate_reduced hu hm, quotient_current hlt he]
    exact (Int.emod_eq_emod_iff_emod_sub_eq_zero.2 hd).trans (Int.emod_eq_of_lt h0 h1)

theorem captureCompletes : CaptureCompletes := by
  intro n l x v c raw scaled inRange record done
  have happlied : captureApplies x v c = true ↔
      ∃ ref, x.reference = some ref ∧ inRange (scaled + c.offset) ∧ inRange (ref - scaled) := by
    unfold captureApplies
    rw [Bool.and_eq_true, Option.any_eq_true, inSigned48_iff]
    constructor
    · rintro ⟨h1, y, hy, h2⟩
      obtain ⟨ref, href, rfl⟩ := Option.map_eq_some_iff.1 hy
      exact ⟨ref, href, h1, (inSigned48_iff _).1 h2⟩
    · rintro ⟨ref, href, h1, h2⟩
      exact ⟨h1, ref - scaled, by rw [href]; rfl, (inSigned48_iff _).2 h2⟩
  have hcomplete := completeCapture_eq n l x v c
  refine ⟨fun ref href h1 h2 => ?_, fun hn => ?_⟩
  · rw [hcomplete, happlied.2 ⟨ref, href, h1, h2⟩, href]
    rfl
  · have hno : captureApplies x v c = false := Bool.eq_false_iff.2 fun h => by
      obtain ⟨ref, href, h12⟩ := happlied.1 h
      exact hn ref href h12
    rw [hcomplete, hno, saturate48_eq]
    rfl

/-- Settles O57, by its four parts. -/
theorem interpolationLiesBetween : Obligations.InterpolationLiesBetween :=
  ⟨interpolationMeetsTheReadings, interpolationIsReduced, interpolationIsExact, captureCompletes⟩

end Sys2Proof.Claims
end

section
set_option Elab.async false
/-! SUPPORT. Rejections, faults of a sensor, and marks (R58, R59, R69 to R71, R80, R81, R87). -/

namespace Sys2Proof.Machine

open Sys2Proof.Claims

variable {s u : State} {n : SensorId} {c : Sensor} {time : Time} {cause : FaultCause}

/-! ### What posting a record leaves of its sensor's context (R105, R107, R108) -/

/-- Posting a record touches its sensor's counts and held queue alone. -/
theorem postRecord_sensor_same (r : SampleRecord) (s : State) : ∃ sequence missed rejected withheld held,
    (postRecord r s).sensor r.sensor = { s.sensor r.sensor with
      sequence := sequence, missed := missed, rejected := rejected, withheld := withheld, held := held } := by
  unfold postRecord
  dsimp only
  split
  · exact ⟨_, _, _, _, _, rfl⟩
  split
  · rw [writeRecord_sensor, if_pos rfl]
    exact ⟨_, _, _, _, _, rfl⟩
  split
  · exact ⟨_, _, _, _, _, State.sensor_setSensor_same _ _ _⟩
  split
  · exact ⟨_, _, _, _, _, State.sensor_setSensor_same _ _ _⟩
  · exact ⟨_, _, _, _, _, State.sensor_setSensor_same _ _ _⟩

theorem raiseNotice_sensor (src : NoticeSource) (det : BitVec 32) (tm : Time) (s : State) (n : SensorId) :
    (raiseNotice src det tm s).sensor n = s.sensor n := by
  rw [raiseNotice_frame]
  rfl

/-- A raised notice stands in the list, with its detail (R152). -/
theorem raiseNotice_mem (src : NoticeSource) (det : BitVec 32) (tm : Time) (s : State) :
    ∃ x ∈ (raiseNotice src det tm s).notices, x.source = src ∧ x.detail = det := by
  by_cases h : ∃ x ∈ s.notices, x.source = src
  · obtain ⟨x, hx, hs⟩ := h
    rw [raiseNotice_again hx hs]
    exact ⟨x.again det, List.mem_map.2 ⟨x, hx, if_pos hs⟩, hs, rfl⟩
  · rw [raiseNotice_append fun x hx hs => h ⟨x, hx, hs⟩]
    exact ⟨_, List.mem_append_right _ (List.mem_singleton.2 rfl), rfl, rfl⟩

/-! ### A faulted sensor (R69) -/

/-- The context that an ACQUIRING sensor is left with as it faults, before its mark is posted (R58, R69). -/
def faultedContext (cause : FaultCause) (c : Sensor) : Sensor :=
  { c with state := .faulted, cause := cause, captures := Vector.replicate 4 none }

theorem faulted_acquiring (h : (u.sensor n).state = .acquiring) : ∃ w mark, mark.sensor = n ∧
    faulted n cause time u = raiseNotice (.sensor n) (BitVec.ofNat 32 cause.code) time (postRecord mark w) ∧
    ∀ m, w.sensor m = (u.setSensor n (faultedContext cause (u.sensor n))).sensor m := by
  refine ⟨(u.setSched (portOf n) (withoutEntry n (u.sched (portOf n)))).setSensor n (faultedContext cause (u.sensor n)),
    markRecord n (u.sensor n) .fault cause time (droppedCaptures (u.sensor n)), rfl, ?_, fun m => ?_⟩
  · unfold faulted
    dsimp only
    rw [if_neg (by rw [h]; decide), if_pos h, if_pos h]
    rfl
  · rfl

theorem faulted_acquiring_sensor (h : (u.sensor n).state = .acquiring) : ∃ sequence missed rejected withheld held,
    (faulted n cause time u).sensor n = { faultedContext cause (u.sensor n) with
      sequence := sequence, missed := missed, rejected := rejected, withheld := withheld, held := held } := by
  obtain ⟨w, mark, rfl, hf, hw⟩ := faulted_acquiring (cause := cause) (time := time) h
  rw [hf, raiseNotice_sensor]
  obtain ⟨a, b, c, d, e, hp⟩ := postRecord_sensor_same mark w
  refine ⟨a, b, c, d, e, ?_⟩
  rw [hp, hw, State.sensor_setSensor_same]

theorem faulted_acquiring_sensor_ne (h : (u.sensor n).state = .acquiring) {m : SensorId} (hm : m ≠ n) :
    (faulted n cause time u).sensor m = u.sensor m := by
  obtain ⟨w, mark, rfl, hf, hw⟩ := faulted_acquiring (cause := cause) (time := time) h
  rw [hf, raiseNotice_sensor, postRecord_sensor_ne mark w hm, hw, State.sensor_setSensor_ne _ _ _ _ hm.symm]

theorem faulted_notice (n : SensorId) (cause : FaultCause) (time : Time) (u : State) :
    ∃ x ∈ (faulted n cause time u).notices, x.source = .sensor n ∧ x.detail = BitVec.ofNat 32 cause.code :=
  raiseNotice_mem _ _ _ _

/-- A BOUND sensor faults without a MARK (R59). -/
theorem faulted_bound (h : (u.sensor n).state = .bound) :
    faulted n cause time u = raiseNotice (.sensor n) (BitVec.ofNat 32 cause.code) time
      (u.setSensor n { u.sensor n with state := .faulted, cause := cause }) := by
  unfold faulted
  dsimp only
  rw [h, if_pos rfl, if_neg (by decide), if_neg (by decide)]

/-! ### Rejections (R81) -/

/-- A context whose reading has been rejected. -/
def rejectedOnce (c : Sensor) (count : Nat) : Sensor := { c with rejected := min 255 (c.rejected + 1), rejects := count }

theorem rejectReading_eq (n : SensorId) (time : Time) (s : State) :
    let count := (s.sensor n).rejectsAfter n time
    let counted := s.setSensor n (rejectedOnce (s.sensor n) count)
    rejectReading n time s =
      if count = (s.sensor n).rejectLimit then faulted n .rejectLimit time counted else counted := by
  intro count counted
  rw [← faultSensor_effect]
  rfl

/-! ### Marks (Table 17) -/

theorem markRecord_eq (n : SensorId) (c : Sensor) (reason : MarkReason) (cause : FaultCause) (time : Time) (dropped : Bool) :
    markRecord n c reason cause time dropped =
      let blank := reason = .start ∨ c.last.validity = .notValid
      { kind := .mark, sensor := n, time := time
        position := if blank then 0 else saturate48 (c.positionOf c.last.extRaw)
        angle := if blank then 0 else c.last.angle, turn := if blank then 0 else c.reportedTurn
        line := none, reason := some reason, cause := cause
        flags := { RecordFlags.clear with captureDropped := dropped } } := by
  unfold markRecord
  by_cases h1 : reason = .start <;> by_cases h2 : c.last.validity = .notValid <;> simp [h1, h2]

end Sys2Proof.Machine

namespace Sys2Proof.Claims

open Sys2Proof.Machine

theorem rejectionCounts : RejectionCounts := by
  intro n time s hok hst c counted
  have hlimit := (hok.rejectLimit (by rw [hst]; decide)).2
  have heq := rejectReading_eq n time s
  refine ⟨fun h => ?_, fun h => ?_⟩
  · have hlt : (s.sensor n).rejects < 15 := Nat.lt_of_succ_lt_succ (h.trans_le (Nat.le_succ_of_le hlimit))
    rw [heq, (s.sensor n).rejectsAfter_of_lt n time hlt]
    exact if_neg (Nat.ne_of_lt h)
  · intro t
    have hlt : (s.sensor n).rejects < 15 := Nat.lt_of_succ_le (h.le.trans hlimit)
    have ht : t = faulted n .rejectLimit time (s.setSensor n counted) := by
      rw [show t = _ from heq, (s.sensor n).rejectsAfter_of_lt n time hlt]
      exact if_pos h
    have hacq : ((s.setSensor n counted).sensor n).state = .acquiring := by
      rw [State.sensor_setSensor_same]
      exact hst
    obtain ⟨q, m, j, w, held, hn⟩ := faulted_acquiring_sensor (cause := .rejectLimit) (time := time) hacq
    rw [← ht, State.sensor_setSensor_same] at hn
    refine ⟨ht, by rw [hn]; rfl, by rw [hn]; rfl, by rw [hn]; exact h, by rw [hn]; rfl, by rw [hn]; rfl, fun l => ?_, ?_,
      fun m hm => ?_⟩
    · rw [hn]
      exact Vector.getElem_replicate _
    · rw [ht]
      exact faulted_notice n .rejectLimit time _
    · rw [ht, faulted_acquiring_sensor_ne hacq hm, State.sensor_setSensor_ne _ _ _ _ hm.symm]

theorem rejectionCountsInEveryState : RejectionCountsInEveryState := by
  intro n time s _ c
  have heq := rejectReading_eq n time s
  refine ⟨c.rejectsAfter n time, c.rejectsAfter_of_lt n time, c.rejectsAfter_le n time, fun h => heq.trans (if_neg h),
    fun h => heq.trans (if_pos h), fun h hb => ?_⟩
  have hbound : ((s.setSensor n (rejectedOnce c (c.rejectsAfter n time))).sensor n).state = .bound := by
    rw [State.sensor_setSensor_same]
    exact hb
  refine (heq.trans (if_pos h)).trans ((faulted_bound hbound).trans ?_)
  rw [State.sensor_setSensor_same, State.setSensor_setSensor]
  rfl

theorem faultTakesTheSensor : FaultTakesTheSensor := fun n cause time s => faultSensor_effect n cause time s

theorem markCarriesTheLastValue : MarkCarriesTheLastValue := by
  intro n c reason cause time dropped mark
  refine ⟨fun h => ?_, fun h1 h2 => ?_⟩ <;> rw [markRecord_eq] <;> dsimp only
  · rw [if_pos h, if_pos h, if_pos h]
    rfl
  · have h : ¬ (reason = .start ∨ c.last.validity = .notValid) := fun hn => hn.elim h1 h2
    rw [if_neg h, if_neg h, if_neg h, saturate48_eq]
    rfl

/-- Settles O58, by its four parts. -/
theorem rejectionCountsAndFaults : Obligations.RejectionCountsAndFaults :=
  ⟨rejectionCounts, rejectionCountsInEveryState, faultTakesTheSensor, markCarriesTheLastValue⟩

end Sys2Proof.Claims
end

section
set_option Elab.async false
/-! SUPPORT. The steps of a poll reading: screening, jump gate, acceptance, captures and delivery (R57, R74 to R76, R80,
R83 to R86, R97). -/

namespace Sys2Proof.Machine

open Sys2Proof.Claims

variable {s : State} {n : SensorId} {r : Reading} {v : Interval} {c c' : Sensor} {angle turn : Nat} {warning : Bool}

/-! ### Steps 1 and 2 (R75, R76) -/

theorem screen_of_failed {f : LinkFault} (h : r.position.result = .failed f) : r.screen = .missed := by
  unfold Reading.screen
  rw [h]

theorem screen_of_alarm {warn : Bool} {x : Payload} (h : r.position.result = .ok warn true x) :
    r.screen = .rejected .alarm := by
  unfold Reading.screen
  rw [h]
  rfl

section Repeated

variable {warn : Bool} {o : ExchangeOutcome} (h : r.position.result = .ok warn false (.reading angle turn))
include h

theorem screen_of_alone (hr : r.repeated = none) : r.screen = .good angle turn warn := by
  unfold Reading.screen
  rw [h, hr]
  rfl

theorem screen_of_repeat_failed (hr : r.repeated = some o) {f : LinkFault} (ho : o.result = .failed f) :
    r.screen = .missed := by
  unfold Reading.screen
  rw [h, hr, Option.map_some, ho]
  rfl

theorem screen_of_repeat_alarm (hr : r.repeated = some o) {w : Bool} {x : Payload} (ho : o.result = .ok w true x) :
    r.screen = .rejected .alarm := by
  unfold Reading.screen
  rw [h, hr, Option.map_some, ho]
  rfl

theorem screen_of_repeat (hr : r.repeated = some o) {w : Bool} {x y : Nat} (ho : o.result = .ok w false (.reading x y)) :
    r.screen =
      if x = angle ∧ y = turn then .good angle turn (warn || w) else .rejected .confirmMismatch := by
  unfold Reading.screen
  rw [h, hr, Option.map_some, ho]
  simp only [Bool.false_eq_true, if_false, Payload.reading?, Prod.mk.injEq]

end Repeated

/-! ### What a screened reading does to its sensor (R57, R74) -/

theorem takeReading_discarded (h : (s.sensor r.sensor).state ≠ .acquiring) : takeReading r s = s := by
  unfold takeReading
  dsimp only
  exact if_pos h

theorem takeReading_missed (h : (s.sensor r.sensor).state = .acquiring) (hr : r.screen = .missed) :
    takeReading r s = missReading r.sensor s := by
  unfold takeReading
  dsimp only
  rw [if_neg (not_not_intro h), hr]

theorem takeReading_rejected (h : (s.sensor r.sensor).state = .acquiring) {cause : RejectCause}
    (hr : r.screen = .rejected cause) : takeReading r s = rejectReading r.sensor r.sampleTime s := by
  unfold takeReading
  dsimp only
  rw [if_neg (not_not_intro h), hr]

theorem takeReading_good (h : (s.sensor r.sensor).state = .acquiring) (hr : r.screen = .good angle turn warning) :
    takeReading r s =
      if (s.sensor r.sensor).jumps ((s.sensor r.sensor).turned angle turn) = true then
        rejectReading r.sensor r.sampleTime s
      else admitReading r angle turn warning s := by
  unfold takeReading
  dsimp only
  rw [if_neg (not_not_intro h), hr]

/-! ### Step 7: the captures of a reading (R84, R97) -/

/-- What step 7 does at one line: the context so far and the records so far go on. -/
def captureAt (n : SensorId) (v : Interval) (acc : Sensor × List SampleRecord) (l : LineId) : Sensor × List SampleRecord :=
  match acc.1.captures[l] with
  | none => acc
  | some x =>
    if x.edgeTime ≤ v.current.sampleTime then
      ((completeCapture n l x v acc.1).1, acc.2 ++ [(completeCapture n l x v acc.1).2])
    else acc

theorem completeCaptures_eq (n : SensorId) (v : Interval) (c : Sensor) :
    completeCaptures n v c = ([0, 1, 2, 3] : List LineId).foldl (captureAt n v) (c, []) := rfl

theorem captureAt_keeps {l : LineId} (rs : List SampleRecord)
    (later : ∀ x, c.captures[l] = some x → v.current.sampleTime < x.edgeTime) : captureAt n v (c, rs) l = (c, rs) := by
  unfold captureAt
  dsimp only
  split
  next => rfl
  next x hx => exact if_neg (BitVec.not_le.2 (later x hx))

theorem captureAt_completes {l : LineId} {x : PendingCapture} (rs : List SampleRecord) (pending : c.captures[l] = some x)
    (reached : x.edgeTime ≤ v.current.sampleTime) :
    captureAt n v (c, rs) l = ((completeCapture n l x v c).1, rs ++ [(completeCapture n l x v c).2]) := by
  unfold captureAt
  rw [pending]
  exact if_pos reached

/-- Step 7 runs through the lines as `Captured` says. -/
theorem captured_foldl (n : SensorId) (v : Interval) (lines : List LineId) (c : Sensor) (before : List SampleRecord) :
    ∃ rs, Captured n v lines c (lines.foldl (captureAt n v) (c, before)).1 rs ∧
      (lines.foldl (captureAt n v) (c, before)).2 = before ++ rs := by
  induction lines generalizing c before with
  | nil => exact ⟨[], .nil c, (List.append_nil _).symm⟩
  | cons l rest ih =>
    rw [List.foldl_cons]
    by_cases hc : ∃ x, c.captures[l] = some x ∧ x.edgeTime ≤ v.current.sampleTime
    · obtain ⟨x, hx, hle⟩ := hc
      rw [captureAt_completes before hx hle]
      obtain ⟨rs, h1, h2⟩ := ih (completeCapture n l x v c).1 (before ++ [(completeCapture n l x v c).2])
      exact ⟨_, .completes hx hle h1, by rw [h2, List.append_assoc, List.singleton_append]⟩
    · have hlater : ∀ x, c.captures[l] = some x → v.current.sampleTime < x.edgeTime := fun x hx =>
        BitVec.not_le.1 fun hle => hc ⟨x, hx, hle⟩
      rw [captureAt_keeps before hlater]
      obtain ⟨rs, h1, h2⟩ := ih c before
      exact ⟨rs, .keeps hlater h1, h2⟩

theorem completeCaptures_captured (n : SensorId) (v : Interval) (c : Sensor) :
    Captured n v [0, 1, 2, 3] c (completeCaptures n v c).1 (completeCaptures n v c).2 := by
  obtain ⟨rs, h1, h2⟩ := captured_foldl n v [0, 1, 2, 3] c []
  rw [completeCaptures_eq, h2, List.nil_append]
  exact h1

/-- Captures leave the decimation as it is. -/
theorem captured_keeps_decimation {lines : List LineId} {rs : List SampleRecord} (h : Captured n v lines c c' rs) :
    c'.decimation = c.decimation ∧ c'.decimationCounter = c.decimationCounter := by
  induction h with
  | nil => exact ⟨rfl, rfl⟩
  | keeps _ _ ih => exact ih
  | completes _ _ _ ih => exact ih

theorem captured_of_none {lines : List LineId} {rs : List SampleRecord} (h : Captured n v lines c c' rs)
    (hnone : ∀ l : LineId, c.captures[l] = none) : c' = c ∧ rs = [] := by
  induction h with
  | nil => exact ⟨rfl, rfl⟩
  | keeps _ _ ih => exact ih hnone
  | completes pending _ _ _ =>
    rw [hnone] at pending
    exact absurd pending nofun

/-! ### Steps 6 to 8 (R83 to R86) -/

/-- Step 8 on a context with the decimation of the context `b` (R85). -/
theorem decimate_eq {b : Sensor} (h : c.decimation = b.decimation ∧ c.decimationCounter = b.decimationCounter)
    (ring : SampleRingState) (forced : Bool) :
    let sampled := forced || decide (effectiveDecimation b.decimation ring ≤ b.decimationCounter + 1)
    decimate c ring forced =
      ({ c with decimationCounter := if sampled = true then 0 else b.decimationCounter + 1 }, sampled) := by
  intro sampled
  have hdue : (forced || decide (effectiveDecimation c.decimation ring ≤ c.decimationCounter + 1)) = sampled := by
    rw [h.1, h.2]
  unfold decimate
  rw [hdue, h.2]
  cases sampled <;> rfl

theorem admitReading_turnRange
    (h : (s.sensor r.sensor).turnInRange ((s.sensor r.sensor).turned angle turn) = false) :
    admitReading r angle turn warning s = faultSensor r.sensor .turnRange r.sampleTime s := by
  unfold admitReading
  dsimp only
  rw [h]
  rfl

theorem admitReading_positionRange
    (h : (s.sensor r.sensor).turnInRange ((s.sensor r.sensor).turned angle turn) = true)
    (hp : inSigned48 ((s.sensor r.sensor).positionOf ((s.sensor r.sensor).turned angle turn).extRaw) = false) :
    admitReading r angle turn warning s = faultSensor r.sensor .positionRange r.sampleTime s := by
  unfold admitReading
  dsimp only
  rw [h, hp]
  rfl

/-- The interval that an accepted reading closes, from the last accepted value (R97). -/
def closedInterval (r : Reading) (angle turn : Nat) (warning : Bool) (c : Sensor) : Interval :=
  let t := c.turned angle turn
  { previous := c.last, current := (c.accept angle turn r.sampleTime t).last, delta := t.delta.getD 0, late := r.late
    warning := warning, mtWrap := t.wrapped }

/-- The SAMPLE record of an accepted reading (R86). -/
def sampleOf (r : Reading) (angle turn : Nat) (warning : Bool) (c : Sensor) : SampleRecord :=
  let t := c.turned angle turn
  { kind := .sample, sensor := r.sensor, time := r.sampleTime, position := c.positionOf t.extRaw, angle := angle
    turn := (c.accept angle turn r.sampleTime t).reportedTurn, line := none, reason := none, cause := .none
    flags := { RecordFlags.clear with
      late := r.late, warning := warning, resync := c.resyncs, mtWrap := t.wrapped } }

/-- The turn that an accepted reading's record carries, by turn mode (R86). -/
theorem reportedTurn_accept (c : Sensor) (angle turn : Nat) (time : Time) (t : Turned) :
    (c.accept angle turn time t).reportedTurn =
      match c.turnMode with
      | .none => 0
      | .sensor => (turn : Int)
      | .extend => t.candidate := by
  unfold Sensor.reportedTurn Sensor.accept
  cases c.turnMode <;> rfl

theorem admitReading_accepted
    (h : (s.sensor r.sensor).turnInRange ((s.sensor r.sensor).turned angle turn) = true)
    (hp : inSigned48 ((s.sensor r.sensor).positionOf ((s.sensor r.sensor).turned angle turn).extRaw) = true) :
    let c := s.sensor r.sensor
    let t := c.turned angle turn
    let done := completeCaptures r.sensor (closedInterval r angle turn warning c) (c.accept angle turn r.sampleTime t)
    let counted := decimate done.1 (s.sr c.ring).state (c.resyncs || t.wrapped)
    admitReading r angle turn warning s =
      postRecords (done.2 ++ if counted.2 = true then [sampleOf r angle turn warning c] else [])
        (s.setSensor r.sensor counted.1) := by
  intro c t done counted
  unfold admitReading
  dsimp only
  rw [h, hp]
  rfl

end Sys2Proof.Machine

namespace Sys2Proof.Claims

open Sys2Proof.Machine

theorem readingIsScreened : ReadingIsScreened := by
  intro r s c missed rejected
  refine ⟨takeReading_discarded, fun hst => ⟨fun f hf => takeReading_missed hst (screen_of_failed hf),
    fun warn x hx => takeReading_rejected hst (screen_of_alarm hx), fun warn angle turn hok => ⟨screen_of_alone hok,
    fun o ho => ⟨fun f hf => takeReading_missed hst (screen_of_repeat_failed hok ho hf),
      fun w x hx => takeReading_rejected hst (screen_of_repeat_alarm hok ho hx), fun w x y hx => ?_⟩⟩⟩⟩
  have hscreen := screen_of_repeat hok ho hx
  refine ⟨fun hne => takeReading_rejected hst (hscreen.trans (if_neg hne)), fun h1 h2 => hscreen.trans (if_pos ⟨h1, h2⟩)⟩

theorem jumpGateByValidity : JumpGateByValidity := by
  intro r angle turn warning s hst hscreen c
  have htake := takeReading_good hst hscreen
  refine ⟨fun hv hl hd => htake.trans (if_pos ((jumps_iff _ _).2 ⟨hv, hl, hd⟩)), fun hpass =>
    htake.trans (if_neg fun hj => ?_)⟩
  obtain ⟨hv, hl, d, hd, hlt⟩ := (jumps_iff _ _).1 hj
  rcases hpass with hne | hzero | hle
  · exact hne hv
  · exact hl hzero
  · exact absurd (hle d hd) (not_le.2 hlt)

theorem acceptedReadingBecomesTheReference : AcceptedReadingBecomesTheReference := by
  intro r angle turn warning s c x forced step sampled accepted interval sample
  have hturn : (c.turnMode = .extend → inSigned24 x.candidate = true) → c.turnInRange x = true := fun h =>
    Bool.eq_true_of_not_eq_false fun hf => by
      obtain ⟨hm, hc⟩ := (turnInRange_eq_false_iff c x).1 hf
      exact Bool.false_ne_true (hc.symm.trans (h hm))
  refine ⟨fun hm hc => (admitReading_turnRange ((turnInRange_eq_false_iff c x).2 ⟨hm, hc⟩)).trans (faultSensor_effect ..),
    fun ht hp => (admitReading_positionRange (hturn ht) hp).trans (faultSensor_effect ..), fun ht hp => ?_⟩
  have hcaptured := completeCaptures_captured r.sensor interval accepted
  refine ⟨_, _, hcaptured, (admitReading_accepted (hturn ht) hp).trans ?_⟩
  have hsample : sampleOf r angle turn warning c = sample := by
    unfold sampleOf
    dsimp only
    rw [reportedTurn_accept]
    rfl
  have hdecimate := decimate_eq (captured_keeps_decimation hcaptured) (s.sr c.ring).state forced
  rw [hsample]
  exact congrArg (fun d : Sensor × Bool => postRecords
    ((completeCaptures r.sensor interval accepted).2 ++ if d.2 = true then [sample] else []) (s.setSensor r.sensor d.1))
    hdecimate

theorem nothingPendingNothingCaptured : NothingPendingNothingCaptured := fun _ _ _ _ _ hnone h => captured_of_none h hnone

/-- Settles O59, by its four parts. -/
theorem readingPassesTheGate : Obligations.ReadingPassesTheGate :=
  ⟨readingIsScreened, jumpGateByValidity, acceptedReadingBecomesTheReference, nothingPendingNothingCaptured⟩

end Sys2Proof.Claims
end

section
set_option Elab.async false
/-! SUPPORT. Training: the exchanges to the four addresses and its end (R19 to R23). -/

namespace Sys2Proof.Claims

open Sys2Proof.Machine

variable {s t u v x : State} {p : PortId} {k : SlotId} {n : SensorId} {a : Attempt} {e : AttemptEnd} {tr : Training}
  {entry x0 x1 x2 x3 : IdentityEntry} {table : Vector IdentityEntry 4} {entries : List IdentityEntry} {c : Instr}

/-! ### One exchange of a training (R20) -/

theorem endAttempt_training (ha : (s.link p).attempt = some a) (hst : (s.link p).state = .training)
    (ht : (s.link p).training = some tr) (hl : ∀ f, e = .fault f → (s.link p).parameters.retryLimit < a.tags.length) :
    endAttempt p e s = trainingExchangeEnd p tr e
      (s.setLink p { s.link p with attempt := some (a.finished e), lastEnd := some s.time }) := by
  unfold endAttempt
  dsimp only
  rw [ha, hst]
  cases e with
  | ok warn alarm w =>
    dsimp only
    rw [ht]
  | fault f =>
    have hno : retriesRemain (s.link p) (a.finished (.fault f)) = false :=
      decide_eq_false (Nat.not_lt.2 (hl f rfl))
    dsimp only
    rw [hno, ht]
    rfl

theorem wordValid_iff (w : BitVec 32) : wordValid w = true ↔
    8 ≤ (w.extractLsb' 19 5).toNat ∧ (w.extractLsb' 19 5).toNat ≤ 24 ∧ (w.extractLsb' 14 5).toNat ≤ 16 := by
  unfold wordValid wordSt wordMt
  rw [Bool.and_eq_true, Bool.and_eq_true, decide_eq_true_eq, decide_eq_true_eq, decide_eq_true_eq, and_assoc,
    BitVec.extractLsb'_toNat, BitVec.extractLsb'_toNat]

theorem provisionalEntry_eq (h : TrainedEntry e entry) : provisionalEntry e = entry := by
  obtain ⟨warn, alarm, w, rfl, rfl⟩ | ⟨f, rfl, rfl⟩ := h
  · exact if_congr (wordValid_iff w) rfl rfl
  · rfl

theorem TrainingEnds.runs (h : TrainingEnds p tr a e entry c s) :
    exec c s = .next (settle (trainingExchangeEnd p tr e
      (s.setLink p { s.link p with attempt := some (a.finished e), lastEnd := some s.time }))) := by
  rw [h.ends.exec, endAttempt_training h.ends.1 h.state h.training h.last]

theorem trainingGathersEntries : TrainingGathersEntries := by
  intro p tr a e entry c s next h hnext
  have hlt : tr.address.val + 1 < 4 := hnext ▸ next.isLt
  obtain rfl : next = ⟨tr.address.val + 1, hlt⟩ := Fin.ext hnext
  rw [h.runs]
  unfold trainingExchangeEnd
  dsimp only
  rw [dif_pos hlt, provisionalEntry_eq h.entry, State.link_setLink_same, State.setLink_setLink]
  exact congrArg Host.Outcome.next (settle_of_none_discarded (s := s.setLink p _) h.settled)

/-! ### The sensors at a training end (R23, R67, R70) -/

theorem trainingEndSensor_eq (running : Bool) (n : SensorId) (s : State) :
    trainingEndSensor running n s = identityChecked running n s := by
  unfold trainingEndSensor identityChecked
  change (if (!(entryOf n s).present) = true then s
    else if sameIdentity (entryOf n s).word (s.sensor n).identity = true then
      if (decide ((s.sensor n).state = .waiting) && running) = true then
        s.setSensor n { (s.sensor n).markStale with state := .acquiring } else s
    else if (s.sensor n).state = .bound ∨ (s.sensor n).state = .waiting then faultSensor n .identityChanged s.time s else s) = _
  dsimp only
  rw [faultSensor_effect]
  cases (entryOf n s).present with
  | false => simp
  | true =>
    cases sameIdentity (entryOf n s).word (s.sensor n).identity with
    | true => simp [Sensor.markStale]
    | false => simp

theorem sameHostWork_trans (h : SameHostWork s t) (g : SameHostWork t u) : SameHostWork s u :=
  ⟨fun p => (g.queue p).trans (h.queue p), fun p => (g.active p).trans (h.active p), fun p => (g.owner p).trans (h.owner p),
    fun p => (g.done p).trans (h.done p), fun p => (g.progress p).trans (h.progress p),
    fun p => (g.round p).trans (h.round p)⟩

theorem Treats.trans (h : Treats s t) (g : Treats t u) : Treats s u := 
  ⟨h.beside.trans g.beside, sameHostWork_trans h.work g.work⟩

theorem treats_identityChecked (running : Bool) (n : SensorId) (s : State) : Treats s (identityChecked running n s) := by
  unfold identityChecked
  dsimp only
  rw [← faultSensor_effect]
  split
  · exact treats_setSensor _ _ _
  split
  · exact ⟨faultSensor_besideRequests _ _ _ _, (faultSensor_quiet _ _ _ _).sameHostWork⟩
  · exact .refl s

theorem treats_foldl_identityChecked (running : Bool) (l : List SensorId) (s : State) :
    Treats s (l.foldl (fun u n => identityChecked running n u) s) := by
  induction l generalizing s with
  | nil => exact .refl s
  | cons n l ih => exact (treats_identityChecked running n s).trans (ih _)

/-- A sensor whose slave is ABSENT is left as it is. -/
theorem identityChecked_of_absent {running : Bool} (h : (entryOf n s).present = false) :
    identityChecked running n s = s := by
  unfold identityChecked
  dsimp only
  rw [if_neg (by rw [h]; simp), if_neg (by rw [h]; simp)]

theorem foldl_identityChecked_of_absent {running : Bool} {l : List SensorId}
    (h : ∀ n ∈ l, (entryOf n s).present = false) : l.foldl (fun u n => identityChecked running n u) s = s := by
  induction l with
  | nil => rfl
  | cons n l ih =>
    rw [List.foldl_cons, identityChecked_of_absent (h n List.mem_cons_self)]
    exact ih fun m hm => h m (List.mem_cons_of_mem n hm)

/-- The context of a sensor that a training end in RUNNING resumes, its slave's identity unchanged (R67). -/
def resumedSensor (entry : IdentityEntry) (c : Sensor) : Sensor :=
  if c.state = .waiting ∧ entry.present = true then
    { c with
      state := .acquiring
      last := { c.last with validity := if c.last.validity = .valid then .stale else c.last.validity } }
  else c

theorem identityChecked_of_unchanged
    (h : (s.sensor n).state = .bound ∨ (s.sensor n).state = .waiting → (entryOf n s).present = true →
      sameIdentity (entryOf n s).word (s.sensor n).identity = true) :
    identityChecked true n s = s.setSensor n (resumedSensor (entryOf n s) (s.sensor n)) := by
  unfold identityChecked resumedSensor
  dsimp only
  by_cases hw : (s.sensor n).state = .waiting ∧ (entryOf n s).present = true
  · rw [if_pos ⟨hw.2, h (.inr hw.1) hw.2, hw.1, rfl⟩, if_pos hw]
  · rw [if_neg fun hn => hw ⟨hn.2.2.1, hn.1⟩, if_neg hw, if_neg fun hn => Bool.false_ne_true (hn.2.1.symm.trans (h hn.2.2 hn.1))]
    exact (State.setSensor_self s n).symm

/-- Contexts written one after another, each from its own. -/
theorem foldl_setSensor (g : SensorId → Sensor → Sensor) {l : List SensorId} (hnd : l.Nodup) (s : State) :
    l.foldl (fun u n => u.setSensor n (g n (u.sensor n))) s =
      { s with sensors := Vector.ofFn fun n : SensorId => if n ∈ l then g n (s.sensor n) else s.sensor n } := by
  induction l generalizing s with
  | nil =>
    have hself : (Vector.ofFn fun n : SensorId => s.sensor n) = s.sensors := Vector.ext fun i hi => by
      rw [Vector.getElem_ofFn]
      rfl
    simp only [List.not_mem_nil, if_false, hself, List.foldl_nil]
  | cons m l ih =>
    obtain ⟨hm, hl⟩ := List.nodup_cons.1 hnd
    rw [List.foldl_cons, ih hl]
    refine congrArg (fun v => { s with sensors := v }) (congrArg Vector.ofFn (funext fun n => ?_))
    by_cases hnm : n = m
    · subst hnm
      rw [if_neg hm, if_pos List.mem_cons_self, State.sensor_setSensor_same]
    · rw [State.sensor_setSensor_ne _ _ _ _ (Ne.symm hnm)]
      exact if_congr (by rw [List.mem_cons, or_iff_right hnm]) rfl rfl

/-- With no identity changed, a training end in RUNNING resumes the sensors that wait (R67). -/
theorem foldl_identityChecked_of_unchanged {l : List SensorId} (hnd : l.Nodup) (hp : ∀ n ∈ l, portOf n = p)
    (htable : (s.link p).identity = table)
    (h : ∀ n ∈ l, (s.sensor n).state = .bound ∨ (s.sensor n).state = .waiting → (table[addrOf n]).present = true →
      sameIdentity (table[addrOf n]).word (s.sensor n).identity = true) :
    l.foldl (fun u n => identityChecked true n u) s =
      l.foldl (fun u n => u.setSensor n (resumedSensor table[addrOf n] (u.sensor n))) s := by
  induction l generalizing s with
  | nil => rfl
  | cons m l ih =>
    obtain ⟨hm, hl⟩ := List.nodup_cons.1 hnd
    have hentry : entryOf m s = table[addrOf m] := by
      unfold entryOf
      rw [hp m List.mem_cons_self, htable]
    rw [List.foldl_cons, List.foldl_cons, identityChecked_of_unchanged (by rw [hentry]; exact h m List.mem_cons_self), hentry]
    refine ih hl (fun n hn => hp n (List.mem_cons_of_mem m hn)) htable fun n hn => ?_
    rw [State.sensor_setSensor_ne _ _ _ _ (fun hmn : m = n => hm (by rw [hmn]; exact hn))]
    exact h n (List.mem_cons_of_mem m hn)

theorem resumedSensors_eq (hs : ∀ n, x.sensor n = s.sensor n) : (Vector.ofFn fun n : SensorId =>
    if n ∈ sensorsOf p then resumedSensor table[addrOf n] (x.sensor n) else x.sensor n) = resumedSensors p table s := by
  refine congrArg Vector.ofFn (funext fun n => ?_)
  rw [hs]
  unfold resumedSensor
  by_cases hp : portOf n = p
  · rw [if_pos ((mem_sensorsOf p n).2 hp)]
    exact if_congr (and_iff_right hp).symm rfl rfl
  · rw [if_neg fun hm => hp ((mem_sensorsOf p n).1 hm), if_neg fun hn => hp hn.1]

/-! ### The training end (R22, R23) -/

theorem newIdentity_eq (x0 x1 x2 x3 : IdentityEntry) : newIdentity [x0, x1, x2, x3] = #v[x0, x1, x2, x3] := rfl

/-- The state in which the identity table of a training has been published. -/
def published (p : PortId) (table : Vector IdentityEntry 4) (s : State) : State :=
  s.setLink p { s.link p with identity := table, training := none, attempt := none, lastEnd := some s.time }

/-- The state in which a link has entered RUNNING from TRAINING (R22, R37). -/
def runningFrom (p : PortId) (now : Time) (le : LinkEngine) (u : State) : State :=
  (u.setLink p { le with state := .running }).setSched p { u.sched p with
    cycleTimer := some (after now (125 * le.parameters.cyclePeriod))
    periodInForce := le.parameters.cyclePeriod }

/-- The state in which the port's sensors have been compared with the new table and the link is RUNNING (R22, R23). -/
def trainedTo (p : PortId) (table : Vector IdentityEntry 4) (s : State) : State :=
  runningFrom p s.time ((published p table s).link p)
    ((sensorsOf p).foldl (fun u n => identityChecked true n u) (published p table s))

theorem runningFrom_time (now : Time) (le : LinkEngine) : (runningFrom p now le u).time = u.time := rfl

theorem enterRunning_eq (p : PortId) (s : State) : enterRunning p s = runningFrom p s.time (s.link p) s := by
  unfold enterRunning runningFrom
  dsimp only
  rw [State.sched_setLink, Nat.mul_comm]
  rfl

theorem treats_link (h : Treats s t) (p : PortId) : t.link p = s.link p := by
  unfold State.link
  rw [h.beside.links]

/-- The table is published before the sensors are compared with it. -/
theorem published_of_ended (p : PortId) (table : Vector IdentityEntry 4) (s : State) (at' : Option Attempt) :
    let ended := s.setLink p { s.link p with attempt := at', lastEnd := some s.time }
    ended.setLink p { ended.link p with identity := table, training := none, attempt := none } = published p table s := by
  intro ended
  unfold published
  rw [State.link_setLink_same, State.setLink_setLink]

theorem absent_of_presentMask (h : presentMask table = 0) (i : SlaveAddr) : table[i].present = false := by
  unfold presentMask at h
  have h0 : table[0].present.toNat = 0 := by omega
  have h1 : table[1].present.toNat = 0 := by omega
  have h2 : table[2].present.toNat = 0 := by omega
  have h3 : table[3].present.toNat = 0 := by omega
  match i with
  | 0 => exact Bool.toNat_eq_zero.1 h0
  | 1 => exact Bool.toNat_eq_zero.1 h1
  | 2 => exact Bool.toNat_eq_zero.1 h2
  | 3 => exact Bool.toNat_eq_zero.1 h3

/-- The link that a training without a slave has brought DOWN (R23, R28). -/
def downLink (le : LinkEngine) (now : Time) : LinkEngine :=
  { le with state := .down, retrainTimer := retrainFrom now le.parameters.retrainInterval }

/-- With no slave PRESENT, no sensor is touched. -/
theorem trainingEndSensors_absent (h : presentMask table = 0) (running : Bool) :
    (sensorsOf p).foldl (fun u n => trainingEndSensor running n u) (published p table s) = published p table s := by
  simp only [trainingEndSensor_eq]
  refine foldl_identityChecked_of_absent fun n hn => ?_
  have hentry : entryOf n (published p table s) = table[addrOf n] := by
    unfold entryOf published
    rw [(mem_sensorsOf p n).1 hn, State.link_setLink_same]
  rw [hentry]
  exact absent_of_presentMask h (addrOf n)

section TrainingEnd

variable {at' : Option Attempt} (htable : newIdentity entries = table)
include htable

theorem endTraining_start (h : presentMask table ≠ 0) :
    endTraining p .start entries (s.setLink p { s.link p with attempt := at', lastEnd := some s.time }) =
      makeDecision p (completeInFlight (.port p) (portStartResult .success table) (trainedTo p table s)) := by
  have T := treats_foldl_identityChecked true (sensorsOf p) (published p table s)
  unfold endTraining
  dsimp only
  rw [htable, published_of_ended, if_pos h, decide_eq_true h]
  simp only [trainingEndSensor_eq]
  rw [enterRunning_eq, T.beside.time, treats_link T]
  rfl

theorem endTraining_retrain (h : presentMask table ≠ 0) :
    endTraining p .retrain entries (s.setLink p { s.link p with attempt := at', lastEnd := some s.time }) =
      makeDecision p (raiseNotice (.port p) (BitVec.ofNat 32 (2 + 256 * presentMask table)) s.time (trainedTo p table s)) := by
  have T := treats_foldl_identityChecked true (sensorsOf p) (published p table s)
  unfold endTraining
  dsimp only
  rw [htable, published_of_ended, if_pos h, decide_eq_true h]
  simp only [trainingEndSensor_eq]
  rw [enterRunning_eq, runningFrom_time, T.beside.time, treats_link T]
  rfl

theorem endTraining_start_absent (h : presentMask table = 0) :
    endTraining p .start entries (s.setLink p { s.link p with attempt := at', lastEnd := some s.time }) =
      completeInFlight (.port p) (portStartResult .noSlave table) (flushQueue p .portDown
        (s.setLink p (disabledLink ((published p table s).link p)))) := by
  unfold endTraining
  dsimp only
  rw [htable, published_of_ended, if_neg (not_not_intro h), trainingEndSensors_absent h, enterDisabled_eq]
  unfold published
  rw [State.setLink_setLink]

theorem endTraining_retrain_absent (h : presentMask table = 0) :
    endTraining p .retrain entries (s.setLink p { s.link p with attempt := at', lastEnd := some s.time }) =
      (fun x => raiseNotice (.port p) (BitVec.ofNat 32 (4 + 16 * 6)) x.time x) (flushPort p .portDown
        (s.setLink p (downLink ((published p table s).link p) s.time))) := by
  unfold endTraining
  dsimp only
  rw [htable, published_of_ended, if_neg (not_not_intro h), trainingEndSensors_absent h, retrainFrom_eq]
  unfold published
  rw [State.setLink_setLink]
  rfl

end TrainingEnd

/-- A port queue stays ready where its references, their slots and the completion rings are kept. -/
theorem QueueReady.of_same (h : QueueReady p s) (hslots : t.slots = s.slots) (hcrs : t.crs = s.crs)
    (hq : (t.sched p).queue = (s.sched p).queue) : QueueReady p t := by
  refine ⟨by rw [hq]; exact h.distinct, fun k hk => ?_⟩
  rw [hq] at hk
  unfold State.slot State.cr
  rw [hslots, hcrs]
  exact h.waiting k hk

/-- Taking a request out of the admin-in-flight set leaves the queue ready and its slot ACTIVE. -/
theorem AnswersFor.keeps {o : AdminObject} (h : AnswersFor o k s u) (hq : QueueReady p s) :
    QueueReady p u ∧ (u.slot k).state = .active := by
  rw [h.taken]
  exact ⟨⟨hq.distinct, hq.waiting⟩, h.active⟩

theorem trainedTo_keeps (p : PortId) (table : Vector IdentityEntry 4) (s : State) :
    (trainedTo p table s).slots = s.slots ∧ (trainedTo p table s).crs = s.crs ∧
    (trainedTo p table s).discarded = s.discarded ∧ ((trainedTo p table s).sched p).queue = (s.sched p).queue := by
  have T := treats_foldl_identityChecked true (sensorsOf p) (published p table s)
  unfold trainedTo
  generalize (sensorsOf p).foldl (fun u n => identityChecked true n u) (published p table s) = checked at T
  refine ⟨T.beside.slots, T.beside.crs, T.beside.discarded, ?_⟩
  unfold runningFrom
  rw [State.sched_setSched_same]
  exact T.work.queue p

theorem TrainingEnds.runs_last (h : TrainingEnds p tr a e entry c s) (haddr : tr.address = 3)
    (hprov : tr.provisional = [x0, x1, x2]) :
    exec c s = .next (settle (endTraining p tr.origin [x0, x1, x2, entry]
      (s.setLink p { s.link p with attempt := some (a.finished e), lastEnd := some s.time }))) := by
  rw [h.runs]
  unfold trainingExchangeEnd
  dsimp only
  rw [dif_neg (by rw [haddr]; decide), provisionalEntry_eq h.entry, hprov]
  rfl

theorem raiseNotice_sched (src : NoticeSource) (det : BitVec 32) (tm : Time) (s : State) (p : PortId) :
    (raiseNotice src det tm s).sched p = s.sched p := by
  rw [raiseNotice_frame]
  rfl

section TheEnd

variable (h : TrainingEnds p tr a e entry c s) (haddr : tr.address = 3) (hprov : tr.provisional = [x0, x1, x2])
  (hq : QueueReady p s) (htable : newIdentity [x0, x1, x2, entry] = table)
include h haddr hprov hq htable

/-- A retraining that finds a slave: the notice, then the decision (R23, R47). -/
theorem retraining_ends (hm : presentMask table ≠ 0) (ho : tr.origin = .retrain) : Completes c s
    (Decides p (raiseNotice (.port p) (BitVec.ofNat 32 (2 + 256 * presentMask table)) s.time (trainedTo p table s))) := by
  obtain ⟨hslots, hcrs, hdisc, hqueue⟩ := trainedTo_keeps p table s
  have B := raiseNotice_besideRequests (.port p) (BitVec.ofNat 32 (2 + 256 * presentMask table)) s.time (trainedTo p table s)
  obtain ⟨hset, D⟩ := decided (fun _ => hq.of_same (B.slots.trans hslots) (B.crs.trans hcrs) (by rw [raiseNotice_sched, hqueue]))
    (B.discarded.trans (hdisc.trans h.settled))
  have hrun := h.runs_last haddr hprov
  rw [ho, endTraining_retrain htable hm, hset] at hrun
  exact ⟨_, hrun, D⟩

/-- A training that finds a slave: PORT_START is answered, then the decision (R23, R47). -/
theorem training_ends {u : State} (hm : presentMask table ≠ 0) (ho : tr.origin = .start)
    (hA : AnswersFor (.port p) k (trainedTo p table s) u) : Completes c s fun z =>
      ∃ v, Concluded k (portStartResult .success table) u v ∧ Decides p v z := by
  obtain ⟨hslots, hcrs, hdisc, hqueue⟩ := trainedTo_keeps p table s
  have hready := hA.ready (hdisc.trans h.settled)
  obtain ⟨A, hd⟩ := completeSlot_effect (portStartResult .success table) hready.request
  obtain ⟨hu, hactive⟩ := hA.keeps (hq.of_same hslots hcrs hqueue)
  obtain ⟨hset, D⟩ := decided (fun _ => hu.concluded hactive hready.request A rfl rfl rfl) (hd.trans hready.settled)
  have hrun := h.runs_last haddr hprov
  rw [ho, endTraining_start htable hm, hA.completes, hset] at hrun
  exact ⟨_, hrun, _, A, D⟩

/-- A retraining that finds no slave: the host work is answered PORT_DOWN, then the notice (R23, R29). -/
theorem retraining_fails (hact : (s.sched p).active = none) (hm : presentMask table = 0) (ho : tr.origin = .retrain) :
    Completes c s fun z => ∃ v, Flushed p .portDown (s.setLink p (downLink ((published p table s).link p) s.time)) v ∧
      z = raiseNotice (.port p) (BitVec.ofNat 32 (4 + 16 * 6)) s.time v := by
  have hready : FlushReady p (s.setLink p (downLink ((published p table s).link p) s.time)) :=
    ⟨⟨hq.distinct, hq.waiting⟩, fun j hj => absurd (hact.symm.trans hj) nofun⟩
  obtain ⟨F, hd⟩ := flushPort_effect p .portDown _ hready h.settled
  have htime : (flushPort p .portDown (s.setLink p (downLink ((published p table s).link p) s.time))).time = s.time := by
    rw [(F.keeps hready).1.others]
    rfl
  have hrun := h.runs_last haddr hprov
  rw [ho, endTraining_retrain_absent htable hm] at hrun
  dsimp only at hrun
  rw [htime, settle_of_none_discarded ((raiseNotice_keeps _ _ _ _).2.1.trans hd)] at hrun
  exact ⟨_, hrun, _, F, rfl⟩

/-- A training that finds no slave: the queue is answered PORT_DOWN, then PORT_START (R23, R53). -/
theorem training_fails {u : State} (hm : presentMask table = 0) (ho : tr.origin = .start)
    (hA : AnswersFor (.port p) k (s.setLink p (disabledLink ((published p table s).link p))) u) :
    Completes c s fun z => ∃ v,
      QueueFlushed p .portDown (s.setLink p (disabledLink ((published p table s).link p))) v ∧
      Concluded k (portStartResult .noSlave table) { v with axInFlight := u.axInFlight } z := by
  have hready : QueueReady p (s.setLink p (disabledLink ((published p table s).link p))) := ⟨hq.distinct, hq.waiting⟩
  obtain ⟨F, hd⟩ := flushQueue_effect p .portDown _ hready h.settled
  obtain ⟨B, hslots⟩ := Through.answered_keeps F (Waiting.of_queue hready rfl rfl)
  have hk : k ∉ (s.sched p).queue := fun hk => by
    have hqueued := (hq.waiting k hk).1
    rw [show (s.slot k).state = .active from hA.active] at hqueued
    cases hqueued
  have hv := hA.of_kept B.axInFlight (hslots k hk) (B.cr_state _)
  have A := hv.answered (r := portStartResult .noSlave table) hd
  have hrun := h.runs_last haddr hprov
  rw [ho, endTraining_start_absent htable hm] at hrun
  refine ⟨_, hrun, _, F, (concluded_iff_answered ?_).2 A⟩
  exact hv.alone

end TheEnd

theorem trainingEndTreatsThePort : TrainingEndTreatsThePort := by
  intro p tr a e x0 x1 x2 x c s h haddr hprov hact _ hq table mask published' checked running down disabled
  have htable : newIdentity [x0, x1, x2, x] = table := rfl
  have hlink : published'.link p = _ := State.link_setLink_same s p _
  have hrunning : trainedTo p table s = running := by
    unfold trainedTo runningFrom
    rw [show (published p table s).link p = _ from State.link_setLink_same s p _]
    exact congrArg (fun le : LinkEngine => (checked.setLink p { le with state := .running }).setSched p { checked.sched p with
      cycleTimer := some (after s.time (125 * (s.link p).parameters.cyclePeriod))
      periodInForce := (s.link p).parameters.cyclePeriod }) hlink.symm
  have hdisabled : s.setLink p (disabledLink ((published p table s).link p)) = disabled := by
    rw [show (published p table s).link p = _ from hlink]
    exact congrArg (fun le : LinkEngine => s.setLink p { le with
      state := .disabled, failures := 0, retryGapTimer := none, retrainTimer := none }) hlink.symm
  have hdown : s.setLink p (downLink ((published p table s).link p) s.time) = down := by
    unfold downLink
    rw [show (published p table s).link p = _ from hlink]
    exact congrArg (fun le : LinkEngine => s.setLink p { le with
      state := .down, retrainTimer := retrainFrom s.time (s.link p).parameters.retrainInterval }) hlink.symm
  rw [← hrunning, ← hdisabled, ← hdown]
  exact ⟨retraining_ends h haddr hprov hq htable, fun k u hm ho hA => training_ends h haddr hprov hq htable hm ho hA,
    retraining_fails h haddr hprov hq htable hact, fun k u hm ho hA => training_fails h haddr hprov hq htable hm ho hA⟩

/-! ### The training end on a quiet port -/

theorem trainedTo_of_unchanged (h : ∀ n, portOf n = p → (s.sensor n).state = .bound ∨ (s.sensor n).state = .waiting →
    (table[addrOf n]).present = true → sameIdentity (table[addrOf n]).word (s.sensor n).identity = true) :
    trainedTo p table s = trainedRunning p table s := by
  have hlink : (published p table s).link p = _ := State.link_setLink_same s p _
  unfold trainedTo
  rw [foldl_identityChecked_of_unchanged (s := published p table s) (table := table) (sensorsOf_nodup p) (fun n hn => (mem_sensorsOf p n).1 hn)
      (by rw [hlink]) fun n hn => h n ((mem_sensorsOf p n).1 hn),
    foldl_setSensor (fun n => resumedSensor table[addrOf n]) (sensorsOf_nodup p), resumedSensors_eq (s := s) (x := published p table s) fun _ => rfl, hlink]
  have hset : ∀ (y : State) (contexts : Vector Sensor 32) (le : LinkEngine),
      ({ y with sensors := contexts } : State).setLink p le = { y.setLink p le with sensors := contexts } := fun _ _ _ => rfl
  unfold runningFrom
  rw [hset]
  unfold published
  rw [State.setLink_setLink]
  rfl

theorem trainedRunning_sched (p : PortId) (table : Vector IdentityEntry 4) (s : State) :
    ((trainedRunning p table s).sched p) = { s.sched p with
      cycleTimer := some (after s.time (125 * (s.link p).parameters.cyclePeriod))
      periodInForce := (s.link p).parameters.cyclePeriod } := by
  have hset : ∀ (y : State) (contexts : Vector Sensor 32), ({ y with sensors := contexts } : State).sched p = y.sched p :=
    fun _ _ => rfl
  unfold trainedRunning
  rw [hset, State.sched_setSched_same]

/-- With an empty queue there is nothing to flush (R53). -/
theorem QueueFlushed.of_empty {st : Status} (h : QueueFlushed p st u v) (hq : (u.sched p).queue = []) : v = u := by
  unfold QueueFlushed at h
  rw [hq] at h
  cases h
  conv_rhs => rw [← State.setSched_self u p]
  rw [← hq]

theorem trainingEndPublishesTheTable : TrainingEndPublishesTheTable := by
  intro p tr a e x0 x1 x2 x c s h haddr hprov hround hqueue hact table hsame mask down disabled
  have htable : newIdentity [x0, x1, x2, x] = table := rfl
  have hq : QueueReady p s := ⟨by rw [hqueue]; exact List.nodup_nil, by rw [hqueue]; exact fun i hi => absurd hi List.not_mem_nil⟩
  have hrunning := trainedTo_of_unchanged hsame
  have hsched := trainedRunning_sched p table s
  have hlink : (published p table s).link p = _ := State.link_setLink_same s p _
  have hdown : s.setLink p (downLink ((published p table s).link p) s.time) = down := by
    rw [hlink]
    rfl
  have hdisabled : s.setLink p (disabledLink ((published p table s).link p)) = disabled := by
    rw [hlink]
    rfl
  refine ⟨fun hm ho => ?_, fun k u hm ho hA => ?_, fun hm ho => ?_, fun k u hm ho hA => ?_⟩
  · obtain ⟨t, hrun, D⟩ := retraining_ends h haddr hprov hq htable hm ho
    have hs : (raiseNotice (.port p) (BitVec.ofNat 32 (2 + 256 * presentMask table)) s.time (trainedTo p table s)).sched p =
        (trainedRunning p table s).sched p := by
      rw [raiseNotice_sched, hrunning]
    rw [hsched] at hs
    rw [hrun, D.of_idle (by rw [hs]; exact hround) (by rw [hs]; exact hact) (by rw [hs]; exact hqueue), hrunning]
    rfl
  · have hs : u.sched p = (trainedRunning p table s).sched p := by
      rw [hA.taken]
      rfl
    rw [hsched] at hs
    exact Replies.of_idle (training_ends h haddr hprov hq htable hm ho (hrunning.symm ▸ hA)) (by rw [hs]; exact hround)
      (by rw [hs]; exact hact) (by rw [hs]; exact hqueue)
  · obtain ⟨z, hrun, v, F, hz⟩ := retraining_fails h haddr hprov hq htable hact hm ho
    rw [hdown] at F
    rw [hrun, hz, F.of_quiet hqueue hact]
  · obtain ⟨z, hrun, v, F, A⟩ := training_fails h haddr hprov hq htable hm ho (hdisabled ▸ hA)
    rw [hdisabled] at F
    obtain rfl := F.of_empty hqueue
    refine ⟨z, hrun, ?_⟩
    rw [hA.taken] at A ⊢
    exact A

/-- Settles O42, by its three parts. -/
theorem trainingBuildsTheTable : Obligations.TrainingBuildsTheTable :=
  ⟨trainingGathersEntries, trainingEndPublishesTheTable, trainingEndTreatsThePort⟩

end Sys2Proof.Claims
end

section
set_option Elab.async false
/-! SUPPORT. The end of a completion: the slot freed, its follower settled, a DRAINING ring ended (R123, R125, R131). -/

namespace Sys2Proof.Claims

open Sys2Proof.Machine

variable {s t u v : State} {p : PortId} {k j d : SlotId} {r : Result} {chain chain' : ChainState}

/-! ### A freed slot (R125) -/

theorem slotFreed_slot_same (k : SlotId) (chain : ChainState) (s : State) : (slotFreed k chain s).slot k = .initial :=
  State.slot_setSlot_same s k .initial

theorem slotFreed_slot_ne (h : j ≠ k) : (slotFreed k chain s).slot j = s.slot j :=
  State.slot_setSlot_ne s k j .initial h.symm

theorem slotFreed_rq (k : SlotId) (chain : ChainState) (s : State) : (slotFreed k chain s).rq (s.slot k).rq =
    { s.rq (s.slot k).rq with slotsHeld := (s.rq (s.slot k).rq).slotsHeld - 1, chain := chain } :=
  State.rq_setRq_same s (s.slot k).rq _

/-- The ring of a freed slot is written once more. -/
theorem slotFreed_setRq (k : SlotId) (chain : ChainState) (s : State) (x : RequestRing) :
    (slotFreed k chain s).setRq (s.slot k).rq x = (slotFreed k chain' s).setRq (s.slot k).rq x := by
  unfold slotFreed State.setRq
  dsimp only
  rw [Vector.set_set, Vector.set_set]

theorem slotFreed_setChain (k : SlotId) (chain chain' : ChainState) (s : State) :
    (slotFreed k chain s).setRq (s.slot k).rq { (slotFreed k chain s).rq (s.slot k).rq with chain := chain' } =
      slotFreed k chain' s := by
  rw [slotFreed_rq]
  unfold slotFreed State.setRq
  dsimp only
  rw [Vector.set_set]

theorem freeSlot_eq (k : SlotId) (s : State) : freeSlot k s =
    let freed := slotFreed k (s.rq (s.slot k).rq).chain s
    if (s.rq (s.slot k).rq).state = .draining ∧ (s.rq (s.slot k).rq).slotsHeld - 1 = 0 then
      completeInFlight (.rq (s.slot k).rq) (plain .success) (freed.setRq (s.slot k).rq .initial)
    else freed := rfl

theorem freeSlot_stays (h : RingStays k s) : freeSlot k s = slotFreed k (s.rq (s.slot k).rq).chain s := by
  rw [freeSlot_eq]
  exact if_neg fun hn => h ⟨hn.1, Nat.sub_eq_zero_iff_le.1 hn.2⟩

/-! ### Followers (R123) -/

theorem followerOf_of_none (h : NoFollower k s) : followerOf k s = none := by
  unfold followerOf
  refine List.find?_eq_none.2 fun j _ hj => h j ?_
  rw [Bool.and_eq_true, beq_iff_eq, beq_iff_eq] at hj
  exact hj

theorem followerOf_of_follows (h : Follows j k s) : followerOf k s = some j := by
  obtain ⟨hst, hpred, hone⟩ := h
  unfold followerOf
  refine find?_of_unique (p := fun i => (s.slot i).state == .linkWait && (s.slot i).predecessor == some k) (List.mem_finRange j)
    (by rw [Bool.and_eq_true, beq_iff_eq, beq_iff_eq]; exact ⟨hst, hpred⟩) fun i _ hi => ?_
  rw [Bool.and_eq_true, beq_iff_eq, beq_iff_eq] at hi
  exact hone i hi.1 hi.2

/-- No slot comes to wait on another where every slot is as it was or does not wait. -/
theorem NoFollower.of_slots (h : NoFollower k s) (hs : ∀ i, t.slot i = s.slot i ∨ (t.slot i).state ≠ .linkWait) :
    NoFollower k t := by
  intro i ⟨hst, hpred⟩
  rcases hs i with hi | hi
  · rw [hi] at hst hpred
    exact h i ⟨hst, hpred⟩
  · exact hi hst

theorem Follows.of_slots (h : Follows j k s) (hj : t.slot j = s.slot j)
    (hs : ∀ i, t.slot i = s.slot i ∨ (t.slot i).state ≠ .linkWait) : Follows j k t := by
  obtain ⟨hst, hpred, hone⟩ := h
  refine ⟨by rw [hj]; exact hst, by rw [hj]; exact hpred, fun i hi hp => ?_⟩
  rcases hs i with he | hn
  · rw [he] at hi hp
    exact hone i hi hp
  · exact absurd hi hn

/-- Freeing a slot leaves every other one, and the freed one does not wait. -/
theorem slotFreed_slots (k : SlotId) (chain : ChainState) (s : State) (i : SlotId) :
    (slotFreed k chain s).slot i = s.slot i ∨ ((slotFreed k chain s).slot i).state ≠ .linkWait := by
  by_cases hi : i = k
  · subst hi
    right
    rw [slotFreed_slot_same]
    exact nofun
  · exact .inl (slotFreed_slot_ne hi)

/-! ### The end of a completion (R123, R125) -/

theorem endCompletion_eq (hst : (s.slot k).state = .done) (hr : (s.slot k).result = some r) :
    endCompletion k s = settleFollower (s.slot k).rq k r.status (freeSlot k s) := by
  unfold endCompletion
  dsimp only
  rw [if_pos hst, hr]
  rfl

/-- With no slot waiting on it, the freed slot leaves its ring's chain state settled. -/
theorem endCompletion_alone (hst : (s.slot k).state = .done) (hr : (s.slot k).result = some r) (hring : RingStays k s)
    (hno : NoFollower k s) : endCompletion k s = slotFreed k (chainAfter k r.status s) s := by
  rw [endCompletion_eq hst hr, freeSlot_stays hring]
  unfold settleFollower chainAfter
  rw [followerOf_of_none (hno.of_slots (slotFreed_slots k _ s))]
  dsimp only
  rw [slotFreed_rq]
  dsimp only
  by_cases hc : (s.rq (s.slot k).rq).chain = .openAt k
  · have hset := slotFreed_setChain k (s.rq (s.slot k).rq).chain (if r.status = .success then .noChain else .broken) s
    rw [slotFreed_rq] at hset
    rw [if_pos hc, if_pos hc]
    exact hset
  · rw [if_neg hc, if_neg hc]

/-- The follower of a freed slot is released to its scheduler, or skipped. -/
theorem endCompletion_follower (hst : (s.slot k).state = .done) (hr : (s.slot k).result = some r) (hring : RingStays k s)
    (hj : Follows j k s) :
    let freed := slotFreed k (s.rq (s.slot k).rq).chain s
    endCompletion k s = if r.status = .success then
        arrive j (freed.setSlot j { s.slot j with state := .queued, predecessor := none })
      else completeSlot j (plain .skipped) freed := by
  have hne : j ≠ k := fun h => by
    have hwait := hj.1
    rw [h, hst] at hwait
    cases hwait
  have hfollows := hj.of_slots (slotFreed_slot_ne (chain := (s.rq (s.slot k).rq).chain) hne) (slotFreed_slots k _ s)
  intro freed
  rw [endCompletion_eq hst hr, freeSlot_stays hring]
  unfold settleFollower
  rw [followerOf_of_follows hfollows]
  dsimp only
  rw [slotFreed_slot_ne hne]
  rfl

/-- The last slot of a DRAINING ring ends the draining: its DELETE_RING is answered (R131). -/
theorem endCompletion_last (hst : (s.slot k).state = .done) (hr : (s.slot k).result = some r)
    (hdrain : (s.rq (s.slot k).rq).state = .draining) (hlast : (s.rq (s.slot k).rq).slotsHeld ≤ 1) (hno : NoFollower k s)
    (hd : s.discarded = [])
    (hA : AnswersFor (.rq (s.slot k).rq) d ((slotFreed k .noChain s).setRq (s.slot k).rq .initial) u) :
    endCompletion k s = completeSlot d (plain .success) u ∧ Ready d u := by
  have hready := hA.ready (s := (slotFreed k .noChain s).setRq (s.slot k).rq .initial) hd
  obtain ⟨A, -⟩ := completeSlot_effect (plain .success) hready.request
  have huslot : ∀ i, u.slot i = (slotFreed k .noChain s).slot i := fun i => by rw [hA.taken]; rfl
  have hurq : u.rq (s.slot k).rq = .initial := by
    rw [hA.taken]
    exact State.rq_setRq_same (slotFreed k .noChain s) _ _
  have hfree : freeSlot k s = completeSlot d (plain .success) u := by
    rw [freeSlot_eq]
    dsimp only
    rw [if_pos ⟨hdrain, Nat.sub_eq_zero_iff_le.2 hlast⟩, slotFreed_setRq (chain' := .noChain), hA.completes]
  have hslots : ∀ i, (completeSlot d (plain .success) u).slot i = s.slot i ∨
      ((completeSlot d (plain .success) u).slot i).state ≠ .linkWait := fun i => by
    have hA' := (concluded_iff_answered (by rw [huslot]; exact hA.alone)).1 A
    by_cases hi : i = d
    · subst hi
      right
      rw [hA'.slot]
      exact nofun
    · rw [hA'.otherSlots i hi, huslot]
      exact slotFreed_slots k _ s i
  refine ⟨?_, hready⟩
  rw [endCompletion_eq hst hr, hfree]
  unfold settleFollower
  rw [followerOf_of_none (hno.of_slots hslots)]
  dsimp only
  have hrq : (completeSlot d (plain .success) u).rq (s.slot k).rq = .initial := by
    rw [A.others]
    exact hurq
  rw [hrq]
  exact if_neg nofun

end Sys2Proof.Claims
end

section
set_option Elab.async false
/-! SUPPORT. COMPLETION_WRITE_END (R123, R125, R126, R131, R133, R171). -/

namespace Sys2Proof.Claims

open Sys2Proof.Machine

variable {s t u v : State} {p : PortId} {k j d : SlotId} {r : Result} {c : CrId} {w : RecordWrite} {behind rest : List OutItem}

/-! ### The end of the write (R125, R126) -/

theorem execCompletionWriteEnd_completion (h : Oldest w behind rest s) (hk : w.kind = .completion c k) :
    exec .completionWriteEnd s = .next (completionWriteReport c k w (writeFails s.msix.busMaster w)
      (writeEnded w behind rest (!writeFails s.msix.busMaster w) s)) := by
  change execCompletionWriteEnd s = _
  unfold execCompletionWriteEnd
  rw [h.1]
  dsimp only
  rw [hk, endWrite_effect h]

theorem execCompletionWriteEnd_notice (h : Oldest w behind rest s) (hk : w.kind = .notice) :
    exec .completionWriteEnd s = .next (noticeWriteReport w (writeFails s.msix.busMaster w)
      (writeEnded w behind rest (!writeFails s.msix.busMaster w) s)) := by
  change execCompletionWriteEnd s = _
  unfold execCompletionWriteEnd
  rw [h.1]
  dsimp only
  rw [hk, endWrite_effect h]

theorem completionRingFault_writeEnded (c : CrId) (w : RecordWrite) (behind rest : List OutItem) (s : State) :
    completionRingFault c w.entry (writeEnded w behind rest false s) =
      if (s.cr c).state = .active then
        raiseNotice (.cr c) (BitVec.ofNat 32 (w.entry % 65536)) s.time
          ((writeEnded w behind rest false s).setCr c { s.cr c with state := .faulted, failedEntry := some w.entry })
      else writeEnded w behind rest false s := rfl

theorem completionWriteReport_ends {failed : Bool} (hl : w.live = true) (hc : failed = true → c ≠ 0) (x : State) :
    completionWriteReport c k w failed x =
      settle (endCompletion k (if failed = true then completionRingFault c w.entry x else x)) := by
  unfold completionWriteReport
  rw [if_neg (by rw [hl]; decide)]
  exact if_neg fun hn => hc hn.1 hn.2

theorem completionWriteReport_fatal (hl : w.live = true) (x : State) :
    completionWriteReport 0 k w true x = fatalError x := by
  unfold completionWriteReport
  rw [if_neg (by rw [hl]; decide)]
  exact if_pos ⟨rfl, rfl⟩

theorem completionWriteReport_past {failed : Bool} (hl : w.live = false) (x : State) :
    completionWriteReport c k w failed x = x := by
  unfold completionWriteReport
  rw [hl]
  rfl

/-- A completion's write, of a live slot and without a fatal error, ends its completion (R125, R126). -/
theorem exec_completionEnded (h : Oldest w behind rest s) (hk : w.kind = .completion c k) (hl : w.live = true)
    (hc : Errs w s → c ≠ 0) :
    exec .completionWriteEnd s = .next (settle (endCompletion k (completionEnded c w behind rest s))) := by
  rw [execCompletionWriteEnd_completion h hk]
  unfold completionEnded
  by_cases he : Errs w s
  · rw [writeFails_of_errs he, if_pos he, ← completionRingFault_writeEnded, completionWriteReport_ends hl fun _ => hc he]
    rfl
  · rw [writeFails_of_not_errs he, if_neg he, completionWriteReport_ends hl fun hf => absurd hf Bool.false_ne_true]
    rfl

/-- An error on CR0 in READY is fatal (R126, R171). -/
theorem fatalError_writeEnded (hready : s.window.control = .ready) : ∃ control,
    HaltControl (writeEnded w behind rest false s) control ∧ fatalError (writeEnded w behind rest false s) =
      haltState (writeEnded w behind rest false s) { s.window with fatal := true, enable := false, control := control } :=
  ⟨_, haltControl_spec _, fatalError_ready hready⟩

/-- What the end of a completion's write keeps. -/
structure EndKeeps (s t : State) : Prop where
  slots : t.slots = s.slots
  rqs : t.rqs = s.rqs
  discarded : t.discarded = s.discarded
  links : t.links = s.links
  scheds : t.scheds = s.scheds

theorem completionEnded_keeps (c : CrId) (w : RecordWrite) (behind rest : List OutItem) (s : State) :
    EndKeeps s (completionEnded c w behind rest s) := by
  unfold completionEnded
  split
  · split
    · rw [raiseNotice_frame]
      exact ⟨rfl, rfl, rfl, rfl, rfl⟩
    · exact ⟨rfl, rfl, rfl, rfl, rfl⟩
  · exact ⟨rfl, rfl, rfl, rfl, rfl⟩

theorem EndKeeps.slot (h : EndKeeps s t) (k : SlotId) : t.slot k = s.slot k := by unfold State.slot; rw [h.slots]
theorem EndKeeps.rq (h : EndKeeps s t) (r : RqId) : t.rq r = s.rq r := by unfold State.rq; rw [h.rqs]
theorem EndKeeps.link (h : EndKeeps s t) (p : PortId) : t.link p = s.link p := by unfold State.link; rw [h.links]
theorem EndKeeps.sched (h : EndKeeps s t) (p : PortId) : t.sched p = s.sched p := by unfold State.sched; rw [h.scheds]

theorem EndKeeps.ringStays (h : EndKeeps s t) (hr : RingStays k s) : RingStays k t := by
  unfold RingStays
  rw [h.slot, h.rq]
  exact hr

theorem EndKeeps.chainAfter (h : EndKeeps s t) (k : SlotId) (st : Status) : chainAfter k st t = chainAfter k st s := by
  unfold Claims.chainAfter
  rw [h.slot, h.rq]

theorem EndKeeps.noFollower (h : EndKeeps s t) (hn : NoFollower k s) : NoFollower k t := hn.of_slots fun i => .inl (h.slot i)

/-! ### The slot freed, with no follower (R125, R126) -/

theorem completionEndFreesTheSlot : CompletionEndFreesTheSlot := by
  intro c k r w behind rest s h hk hr hd hno hring hst chain
  have K := completionEnded_keeps c w behind rest s
  have hrun : w.live = true → (Errs w s → c ≠ 0) →
      exec .completionWriteEnd s = .next (slotFreed k chain (completionEnded c w behind rest s)) := fun hl hc => by
    rw [exec_completionEnded h hk hl hc, endCompletion_alone (by rw [K.slot]; exact hst) (by rw [K.slot]; exact hr)
      (K.ringStays hring) (K.noFollower hno), K.chainAfter]
    exact congrArg Host.Outcome.next (settle_of_none_discarded (s := slotFreed k _ _) (K.discarded.trans hd))
  have hwrite := execCompletionWriteEnd_completion h hk
  refine ⟨fun hl he => ?_, fun hl he hc ha => ?_, fun hl he hc hf => ?_, fun hl he hc hready => ?_, fun hl => ?_⟩
  · rw [hrun hl fun h => absurd h he, completionEnded, if_neg he]
  · rw [hrun hl fun _ => hc, completionEnded, if_pos he, if_pos ha]
  · rw [hrun hl fun _ => hc, completionEnded, if_pos he, if_neg (by rw [hf]; exact nofun)]
  · obtain ⟨control, hcontrol, hfatal⟩ := fatalError_writeEnded (w := w) (behind := behind) (rest := rest) hready
    refine ⟨control, hcontrol, ?_⟩
    subst hc
    rw [hwrite, writeFails_of_errs he, ← hfatal, completionWriteReport_fatal hl]
    rfl
  · refine ⟨!writeFails s.msix.busMaster w, ?_, ?_⟩
    · rw [Bool.not_eq_true', ← writeFails_iff, Bool.not_eq_true]
    · rw [hwrite, completionWriteReport_past hl]

theorem noticeEndIsHandedOver : NoticeEndIsHandedOver := by
  intro w behind rest s h hk
  have hwrite := execCompletionWriteEnd_notice h hk
  refine ⟨fun he => ?_, fun hl he => ?_, fun hl he hready => ?_⟩
  · rw [hwrite, writeFails_of_not_errs he, noticeWriteReport, if_neg (fun hn => Bool.false_ne_true hn.2)]
    rfl
  · rw [hwrite, writeFails_of_errs he, noticeWriteReport, hl, if_neg (fun hn => Bool.false_ne_true hn.1)]
    rfl
  · obtain ⟨control, hcontrol, hfatal⟩ := fatalError_writeEnded (w := w) (behind := behind) (rest := rest) hready
    refine ⟨control, hcontrol, ?_⟩
    rw [hwrite, writeFails_of_errs he, ← hfatal, noticeWriteReport]
    exact congrArg Host.Outcome.next (if_pos ⟨hl, rfl⟩)

theorem lastSlotEndsTheDraining : LastSlotEndsTheDraining := by
  intro c k d r w behind rest s u h hk hl hc hr hd hst hno hdrain hlast hA
  have K := completionEnded_keeps c w behind rest s
  have hslot := K.slot k
  have hrq := K.rq (s.slot k).rq
  obtain ⟨hend, hready⟩ := endCompletion_last (s := completionEnded c w behind rest s) (by rw [hslot]; exact hst)
    (by rw [hslot]; exact hr) (by rw [hslot, hrq]; exact hdrain) (by rw [hslot, hrq]; exact hlast) (K.noFollower hno)
    (K.discarded.trans hd) (by rw [hslot]; exact hA)
  refine hready.complete ?_
  rw [exec_completionEnded h hk hl hc, hend]

/-! ### A completion discarded on a FAULTED ring (R127) -/

/-- Where the request's ring is FAULTED, its completion is discarded. -/
theorem postResult_faulted (ho : (s.slot k).isOpen = true) (hf : (s.cr (s.slot k).cr).state = .faulted) :
    postResult k r s = { completionDiscarded k r s with discarded := s.discarded ++ [k] } := by
  unfold postResult
  dsimp only
  rw [if_neg (by rw [ho]; decide)]
  split
  · next h => exact absurd (hf.symm.trans h) nofun
  · rfl
  · next h => exact absurd (hf.symm.trans h) nofun

theorem completeSlot_faulted (ho : (s.slot k).isOpen = true) (ha : (s.slot k).abortRequester = none)
    (hf : (s.cr (s.slot k).cr).state = .faulted) :
    completeSlot k r s = { completionDiscarded k r s with discarded := s.discarded ++ [k] } := by
  have hpost : completeSlot k r s = postResult k r s := by
    unfold completeSlot
    dsimp only
    rw [ha]
  rw [hpost, postResult_faulted ho hf]

theorem settleDiscarded_of_none (n : Nat) (h : s.discarded = []) : settleDiscarded n s = s := by
  cases n with
  | zero => rfl
  | succ n =>
    unfold settleDiscarded
    rw [h]

theorem settleDiscarded_one (n : Nat) (h : s.discarded = []) :
    settleDiscarded (n + 1) { s with discarded := [k] } = settleDiscarded n (endCompletion k s) := by
  have hself : { s with discarded := [] } = s := by rw [← h]
  change settleDiscarded n (endCompletion k { s with discarded := [] }) = _
  rw [hself]

theorem completionDiscarded_slot_same (k : SlotId) (r : Result) (s : State) : (completionDiscarded k r s).slot k = { s.slot k with
    state := .done, predecessor := none, abortPending := false, abortRequester := none, result := some r } :=
  State.slot_setSlot_same s k _

theorem completionDiscarded_slot_ne (h : j ≠ k) : (completionDiscarded k r s).slot j = s.slot j :=
  State.slot_setSlot_ne s k j _ h.symm

theorem completionDiscarded_slots (k : SlotId) (r : Result) (s : State) (i : SlotId) :
    (completionDiscarded k r s).slot i = s.slot i ∨ ((completionDiscarded k r s).slot i).state ≠ .linkWait := by
  by_cases hi : i = k
  · subst hi
    right
    rw [completionDiscarded_slot_same]
    exact nofun
  · exact .inl (completionDiscarded_slot_ne hi)

theorem completionDiscarded_chainAfter (k : SlotId) (r : Result) (st : Status) (s : State) :
    chainAfter k st (completionDiscarded k r s) = chainAfter k st s := by
  unfold chainAfter
  rw [completionDiscarded_slot_same]
  rfl

theorem completionDiscarded_ringStays (h : RingStays k s) : RingStays k (completionDiscarded k r s) := by
  unfold RingStays
  rw [completionDiscarded_slot_same]
  exact h

/-- A discarded completion frees its slot, with no slot waiting on it (R127). -/
theorem endCompletion_discarded (hring : RingStays k s) (hno : NoFollower k s) :
    endCompletion k (completionDiscarded k r s) =
      slotFreed k (chainAfter k r.status s) (completionDiscarded k r s) := by
  rw [endCompletion_alone (r := r) (by rw [completionDiscarded_slot_same]) (by rw [completionDiscarded_slot_same])
    (completionDiscarded_ringStays hring) (hno.of_slots (completionDiscarded_slots k r s)), completionDiscarded_chainAfter]

/-- A request that is answered on a FAULTED ring, with no slot waiting on it, is done with (R127). -/
theorem settleDiscarded_completeSlot (n : Nat) (ho : (s.slot k).isOpen = true) (ha : (s.slot k).abortRequester = none)
    (hf : (s.cr (s.slot k).cr).state = .faulted) (hring : RingStays k s) (hno : NoFollower k s) (hd : s.discarded = []) :
    settleDiscarded (n + 1) (completeSlot k r s) =
      slotFreed k (chainAfter k r.status s) (completionDiscarded k r s) := by
  rw [completeSlot_faulted ho ha hf, hd, List.nil_append, settleDiscarded_one (s := completionDiscarded k r s) n hd,
    endCompletion_discarded hring hno]
  exact settleDiscarded_of_none n (s := slotFreed k _ (completionDiscarded k r s)) hd

/-! ### The follower (R45, R123) -/

theorem makeDecision_of_not_may (h : ¬ MayDecide p s) : makeDecision p s = s := by
  unfold makeDecision
  rw [show mayDecide p s = false from Bool.eq_false_iff.2 fun hm => h ((mayDecide_iff p s).1 hm)]
  rfl

/-- In TRAINING and RETRY_WAIT a reference joins the queue and waits there (R45). -/
theorem arrive_joins (h : (s.link (portOf (s.slot k).sensor)).state = .training ∨
      (s.link (portOf (s.slot k).sensor)).state = .retryWait) :
    arrive k s = s.setSched (portOf (s.slot k).sensor) { s.sched (portOf (s.slot k).sensor) with
      queue := (s.sched (portOf (s.slot k).sensor)).queue ++ [k] } := by
  unfold arrive
  dsimp only
  rcases h with h | h
  · rw [h]
  rw [h]
  refine makeDecision_of_not_may fun hm => ?_
  exact absurd (h.symm.trans hm.1) nofun

theorem completionEndSettlesTheFollower : CompletionEndSettlesTheFollower := by
  intro c k j r w behind rest s h hk hl hc hr hd hst hj hreq hring freed port released
  have K := completionEnded_keeps c w behind rest s
  have hne : j ≠ k := fun hjk => by
    have hwait := hj.1
    rw [hjk, hst] at hwait
    cases hwait
  have hrun := exec_completionEnded h hk hl hc
  have hend := endCompletion_follower (s := completionEnded c w behind rest s) (by rw [K.slot]; exact hst)
    (by rw [K.slot]; exact hr) (K.ringStays hring) (hj.of_slots (K.slot j) fun i => .inl (K.slot i))
  rw [K.slot, K.rq] at hend
  have hend' : endCompletion k (completionEnded c w behind rest s) =
      if r.status = .success then arrive j released else completeSlot j (plain .skipped) freed := by
    rw [hend, K.slot]
  have hjslot : freed.slot j = s.slot j := (slotFreed_slot_ne hne).trans (K.slot j)
  have hopen : (freed.slot j).isOpen = true := (Slot.isOpen_iff _).2 (.inl (by rw [hjslot]; exact hj.1))
  have hdisc : freed.discarded = [] := K.discarded.trans hd
  have hrslot : released.slot j = { s.slot j with state := .queued, predecessor := none } := State.slot_setSlot_same freed j _
  rw [hend'] at hrun
  refine ⟨fun hs ha => ?_, fun hs hf hno hstays => ?_, fun hs htr => ?_, fun hs hq ha ht => ?_⟩
  · rw [if_neg hs] at hrun
    exact (Ready.alone (by rw [hjslot]; exact hreq) hopen (by rw [hjslot]; exact ha) hdisc).complete hrun
  · rw [if_neg hs] at hrun
    rw [hrun]
    exact congrArg Host.Outcome.next (settleDiscarded_completeSlot 31 hopen (by rw [hjslot]; exact hreq)
      (by rw [hjslot]; exact hf) hstays ((K.noFollower hno).of_slots (slotFreed_slots k _ _)) hdisc)
  · have harrive : arrive j released = released.setSched port { s.sched port with queue := (s.sched port).queue ++ [j] } := by
      have hport : portOf (released.slot j).sensor = port := by rw [hrslot]
      rw [arrive_joins (.inl (by rw [hport]; exact (congrArg LinkEngine.state (K.link port)).trans htr)), hport,
        show released.sched port = s.sched port from K.sched port]
    rw [hrun, if_pos hs, harrive]
    exact congrArg Host.Outcome.next (settle_of_none_discarded (s := released.setSched port _) hdisc)
  · have hnot : j ∉ (freed.sched port).queue := fun hm => by
      have hqueued := (hq.waiting j hm).1
      rw [hjslot, hj.1] at hqueued
      cases hqueued
    have hqr : QueueReady (portOf (released.slot j).sensor) released := by
      rw [hrslot]
      refine ⟨hq.distinct, fun i hi => ?_⟩
      rw [show released.slot i = freed.slot i from State.slot_setSlot_ne freed j i _ fun hji => hnot (hji ▸ hi)]
      exact hq.waiting i hi
    obtain ⟨A, hda⟩ := arrive_effect j released (by rw [hrslot]; exact ⟨rfl, hreq, ha, ht⟩) hqr (by rw [hrslot]; exact hnot)
    rw [if_pos hs, settle_of_none_discarded (hda.trans hdisc)] at hrun
    exact ⟨_, hrun, A⟩

end Sys2Proof.Claims
end

section
set_option Elab.async false
/-! SUPPORT. A transaction that ends on a FAULTED completion ring: its completion is discarded (R127, R130, R131). -/

namespace Sys2Proof.Claims

open Sys2Proof.Machine

variable {s t u v x z : State} {p : PortId} {k j d q : SlotId} {r : Result} {a : Attempt} {c : Instr} {f : LinkFault}

/-! ### The follower of a discarded completion (R127) -/

theorem isTransaction_of_isExchange {sl : Slot} {i : Nat} {first : Attempt} (h : IsExchange sl i first) :
    IsTransaction sl.body := by
  unfold IsExchange at h
  unfold IsTransaction
  split at h
  case h_6 => exact h.elim
  all_goals trivial

/-- With no round and no transaction, a decision gives the link to the queue (R47). -/
theorem makeDecision_activates (hm : MayDecide p s) (hround : (s.sched p).round = .none) (hact : (s.sched p).active = none) :
    makeDecision p s = activateFrom p (s.sched p).queue s := by
  have hdue : (if (s.sched p).round = .due then startRound p true s else s) = s := if_neg (by rw [hround]; decide)
  unfold makeDecision
  rw [(mayDecide_iff p s).2 hm, if_neg (by decide)]
  dsimp only
  rw [hdue, if_neg (by rw [hround]; decide), hact]

/-- An idle port takes up a reference that arrives and is fit at once (R45, R48). -/
theorem arrive_takenUp {first : Attempt} (hp : portOf (s.slot k).sensor = p) (hq : (s.slot k).state = .queued)
    (hm : MayDecide p s) (hround : (s.sched p).round = .none) (hact : (s.sched p).active = none)
    (hqueue : (s.sched p).queue = [])
    (fit : ∀ st, ¬ Unfit (s.slot k).body (entryOf (s.slot k).sensor s) (s.sensor (s.slot k).sensor).state st)
    (hx : IsExchange (s.slot k) 0 first) : arrive k s = offered p .transaction first (activated p k [] s) := by
  have hjoined : arrive k s = makeDecision p (s.setSched p { s.sched p with queue := (s.sched p).queue ++ [k] }) := by
    unfold arrive
    dsimp only
    rw [hp, hm.1]
  have hps : ∀ ps : Scheduler, (s.setSched p ps).sched p = ps := fun ps => State.sched_setSched_same s p ps
  rw [hjoined, makeDecision_activates (s := s.setSched p _) ⟨hm.1, hm.2.1, by rw [hps]; exact hm.2.2⟩ (by rw [hps]; exact hround)
    (by rw [hps]; exact hact), hps]
  dsimp only
  rw [hqueue, List.nil_append, activateFrom_given (s := s.setSched p _) hq (isTransaction_of_isExchange hx) fit hx]
  refine congrArg (offered p .transaction first) ?_
  have hswap : ∀ (y : State) (ps : Scheduler) (sl : Slot), (y.setSched p ps).setSlot k sl = (y.setSlot k sl).setSched p ps :=
    fun _ _ _ => rfl
  unfold activated
  rw [State.sched_setSched_same, hswap, State.setSched_setSched]
  rfl

theorem completionDiscarded_cr_state (k : SlotId) (r : Result) (s : State) (i : CrId) :
    ((completionDiscarded k r s).cr i).state = (s.cr i).state := by
  unfold completionDiscarded
  rw [State.cr_setCr]
  split
  · next h => rw [h]
  · rfl

/-- A slot freed and another written leave the ports, the sensors and what was discarded before. -/
theorem released_keeps (k j : SlotId) (chain : ChainState) (r : Result) (sl : Slot) (u : State) :
    ((slotFreed k chain (completionDiscarded k r u)).setSlot j sl).links = u.links ∧
    ((slotFreed k chain (completionDiscarded k r u)).setSlot j sl).scheds = u.scheds ∧
    ((slotFreed k chain (completionDiscarded k r u)).setSlot j sl).sensors = u.sensors := ⟨rfl, rfl, rfl⟩

/-- A request that is answered on a FAULTED ring ends its completion as the command settles. -/
theorem settle_completeSlot_faulted (ho : (u.slot k).isOpen = true) (ha : (u.slot k).abortRequester = none)
    (hf : (u.cr (u.slot k).cr).state = .faulted) (hd : u.discarded = []) :
    settle (completeSlot k r u) = settleDiscarded 31 (endCompletion k (completionDiscarded k r u)) := by
  rw [completeSlot_faulted ho ha hf, hd]
  exact settleDiscarded_one (s := completionDiscarded k r u) 31 hd

/-- A request that ends on a FAULTED completion ring (R127). -/
theorem discardSettles (hst : (u.slot k).state = .active) (ha : (u.slot k).abortRequester = none)
    (hf : (u.cr (u.slot k).cr).state = .faulted) (hring : RingStays k u) (hd : u.discarded = []) :
    DiscardSettles k r u (settle (completeSlot k r u)) := by
  unfold DiscardSettles
  intro gone freed
  have hopen : (u.slot k).isOpen = true := (Slot.isOpen_iff _).2 (.inr (.inr hst))
  refine ⟨fun hno => settleDiscarded_completeSlot 31 hopen ha hf hring hno hd, fun j hj hreq => ?_⟩
  intro p ps released
  have hne : j ≠ k := fun h => by
    have hwait := hj.1
    rw [h, hst] at hwait
    cases hwait
  have hjgone : gone.slot j = u.slot j := completionDiscarded_slot_ne hne
  have hkgone : gone.slot k = _ := completionDiscarded_slot_same k r u
  have hend := endCompletion_follower (s := gone) (r := r) (by rw [hkgone]) (by rw [hkgone]) (completionDiscarded_ringStays hring)
    (hj.of_slots hjgone (completionDiscarded_slots k r u))
  have hfreed : slotFreed k (gone.rq (gone.slot k).rq).chain gone = freed := by
    rw [hkgone]
    rfl
  dsimp only at hend
  rw [hfreed, hjgone] at hend
  have hrun : settle (completeSlot k r u) = settleDiscarded 31 (endCompletion k gone) :=
    settle_completeSlot_faulted hopen ha hf hd
  rw [hend] at hrun
  have hrslot : released.slot j = { u.slot j with state := .queued, predecessor := none } := State.slot_setSlot_same freed j _
  have hport : portOf (released.slot j).sensor = p := by rw [hrslot]
  obtain ⟨hlinks, hscheds, hsensors⟩ : released.links = u.links ∧ released.scheds = u.scheds ∧ released.sensors = u.sensors :=
    released_keeps k j _ r _ u
  have hlink : ∀ i, released.link i = u.link i := fun i => by unfold State.link; rw [hlinks]
  have hsched : released.sched p = ps := by unfold State.sched; rw [hscheds]; rfl
  have hsensor : ∀ i, released.sensor i = u.sensor i := fun i => by unfold State.sensor; rw [hsensors]
  refine ⟨fun hs hl => ?_, fun first hs hm hround hact hqueue fit hx => ?_, fun hs hfj hno hstays => ?_⟩
  · rw [hrun, if_pos hs, arrive_joins (by rw [hport, hlink]; exact hl), hport, hsched]
    exact settleDiscarded_of_none 31 (s := released.setSched p _) hd
  · have hmay : MayDecide p released := by
      unfold MayDecide
      rw [hlink, hsched]
      exact hm
    have hfit : ∀ st, ¬ Unfit (released.slot j).body (entryOf (released.slot j).sensor released)
        (released.sensor (released.slot j).sensor).state st := by
      unfold entryOf
      rw [hrslot, hlink, hsensor]
      exact fit
    rw [hrun, if_pos hs, arrive_takenUp (s := released) hport (by rw [hrslot]) hmay (by rw [hsched]; exact hround)
      (by rw [hsched]; exact hact) (by rw [hsched]; exact hqueue) hfit (first := first) (by rw [hrslot]; exact hx)]
    exact settleDiscarded_of_none 31 (s := offered p _ _ _) hd
  · have hjslot : freed.slot j = u.slot j := (slotFreed_slot_ne hne).trans hjgone
    rw [hrun, if_neg hs]
    exact settleDiscarded_completeSlot 30 ((Slot.isOpen_iff _).2 (.inl (by rw [hjslot]; exact hj.1))) (by rw [hjslot]; exact hreq)
      (by rw [hjslot]; exact (completionDiscarded_cr_state k r u _).trans hfj) hstays
      ((hno.of_slots (completionDiscarded_slots k r u)).of_slots (slotFreed_slots k _ gone)) hd

/-! ### The end of a transaction whose completion is discarded -/

section Faulted

variable (ho : (x.slot k).isOpen = true) (ha : (x.slot k).abortRequester = none)
  (hf : (x.cr (x.slot k).cr).state = .faulted)
include ho ha hf

theorem completeSlot_faulted_sched (p : PortId) : (completeSlot k r x).sched p = x.sched p := by
  rw [completeSlot_faulted ho ha hf]
  rfl

theorem completeSlot_faulted_setSched (p : PortId) (ps : Scheduler) :
    (completeSlot k r x).setSched p ps = completeSlot k r (x.setSched p ps) := by
  rw [completeSlot_faulted ho ha hf, completeSlot_faulted (s := x.setSched p ps) ho ha hf]
  rfl

theorem completeSlot_faulted_setLink (p : PortId) (le : LinkEngine) :
    (completeSlot k r x).setLink p le = completeSlot k r (x.setLink p le) := by
  rw [completeSlot_faulted ho ha hf, completeSlot_faulted (s := x.setLink p le) ho ha hf]
  rfl

end Faulted

theorem completeActive_eq (ha : (x.sched p).active = some k) : completeActive p r x =
    (completeSlot k r x).setSched p (withoutActive ((completeSlot k r x).sched p)) := by
  unfold completeActive
  dsimp only
  rw [ha]
  rfl

/-- A request whose exchange ended OK has its result on a FAULTED ring, on a port with nothing else to do. -/
theorem OnTheLine.discards_ok {warn alarm : Bool} {payload : WirePayload} (h : OnTheLine k a s)
    (hf : (s.cr (s.slot k).cr).state = .faulted) (ha : (s.slot k).abortRequester = none)
    (hE : EndsExchange k a (.ok warn alarm payload) c s)
    (hO : OwnResult k a ((s.link (portOf (s.slot k).sensor)).identity[a.address]).word (s.sched (portOf (s.slot k).sensor))
      (.ok warn alarm payload) (exchangeOver k s) r z) : exec c s = .next (settle (completeSlot k r z)) := by
  have hrun := h.toCarried.exec_ok hE
  obtain ⟨x, hx, X⟩ := ownResult_outcome (s := lineIdle (portOf (s.slot k).sensor) 0 s)
    (le := s.link (portOf (s.slot k).sensor)) (stopping := false) h.own hO
  have hslot : z.slot k = s.slot k := by unfold State.slot; rw [X.slots]; rfl
  have hcr : ∀ i, z.cr i = s.cr i := fun i => by unfold State.cr; rw [X.crs]; rfl
  have hxslot : x.slot k = z.slot k := by rw [← X.left]; rfl
  have hxcr : ∀ i, x.cr i = z.cr i := fun i => by rw [← X.left]; rfl
  have hopen : (z.slot k).isOpen = true := (Slot.isOpen_iff _).2 (.inr (.inr (by rw [hslot]; exact h.active)))
  have hreq : (z.slot k).abortRequester = none := by rw [hslot]; exact ha
  have hfz : (z.cr (z.slot k).cr).state = .faulted := by rw [hslot, hcr]; exact hf
  have hcomplete : completeActive (portOf (s.slot k).sensor) r x = completeSlot k r z := by
    have hfx : (x.cr (x.slot k).cr).state = .faulted := by rw [hxslot, hxcr]; exact hfz
    rw [completeActive_eq X.active, completeSlot_faulted_sched (by rw [hxslot]; exact hopen) (by rw [hxslot]; exact hreq) hfx,
      completeSlot_faulted_setSched (by rw [hxslot]; exact hopen) (by rw [hxslot]; exact hreq) hfx, X.left]
  have hsched := completeSlot_faulted_sched (r := r) hopen hreq hfz (portOf (s.slot k).sensor)
  rw [hrun, hx, hcomplete, makeDecision_of_idle _ _ (by rw [hsched]; exact X.round.trans h.noRound)
    (by rw [hsched]; exact X.none_active) (by rw [hsched]; exact X.queue.trans h.empty)]

/-- The state in which the failed exchange of the transaction in slot `k` is over, before it is cut short. -/
def failedOver (k : SlotId) (s : State) : State :=
  idled (portOf (s.slot k).sensor) (lineIdle (portOf (s.slot k).sensor) (s.link (portOf (s.slot k).sensor)).failures s)

/-- The state `w` with the transaction in slot `k` gone from its port and its failed exchange counted (R27, R52). -/
def failureLeft (k : SlotId) (s w : State) : State :=
  (w.setSched (portOf (s.slot k).sensor) (withoutActive (idleSched (schedOf k s)))).setLink (portOf (s.slot k).sensor)
    (exchangeEnded (s.link (portOf (s.slot k).sensor)) ((s.link (portOf (s.slot k).sensor)).failures + 1) s.time)

/-- The result of a transaction whose exchange failed (R162). -/
def failedResult (k : SlotId) (s : State) : Result :=
  cutShort .linkFailed (schedOf k s).exchangesDone (s.slot k).body (schedOf k s).progress.values

/-- A transaction's exchange that fails below the fail limit cuts it short, on a port with nothing else to do (R27, R162). -/
theorem OnTheLine.exec_cut (h : OnTheLine k a s) (hE : EndsExchange k a (.fault f) c s)
    (hl : (s.link (portOf (s.slot k).sensor)).parameters.retryLimit < a.tags.length)
    (hlim : (s.link (portOf (s.slot k).sensor)).failures + 1 < (s.link (portOf (s.slot k).sensor)).parameters.failLimit)
    (hlinks : (completeSlot k (failedResult k s) (failedOver k s)).links = (failedOver k s).links)
    (hscheds : (completeSlot k (failedResult k s) (failedOver k s)).scheds = (failedOver k s).scheds) :
    exec c s = .next (settle (failureLeft k s (completeSlot k (failedResult k s) (failedOver k s)))) := by
  obtain ⟨p, hp⟩ : ∃ p, p = portOf (s.slot k).sensor := ⟨_, rfl⟩
  have hover : failedOver k s = idled p (lineIdle p (s.link p).failures s) := by rw [hp]; rfl
  have hps : schedOf k s = s.sched p := by rw [hp]; rfl
  have hown : (s.sched p).active = some k := hp ▸ h.own
  have hsched : (failedOver k s).sched p = idleSched (s.sched p) := by
    rw [hover]
    exact idled_sched _ _
  have hended : (completeSlot k (failedResult k s) (failedOver k s)).sched p = idleSched (s.sched p) := by
    unfold State.sched at hsched ⊢
    rw [hscheds]
    exact hsched
  have hlink : (completeSlot k (failedResult k s) (failedOver k s)).link p =
      exchangeEnded (s.link p) (s.link p).failures s.time := by
    unfold State.link at *
    rw [hlinks, hover]
    exact State.link_setLink_same s p _
  have hcut : cutActive p .linkFailed (s.sched p).exchangesDone (failedOver k s) =
      (completeSlot k (failedResult k s) (failedOver k s)).setSched p (withoutActive (idleSched (s.sched p))) := by
    have hidle : ((failedOver k s).sched p).active = some k := by rw [hsched]; exact hown
    rw [cutActive_effect hidle, progressData_eq_cutShort, completeActive_eq hidle]
    unfold failedResult at hended ⊢
    rw [hps] at hended ⊢
    rw [hsched]
    exact congrArg (fun ps => State.setSched _ p (withoutActive ps)) hended
  have hdeliver : deliverOutcome p false (outcomeOf (s.link p) a (.fault f)) (lineIdle p (s.link p).failures s) =
      (completeSlot k (failedResult k s) (failedOver k s)).setSched p (withoutActive (idleSched (s.sched p))) := by
    unfold deliverOutcome
    rw [show ((lineIdle p (s.link p).failures s).sched p).owner = some .transaction from hp ▸ h.owner, ← hcut, hover]
    exact transactionOutcome_failed rfl hown
  unfold failureLeft
  rw [← hp] at hl hlim ⊢
  have hend := endAttempt_running_failed (hp ▸ h.attempt) (hp ▸ h.running) hl hdeliver hlink
  rw [(hE.exec h.owns).1, ← hp, hend, hps]
  unfold failureFollows
  have hround : (s.sched p).round = .none := hp ▸ h.noRound
  have hqueue : (s.sched p).queue = [] := hp ▸ h.empty
  rw [if_neg (Nat.not_le.2 hlim), makeDecision_of_idle]
  · rw [State.sched_setLink, State.sched_setSched_same]
    exact hround
  · rw [State.sched_setLink, State.sched_setSched_same]
    rfl
  · rw [State.sched_setLink, State.sched_setSched_same]
    exact hqueue

/-- The state in which the failed exchange of the transaction in slot `k` has been counted and the transaction has left its port. -/
def failureCounted (k : SlotId) (s : State) : State :=
  (exchangeOver k s).setLink (portOf (s.slot k).sensor) (exchangeEnded (s.link (portOf (s.slot k).sensor))
    ((s.link (portOf (s.slot k).sensor)).failures + 1) s.time)

theorem failureLeft_failedOver (k : SlotId) (s : State) : failureLeft k s (failedOver k s) = failureCounted k s := by
  unfold failureLeft failureCounted failedOver idled lineIdle exchangeOver schedOf
  rw [State.setSched_setSched, State.setLink_setSched, State.setLink_setLink, State.setLink_setSched, State.setLink_setLink]
  rfl

theorem endCompletion_afterAbort {res : Result} (B : Answered q res (completionDiscarded k r u) v) (hqk : q ≠ k)
    (hno : NoFollower k u) (hring : RingStays k u) : endCompletion k v = slotFreed k (chainAfter k r.status u) v := by
  have hk : v.slot k = _ := (B.otherSlots k hqk.symm).trans (completionDiscarded_slot_same k r u)
  have hrq : ∀ i, v.rq i = u.rq i := fun i => by rw [B.others]; rfl
  have hslots : ∀ i, v.slot i = u.slot i ∨ (v.slot i).state ≠ .linkWait := fun i => by
    by_cases hi : i = q
    · subst hi
      right
      rw [B.slot]
      exact nofun
    · rw [B.otherSlots i hi]
      exact completionDiscarded_slots k r u i
  rw [endCompletion_alone (r := r) (by rw [hk]) (by rw [hk]) (by unfold RingStays; rw [hk, hrq]; exact hring)
    (hno.of_slots hslots)]
  unfold chainAfter
  rw [hk, hrq]

section Failed

variable (h : OnTheLine k a s) (hf : (s.cr (s.slot k).cr).state = .faulted) (hE : EndsExchange k a (.fault f) c s)
  (hl : (s.link (portOf (s.slot k).sensor)).parameters.retryLimit < a.tags.length)
  (hlim : (s.link (portOf (s.slot k).sensor)).failures + 1 < (s.link (portOf (s.slot k).sensor)).parameters.failLimit)
include h hf hE hl hlim

/-- A request whose exchange failed has its result on a FAULTED ring, on a port with nothing else to do. -/
theorem OnTheLine.discards_failed (ha : (s.slot k).abortRequester = none) :
    exec c s = .next (settle (completeSlot k (failedResult k s) (failureCounted k s))) := by
  have ho : ((failedOver k s).slot k).isOpen = true := (Slot.isOpen_iff _).2 (.inr (.inr h.active))
  have hcomplete := completeSlot_faulted (r := failedResult k s) ho ha hf
  rw [h.exec_cut hE hl hlim (by rw [hcomplete]; rfl) (by rw [hcomplete]; rfl),
    failureLeft, completeSlot_faulted_setSched ho ha hf,
    completeSlot_faulted_setLink (x := (failedOver k s).setSched _ _) ho ha hf, ← failureLeft, failureLeft_failedOver]

/-- The ABORT that waits on it is answered before the slot is freed (R130). -/
theorem OnTheLine.discards_aborted (hq : (s.slot k).abortRequester = some q) (hqk : q ≠ k) (hqa : (s.slot q).state = .active)
    (hq0 : (s.slot q).cr = 0) (hcr0 : (s.cr 0).state = .active) (hno : NoFollower k s) (hring : RingStays k s) :
    Completes c s fun t => ∃ v,
      Answered q (abortAnswer q k .linkFailed (failureCounted k s)) (completionDiscarded k (failedResult k s) (failureCounted k s)) v ∧
      t = slotFreed k (chainAfter k .linkFailed s) v := by
  have ho : ((failedOver k s).slot k).isOpen = true := (Slot.isOpen_iff _).2 (.inr (.inr h.active))
  let gone := { completionDiscarded k (failedResult k s) (failedOver k s) with discarded := [k] }
  have hpost : postResult k (failedResult k s) (failedOver k s) = gone := by
    rw [postResult_faulted ho hf, show (failedOver k s).discarded = [] from h.settled]
    rfl
  have hslot : gone.slot q = s.slot q := completionDiscarded_slot_ne (s := failedOver k s) hqk
  have hanswer : abortOutcome gone q k (failedResult k s).status = abortAnswer q k .linkFailed (failureCounted k s) := by
    unfold abortOutcome abortAnswer
    rw [hslot, abortResult_eq]
    rfl
  have hcomplete : completeSlot k (failedResult k s) (failedOver k s) =
      postResult q (abortAnswer q k .linkFailed (failureCounted k s)) gone := by
    unfold completeSlot
    dsimp only
    rw [show ((failedOver k s).slot k).abortRequester = some q from hq, hpost]
    dsimp only
    rw [hanswer]
  obtain ⟨A, hd⟩ := postResult_effect q (abortAnswer q k .linkFailed (failureCounted k s)) gone
    ((Slot.isOpen_iff _).2 (.inr (.inr (by rw [hslot]; exact hqa))))
    (by rw [hslot, hq0]; exact (completionDiscarded_cr_state k _ (failedOver k s) 0).trans hcr0)
  rw [← hcomplete] at A hd
  have hrun := h.exec_cut hE hl hlim (by rw [A.others]; rfl) (by rw [A.others]; rfl)
  generalize completeSlot k (failedResult k s) (failedOver k s) = w at A hd hrun
  have B : Answered q (abortAnswer q k .linkFailed (failureCounted k s))
      (completionDiscarded k (failedResult k s) (failureCounted k s)) { failureLeft k s w with discarded := s.discarded } := by
    refine A.frame ⟨rfl, rfl, rfl, rfl, rfl, fun _ => rfl⟩ ?_
    rw [← failureLeft_failedOver]
    conv_lhs => rw [A.others]
    rfl
  have hself : failureLeft k s w = { failureLeft k s w with discarded := [k] } := by
    rw [show [k] = w.discarded from hd.symm]
    rfl
  rw [hself] at hrun
  refine ⟨_, hrun, _, B, ?_⟩
  unfold settle
  rw [settleDiscarded_one (s := { failureLeft k s w with discarded := s.discarded }) 31 h.settled,
    endCompletion_afterAbort B hqk hno hring]
  exact settleDiscarded_of_none 31 (s := slotFreed k _ { failureLeft k s w with discarded := s.discarded }) h.settled

end Failed

theorem faultedRingDiscardsTheCompletion : FaultedRingDiscardsTheCompletion := by
  intro k a s h hf p rq
  refine ⟨fun warn alarm angle turn c hb hkind hE ha hring => ?_, fun f c hE hl hlim => ⟨fun ha hring => ?_,
    fun q hq hqk hqa hq0 hcr0 hno hring => ?_, fun d v ha hno hdrain hlast hA => ?_⟩⟩
  · intro word
    have hO : OwnResult k a word (s.sched p) (.ok warn alarm (.position angle turn)) (exchangeOver k s)
        (readPositionResult (s.sensor (s.slot k).sensor) warn alarm (angle.toNat % 2 ^ wordSt word)
          (turn.toNat % 2 ^ wordMt word) a.requestTime) (exchangeOver k s) := by
      unfold OwnResult
      rw [show ((exchangeOver k s).slot k).body = .readPosition from hb]
      exact ⟨rfl, rfl⟩
    exact ⟨_, h.discards_ok hf ha hE hO, discardSettles (u := exchangeOver k s) h.active ha hf hring h.settled⟩
  · exact ⟨_, h.discards_failed hf hE hl hlim ha, discardSettles (u := failureCounted k s) h.active ha hf hring h.settled⟩
  · exact h.discards_aborted hf hE hl hlim hq hqk hqa hq0 hcr0 hno hring
  · have hopen : ((failureCounted k s).slot k).isOpen = true := (Slot.isOpen_iff _).2 (.inr (.inr h.active))
    have hgone : (completionDiscarded k (failedResult k s) (failureCounted k s)).slot k = _ := completionDiscarded_slot_same k _ _
    obtain ⟨hend, hready⟩ := endCompletion_last (s := completionDiscarded k (failedResult k s) (failureCounted k s))
      (r := failedResult k s) (by rw [hgone]) (by rw [hgone]) (by rw [hgone]; exact hdrain) (by rw [hgone]; exact hlast)
      (hno.of_slots (completionDiscarded_slots k _ (failureCounted k s))) h.settled (by rw [hgone]; exact hA)
    obtain ⟨A, hd⟩ := completeSlot_effect (plain .success) hready.request
    refine ⟨_, h.discards_failed hf hE hl hlim ha, ?_⟩
    rw [settle_completeSlot_faulted hopen ha hf h.settled, hend, settleDiscarded_of_none 31 (hd.trans hready.settled)]
    exact A

/-- Settles O49, by its five parts. -/
theorem completionWriteEnds : Obligations.CompletionWriteEnds :=
  ⟨completionEndFreesTheSlot, noticeEndIsHandedOver, completionEndSettlesTheFollower, lastSlotEndsTheDraining,
    faultedRingDiscardsTheCompletion⟩

end Sys2Proof.Claims
end
